-- ==== Sys2Proof/Word.lean ====
section
/-! DEFINITION. The units of information of the SDS SIGMA 7 (spec 20_memory R60 to R64). Bit 0 of the manual is the
most significant bit of a value; `Sys2Proof/Machine/Bits.lean` reads fields in that numbering. -/

namespace Sys2Proof

/-- A byte, 8 bits (R62). -/
abbrev Byte := BitVec 8
/-- A halfword, 16 bits (R61). -/
abbrev Half := BitVec 16
/-- A word, 32 bits (R60). -/
abbrev Word := BitVec 32
/-- A doubleword, 64 bits (R63). -/
abbrev Double := BitVec 64
/-- A word address, 17 bits (R65); virtual or actual as the use says. -/
abbrev WordAddr := BitVec 17
/-- A byte address, 19 bits (R65). -/
abbrev ByteAddr := BitVec 19
/-- The number of a general register of the current block (R65). -/
abbrev RegNum := BitVec 4

end Sys2Proof
end

