-- ==== Sys2Proof/Machine/Bits.lean ====
section
/-! DEFINITION. Bit fields in the manual's numbering (spec 00_scope R6, R7): bit 0 is the most significant bit. -/

namespace Sys2Proof.Machine

/-- The `n` bits of `v` from the manual's bit `a` on: `v[a : a+n-1]` of R7. -/
def fld {w : Nat} (v : BitVec w) (a n : Nat) : BitVec n := v.extractLsb' (w - (a + n)) n

/-- `v` with the manual's bits `a` to `a + n - 1` replaced by `f`. -/
def setFld {w n : Nat} (v : BitVec w) (a : Nat) (f : BitVec n) : BitVec w :=
  (v &&& ~~~((BitVec.allOnes n).setWidth w <<< (w - (a + n)))) ||| (f.setWidth w <<< (w - (a + n)))

/-- Byte `k` (0 to 3) of a word: byte 0 is the most significant (20_memory R62). -/
def byteOf (v : Word) (k : BitVec 2) : Byte := fld v (8 * k.toNat) 8

/-- A word with byte `k` replaced. -/
def setByte (v : Word) (k : BitVec 2) (b : Byte) : Word := setFld v (8 * k.toNat) b

/-- Halfword `k` of a word: halfword 0 is the left one (20_memory R61). -/
def halfOf (v : Word) (k : Bool) : Half := if k then fld v 16 16 else fld v 0 16

/-- A word with halfword `k` replaced. -/
def setHalf (v : Word) (k : Bool) (h : Half) : Word := if k then fld v 0 16 ++ h else h ++ fld v 16 16

/-- The high-order word of a doubleword, bits 0 to 31 (20_memory R63). -/
def hiWord (d : Double) : Word := fld d 0 32
/-- The low-order word of a doubleword, bits 32 to 63. -/
def loWord (d : Double) : Word := fld d 32 32

end Sys2Proof.Machine
end

