-- ==== Sys2Proof/Syntax.lean ====
section
/-! DEFINITION. The instructions of the SDS SIGMA 7: one constructor for each of the 106 assigned operation codes of
spec 30_encoding R140. -/

namespace Sys2Proof

/-- The address part of a format N instruction (30_encoding R121). -/
structure MemRef where
  /-- Bit 0: one level of indirect addressing. -/
  ind : Bool
  /-- The index register, 1 to 7; none when the X field is 0. -/
  x : Option (BitVec 3)
  /-- The 17-bit reference address. -/
  ra : WordAddr
  deriving DecidableEq, Repr

/-- The instruction set. `r` is the R field (bits 8 to 11); its use is that of the instruction's own rule (a register, a
mask, a length, control bits). Fields that an instruction ignores are kept as they stand (30_encoding R125). -/
inductive Instr where
  /-- LCFI, LOAD CONDITIONS AND FLOATING CONTROL IMMEDIATE: X'02' (40_load_store_analyze R174). -/
  | lcfi (r : RegNum) (value : BitVec 20)
  /-- CAL1, CALL 1: X'04' (47_push_down_branch_call R451). -/
  | cal1 (r : RegNum) (m : MemRef)
  /-- CAL2, CALL 2: X'05' (47_push_down_branch_call R452). -/
  | cal2 (r : RegNum) (m : MemRef)
  /-- CAL3, CALL 3: X'06' (47_push_down_branch_call R453). -/
  | cal3 (r : RegNum) (m : MemRef)
  /-- CAL4, CALL 4: X'07' (47_push_down_branch_call R454). -/
  | cal4 (r : RegNum) (m : MemRef)
  /-- PLW, PULL WORD: X'08' (47_push_down_branch_call R425). -/
  | plw (r : RegNum) (m : MemRef)
  /-- PSW, PUSH WORD: X'09' (47_push_down_branch_call R424). -/
  | psw (r : RegNum) (m : MemRef)
  /-- PLM, PULL MULTIPLE: X'0A' (47_push_down_branch_call R427). -/
  | plm (r : RegNum) (m : MemRef)
  /-- PSM, PUSH MULTIPLE: X'0B' (47_push_down_branch_call R426). -/
  | psm (r : RegNum) (m : MemRef)
  /-- LPSD, LOAD PROGRAM STATUS DOUBLEWORD: X'0E' (48_control R462). -/
  | lpsd (r : RegNum) (m : MemRef)
  /-- XPSD, EXCHANGE PROGRAM STATUS DOUBLEWORD: X'0F' (48_control R464). -/
  | xpsd (r : RegNum) (m : MemRef)
  /-- AD, ADD DOUBLEWORD: X'10' (41_fixed_point R216). -/
  | ad (r : RegNum) (m : MemRef)
  /-- CD, COMPARE DOUBLEWORD: X'11' (42_compare_logical R255). -/
  | cd (r : RegNum) (m : MemRef)
  /-- LD, LOAD DOUBLEWORD: X'12' (40_load_store_analyze R165). -/
  | ld (r : RegNum) (m : MemRef)
  /-- MSP, MODIFY STACK POINTER: X'13' (47_push_down_branch_call R428). -/
  | msp (r : RegNum) (m : MemRef)
  /-- STD, STORE DOUBLEWORD: X'15' (40_load_store_analyze R180). -/
  | std (r : RegNum) (m : MemRef)
  /-- SD, SUBTRACT DOUBLEWORD: X'18' (41_fixed_point R219). -/
  | sd (r : RegNum) (m : MemRef)
  /-- CLM, COMPARE WITH LIMITS IN MEMORY: X'19' (42_compare_logical R258). -/
  | clm (r : RegNum) (m : MemRef)
  /-- LCD, LOAD COMPLEMENT DOUBLEWORD: X'1A' (40_load_store_analyze R170). -/
  | lcd (r : RegNum) (m : MemRef)
  /-- LAD, LOAD ABSOLUTE DOUBLEWORD: X'1B' (40_load_store_analyze R171). -/
  | lad (r : RegNum) (m : MemRef)
  /-- FSL, FLOATING SUBTRACT LONG: X'1C' (44_floating_point R315). -/
  | fsl (r : RegNum) (m : MemRef)
  /-- FAL, FLOATING ADD LONG: X'1D' (44_floating_point R313). -/
  | fal (r : RegNum) (m : MemRef)
  /-- FDL, FLOATING DIVIDE LONG: X'1E' (44_floating_point R324). -/
  | fdl (r : RegNum) (m : MemRef)
  /-- FML, FLOATING MULTIPLY LONG: X'1F' (44_floating_point R322). -/
  | fml (r : RegNum) (m : MemRef)
  /-- AI, ADD IMMEDIATE: X'20' (41_fixed_point R213). -/
  | ai (r : RegNum) (value : BitVec 20)
  /-- CI, COMPARE IMMEDIATE: X'21' (42_compare_logical R251). -/
  | ci (r : RegNum) (value : BitVec 20)
  /-- LI, LOAD IMMEDIATE: X'22' (40_load_store_analyze R161). -/
  | li (r : RegNum) (value : BitVec 20)
  /-- MI, MULTIPLY IMMEDIATE: X'23' (41_fixed_point R220). -/
  | mi (r : RegNum) (value : BitVec 20)
  /-- SF, SHIFT FLOATING: X'24' (43_shift_conversion R291). -/
  | sf (r : RegNum) (m : MemRef)
  /-- S, SHIFT: X'25' (43_shift_conversion R280). -/
  | s (r : RegNum) (m : MemRef)
  /-- CVS, CONVERT BY SUBTRACTION: X'28' (43_shift_conversion R297). -/
  | cvs (r : RegNum) (m : MemRef)
  /-- CVA, CONVERT BY ADDITION: X'29' (43_shift_conversion R296). -/
  | cva (r : RegNum) (m : MemRef)
  /-- LM, LOAD MULTIPLE: X'2A' (40_load_store_analyze R173). -/
  | lm (r : RegNum) (m : MemRef)
  /-- STM, STORE MULTIPLE: X'2B' (40_load_store_analyze R182). -/
  | stm (r : RegNum) (m : MemRef)
  /-- WAIT, WAIT: X'2E' (48_control R475). -/
  | wait (r : RegNum) (m : MemRef)
  /-- LRP, LOAD REGISTER POINTER: X'2F' (48_control R467). -/
  | lrp (r : RegNum) (m : MemRef)
  /-- AW, ADD WORD: X'30' (41_fixed_point R215). -/
  | aw (r : RegNum) (m : MemRef)
  /-- CW, COMPARE WORD: X'31' (42_compare_logical R254). -/
  | cw (r : RegNum) (m : MemRef)
  /-- LW, LOAD WORD: X'32' (40_load_store_analyze R164). -/
  | lw (r : RegNum) (m : MemRef)
  /-- MTW, MODIFY AND TEST WORD: X'33' (41_fixed_point R229). -/
  | mtw (r : RegNum) (m : MemRef)
  /-- STW, STORE WORD: X'35' (40_load_store_analyze R179). -/
  | stw (r : RegNum) (m : MemRef)
  /-- DW, DIVIDE WORD: X'36' (41_fixed_point R224). -/
  | dw (r : RegNum) (m : MemRef)
  /-- MW, MULTIPLY WORD: X'37' (41_fixed_point R222). -/
  | mw (r : RegNum) (m : MemRef)
  /-- SW, SUBTRACT WORD: X'38' (41_fixed_point R218). -/
  | sw (r : RegNum) (m : MemRef)
  /-- CLR, COMPARE WITH LIMITS IN REGISTERS: X'39' (42_compare_logical R257). -/
  | clr (r : RegNum) (m : MemRef)
  /-- LCW, LOAD COMPLEMENT WORD: X'3A' (40_load_store_analyze R168). -/
  | lcw (r : RegNum) (m : MemRef)
  /-- LAW, LOAD ABSOLUTE WORD: X'3B' (40_load_store_analyze R169). -/
  | law (r : RegNum) (m : MemRef)
  /-- FSS, FLOATING SUBTRACT SHORT: X'3C' (44_floating_point R314). -/
  | fss (r : RegNum) (m : MemRef)
  /-- FAS, FLOATING ADD SHORT: X'3D' (44_floating_point R312). -/
  | fas (r : RegNum) (m : MemRef)
  /-- FDS, FLOATING DIVIDE SHORT: X'3E' (44_floating_point R323). -/
  | fds (r : RegNum) (m : MemRef)
  /-- FMS, FLOATING MULTIPLY SHORT: X'3F' (44_floating_point R321). -/
  | fms (r : RegNum) (m : MemRef)
  /-- TTBS, TRANSLATE AND TEST BYTE STRING: X'40' (46_byte_string R396). -/
  | ttbs (r : RegNum) (d : BitVec 20)
  /-- TBS, TRANSLATE BYTE STRING: X'41' (46_byte_string R392). -/
  | tbs (r : RegNum) (d : BitVec 20)
  /-- ANLZ, ANALYZE: X'44' (40_load_store_analyze R190). -/
  | anlz (r : RegNum) (m : MemRef)
  /-- CS, COMPARE SELECTIVE: X'45' (42_compare_logical R256). -/
  | cs (r : RegNum) (m : MemRef)
  /-- XW, EXCHANGE WORD: X'46' (40_load_store_analyze R176). -/
  | xw (r : RegNum) (m : MemRef)
  /-- STS, STORE SELECTIVE: X'47' (40_load_store_analyze R181). -/
  | sts (r : RegNum) (m : MemRef)
  /-- EOR, EXCLUSIVE OR WORD: X'48' (42_compare_logical R262). -/
  | eor (r : RegNum) (m : MemRef)
  /-- OR, OR WORD: X'49' (42_compare_logical R261). -/
  | or (r : RegNum) (m : MemRef)
  /-- LS, LOAD SELECTIVE: X'4A' (40_load_store_analyze R172). -/
  | ls (r : RegNum) (m : MemRef)
  /-- AND, AND WORD: X'4B' (42_compare_logical R263). -/
  | and (r : RegNum) (m : MemRef)
  /-- SIO, START INPUT/OUTPUT: X'4C' (49_input_output R503). -/
  | sio (r : RegNum) (m : MemRef)
  /-- TIO, TEST INPUT/OUTPUT: X'4D' (49_input_output R506). -/
  | tio (r : RegNum) (m : MemRef)
  /-- TDV, TEST DEVICE: X'4E' (49_input_output R507). -/
  | tdv (r : RegNum) (m : MemRef)
  /-- HIO, HALT INPUT/OUTPUT: X'4F' (49_input_output R505). -/
  | hio (r : RegNum) (m : MemRef)
  /-- AH, ADD HALFWORD: X'50' (41_fixed_point R214). -/
  | ah (r : RegNum) (m : MemRef)
  /-- CH, COMPARE HALFWORD: X'51' (42_compare_logical R253). -/
  | ch (r : RegNum) (m : MemRef)
  /-- LH, LOAD HALFWORD: X'52' (40_load_store_analyze R163). -/
  | lh (r : RegNum) (m : MemRef)
  /-- MTH, MODIFY AND TEST HALFWORD: X'53' (41_fixed_point R228). -/
  | mth (r : RegNum) (m : MemRef)
  /-- STH, STORE HALFWORD: X'55' (40_load_store_analyze R178). -/
  | sth (r : RegNum) (m : MemRef)
  /-- DH, DIVIDE HALFWORD: X'56' (41_fixed_point R223). -/
  | dh (r : RegNum) (m : MemRef)
  /-- MH, MULTIPLY HALFWORD: X'57' (41_fixed_point R221). -/
  | mh (r : RegNum) (m : MemRef)
  /-- SH, SUBTRACT HALFWORD: X'58' (41_fixed_point R217). -/
  | sh (r : RegNum) (m : MemRef)
  /-- LCH, LOAD COMPLEMENT HALFWORD: X'5A' (40_load_store_analyze R166). -/
  | lch (r : RegNum) (m : MemRef)
  /-- LAH, LOAD ABSOLUTE HALFWORD: X'5B' (40_load_store_analyze R167). -/
  | lah (r : RegNum) (m : MemRef)
  /-- CBS, COMPARE BYTE STRING: X'60' (46_byte_string R389). -/
  | cbs (r : RegNum) (d : BitVec 20)
  /-- MBS, MOVE BYTE STRING: X'61' (46_byte_string R386). -/
  | mbs (r : RegNum) (d : BitVec 20)
  /-- EBS, EDIT BYTE STRING: X'63' (46_byte_string R402). -/
  | ebs (r : RegNum) (d : BitVec 20)
  /-- BDR, BRANCH ON DECREMENTING REGISTER: X'64' (47_push_down_branch_call R446). -/
  | bdr (r : RegNum) (m : MemRef)
  /-- BIR, BRANCH ON INCREMENTING REGISTER: X'65' (47_push_down_branch_call R445). -/
  | bir (r : RegNum) (m : MemRef)
  /-- AWM, ADD WORD TO MEMORY: X'66' (41_fixed_point R226). -/
  | awm (r : RegNum) (m : MemRef)
  /-- EXU, EXECUTE: X'67' (47_push_down_branch_call R442). -/
  | exu (r : RegNum) (m : MemRef)
  /-- BCR, BRANCH ON CONDITIONS RESET: X'68' (47_push_down_branch_call R444). -/
  | bcr (r : RegNum) (m : MemRef)
  /-- BCS, BRANCH ON CONDITIONS SET: X'69' (47_push_down_branch_call R443). -/
  | bcs (r : RegNum) (m : MemRef)
  /-- BAL, BRANCH AND LINK: X'6A' (47_push_down_branch_call R447). -/
  | bal (r : RegNum) (m : MemRef)
  /-- INT, INTERPRET: X'6B' (40_load_store_analyze R191). -/
  | int (r : RegNum) (m : MemRef)
  /-- RD, READ DIRECT: X'6C' (48_control R477). -/
  | rd (r : RegNum) (m : MemRef)
  /-- WD, WRITE DIRECT: X'6D' (48_control R479). -/
  | wd (r : RegNum) (m : MemRef)
  /-- AIO, ACKNOWLEDGE INPUT/OUTPUT INTERRUPT: X'6E' (49_input_output R508). -/
  | aio (r : RegNum) (m : MemRef)
  /-- MMC, MOVE TO MEMORY CONTROL: X'6F' (48_control R470). -/
  | mmc (ind : Bool) (r : RegNum) (sel : BitVec 3) (ra : WordAddr)
  /-- LCF, LOAD CONDITIONS AND FLOATING CONTROL: X'70' (40_load_store_analyze R175). -/
  | lcf (r : RegNum) (m : MemRef)
  /-- CB, COMPARE BYTE: X'71' (42_compare_logical R252). -/
  | cb (r : RegNum) (m : MemRef)
  /-- LB, LOAD BYTE: X'72' (40_load_store_analyze R162). -/
  | lb (r : RegNum) (m : MemRef)
  /-- MTB, MODIFY AND TEST BYTE: X'73' (41_fixed_point R227). -/
  | mtb (r : RegNum) (m : MemRef)
  /-- STCF, STORE CONDITIONS AND FLOATING CONTROL: X'74' (40_load_store_analyze R183). -/
  | stcf (r : RegNum) (m : MemRef)
  /-- STB, STORE BYTE: X'75' (40_load_store_analyze R177). -/
  | stb (r : RegNum) (m : MemRef)
  /-- PACK, PACK DECIMAL DIGITS: X'76' (45_decimal R357). -/
  | pack (r : RegNum) (m : MemRef)
  /-- UNPK, UNPACK DECIMAL DIGITS: X'77' (45_decimal R358). -/
  | unpk (r : RegNum) (m : MemRef)
  /-- DS, DECIMAL SUBTRACT: X'78' (45_decimal R354). -/
  | ds (r : RegNum) (m : MemRef)
  /-- DA, DECIMAL ADD: X'79' (45_decimal R351). -/
  | da (r : RegNum) (m : MemRef)
  /-- DD, DECIMAL DIVIDE: X'7A' (45_decimal R353). -/
  | dd (r : RegNum) (m : MemRef)
  /-- DM, DECIMAL MULTIPLY: X'7B' (45_decimal R352). -/
  | dm (r : RegNum) (m : MemRef)
  /-- DSA, DECIMAL SHIFT ARITHMETIC: X'7C' (45_decimal R356). -/
  | dsa (r : RegNum) (m : MemRef)
  /-- DC, DECIMAL COMPARE: X'7D' (45_decimal R355). -/
  | dc (r : RegNum) (m : MemRef)
  /-- DL, DECIMAL LOAD: X'7E' (45_decimal R349). -/
  | dl (r : RegNum) (m : MemRef)
  /-- DST, DECIMAL STORE: X'7F' (45_decimal R350). -/
  | dst (r : RegNum) (m : MemRef)
  deriving DecidableEq, Repr

end Sys2Proof
end

