-- ==== Sys2Proof/WellFormed.lean ====
section
/-! DEFINITION. Which terms are instructions of the machine (spec 30_encoding R121). -/

namespace Sys2Proof

/-- An index register is one of registers 1 to 7: "X=0 designates no indexing; hence, register 0 cannot be used as an
index register" (30_encoding R121). -/
def MemRef.wellFormed (m : MemRef) : Bool := m.x != some 0

/-- The one check an instruction needs: its address part, where it has one. Every other field fills its bits. -/
def Instr.wellFormed : Instr → Bool
  | .lcfi _ _ => true
  | .cal1 _ m => m.wellFormed
  | .cal2 _ m => m.wellFormed
  | .cal3 _ m => m.wellFormed
  | .cal4 _ m => m.wellFormed
  | .plw _ m => m.wellFormed
  | .psw _ m => m.wellFormed
  | .plm _ m => m.wellFormed
  | .psm _ m => m.wellFormed
  | .lpsd _ m => m.wellFormed
  | .xpsd _ m => m.wellFormed
  | .ad _ m => m.wellFormed
  | .cd _ m => m.wellFormed
  | .ld _ m => m.wellFormed
  | .msp _ m => m.wellFormed
  | .std _ m => m.wellFormed
  | .sd _ m => m.wellFormed
  | .clm _ m => m.wellFormed
  | .lcd _ m => m.wellFormed
  | .lad _ m => m.wellFormed
  | .fsl _ m => m.wellFormed
  | .fal _ m => m.wellFormed
  | .fdl _ m => m.wellFormed
  | .fml _ m => m.wellFormed
  | .ai _ _ => true
  | .ci _ _ => true
  | .li _ _ => true
  | .mi _ _ => true
  | .sf _ m => m.wellFormed
  | .s _ m => m.wellFormed
  | .cvs _ m => m.wellFormed
  | .cva _ m => m.wellFormed
  | .lm _ m => m.wellFormed
  | .stm _ m => m.wellFormed
  | .wait _ m => m.wellFormed
  | .lrp _ m => m.wellFormed
  | .aw _ m => m.wellFormed
  | .cw _ m => m.wellFormed
  | .lw _ m => m.wellFormed
  | .mtw _ m => m.wellFormed
  | .stw _ m => m.wellFormed
  | .dw _ m => m.wellFormed
  | .mw _ m => m.wellFormed
  | .sw _ m => m.wellFormed
  | .clr _ m => m.wellFormed
  | .lcw _ m => m.wellFormed
  | .law _ m => m.wellFormed
  | .fss _ m => m.wellFormed
  | .fas _ m => m.wellFormed
  | .fds _ m => m.wellFormed
  | .fms _ m => m.wellFormed
  | .ttbs _ _ => true
  | .tbs _ _ => true
  | .anlz _ m => m.wellFormed
  | .cs _ m => m.wellFormed
  | .xw _ m => m.wellFormed
  | .sts _ m => m.wellFormed
  | .eor _ m => m.wellFormed
  | .or _ m => m.wellFormed
  | .ls _ m => m.wellFormed
  | .and _ m => m.wellFormed
  | .sio _ m => m.wellFormed
  | .tio _ m => m.wellFormed
  | .tdv _ m => m.wellFormed
  | .hio _ m => m.wellFormed
  | .ah _ m => m.wellFormed
  | .ch _ m => m.wellFormed
  | .lh _ m => m.wellFormed
  | .mth _ m => m.wellFormed
  | .sth _ m => m.wellFormed
  | .dh _ m => m.wellFormed
  | .mh _ m => m.wellFormed
  | .sh _ m => m.wellFormed
  | .lch _ m => m.wellFormed
  | .lah _ m => m.wellFormed
  | .cbs _ _ => true
  | .mbs _ _ => true
  | .ebs _ _ => true
  | .bdr _ m => m.wellFormed
  | .bir _ m => m.wellFormed
  | .awm _ m => m.wellFormed
  | .exu _ m => m.wellFormed
  | .bcr _ m => m.wellFormed
  | .bcs _ m => m.wellFormed
  | .bal _ m => m.wellFormed
  | .int _ m => m.wellFormed
  | .rd _ m => m.wellFormed
  | .wd _ m => m.wellFormed
  | .aio _ m => m.wellFormed
  | .mmc _ _ _ _ => true
  | .lcf _ m => m.wellFormed
  | .cb _ m => m.wellFormed
  | .lb _ m => m.wellFormed
  | .mtb _ m => m.wellFormed
  | .stcf _ m => m.wellFormed
  | .stb _ m => m.wellFormed
  | .pack _ m => m.wellFormed
  | .unpk _ m => m.wellFormed
  | .ds _ m => m.wellFormed
  | .da _ m => m.wellFormed
  | .dd _ m => m.wellFormed
  | .dm _ m => m.wellFormed
  | .dsa _ m => m.wellFormed
  | .dc _ m => m.wellFormed
  | .dl _ m => m.wellFormed
  | .dst _ m => m.wellFormed

end Sys2Proof
end

