-- ==== Sys2Proof/Decode.lean ====
section
/-! DEFINITION. From words to instructions and back (spec 30_encoding R121 to R124, R135, R140 to R142). -/

namespace Sys2Proof

/-- Why a word is no instruction. The machine takes trap X'40' for both (30_encoding R141). -/
inductive DecodeError where
  /-- The operation code is one of the 22 that are not assigned. -/
  | unassigned
  /-- An immediate or byte-string instruction with bit 0 = 1. -/
  | indirectImmediate
  /-- Fewer than four bytes were given. -/
  | tooShort
  deriving DecidableEq, Repr

/-- Rows of `formatN`. -/
def formatN0 : List (BitVec 7 × (RegNum → MemRef → Instr)) :=
  [(0x04, .cal1), (0x05, .cal2), (0x06, .cal3), (0x07, .cal4),
   (0x08, .plw), (0x09, .psw), (0x0A, .plm), (0x0B, .psm),
   (0x0E, .lpsd), (0x0F, .xpsd), (0x10, .ad), (0x11, .cd),
   (0x12, .ld), (0x13, .msp), (0x15, .std), (0x18, .sd)]

/-- Rows of `formatN`. -/
def formatN1 : List (BitVec 7 × (RegNum → MemRef → Instr)) :=
  [(0x19, .clm), (0x1A, .lcd), (0x1B, .lad), (0x1C, .fsl),
   (0x1D, .fal), (0x1E, .fdl), (0x1F, .fml), (0x24, .sf),
   (0x25, .s), (0x28, .cvs), (0x29, .cva), (0x2A, .lm),
   (0x2B, .stm), (0x2E, .wait), (0x2F, .lrp), (0x30, .aw)]

/-- Rows of `formatN`. -/
def formatN2 : List (BitVec 7 × (RegNum → MemRef → Instr)) :=
  [(0x31, .cw), (0x32, .lw), (0x33, .mtw), (0x35, .stw),
   (0x36, .dw), (0x37, .mw), (0x38, .sw), (0x39, .clr),
   (0x3A, .lcw), (0x3B, .law), (0x3C, .fss), (0x3D, .fas),
   (0x3E, .fds), (0x3F, .fms), (0x44, .anlz), (0x45, .cs)]

/-- Rows of `formatN`. -/
def formatN3 : List (BitVec 7 × (RegNum → MemRef → Instr)) :=
  [(0x46, .xw), (0x47, .sts), (0x48, .eor), (0x49, .or),
   (0x4A, .ls), (0x4B, .and), (0x4C, .sio), (0x4D, .tio),
   (0x4E, .tdv), (0x4F, .hio), (0x50, .ah), (0x51, .ch),
   (0x52, .lh), (0x53, .mth), (0x55, .sth), (0x56, .dh)]

/-- Rows of `formatN`. -/
def formatN4 : List (BitVec 7 × (RegNum → MemRef → Instr)) :=
  [(0x57, .mh), (0x58, .sh), (0x5A, .lch), (0x5B, .lah),
   (0x64, .bdr), (0x65, .bir), (0x66, .awm), (0x67, .exu),
   (0x68, .bcr), (0x69, .bcs), (0x6A, .bal), (0x6B, .int),
   (0x6C, .rd), (0x6D, .wd), (0x6E, .aio), (0x70, .lcf)]

/-- Rows of `formatN`. -/
def formatN5 : List (BitVec 7 × (RegNum → MemRef → Instr)) :=
  [(0x71, .cb), (0x72, .lb), (0x73, .mtb), (0x74, .stcf),
   (0x75, .stb), (0x76, .pack), (0x77, .unpk), (0x78, .ds),
   (0x79, .da), (0x7A, .dd), (0x7B, .dm), (0x7C, .dsa),
   (0x7D, .dc), (0x7E, .dl), (0x7F, .dst)]

/-- The format N operation codes (R121, R140). -/
def formatN : List (BitVec 7 × (RegNum → MemRef → Instr)) :=
  formatN0 ++ formatN1 ++ formatN2 ++ formatN3 ++ formatN4 ++ formatN5

/-- Rows of `formatI`. -/
def formatI0 : List (BitVec 7 × (RegNum → BitVec 20 → Instr)) :=
  [(0x02, .lcfi), (0x20, .ai), (0x21, .ci), (0x22, .li),
   (0x23, .mi), (0x40, .ttbs), (0x41, .tbs), (0x60, .cbs),
   (0x61, .mbs), (0x63, .ebs)]

/-- The format I and format D operation codes (R122, R123, R142): a 20-bit operand, no indirect form. -/
def formatI : List (BitVec 7 × (RegNum → BitVec 20 → Instr)) :=
  formatI0

/-- The operation code of MMC, whose X field is a selector (48_control R470). -/
def mmcCode : BitVec 7 := 0x6F

/-- Bit 0 of an instruction word (R124). -/
def indBit (w : Word) : Bool := w.getMsbD 0
/-- The operation code, bits 1 to 7 (R124). -/
def opField (w : Word) : BitVec 7 := Machine.fld w 1 7
/-- The R field, bits 8 to 11 (R124). -/
def rField (w : Word) : RegNum := Machine.fld w 8 4
/-- The X field, bits 12 to 14 (R124). -/
def xField (w : Word) : BitVec 3 := Machine.fld w 12 3
/-- The reference address, bits 15 to 31 (R124). -/
def raField (w : Word) : WordAddr := Machine.fld w 15 17
/-- The immediate operand or displacement, bits 12 to 31 (R124). -/
def valueField (w : Word) : BitVec 20 := Machine.fld w 12 20

/-- The address part of a format N word; X = 0 is no indexing (R121). -/
def memRefOf (w : Word) : MemRef where
  ind := indBit w
  x := if xField w = 0 then none else some (xField w)
  ra := raField w

/-- The instruction of a word (R135 to R142). -/
def decodeWord (w : Word) : Except DecodeError Instr :=
  if opField w = mmcCode then .ok (.mmc (indBit w) (rField w) (xField w) (raField w))
  else match formatN.lookup (opField w) with
    | some mk => .ok (mk (rField w) (memRefOf w))
    | none => match formatI.lookup (opField w) with
      | some mk => if indBit w then .error .indirectImmediate else .ok (mk (rField w) (valueField w))
      | none => .error .unassigned

/-- The word of four bytes, lowest address first (20_memory R64). -/
def wordOfBytes (b0 b1 b2 b3 : Byte) : Word := b0 ++ b1 ++ b2 ++ b3

/-- The instruction at the head of a byte stream and the bytes after it. Every instruction is one word (R120). -/
def decode : List Byte → Except DecodeError (Instr × List Byte)
  | b0 :: b1 :: b2 :: b3 :: rest =>
    match decodeWord (wordOfBytes b0 b1 b2 b3) with
    | .ok i => .ok (i, rest)
    | .error e => .error e
  | _ => .error .tooShort

/-- A format N word (R121). -/
def packN (op : BitVec 7) (r : RegNum) (m : MemRef) : Word :=
  BitVec.ofBool m.ind ++ op ++ r ++ m.x.getD 0 ++ m.ra

/-- A format I or format D word (R122, R123). -/
def packI (op : BitVec 7) (r : RegNum) (value : BitVec 20) : Word :=
  0#1 ++ op ++ r ++ value

/-- An MMC word (48_control R470). -/
def packM (ind : Bool) (r : RegNum) (sel : BitVec 3) (ra : WordAddr) : Word :=
  BitVec.ofBool ind ++ mmcCode ++ r ++ sel ++ ra

/-- The word of an instruction (R121 to R123, R140). -/
def encode : Instr → Word
  | .lcfi r v => packI 0x02 r v
  | .cal1 r m => packN 0x04 r m
  | .cal2 r m => packN 0x05 r m
  | .cal3 r m => packN 0x06 r m
  | .cal4 r m => packN 0x07 r m
  | .plw r m => packN 0x08 r m
  | .psw r m => packN 0x09 r m
  | .plm r m => packN 0x0A r m
  | .psm r m => packN 0x0B r m
  | .lpsd r m => packN 0x0E r m
  | .xpsd r m => packN 0x0F r m
  | .ad r m => packN 0x10 r m
  | .cd r m => packN 0x11 r m
  | .ld r m => packN 0x12 r m
  | .msp r m => packN 0x13 r m
  | .std r m => packN 0x15 r m
  | .sd r m => packN 0x18 r m
  | .clm r m => packN 0x19 r m
  | .lcd r m => packN 0x1A r m
  | .lad r m => packN 0x1B r m
  | .fsl r m => packN 0x1C r m
  | .fal r m => packN 0x1D r m
  | .fdl r m => packN 0x1E r m
  | .fml r m => packN 0x1F r m
  | .ai r v => packI 0x20 r v
  | .ci r v => packI 0x21 r v
  | .li r v => packI 0x22 r v
  | .mi r v => packI 0x23 r v
  | .sf r m => packN 0x24 r m
  | .s r m => packN 0x25 r m
  | .cvs r m => packN 0x28 r m
  | .cva r m => packN 0x29 r m
  | .lm r m => packN 0x2A r m
  | .stm r m => packN 0x2B r m
  | .wait r m => packN 0x2E r m
  | .lrp r m => packN 0x2F r m
  | .aw r m => packN 0x30 r m
  | .cw r m => packN 0x31 r m
  | .lw r m => packN 0x32 r m
  | .mtw r m => packN 0x33 r m
  | .stw r m => packN 0x35 r m
  | .dw r m => packN 0x36 r m
  | .mw r m => packN 0x37 r m
  | .sw r m => packN 0x38 r m
  | .clr r m => packN 0x39 r m
  | .lcw r m => packN 0x3A r m
  | .law r m => packN 0x3B r m
  | .fss r m => packN 0x3C r m
  | .fas r m => packN 0x3D r m
  | .fds r m => packN 0x3E r m
  | .fms r m => packN 0x3F r m
  | .ttbs r v => packI 0x40 r v
  | .tbs r v => packI 0x41 r v
  | .anlz r m => packN 0x44 r m
  | .cs r m => packN 0x45 r m
  | .xw r m => packN 0x46 r m
  | .sts r m => packN 0x47 r m
  | .eor r m => packN 0x48 r m
  | .or r m => packN 0x49 r m
  | .ls r m => packN 0x4A r m
  | .and r m => packN 0x4B r m
  | .sio r m => packN 0x4C r m
  | .tio r m => packN 0x4D r m
  | .tdv r m => packN 0x4E r m
  | .hio r m => packN 0x4F r m
  | .ah r m => packN 0x50 r m
  | .ch r m => packN 0x51 r m
  | .lh r m => packN 0x52 r m
  | .mth r m => packN 0x53 r m
  | .sth r m => packN 0x55 r m
  | .dh r m => packN 0x56 r m
  | .mh r m => packN 0x57 r m
  | .sh r m => packN 0x58 r m
  | .lch r m => packN 0x5A r m
  | .lah r m => packN 0x5B r m
  | .cbs r v => packI 0x60 r v
  | .mbs r v => packI 0x61 r v
  | .ebs r v => packI 0x63 r v
  | .bdr r m => packN 0x64 r m
  | .bir r m => packN 0x65 r m
  | .awm r m => packN 0x66 r m
  | .exu r m => packN 0x67 r m
  | .bcr r m => packN 0x68 r m
  | .bcs r m => packN 0x69 r m
  | .bal r m => packN 0x6A r m
  | .int r m => packN 0x6B r m
  | .rd r m => packN 0x6C r m
  | .wd r m => packN 0x6D r m
  | .aio r m => packN 0x6E r m
  | .mmc ind r sel ra => packM ind r sel ra
  | .lcf r m => packN 0x70 r m
  | .cb r m => packN 0x71 r m
  | .lb r m => packN 0x72 r m
  | .mtb r m => packN 0x73 r m
  | .stcf r m => packN 0x74 r m
  | .stb r m => packN 0x75 r m
  | .pack r m => packN 0x76 r m
  | .unpk r m => packN 0x77 r m
  | .ds r m => packN 0x78 r m
  | .da r m => packN 0x79 r m
  | .dd r m => packN 0x7A r m
  | .dm r m => packN 0x7B r m
  | .dsa r m => packN 0x7C r m
  | .dc r m => packN 0x7D r m
  | .dl r m => packN 0x7E r m
  | .dst r m => packN 0x7F r m

/-- The four bytes of a word, the most significant at the lowest address (20_memory R64). -/
def bytesOfWord (w : Word) : List Byte :=
  [Machine.fld w 0 8, Machine.fld w 8 8, Machine.fld w 16 8, Machine.fld w 24 8]

/-- The decoder's answer for an instruction given as a table word: bit 0 of `w` is the least significant bit of the one
word an instruction has; `nbits` is 32 in every row. -/
def decodeTableWord (nbits w : Nat) : Option Instr :=
  match decode (bytesOfWord (BitVec.ofNat 32 (w % 2 ^ nbits))) with
  | .ok (i, _) => some i
  | .error _ => none

end Sys2Proof
end

