-- ==== Sys2Proof/Config.lean ====
section
/-! DEFINITION. What an installation fixes (spec 00_scope R5, 93_implementation_defined Part 3) and the free values. -/

namespace Sys2Proof

/-- A group of interrupt levels that takes a place in the priority chain (60_exceptions R583). The override group is
always first and takes no place. -/
inductive IntGroup where
  /-- The counter-equals-zero group, X'58' to X'5B', inhibited by CI. -/
  | counter
  /-- The input/output group, X'5C' and X'5D', inhibited by II. -/
  | io
  /-- External group `g` of 2 to 15, inhibited by EI. -/
  | external (g : BitVec 4)
  deriving DecidableEq, Repr

/-- The register and image layout that MMC uses (48_control R471, U14). -/
inductive MmcLayout where
  /-- The layout of R471. -/
  | standard
  /-- No layout: MMC leaves the selected storage and its registers with any value. -/
  | unset
  deriving DecidableEq, Repr

/-- `INTERLEAVE` (00_scope R5). -/
inductive Interleave where
  | none | twoWay | fourWay
  deriving DecidableEq, Repr

/-- The parameters of an installation (00_scope R5). They are plain data of the state that no step changes, so that a
statement about every state holds for every installation. -/
structure Installation where
  /-- `MEMWORDS`, one of "32 sizes": `memSize` + 1 times 4096 words (`memWords`). -/
  memSize : Fin 32
  /-- `NBLOCKS`, 1 to 32: `lastBlock` + 1 blocks of general registers are installed (`nBlocks`). -/
  lastBlock : Fin 32
  /-- `INTERLEAVE`: which module holds an address, hence whose indicator a fault lights (70_reset R665). -/
  interleave : Interleave
  /-- What every read of a register of a missing block gives: all ones, or all zeros (10_state R13, U8). -/
  missingOnes : Bool
  /-- `HAS_FLOAT`. -/
  hasFloat : Bool
  /-- `HAS_DECIMAL`. -/
  hasDecimal : Bool
  /-- `HAS_MAP`: the memory map with the access-protection codes. -/
  hasMap : Bool
  /-- `HAS_LOCKS`: the write locks. -/
  hasLocks : Bool
  /-- `HAS_POWER_FAILSAFE`: the levels X'50' and X'51'. -/
  hasPower : Bool
  /-- `NCOUNTERS` = 4: counters 1 and 2 are installed beside 3 and 4. -/
  fourCounters : Bool
  /-- `PRIORITY_CHAIN`; the installed external groups (`EXT_GROUPS`) are the ones it names. -/
  priorityChain : List IntGroup
  /-- `DIV_MINQ_OVERFLOWS` (U2). -/
  divMinqOverflows : Bool
  /-- `SHIFT_TYPE_FROM_EVA` (D18). -/
  shiftTypeFromEva : Bool
  /-- `DD_LONG_DIVISOR_OVERFLOWS` (D23). -/
  ddLongDivisorOverflows : Bool
  /-- `MMC_LAYOUT` (U14). -/
  mmcLayout : MmcLayout
  /-- `RD_SENSE_ADDR` (U16). -/
  rdSenseAddr : BitVec 16
  /-- `RD_MEMFAULT_ADDR` (U16). -/
  rdMemFaultAddr : BitVec 16
  /-- `WD_SET_ALARM_ADDR` (U17). -/
  wdSetAlarmAddr : BitVec 16
  /-- `WD_RESET_ALARM_ADDR` (U17). -/
  wdResetAlarmAddr : BitVec 16
  /-- `WD_TOGGLE_PCF_ADDR` (U17). -/
  wdTogglePcfAddr : BitVec 16
  deriving DecidableEq, Repr

/-- `MEMWORDS`, 4096 to 131072: actual word addresses 0 to `memWords` - 1 exist (D1). -/
def Installation.memWords (c : Installation) : Nat := 4096 * (c.memSize.val + 1)

/-- `NBLOCKS`, 1 to 32: blocks 0 to `nBlocks` - 1 are installed. -/
def Installation.nBlocks (c : Installation) : Nat := c.lastBlock.val + 1

/-- `PRIORITY_CHAIN` is a permutation of the two internal groups and the installed external groups, 2 to 15 (R5, R583). -/
def Installation.chainOk (c : Installation) : Bool :=
  decide c.priorityChain.Nodup && c.priorityChain.contains .counter && c.priorityChain.contains .io &&
    !c.priorityChain.contains (.external 0) && !c.priorityChain.contains (.external 1)

/-- External group `g` is installed (`EXT_GROUPS`). -/
def Installation.hasExternal (c : Installation) (g : BitVec 4) : Bool :=
  c.priorityChain.contains (.external g)

/-- The default chain of 60_exceptions R583: counters, the first external group, input/output, the other external
groups. -/
def Installation.defaultChain : List IntGroup :=
  [.counter, .external 2, .io] ++
    [.external 3, .external 4, .external 5, .external 6, .external 7, .external 8] ++
    [.external 9, .external 10, .external 11, .external 12, .external 13, .external 14, .external 15]

/-- DESIGN CHOICE (log 6): the largest installation with every option and the spec's default parameters. -/
def Installation.standard : Installation where
  memSize := 31
  lastBlock := 31
  interleave := .none
  missingOnes := false
  hasFloat := true
  hasDecimal := true
  hasMap := true
  hasLocks := true
  hasPower := true
  fourCounters := true
  priorityChain := Installation.defaultChain
  divMinqOverflows := false
  shiftTypeFromEva := true
  ddLongDivisorOverflows := true
  mmcLayout := .standard
  rdSenseAddr := 0x0000#16
  rdMemFaultAddr := 0x0010#16
  wdSetAlarmAddr := 0x0041#16
  wdResetAlarmAddr := 0x0042#16
  wdTogglePcfAddr := 0x0044#16

namespace Config

/-- The free values (log 7): the `n`-th value that the spec leaves open. No body: nothing in Lean can evaluate it. A
narrower free value is some bits of one of these. -/
opaque freeWord : Nat → Word

end Config

end Sys2Proof
end

