-- ==== Sys2Proof/Machine/State.lean ====
section
/-! DEFINITION. The state of the SDS SIGMA 7 (spec 10_state), the reasons a step can stop, and the state after reset. -/

namespace Sys2Proof.Machine

open Sys2Proof

/-- The program status doubleword, "a collection of separate registers and flip-flops" (10_state R20). Its undefined
positions hold no state (R31). -/
structure Psd where
  /-- CC1 to CC4, the condition code (R21). -/
  cc1 : Bool
  cc2 : Bool
  cc3 : Bool
  cc4 : Bool
  /-- FS, floating significance mode (R22). -/
  fs : Bool
  /-- FZ, floating zero mode (R22). -/
  fz : Bool
  /-- FN, floating normalize mode (R22). -/
  fn : Bool
  /-- MS: slave mode when set (R23). -/
  ms : Bool
  /-- MM: memory map in effect when set (R24). -/
  mm : Bool
  /-- DM, decimal trap mask (R25). -/
  dm : Bool
  /-- AM, fixed-point overflow trap mask (R26). -/
  am : Bool
  /-- IA, the instruction address (R27). -/
  ia : WordAddr
  /-- WK, the write key (R28). -/
  wk : BitVec 2
  /-- CI, II, EI, the interrupt group inhibits (R29). -/
  ci : Bool
  ii : Bool
  ei : Bool
  /-- RP, the register pointer (R30). -/
  rp : BitVec 5
  deriving DecidableEq, Repr

/-- The four states of an interrupt level (60_exceptions R585). -/
inductive LevelState where
  | disarmed | armed | waiting | active
  deriving DecidableEq, Repr

/-- One interrupt level: two flip-flops for its state, one for its enable (10_state R40). -/
structure Level where
  state : LevelState
  enabled : Bool
  deriving DecidableEq, Repr

/-- The cause of a trap: its location, and what its XPSD needs (60_exceptions R551, 10_state R42). -/
inductive TrapCause where
  /-- X'40'. `reasons`: nonexistent instruction 8, nonexistent memory address 4, privileged instruction 2, memory
  protection 1: the mask ORed into the condition code and the increment of R556. -/
  | nonallowed (reasons : BitVec 4)
  /-- X'41', unimplemented instruction (R561). -/
  | unimplemented
  /-- X'42', push-down stack limit (R567). -/
  | stackLimit
  /-- X'43', fixed-point overflow (R568). -/
  | overflow
  /-- X'44', floating-point fault (R569). -/
  | floatingFault
  /-- X'45', decimal fault (R570). -/
  | decimalFault
  /-- X'46', watchdog timer runout (R571). -/
  | watchdog
  /-- X'48' to X'4B': CALL `n` + 1 with its R field (R566). -/
  | call (n : BitVec 2) (r : BitVec 4)
  deriving DecidableEq, Repr

/-- The location whose instruction is being executed outside the normal sequence. -/
inductive Entry where
  /-- A trap location: the trap state of 10_state R42. -/
  | trap (cause : TrapCause)
  /-- An interrupt location, by its level (0 is X'50'). -/
  | interrupt (level : Nat)
  deriving DecidableEq, Repr

/-- The COMPUTE switch (10_state R45). -/
inductive Compute where
  | idle | run | step
  deriving DecidableEq, Repr

/-- The CONTROL MODE key switch (70_reset R664). -/
inductive ControlMode where
  | remote | localPanel | lock
  deriving DecidableEq, Repr

/-- The operator's switches that a program can observe or that change what the CPU does (10_state R45). -/
structure Panel where
  /-- The COMPUTE switch of the operative panel: the free-standing console in REMOTE, else the processor control panel. -/
  compute : Compute
  /-- The COMPUTE switch of the other panel; only a move of the CONTROL MODE key looks at it (70_reset R664). -/
  otherCompute : Compute
  controlMode : ControlMode
  /-- SENSE switches 1 to 4 of the processor control panel. -/
  sense : BitVec 4
  /-- SENSE switches of the free-standing console. -/
  consoleSense : BitVec 4
  /-- PARITY ERROR MODE at HALT. -/
  parityHalt : Bool
  /-- WATCHDOG TIMER at OVERRIDE. -/
  watchdogOverride : Bool
  /-- INTERLEAVE SELECT at DIAGNOSTIC (70_reset R665). -/
  interleaveDiagnostic : Bool
  /-- INSTR ADDR at HOLD. -/
  instrHold : Bool
  /-- ADDR STOP on. -/
  addrStop : Bool
  /-- SELECT ADDRESS, 17 switches. -/
  selectAddress : WordAddr
  /-- UNIT ADDRESS, 3 + 4 + 4 bits. -/
  unitAddress : BitVec 11
  deriving DecidableEq, Repr

/-- The halt conditions (60_exceptions R620). -/
structure Halts where
  wait : Bool
  addrStop : Bool
  parity : Bool
  deriving DecidableEq, Repr

/-- A device (49_input_output R504, R507, R508). -/
structure Device where
  /-- Its 11-bit I/O address (R501). -/
  addr : BitVec 11
  /-- Status bit 0: an interrupt request not yet acknowledged. -/
  intPending : Bool
  /-- Status bits 1-2: 00 ready, 01 not operational, 10 unavailable, 11 busy. -/
  cond : BitVec 2
  /-- Status bit 3. -/
  automatic : Bool
  /-- Status bit 4. -/
  unusualEnd : Bool
  /-- A fault condition exists, which keeps the device from accepting an SIO (R503, R527). -/
  fault : Bool
  /-- First byte of the TDV status (R507): data overrun, then bits unique to the device. -/
  tdv : BitVec 8
  /-- TDV's device-dependent condition (CC2). -/
  dependent : Bool
  /-- Bits 0 to 15 of the AIO response (R508). -/
  aio : BitVec 16
  /-- AIO's unusual interrupt recognition (CC2). -/
  unusual : Bool
  deriving DecidableEq, Repr

/-- A device controller with the IOP registers of its channel (49_input_output R520). -/
structure Controller where
  /-- The IOP, bits 21-23 of the I/O address. -/
  iop : BitVec 3
  /-- Attached to a selector IOP, which serves one controller at a time. -/
  selector : Bool
  /-- Status bits 5-6: 00 ready, 01 not operational, 10 unavailable, 11 busy. -/
  cond : BitVec 2
  /-- Status bits 8 to 14, kept in an operational status byte whose bit 15 is computed (R504, R511). -/
  opStatus : BitVec 8
  /-- Command address counter, a doubleword address. -/
  counter : BitVec 16
  /-- A command of the list has been fetched and its order passed to the device; the operation can transmit (R521). -/
  active : Bool
  /-- The order passed to the device. -/
  order : BitVec 8
  /-- Memory byte address. -/
  address : ByteAddr
  /-- The eight flags DC, IZC, CC, ICE, HTE, IUE, SIL, S. -/
  flags : BitVec 8
  /-- Byte count; an initial 0 counts 65536. -/
  count : BitVec 16
  /-- The byte count has been reduced to 0 and no data chaining followed: count done. -/
  countDone : Bool
  /-- The byte last transmitted to the device. -/
  dataOut : Byte
  /-- The I/O address of the device being served. -/
  serving : BitVec 11
  /-- Its devices, in the order of their interrupt priority. -/
  devices : List Device
  deriving DecidableEq, Repr

/-- What an element answers to WD (48_control R476, R479): CC3 and CC4, which may depend on the word it receives; none
where it returns no condition code information. -/
structure WriteAnswer where
  /-- The answers to particular words; the first entry with the word counts. -/
  special : List (Word × Option (BitVec 2))
  /-- The answer to every other word. -/
  other : Option (BitVec 2)
  deriving DecidableEq, Repr

/-- An element on the direct lines of RD and WD (48_control R476): the values of `Direct(A, write?, data)` at its
address. -/
structure Element where
  addr : BitVec 16
  /-- CC3, CC4 and the data of its answer to RD; none when it does not respond to RD. -/
  read : Option (BitVec 2 × Word)
  /-- Its answer to WD; none when it does not respond to WD. -/
  write : Option WriteAnswer
  /-- The word last written to it. -/
  written : Option Word
  deriving DecidableEq, Repr

/-- The parity of the command doublewords that an IOP fetches in one service (49_input_output R511 bit 12, R529). -/
inductive FetchParity where
  | good
  /-- A memory parity error on the first doubleword fetched. -/
  | command
  /-- A memory parity error on the doubleword that a Transfer in Channel names. -/
  | target
  deriving DecidableEq, Repr

/-- The transmission errors (49_input_output R504 bits 9 and 10, R507). -/
inductive TransmissionError where
  /-- A parity error in the transmitted information: transmission data error. -/
  | data
  /-- A data overrun: a transmission data error that TDV and AIO show as overrun too. -/
  | overrun
  /-- A memory parity error: transmission memory error. -/
  | memory
  deriving DecidableEq, Repr

/-- What an IOP, a controller or a device does between CPU steps (49_input_output R510, R529). The device or
controller is named by an I/O address. An event that can fetch a command doubleword tells the parity of the fetch. -/
inductive IoEvent where
  /-- A service call of a device in the automatic mode that has no order: the IOP fetches a command doubleword. -/
  | command (addr : BitVec 11) (parity : FetchParity)
  /-- The device offers one byte of input. -/
  | input (addr : BitVec 11) (b : Byte) (parity : FetchParity)
  /-- The device asks for one byte of output. -/
  | output (addr : BitVec 11) (parity : FetchParity)
  /-- Channel end; `incorrectLength` when the device has found the length incorrect by itself; `skip` when the device
  skips the next command of a command chain (R524: the card punch "that skips the next command"). -/
  | channelEnd (addr : BitVec 11) (incorrectLength skip : Bool) (parity : FetchParity)
  | transmissionError (addr : BitVec 11) (kind : TransmissionError)
  /-- An unusual termination in the device; `fault` when it is a fault condition. -/
  | unusualEnd (addr : BitVec 11) (fault : Bool)
  /-- A device-specific interrupt request (the M modifiers of an order). -/
  | request (addr : BitVec 11)
  /-- The device's own status: condition, automatic, fault condition, TDV byte, dependent condition, unique AIO bits 1 to
  7, unusual. -/
  | status (addr : BitVec 11) (cond : BitVec 2) (automatic fault : Bool) (tdv : BitVec 8) (dependent : Bool)
      (unique : BitVec 7) (unusual : Bool)
  /-- The controller's own condition: ready, not operational, or unavailable (R504 bits 5-6). -/
  | controller (addr : BitVec 11) (cond : BitVec 2)
  deriving DecidableEq, Repr

/-- What the operator does (70_reset R661 to R664). -/
inductive PanelAction where
  | compute (c : Compute)
  /-- The COMPUTE switch of the panel that is not operative. -/
  | otherCompute (c : Compute)
  /-- INSERT at PSW1: the DATA switches not in the centre position (`up` where `mask` is 1). -/
  | insert1 (mask up : Word)
  /-- INSERT at PSW2. -/
  | insert2 (mask up : Word)
  /-- STORE at INSTR ADDR (`select` false) or SELECT ADDR. -/
  | store (select : Bool)
  /-- DISPLAY at INSTR ADDR or SELECT ADDR. -/
  | display (select : Bool)
  /-- DATA at CLEAR. -/
  | dataClear
  /-- DATA at ENTER. -/
  | dataEnter (mask up : Word)
  /-- INSTR ADDR at INCREMENT. -/
  | increment
  | hold (on : Bool)
  | addrStop (on : Bool)
  | selectAddress (a : WordAddr)
  | unitAddress (a : BitVec 11)
  | load
  | cpuReset
  | ioReset
  | sysReset
  /-- CPU RESET/CLEAR and SYS RESET/CLEAR together. -/
  | memoryClear
  | sense (v : BitVec 4)
  | consoleSense (v : BitVec 4)
  | parityMode (halt : Bool)
  | watchdogTimer (override : Bool)
  /-- INTERLEAVE SELECT at DIAGNOSTIC or at NORMAL. -/
  | interleaveSelect (diagnostic : Bool)
  | controlMode (m : ControlMode)
  deriving DecidableEq, Repr

/-- An event of the environment (70_reset R660). -/
inductive Event where
  /-- A pulse of counter `n` + 1 (60_exceptions R603). -/
  | countPulse (n : BitVec 2)
  /-- A signal on external level `k` of group `g` (R593). -/
  | external (g : BitVec 4) (k : BitVec 4)
  /-- The power monitor: power on, or power off (R608). -/
  | powerOn
  | powerOff
  /-- The INTERRUPT switch (R607). -/
  | interruptSwitch
  /-- A memory parity error in the word at an actual address (R606). -/
  | parityError (a : WordAddr)
  /-- An over-temperature condition of a module begins or ends (10_state R45). -/
  | overTemperature (module : BitVec 3) (present : Bool)
  | io (e : IoEvent)
  /-- An element of the direct lines gives this answer from now on. -/
  | element (e : Element)
  /-- Nothing responds at this address of the direct lines from now on. -/
  | removeElement (addr : BitVec 16)
  | panel (a : PanelAction)
  deriving DecidableEq, Repr

/-- One entry of the schedule of outside events (log 30). -/
inductive Input where
  /-- A step of the CPU. -/
  | cpu
  /-- An event between two CPU steps. -/
  | event (e : Event)
  deriving DecidableEq, Repr

/-- The machine. -/
structure State where
  /-- The installation; no step changes it. -/
  cfg : Installation
  psd : Psd
  /-- Register `r` of block `b` is entry 16 * b + r (10_state R10). -/
  regs : Vector Word 512
  /-- `MAP[p]` (R35). -/
  map : Vector (BitVec 8) 256
  /-- `ACC[p]` (R36). -/
  acc : Vector (BitVec 2) 256
  /-- `LOCK[q]` (R37). -/
  lock : Vector (BitVec 2) 256
  /-- Core memory by actual byte address; an unlisted byte reads as 0 (log 8). -/
  mem : List Host.Cell
  /-- Level `k` is the one at location X'50' + `k` (R40). -/
  levels : Vector Level 240
  /-- The trap or interrupt location being served (R42). -/
  entry : Option Entry
  /-- The watchdog timer (R43), restarted at every interruptible point. -/
  watchdog : Nat
  /-- The instruction register, shown in the DISPLAY indicators (R45). -/
  ir : Word
  /-- The word in `ir` is the next instruction, because COMPUTE has just left IDLE (70_reset R661). -/
  started : Bool
  /-- The model's own: the virtual address that the word in `ir` was read from to be displayed; none when it was not read
  from a location. It tells whether a started instruction was "accessed from a general register" (70_reset R670, log 28). -/
  irAt : Option WordAddr
  panel : Panel
  halts : Halts
  /-- The ADDRESS STOP halt condition has been detected and its halt phase is not yet reached (60_exceptions R621). -/
  stopPending : Bool
  /-- The MEMORY FAULT indicators; bit 0 of the manual is module 0 (R45). -/
  memFault : BitVec 8
  /-- The modules whose over-temperature condition is present (R45). -/
  overTemp : BitVec 8
  /-- The modules that a parity error at HALT has made "unavailable to any access" (60_exceptions R606). -/
  unavailable : BitVec 8
  /-- ALARM (R45). -/
  alarm : Bool
  /-- The program-controlled-frequency flip-flop (R45). -/
  pcf : Bool
  /-- The input/output system, in the order of interrupt priority (R46). -/
  io : List Controller
  /-- The elements on the direct lines (48_control R476). -/
  elements : List Element
  /-- The register whose word has been looked ahead: while an instruction is executed, the one it may alter; after it, the one
  it has altered (70_reset R670). -/
  hazard : Option RegNum
  /-- The model's own: the address of an interruptible instruction whose last step left iterations to be executed; the next
  step at that address goes on with it instead of accessing it anew (log 34). -/
  midway : Option WordAddr
  /-- The model's own: an instruction was executed outside the specification (48_control R485). -/
  flagged : Bool
  /-- The model's own: how many free values have been drawn (log 7). -/
  draws : Nat
  /-- The model's own: the outside events still to come (log 30). -/
  inputs : List Input
  deriving DecidableEq, Repr

/-- Why the machine stops with no next state. -/
inductive Fault where
  /-- Raised by the trap sequence when the XPSD in location X'40' itself fails (60_exceptions R625, U23: `stuck`). Safe:
  nothing is claimed of the machine after it. -/
  | stuckTrapEntry
  /-- Raised by RD and WD when no element answers and the WATCHDOG TIMER switch is at OVERRIDE (48_control R476:
  `stuck`). Safe. -/
  | stuckDirectLines
  deriving DecidableEq, Repr

/-- Why the model gives no behaviour. -/
inductive Refusal where
  /-- Raised by an arm of `exec` whose instruction has no meaning yet. Safe. -/
  | notModelled (mnemonic : String)
  /-- Raised by the trap sequence when the trap location holds no XPSD (60_exceptions R554, U24). Safe. -/
  | trapLocationNotXpsd
  /-- Raised by an acknowledgement when the interrupt location holds none of the permitted instructions (60_exceptions
  R598, U24). Safe. -/
  | interruptLocation
  /-- Raised by an acknowledgement whose MTB, MTH or MTW addresses nonexistent memory (60_exceptions R597, U25). Safe. -/
  | modifyTestNonexistent
  /-- Raised by XPSD with bit 9 = 1 outside the trap locations that use it (48_control R464, U12). Safe. -/
  | xpsdIncrement
  /-- Raised by TBS and TTBS with an odd R field (46_byte_string R393, R397, U9). Safe. -/
  | translateOddRegister
  /-- Raised by EBS with an odd or zero R field (46_byte_string R401, U10). Safe. -/
  | editRegister
  /-- Raised by MMC with a selector of no storage or of several (48_control R470, U13). Safe. -/
  | mmcSelector
  /-- Raised by MMC with an odd R field (48_control R471). Safe. -/
  | mmcOddRegister
  /-- Raised by WD interrupt control with function code 000 (48_control R486, U18). Safe. -/
  | interruptControlFunction
  /-- Raised by a move of the CONTROL MODE switch with COMPUTE in the wrong position (70_reset R664, U26). Safe. -/
  | controlModeMove
  deriving DecidableEq, Repr

/-- The PSD after reset (10_state R51, D4; PRESUMED, log 4). -/
def Psd.reset : Psd where
  cc1 := false
  cc2 := false
  cc3 := false
  cc4 := false
  fs := false
  fz := false
  fn := false
  ms := false
  mm := false
  dm := false
  am := false
  ia := 0x25
  wk := 0
  ci := false
  ii := false
  ei := false
  rp := 0

/-- The levels after reset: all disarmed and disabled, but power on and power off, "always armed, always enabled"
(10_state R51, 60_exceptions R594). -/
def Level.resetAll : Vector Level 240 :=
  ((Vector.replicate 240 ⟨.disarmed, false⟩).set 0 ⟨.armed, true⟩).set 1 ⟨.armed, true⟩

/-- The switches at the end of the load procedure: COMPUTE at RUN, CONTROL MODE at LOCAL, the rest at rest (log 5). -/
def Panel.reset : Panel where
  compute := .run
  otherCompute := .idle
  controlMode := .localPanel
  sense := 0
  consoleSense := 0
  parityHalt := false
  watchdogOverride := false
  interleaveDiagnostic := false
  instrHold := false
  addrStop := false
  selectAddress := 0
  unitAddress := 0

/-- The machine after SYS RESET/CLEAR with the memory-clear operation and the move of COMPUTE from IDLE to RUN
(10_state R50 to R52, 70_reset R652, R655; log 1 to 8). -/
def State.reset : State where
  cfg := Installation.standard
  psd := Psd.reset
  regs := Vector.replicate 512 0
  map := Vector.replicate 256 0
  acc := Vector.replicate 256 0
  lock := Vector.replicate 256 0
  mem := []
  levels := Level.resetAll
  entry := none
  watchdog := 0
  ir := 0x02000000
  started := true
  irAt := none
  panel := Panel.reset
  halts := ⟨false, false, false⟩
  stopPending := false
  memFault := 0
  overTemp := 0
  unavailable := 0
  alarm := false
  pcf := false
  io := []
  elements := []
  hazard := none
  midway := none
  flagged := false
  draws := 0
  inputs := []

end Sys2Proof.Machine
end

