-- ==== Sys2Proof/Machine/Ops.lean ====
section
/-! DEFINITION. The named operations over registers, memory, the PSD and the interrupt levels; taking a trap and loading
a PSD (spec 10_state, 20_memory, 48_control R461 to R465, 60_exceptions). -/

namespace Sys2Proof.Machine

open Sys2Proof

/-- How a meaning ends other than with its next state. A trap carries the state in which it is raised, with what the
instruction has already changed (60_exceptions R552 step 1). -/
inductive Stop where
  | trap (cause : TrapCause) (s : State)
  | fault (f : Fault)
  | refuse (r : Refusal)
  deriving DecidableEq, Repr

/-! ### Free values -/

/-- A free value (log 7): nothing constrains it, and the next one is another. -/
def draw (s : State) : Word × State := (Config.freeWord s.draws, { s with draws := s.draws + 1 })

/-! ### General registers -/

/-- The register block that RP selects is installed (10_state R13). -/
def blockInstalled (s : State) : Bool := s.psd.rp.toNat < s.cfg.nBlocks

/-- `x[r]`: register `r` of the current block (R10). A missing block reads as all ones or all zeros (R13, U8). -/
def getReg (s : State) (r : RegNum) : Word :=
  if blockInstalled s then s.regs[(s.psd.rp ++ r).toNat]'(BitVec.isLt _)
  else if s.cfg.missingOnes then BitVec.allOnes 32 else 0

/-- `x[r] <- v`; a write to a missing block is discarded (U8). -/
def setReg (s : State) (r : RegNum) (v : Word) : State :=
  if blockInstalled s then { s with regs := s.regs.set (s.psd.rp ++ r).toNat v (BitVec.isLt _) } else s

/-- `Ru1 = R | 1` (R11). -/
def ru1 (r : RegNum) : RegNum := r ||| 1

/-- R is odd: R and Ru1 name one register (R11). -/
def isOdd (r : RegNum) : Bool := r.getLsbD 0

/-- The pair (R, Ru1) as a doubleword, R high (R11). -/
def getPair (s : State) (r : RegNum) : Double := getReg s r ++ getReg s (ru1 r)

/-- Load a doubleword into the pair: Ru1 first, then R, so that an odd R receives the high word
(40_load_store_analyze R165). -/
def setPair (s : State) (r : RegNum) (d : Double) : State := setReg (setReg s (ru1 r) (loWord d)) r (hiWord d)

/-! ### The condition code and the images of the PSD -/

/-- The condition code, CC1 high (10_state R21). -/
def ccBits (p : Psd) : BitVec 4 :=
  BitVec.ofBool p.cc1 ++ BitVec.ofBool p.cc2 ++ BitVec.ofBool p.cc3 ++ BitVec.ofBool p.cc4

/-- CC <- `c`. -/
def setCc (s : State) (c : BitVec 4) : State :=
  { s with psd := { s.psd with
      cc1 := c.getMsbD 0, cc2 := c.getMsbD 1, cc3 := c.getMsbD 2, cc4 := c.getMsbD 3 } }

/-- FS, FZ, FN <- the three bits of `f` (R22). -/
def setFloatMode (s : State) (f : BitVec 3) : State :=
  { s with psd := { s.psd with fs := f.getMsbD 0, fz := f.getMsbD 1, fn := f.getMsbD 2 } }

/-- First word of the PSD image (48_control R461); undefined positions are 0 (D3, log 9). -/
def psw1 (p : Psd) : Word :=
  ccBits p ++ 0#1 ++ BitVec.ofBool p.fs ++ BitVec.ofBool p.fz ++ BitVec.ofBool p.fn ++ BitVec.ofBool p.ms ++
    BitVec.ofBool p.mm ++ BitVec.ofBool p.dm ++ BitVec.ofBool p.am ++ 0#3 ++ p.ia

/-- Second word of the PSD image (48_control R461). -/
def psw2 (p : Psd) : Word :=
  0#2 ++ p.wk ++ 0#1 ++ BitVec.ofBool p.ci ++ BitVec.ofBool p.ii ++ BitVec.ofBool p.ei ++ 0#15 ++ p.rp ++ 0#4

/-- The fields of the first word, as LPSD and XPSD load them (48_control R462, R464). -/
def loadPsw1 (p : Psd) (w : Word) : Psd :=
  { p with
    cc1 := w.getMsbD 0, cc2 := w.getMsbD 1, cc3 := w.getMsbD 2, cc4 := w.getMsbD 3
    fs := w.getMsbD 5, fz := w.getMsbD 6, fn := w.getMsbD 7
    ms := w.getMsbD 8, mm := w.getMsbD 9, dm := w.getMsbD 10, am := w.getMsbD 11
    ia := fld w 15 17 }

/-- The write key and, when `lp` is set, the register pointer of the second word (R462, R464). -/
def loadPsw2 (p : Psd) (w : Word) (lp : Bool) : Psd :=
  { p with wk := fld w 2 2, rp := if lp then fld w 23 5 else p.rp }

/-- INSTR ADDR is at HOLD and operative: in REMOTE and in LOCK the switch is not (70_reset R663, R664). -/
def Panel.holds (p : Panel) : Bool := p.instrHold && p.controlMode == .localPanel

/-- ADDR STOP is on and operative: in REMOTE and in LOCK the switch is not (60_exceptions R621, 70_reset R664). -/
def Panel.stops (p : Panel) : Bool := p.addrStop && p.controlMode == .localPanel

/-- IA one lower: the address of the instruction being executed. With INSTR ADDR at HOLD it was not incremented
(70_reset R663, log 21). -/
def backIa (s : State) : WordAddr := if s.panel.holds then s.psd.ia else s.psd.ia - 1

/-- IA <- the address of the instruction being executed (60_exceptions R552 step 3, R595). -/
def backUp (s : State) : State := { s with psd := { s.psd with ia := backIa s } }

/-- IA <- `a`. -/
def setIa (s : State) (a : WordAddr) : State := { s with psd := { s.psd with ia := a } }

/-! ### Core memory -/

/-- The byte at an actual byte address; an unlisted byte is 0 (log 8). -/
def memByte : List Host.Cell → Nat → Byte
  | [], _ => 0
  | c :: rest, a => if c.1 = a then c.2 else memByte rest a

/-- A cell put in its place in a rising list. -/
def memInsert : List Host.Cell → Nat → Byte → List Host.Cell
  | [], a, v => [(a, v)]
  | c :: rest, a, v => if c.1 < a then c :: memInsert rest a v else (a, v) :: c :: rest

/-- Store a byte; storing 0, what an unlisted byte reads as, removes the cell. -/
def memPut (m : List Host.Cell) (a : Nat) (v : Byte) : List Host.Cell :=
  let others := m.filter (fun c => c.1 != a)
  if v = 0 then others else memInsert others a v

/-- The form every memory has: addresses strictly rising, no listed byte equal to 0. -/
def Memory.wf (m : List Host.Cell) : Bool :=
  decide (m.Pairwise (fun c d => c.1 < d.1)) && m.all (fun c => c.2 != 0)

/-- The word at an actual word address, big-endian (20_memory R64). -/
def coreWord (m : List Host.Cell) (a : WordAddr) : Word :=
  memByte m (4 * a.toNat) ++ memByte m (4 * a.toNat + 1) ++ memByte m (4 * a.toNat + 2) ++ memByte m (4 * a.toNat + 3)

/-- Store a word at an actual word address. -/
def coreSetWord (m : List Host.Cell) (a : WordAddr) (w : Word) : List Host.Cell :=
  memPut (memPut (memPut (memPut m (4 * a.toNat) (fld w 0 8)) (4 * a.toNat + 1) (fld w 8 8))
    (4 * a.toNat + 2) (fld w 16 8)) (4 * a.toNat + 3) (fld w 24 8)

/-- An actual word address is installed (20_memory R67, D1). -/
def installedAddr (s : State) (a : WordAddr) : Bool := a.toNat < s.cfg.memWords

/-! ### From a virtual address to a location (20_memory R70 to R81) -/

/-- The types of memory reference (20_memory R70). -/
inductive Access where
  | write | instruction | operand
  deriving DecidableEq, Repr

/-- How a reference is made: through the map or not, and with the protection tests or without (R75, 48_control R463). -/
structure Path where
  mapped : Bool
  checked : Bool
  deriving DecidableEq, Repr

/-- The path of a program's own references (R75). -/
def programPath (s : State) : Path := ⟨s.cfg.hasMap && s.psd.mm, true⟩

/-- What a virtual address designates. -/
inductive Loc where
  /-- A general register of the current block (R72). -/
  | reg (r : RegNum)
  /-- A word of core memory, by actual address. -/
  | core (a : WordAddr)
  deriving DecidableEq, Repr

/-- The access code denies the reference (R76). -/
def accDenied (code : BitVec 2) : Access → Bool
  | .write => code != 0
  | .instruction => code.getMsbD 0
  | .operand => code == 3

/-- The write lock denies the store: neither lock nor key is 00 and they differ (R79). -/
def lockDenied (lock key : BitVec 2) : Bool := lock != 0 && key != 0 && lock != key

/-- The actual address (R73, R74). -/
def actualOf (p : Path) (va : WordAddr) (s : State) : WordAddr :=
  if p.mapped then s.map[(fld va 0 8).toNat]'(BitVec.isLt _) ++ fld va 8 9 else va

/-- The protection tests (R76, R79). -/
def protectionDenied (p : Path) (k : Access) (va : WordAddr) (s : State) : Bool :=
  p.checked &&
    ((p.mapped && s.psd.ms && accDenied (s.acc[(fld va 0 8).toNat]'(BitVec.isLt _)) k) ||
      (k == .write && s.cfg.hasLocks &&
        lockDenied (s.lock[(fld (actualOf p va s) 0 8).toNat]'(BitVec.isLt _)) s.psd.wk))

/-- The nonallowed conditions of a reference to core memory: nonexistent address 4, protection 1 (R80). -/
def violations (p : Path) (k : Access) (va : WordAddr) (s : State) : BitVec 4 :=
  (if installedAddr s (actualOf p va s) then 0 else 4) ||| (if protectionDenied p k va s then 1 else 0)

/-- `Locate` of R80. -/
def locate (p : Path) (k : Access) (va : WordAddr) (s : State) : Except Stop Loc :=
  if va.toNat < 16 then .ok (.reg (va.setWidth 4))
  else if violations p k va s = 0 then .ok (.core (actualOf p va s))
  else .error (.trap (.nonallowed (violations p k va s)) s)

/-- The word in a location. -/
def locWord (s : State) : Loc → Word
  | .reg r => getReg s r
  | .core a => coreWord s.mem a

/-- Store a word in a location. -/
def locSetWord (s : State) (l : Loc) (w : Word) : State :=
  match l with
  | .reg r => setReg s r w
  | .core a => { s with mem := coreSetWord s.mem a w }

/-- Store a halfword in half `k` of a location. -/
def locSetHalf (s : State) (l : Loc) (k : Bool) (h : Half) : State :=
  match l with
  | .reg r => setReg s r (setHalf (getReg s r) k h)
  | .core a =>
    let b := 4 * a.toNat + (if k then 2 else 0)
    { s with mem := memPut (memPut s.mem b (fld h 0 8)) (b + 1) (fld h 8 8) }

/-- Store a byte in byte `k` of a location. -/
def locSetByte (s : State) (l : Loc) (k : BitVec 2) (b : Byte) : State :=
  match l with
  | .reg r => setReg s r (setByte (getReg s r) k b)
  | .core a => { s with mem := memPut s.mem (4 * a.toNat + k.toNat) b }

/-- Read a word. -/
def readVia (p : Path) (k : Access) (va : WordAddr) (s : State) : Except Stop Word := do
  let l ← locate p k va s
  .ok (locWord s l)

/-- Write a word. -/
def writeVia (p : Path) (va : WordAddr) (w : Word) (s : State) : Except Stop State := do
  let l ← locate p .write va s
  .ok (locSetWord s l w)

/-- `MemRead(va * 4, 4)`: a word operand (R80). -/
def readWord (s : State) (va : WordAddr) : Except Stop Word := readVia (programPath s) .operand va s

/-- `InstrRead(va)` (R80). -/
def readInstr (s : State) (va : WordAddr) : Except Stop Word := readVia (programPath s) .instruction va s

/-- `MemRead(ba, 1)`: a byte operand at a 19-bit byte address. -/
def readByte (s : State) (ba : ByteAddr) : Except Stop Byte := do
  let w ← readWord s (fld ba 0 17)
  .ok (byteOf w (fld ba 17 2))

/-- `MemRead(ha * 2, 2)`: a halfword operand at an 18-bit halfword address. -/
def readHalf (s : State) (ha : BitVec 18) : Except Stop Half := do
  let w ← readWord s (fld ha 0 17)
  .ok (halfOf w (ha.getLsbD 0))

/-- `MemRead(da * 8, 8)`: a doubleword operand at a 16-bit doubleword address; both words lie in one page. -/
def readDouble (s : State) (da : BitVec 16) : Except Stop Double := do
  let hi ← readWord s (da ++ 0#1)
  let lo ← readWord s (da ++ 1#1)
  .ok (hi ++ lo)

/-- `MemWrite(va * 4, 4, w)` (R81). -/
def writeWord (s : State) (va : WordAddr) (w : Word) : Except Stop State := writeVia (programPath s) va w s

/-- `MemWrite(ba, 1, b)` (R81). -/
def writeByte (s : State) (ba : ByteAddr) (b : Byte) : Except Stop State := do
  let l ← locate (programPath s) .write (fld ba 0 17) s
  .ok (locSetByte s l (fld ba 17 2) b)

/-- `MemWrite(ha * 2, 2, h)` (R81). -/
def writeHalf (s : State) (ha : BitVec 18) (h : Half) : Except Stop State := do
  let l ← locate (programPath s) .write (fld ha 0 17) s
  .ok (locSetHalf s l (ha.getLsbD 0) h)

/-- Two word stores, the even word first; both words lie in one page (R87, 40_load_store_analyze R180). -/
def writeDouble (s : State) (da : BitVec 16) (hi lo : Word) : Except Stop State := do
  let s ← writeWord s (da ++ 0#1) hi
  writeWord s (da ++ 1#1) lo

/-! ### References, for the ADDR STOP switch (60_exceptions R621) -/

/-- One reference of the CPU, by virtual word address; an actual one where its path is not mapped. -/
structure Reference where
  path : Path
  kind : Access
  addr : WordAddr
  deriving DecidableEq, Repr

/-- The reference is allowed, so that the location is accessed. -/
def Reference.made (s : State) (x : Reference) : Bool :=
  match locate x.path x.kind x.addr s with
  | .ok _ => true
  | .error _ => false

/-- The references that depend on a value which may not be reached. -/
def whenReached {α : Type} (e : Except Stop α) (f : α → List Reference) : List Reference :=
  match e with
  | .ok x => f x
  | .error _ => []

/-- With ADDR STOP on and COMPUTE at RUN, references to the SELECT ADDRESS value, up to the one that traps if one does, make
the ADDRESS STOP halt condition (R621, log 33). -/
def noteReferences (refs : State → List Reference) (s : State) : State :=
  if s.panel.stops && s.panel.compute == .run then
    { s with stopPending :=
        s.stopPending || ((refs s).takeWhile (Reference.made s)).any (fun x => x.addr == s.panel.selectAddress) }
  else s

/-! ### Effective addresses (30_encoding R126 to R131) -/

/-- The 32-bit index displacement: register X, or 0 without indexing (R128). -/
def indexOf (m : MemRef) (s : State) : Word :=
  match m.x with
  | none => 0
  | some k => getReg s (0#1 ++ k)

/-- The direct reference address, through a path (R127). -/
def directVia (p : Path) (m : MemRef) (s : State) : Except Stop WordAddr :=
  if m.ind then do
    let w ← readVia p .operand m.ra s
    .ok (fld w 15 17)
  else .ok m.ra

/-- The indirect word (R127). -/
def indirectReference (p : Path) (m : MemRef) : List Reference := if m.ind then [⟨p, .operand, m.ra⟩] else []

/-- `DRA` of R127 for a program's own reference. -/
def direct (m : MemRef) (s : State) : Except Stop WordAddr := directVia (programPath s) m s

/-- `EVA_b` (R129). -/
def addrByte (dra : WordAddr) (d : Word) : ByteAddr := (dra ++ 0#2) + d.setWidth 19
/-- `EVA_h` (R129). -/
def addrHalf (dra : WordAddr) (d : Word) : BitVec 18 := (dra ++ 0#1) + d.setWidth 18
/-- `EVA_w` (R129). -/
def addrWord (dra : WordAddr) (d : Word) : WordAddr := dra + d.setWidth 17
/-- `EVA_d`: the low-order bit of the word address is dropped (R129, R130). -/
def addrDouble (dra : WordAddr) (d : Word) : BitVec 16 := fld (dra + (d.setWidth 17 <<< 1)) 0 16

/-- The effective byte address of a format N instruction. -/
def eaByte (m : MemRef) (s : State) : Except Stop ByteAddr := do
  let dra ← direct m s
  .ok (addrByte dra (indexOf m s))
/-- The effective halfword address. -/
def eaHalf (m : MemRef) (s : State) : Except Stop (BitVec 18) := do
  let dra ← direct m s
  .ok (addrHalf dra (indexOf m s))
/-- The effective word address. -/
def eaWord (m : MemRef) (s : State) : Except Stop WordAddr := do
  let dra ← direct m s
  .ok (addrWord dra (indexOf m s))
/-- The effective doubleword address. -/
def eaDouble (m : MemRef) (s : State) : Except Stop (BitVec 16) := do
  let dra ← direct m s
  .ok (addrDouble dra (indexOf m s))

/-! ### Interrupt levels (60_exceptions R580 to R599) -/

/-- Level `k`, the one at location X'50' + `k`. -/
def level (s : State) (k : Nat) : Level := if h : k < 240 then s.levels[k] else ⟨.disarmed, false⟩

/-- Level `k` <- `l`. -/
def setLevel (s : State) (k : Nat) (l : Level) : State := { s with levels := s.levels.setIfInBounds k l }

/-- The levels that exist (10_state R40, R581). -/
def levelInstalled (c : Installation) (k : Nat) : Bool :=
  if k < 2 then c.hasPower
  else if k < 4 then c.fourCounters
  else if k < 7 then true
  else if k = 7 then false
  else if k < 10 then c.fourCounters
  else if k < 14 then true
  else if k < 16 then false
  else c.hasExternal (BitVec.ofNat 4 ((k - 16) / 16 + 2))

/-- The inhibit of a level's group (R582, R590). -/
def levelInhibited (p : Psd) (k : Nat) : Bool :=
  if k < 8 then false else if k < 12 then p.ci else if k < 16 then p.ii else p.ei

/-- The levels of a group, the highest priority first (R583). -/
def groupLevels : IntGroup → List Nat
  | .counter => [8, 9, 10, 11]
  | .io => [12, 13]
  | .external g => (List.range 16).map (fun k => 16 * (g.toNat - 2) + 16 + k)

/-- Every level, the highest priority first: the override group, then the chain (R583). -/
def priorityOrder (c : Installation) : List Nat := [0, 1, 2, 3, 4, 5, 6] ++ c.priorityChain.flatMap groupLevels

/-- A signal to a level: armed advances to waiting, anything else loses it (R587). -/
def signal (s : State) (k : Nat) : State :=
  if levelInstalled s.cfg k && (level s k).state == .armed then setLevel s k { level s k with state := .waiting } else s

/-- `eligible(L)` of R584: waiting, enabled and not inhibited. -/
def eligible (s : State) (k : Nat) : Bool :=
  (level s k).state == .waiting && (level s k).enabled && !levelInhibited s.psd k

/-- The level that can be acknowledged now (R584): the first level of the priority order that is active or eligible,
if it is eligible. -/
def nextInterrupt (s : State) : Option Nat :=
  match (priorityOrder s.cfg).find? (fun k => (level s k).state == .active || eligible s k) with
  | some k => if eligible s k then some k else none
  | none => none

/-- The highest-priority active level (R592). -/
def highestActive (s : State) : Option Nat :=
  (priorityOrder s.cfg).find? (fun k => (level s k).state == .active)

/-- The state a level is cleared to: the power levels are always armed (R594). -/
def clearedState (k : Nat) (arm : Bool) : LevelState := if arm || k < 2 then .armed else .disarmed

/-- Clear the highest-priority active level, to armed or to disarmed (R592). -/
def clearHighest (s : State) (arm : Bool) : State :=
  match highestActive s with
  | some k => setLevel s k { level s k with state := clearedState k arm }
  | none => s

/-! ### Loading and exchanging the PSD; taking a trap -/

/-- LPSD's load: bits 0 to 39, the register pointer if bit 8 of the instruction is set, the clear of the
highest-priority active level if bit 10 is (48_control R462). -/
def loadPsd (flags : BitVec 4) (ed : Double) (s : State) : State :=
  let lo := loWord ed
  let p := loadPsw2 (loadPsw1 s.psd (hiWord ed)) lo (flags.getMsbD 0)
  let t := { s with psd := { p with ci := lo.getMsbD 5, ii := lo.getMsbD 6, ei := lo.getMsbD 7 } }
  if flags.getMsbD 2 then clearHighest t (flags.getMsbD 3) else t

/-- XPSD may have bit 9 = 1 only as the result of a trap to X'40' or X'48' to X'4B' (48_control R464). -/
def incrementAllowed : Option Entry → Bool
  | some (.trap (.nonallowed _)) => true
  | some (.trap (.call _ _)) => true
  | _ => false

/-- The IA that XPSD stores: the current one; an XPSD started from the DISPLAY indicators sees it before the increment
(70_reset R661, log 21). -/
def storedIa (s : State) : WordAddr := if s.started && s.entry.isNone then backIa s else s.psd.ia

/-- The new PSD of XPSD: the inhibits are ORed in (48_control R464). -/
def exchangedPsd (p : Psd) (hi lo : Word) (lp : Bool) : Psd :=
  let q := loadPsw2 (loadPsw1 p hi) lo lp
  { q with ci := p.ci || lo.getMsbD 5, ii := p.ii || lo.getMsbD 6, ei := p.ei || lo.getMsbD 7 }

/-- How the indirect word of an XPSD is reached, and how its four words are (48_control R463): in a trap or interrupt location,
when `s.entry` is present, no protection test is made, and the map is used only if bit 10 is set. -/
def exchangePaths (r : BitVec 4) (s : State) : Path × Path :=
  let mapOn := s.cfg.hasMap && s.psd.mm
  (⟨mapOn && (r.getMsbD 2 || s.entry.isNone), s.entry.isNone⟩, ⟨mapOn && r.getMsbD 2, s.entry.isNone⟩)

/-- The references of an XPSD: its indirect word, the old PSD's two words and the new one's (48_control R463). -/
def exchangeReferences (r : BitVec 4) (m : MemRef) (s : State) : List Reference :=
  let paths := exchangePaths r s
  indirectReference paths.1 m ++ whenReached (directVia paths.1 m s) (fun dra =>
    let a : WordAddr := addrDouble dra (indexOf m s) ++ 0#1
    [⟨paths.2, .write, a⟩, ⟨paths.2, .write, a + 1⟩, ⟨paths.2, .operand, a + 2⟩, ⟨paths.2, .operand, a + 3⟩])

/-- XPSD (48_control R463, R464), for the R field `r` and address part `m` of its word. -/
def exchangePsd (r : BitVec 4) (m : MemRef) (s : State) : Except Stop State := do
  let dra ← directVia (exchangePaths r s).1 m s
  let path := (exchangePaths r s).2
  let a : WordAddr := addrDouble dra (indexOf m s) ++ 0#1
  if r.getMsbD 1 && !incrementAllowed s.entry then .error (.refuse .xpsdIncrement) else do
    let s1 ← writeVia path a (psw1 { s.psd with ia := storedIa s }) s
    let s2 ← writeVia path (a + 1) (psw2 s.psd) s1
    let hi ← readVia path .operand (a + 2) s2
    let lo ← readVia path .operand (a + 3) s2
    .ok { s2 with psd := exchangedPsd s.psd hi lo (r.getMsbD 0) }

/-- The location of a trap (60_exceptions R551). -/
def trapLocation : TrapCause → WordAddr
  | .nonallowed _ => 0x40
  | .unimplemented => 0x41
  | .stackLimit => 0x42
  | .overflow => 0x43
  | .floatingFault => 0x44
  | .decimalFault => 0x45
  | .watchdog => 0x46
  | .call n _ => 0x48 + n.setWidth 17

/-- The operations of R465: `mask` is ORed into the new CC and, with bit 9 of the XPSD, added to the new IA. -/
def orReasons (mask : BitVec 4) (ai : Bool) (s : State) : State :=
  let t := setCc s (ccBits s.psd ||| mask)
  if ai then setIa t (t.psd.ia + mask.setWidth 17) else t

/-- What is done to the new PSD after the XPSD: the conditions of X'40' and the R field of a CALL (48_control R465);
after a watchdog trap the condition code is a free value (60_exceptions R571, U28); nothing for the other traps. -/
def trapModify (c : TrapCause) (ai : Bool) (s : State) : State :=
  match c with
  | .nonallowed reasons => orReasons reasons ai s
  | .call _ r => orReasons r ai s
  | .watchdog => setCc (draw s).2 ((draw s).1.setWidth 4)
  | .unimplemented => s
  | .stackLimit => s
  | .overflow => s
  | .floatingFault => s
  | .decimalFault => s

/-- The state whose PSD the XPSD stores: the trap state is set; the condition code stored by a watchdog trap is a free
value (60_exceptions R571); a register looked ahead is so no longer, since the next instruction executed is the XPSD of
the trap location (70_reset R670, log 28). -/
def trapState (c : TrapCause) (s : State) : State :=
  let t := { s with entry := some (.trap c), hazard := none }
  if c = .watchdog then setCc (draw t).2 ((draw t).1.setWidth 4) else t

/-- An instruction fetch by actual address without tests: that of a trap or interrupt location (60_exceptions R553, R584). -/
def entryFetch (a : WordAddr) : Reference := ⟨⟨false, false⟩, .instruction, a⟩

/-- The references of the XPSD in a trap location, the location itself first. -/
def trapReferences (c : TrapCause) (w : Word) (s : State) : List Reference :=
  entryFetch (trapLocation c) :: exchangeReferences (rField w) (memRefOf w) s

/-- Steps 2 and 4 to 6 of the trap sequence (60_exceptions R552): the XPSD in the trap location, read by actual address
without tests (R553), then the modifications of R465. -/
def enterTrap (c : TrapCause) (s : State) : Except Stop State :=
  let w := coreWord s.mem (trapLocation c)
  if opField w = 0x0F then do
    let t ← exchangePsd (rField w) (memRefOf w) (noteReferences (trapReferences c w) (trapState c s))
    .ok { trapModify c ((rField w).getMsbD 1) t with entry := none }
  else .error (.refuse .trapLocationNotXpsd)

/-- Taking a trap, IA being the address to store. If the XPSD of the location itself meets nonexistent memory, that is
a new trap to X'40'; if that one fails too the machine is stuck (60_exceptions R625, D36, U23). -/
def takeTrapAt (c : TrapCause) (s : State) : Host.Outcome State Fault Refusal :=
  match enterTrap c s with
  | .ok t => .next t
  | .error (.fault f) => .fault f
  | .error (.refuse r) => .refused r
  | .error (.trap c2 s2) =>
    match enterTrap c2 s2 with
    | .ok t => .next t
    | .error (.fault f) => .fault f
    | .error (.refuse r) => .refused r
    | .error (.trap _ _) => .fault .stuckTrapEntry

/-- `raise Trap` of an instruction whose fetch has incremented IA (60_exceptions R552): TAKING AN EXCEPTION. -/
def takeTrap (c : TrapCause) (s : State) : Host.Outcome State Fault Refusal := takeTrapAt c (backUp s)

/-- The outcome of a meaning: its next state, or the trap it raises. -/
def finish : Except Stop State → Host.Outcome State Fault Refusal
  | .ok s => .next s
  | .error (.trap c s) => takeTrap c s
  | .error (.fault f) => .fault f
  | .error (.refuse r) => .refused r

/-- The conditions of a word that is no instruction: nonexistent, and privileged too for codes 0C, 0D, 2C and 2D in
slave mode (30_encoding R135, R141). -/
def nonexistentReasons (w : Word) (s : State) : BitVec 4 :=
  8 ||| (if s.psd.ms && (opField w &&& 0x1C) == 0x0C then 2 else 0)

/-- The trap of a word that is no instruction (60_exceptions R557). -/
def nonexistent (w : Word) (s : State) : Except Stop State :=
  .error (.trap (.nonallowed (nonexistentReasons w s)) s)

/-- A privileged instruction in slave mode traps to X'40' at decoding, before any address is formed (30_encoding R135,
60_exceptions R559). -/
def requireMaster (s : State) : Except Stop Unit :=
  if s.psd.ms then .error (.trap (.nonallowed 2) s) else .ok ()

/-- An optional instruction whose option is absent traps to X'41' at decoding (30_encoding R144). -/
def requireOption (present : Bool) (s : State) : Except Stop Unit :=
  if present then .ok () else .error (.trap .unimplemented s)

/-- The fixed-point overflow trap after an instruction that is complete in `s` (60_exceptions R568). -/
def overflowTrap (overflow : Bool) (s : State) : Except Stop State :=
  if overflow && s.psd.am then .error (.trap .overflow s) else .ok s

end Sys2Proof.Machine
end

