-- ==== Sys2Proof/Machine/Operands.lean ====
section
/-! DEFINITION. The operand forms of the instructions (spec 30_encoding R122, R123, R126 to R131, 43 R280, 45, 49 R501). -/

namespace Sys2Proof.Machine

open Sys2Proof

/-- EB, the effective byte (30 R126). -/
def operandByte (m : MemRef) (s : State) : Except Stop Byte := do
  let a ← eaByte m s
  readByte s a
/-- EH, the effective halfword. -/
def operandHalf (m : MemRef) (s : State) : Except Stop Half := do
  let a ← eaHalf m s
  readHalf s a
/-- EW, the effective word. -/
def operandWord (m : MemRef) (s : State) : Except Stop Word := do
  let a ← eaWord m s
  readWord s a
/-- ED, the effective doubleword. -/
def operandDouble (m : MemRef) (s : State) : Except Stop Double := do
  let a ← eaDouble m s
  readDouble s a

/-- The immediate operand of format I, sign-extended (30 R122). -/
def immediate (v : BitVec 20) : Word := v.signExtend 32

/-- The effective source address of format D: register address plus displacement, 19 bits kept (30 R123). -/
def displaced (reg : Word) (d : BitVec 20) : ByteAddr := fld reg 13 19 + fld d 1 19

/-- The word count in CC of LM, STM, PSM and PLM: 0 means 16 (40 R173). -/
def ccCount (p : Psd) : Nat := if (ccBits p).toNat = 0 then 16 else (ccBits p).toNat

/-- The R field as a signed 4-bit value, for MTB, MTH and MTW (41 R227 to R229). -/
def modifyValue (n : Nat) (r : BitVec 4) : BitVec n := r.signExtend n

/-- The length in bytes of a decimal operand: 0 means 16 (45_decimal R344). -/
def decimalLength (r : BitVec 4) : Nat := if r.toNat = 0 then 16 else r.toNat

/-- The shift type bits 21-23 and the count bits 25-31 of S and SF: from the effective address, or, with
`SHIFT_TYPE_FROM_EVA` false, the type from the address before indexing (43 R280, R291, D18). -/
def shiftFields (m : MemRef) (s : State) : Except Stop (BitVec 3 × BitVec 7) := do
  let dra ← direct m s
  let eva := addrWord dra (indexOf m s)
  .ok (if s.cfg.shiftTypeFromEva then fld eva 6 3 else fld dra 6 3, fld eva 10 7)

/-- The I/O address: the 11 low-order bits of the effective word address (49 R501). -/
def ioAddress (m : MemRef) (s : State) : Except Stop (BitVec 11) := do
  let a ← eaWord m s
  .ok (fld a 6 11)

/-- The element address of RD and WD: bits 16 to 31 of the effective address (48 R476). -/
def elementAddress (m : MemRef) (s : State) : Except Stop (BitVec 16) := do
  let a ← eaWord m s
  .ok (fld a 1 16)

/-- The addressing types that ANLZ reports (40 R190, 30 R145). -/
inductive AddressType where
  | byte | immediateByte | half | word | immediateWord | double
  deriving DecidableEq, Repr

/-- The addressing type of an operation code, by its block of the map: column `c`, row `n` (30 R145, D13). -/
def addressType (op : BitVec 7) : AddressType :=
  let c := (fld op 0 2).toNat
  let n := (fld op 2 5).toNat
  if n < 4 then (if c < 2 then .immediateWord else .immediateByte)
  else if n < 8 then .word
  else if n < 16 then (if c = 0 then .double else .word)
  else match c with
    | 0 => .double
    | 1 => .word
    | 2 => .half
    | _ => .byte

end Sys2Proof.Machine
end

