-- ==== Sys2Proof/Machine/Branch.lean ====
section
/-! DEFINITION. The branch and call instructions (spec 47_push_down_branch_call R441 to R454). -/

namespace Sys2Proof.Machine

open Sys2Proof

/-- The nonallowed conditions of a branch to `va` (R441): a nonexistent target counts always, a target unavailable for
instruction access only when the branch is taken. A register target has none. -/
def branchViolations (va : WordAddr) (taken : Bool) (s : State) : BitVec 4 :=
  if va.toNat < 16 then 0
  else violations (programPath s) .instruction va s &&& (if taken then 0xF else 4)

/-- `branch_check(EVA_w, taken)` of R441. -/
def branchCheck (va : WordAddr) (taken : Bool) (s : State) : Except Stop Unit :=
  if branchViolations va taken s = 0 then .ok ()
  else .error (.trap (.nonallowed (branchViolations va taken s)) s)

/-- IA <- `va` if the branch is taken. -/
def branchTo (va : WordAddr) (taken : Bool) (s : State) : State := if taken then setIa s va else s

/-- BCS (R443): the R field is a mask. -/
def execBcs (r : BitVec 4) (m : MemRef) (s : State) : Host.Outcome State Fault Refusal :=
  finish do
    let va ← eaWord m s
    let taken := r &&& ccBits s.psd != 0
    branchCheck va taken s
    .ok (branchTo va taken s)

/-- BCR (R444). -/
def execBcr (r : BitVec 4) (m : MemRef) (s : State) : Host.Outcome State Fault Refusal :=
  finish do
    let va ← eaWord m s
    let taken := r &&& ccBits s.psd == 0
    branchCheck va taken s
    .ok (branchTo va taken s)

/-- BIR (R445): a trap leaves register R unchanged (D29). -/
def execBir (r : RegNum) (m : MemRef) (s : State) : Host.Outcome State Fault Refusal :=
  finish do
    let va ← eaWord m s
    let v := getReg s r + 1
    branchCheck va v.msb s
    .ok (branchTo va v.msb (setReg s r v))

/-- BDR (R446). -/
def execBdr (r : RegNum) (m : MemRef) (s : State) : Host.Outcome State Fault Refusal :=
  finish do
    let va ← eaWord m s
    let v := getReg s r - 1
    let taken := !v.msb && v != 0
    branchCheck va taken s
    .ok (branchTo va taken (setReg s r v))

/-- BAL (R447): the link is the updated instruction address; a trap on the target comes after the link is loaded. -/
def execBal (r : RegNum) (m : MemRef) (s : State) : Host.Outcome State Fault Refusal :=
  finish do
    let va ← eaWord m s
    let t := setReg s r (s.psd.ia.setWidth 32)
    branchCheck va true t
    .ok (branchTo va true t)

/-- CAL1 (R450, R451): no address is formed. -/
def execCal1 (r : BitVec 4) (_m : MemRef) (s : State) : Host.Outcome State Fault Refusal :=
  finish (.error (.trap (.call 0 r) s))

/-- CAL2 (R452). -/
def execCal2 (r : BitVec 4) (_m : MemRef) (s : State) : Host.Outcome State Fault Refusal :=
  finish (.error (.trap (.call 1 r) s))

/-- CAL3 (R453). -/
def execCal3 (r : BitVec 4) (_m : MemRef) (s : State) : Host.Outcome State Fault Refusal :=
  finish (.error (.trap (.call 2 r) s))

/-- CAL4 (R454). -/
def execCal4 (r : BitVec 4) (_m : MemRef) (s : State) : Host.Outcome State Fault Refusal :=
  finish (.error (.trap (.call 3 r) s))

end Sys2Proof.Machine
end

