-- ==== Sys2Proof/Machine/Flags.lean ====
section
/-! DEFINITION. The condition-code computations that several instructions share (spec 40 R160, 41 R211, 42 R250). -/

namespace Sys2Proof.Machine

open Sys2Proof

/-- CC1 <- `b`, the rest unchanged. -/
def setCc1 (b : Bool) (s : State) : State := { s with psd := { s.psd with cc1 := b } }
/-- CC2 <- `b`, the rest unchanged. -/
def setCc2 (b : Bool) (s : State) : State := { s with psd := { s.psd with cc2 := b } }
/-- CC1 and CC2, the rest unchanged. -/
def setCc12 (b1 b2 : Bool) (s : State) : State := { s with psd := { s.psd with cc1 := b1, cc2 := b2 } }
/-- CC3 and CC4, the rest unchanged. -/
def setCc34 (b3 b4 : Bool) (s : State) : State := { s with psd := { s.psd with cc3 := b3, cc4 := b4 } }

/-- `test34(v)`: 00 zero, 01 negative, 10 positive (40 R160). -/
def test34 {n : Nat} (v : BitVec n) (s : State) : State := setCc34 (v != 0 && !v.msb) v.msb s

/-- CC3 set for a nonzero value, CC4 reset: the unsigned loads (40 R162, R167). -/
def testNonzero {n : Nat} (v : BitVec n) (s : State) : State := setCc34 (v != 0) false s

/-- The exact integer does not fit in `n` bits of two's complement. -/
def overflows (n : Nat) (x : Int) : Bool := x < -(2 ^ (n - 1)) || 2 ^ (n - 1) ≤ x

/-- CC2 of an addition: the exact sum is not the result (41 R211). -/
def addOverflows {n : Nat} (a b : BitVec n) : Bool := overflows n (a.toInt + b.toInt)
/-- CC2 of a subtraction (41 R211). -/
def subOverflows {n : Nat} (a b : BitVec n) : Bool := overflows n (a.toInt - b.toInt)
/-- CC1 of an addition: the carry from bit position 0 (41 R211). -/
def addCarries {n : Nat} (a b : BitVec n) : Bool := 2 ^ n ≤ a.toNat + b.toNat
/-- CC1 of a subtraction: the carry of a + not b + 1 (41 R211, D15). -/
def subCarries {n : Nat} (a b : BitVec n) : Bool := 2 ^ n ≤ a.toNat + (~~~b).toNat + 1

/-- The four flags of `add_n(a, b)` (41 R211). -/
def addFlags {n : Nat} (a b : BitVec n) (s : State) : State :=
  test34 (a + b) (setCc12 (addCarries a b) (addOverflows a b) s)

/-- The four flags of `sub_n(a, b)` (41 R211). -/
def subFlags {n : Nat} (a b : BitVec n) (s : State) : State :=
  test34 (a - b) (setCc12 (subCarries a b) (subOverflows a b) s)

/-- CC2 of a complement or an absolute value: only the most negative number overflows (40 R168 to R171). -/
def isMostNegative {n : Nat} (v : BitVec n) : Bool := v == BitVec.intMin n

/-- The flags of LCW and LCD for the operand `v` (40 R168, R170). -/
def complementFlags {n : Nat} (v : BitVec n) (s : State) : State := test34 (-v) (setCc2 (isMostNegative v) s)

/-- The absolute value of `v`, the most negative number unchanged (40 R169, R171). -/
def absolute {n : Nat} (v : BitVec n) : BitVec n := if v.msb then -v else v

/-- The flags of LAW and LAD: on overflow CC3 CC4 = 01 (40 R169, R171), which is what `test34` gives for the result. -/
def absoluteFlags {n : Nat} (v : BitVec n) (s : State) : State :=
  if isMostNegative v then setCc34 false true (setCc2 true s)
  else setCc34 (absolute v != 0) false (setCc2 false s)

/-- `cmp34(a, b)` on signed numbers (42 R250). -/
def cmpSigned {n : Nat} (a b : BitVec n) (s : State) : State := setCc34 (b.slt a) (a.slt b) s
/-- `cmp34(a, b)` on magnitudes (42 R250). -/
def cmpUnsigned {n : Nat} (a b : BitVec n) (s : State) : State := setCc34 (b.ult a) (a.ult b) s

/-- The comparison flags with CC2 for common 1-bits (42 R251 to R254). -/
def compareFlags {n : Nat} (a b : BitVec n) (s : State) : State := cmpSigned a b (setCc2 (a &&& b != 0) s)

/-- The flags of MI and MW for the exact product (41 R220, R222). -/
def productFlags (p : Int) (s : State) : State := setCc34 (0 < p) (p < 0) (setCc2 (overflows 32 p) s)

/-- CC2 of STH: the word is not a sign-extended halfword (40 R178). -/
def exceedsHalf (w : Word) : Bool := !(fld w 0 17 == (0#17) || fld w 0 17 == BitVec.allOnes 17)

/-- All four flags of MTB (41 R227). -/
def byteTestFlags (carry : Bool) (v : Byte) (s : State) : State := testNonzero v (setCc12 carry false s)

end Sys2Proof.Machine
end

