-- ==== Sys2Proof/Machine/ByteString.lean ====
section
/-! DEFINITION. The byte-string instructions (spec 46_byte_string). One step of the machine is one byte step; while bytes
remain, IA goes back to the instruction, an interruptible point follows, and executing it again continues (R383). -/

namespace Sys2Proof.Machine

open Sys2Proof

/-- The address field, bits 13 to 31, of a control register (R381). -/
def addressField (w : Word) : ByteAddr := fld w 13 19
/-- The mask, fill or count field, bits 0 to 7, of a control register (R381). -/
def countField (w : Word) : Byte := fld w 0 8

/-- Write the address field of a register; its other bits stay (R381, D24). -/
def setAddressField (r : RegNum) (a : ByteAddr) (s : State) : State := setReg s r (setFld (getReg s r) 13 a)
/-- Write the mask or count field of a register (R381, D24). -/
def setCountField (r : RegNum) (c : Byte) (s : State) : State := setReg s r (setFld (getReg s r) 0 c)

/-- The end of a byte step: with bytes remaining, IA goes back to the instruction (60_exceptions R595). -/
def again (more : Bool) (s : State) : State := if more then backUp s else s

/-- The effective source address: register 0 counts as address 0 (R381, R382). -/
def sourceAddress (r : RegNum) (d : BitVec 20) (s : State) : ByteAddr :=
  displaced (if r = 0 then 0 else getReg s r) d

/-- The updates after a byte: in case I both addresses advance; in cases II and III the one in Ru1; the count goes down
(R386). `sa`, `da` and `c` are the values the step began with. -/
def advanceString (r : RegNum) (sa da : ByteAddr) (c : Byte) (s : State) : State :=
  let t := if isOdd r || r == 0 then s else setAddressField r (sa + 1) s
  setCountField (ru1 r) (c - 1) (setAddressField (ru1 r) (da + 1) t)

/-- One byte step of MBS (R385, R386). -/
def stepMbs (r : RegNum) (d : BitVec 20) (s : State) : Except Stop State :=
  let c := countField (getReg s (ru1 r))
  let da := addressField (getReg s (ru1 r))
  if c = 0 then .ok s
  else do
    let b ← readByte s (sourceAddress r d s)
    let t ← writeByte s da b
    .ok (again (c != 1) (advanceString r (addressField (getReg s r)) da c t))

/-- MBS (R385, R386). -/
def execMbs (r : RegNum) (d : BitVec 20) (s : State) : Host.Outcome State Fault Refusal := finish (stepMbs r d s)

/-- One byte step of CBS (R388, R389): an inequality ends the instruction with the registers as they are. -/
def stepCbs (r : RegNum) (d : BitVec 20) (s : State) : Except Stop State :=
  let c := countField (getReg s (ru1 r))
  let da := addressField (getReg s (ru1 r))
  if c = 0 then .ok s
  else do
    let x ← readByte s (sourceAddress r d s)
    let y ← readByte s da
    let t := setCc34 (y.ult x) (x.ult y) s
    if x ≠ y then .ok t
    else .ok (again (c != 1) (advanceString r (addressField (getReg s r)) da c t))

/-- CBS (R388, R389). -/
def execCbs (r : RegNum) (d : BitVec 20) (s : State) : Host.Outcome State Fault Refusal := finish (stepCbs r d s)

/-- The translation byte for a destination byte (R391). -/
def translate (r : RegNum) (d : BitVec 20) (b : Byte) (s : State) : Except Stop Byte :=
  readByte s (sourceAddress r d s + b.setWidth 19)

/-- One byte step of TBS (R391 to R393): an odd R field is unpredictable (U9). -/
def stepTbs (r : RegNum) (d : BitVec 20) (s : State) : Except Stop State :=
  let c := countField (getReg s (ru1 r))
  let da := addressField (getReg s (ru1 r))
  if isOdd r then .error (.refuse .translateOddRegister)
  else if c = 0 then .ok s
  else do
    let b ← readByte s da
    let x ← translate r d b s
    let t ← writeByte s da x
    .ok (again (c != 1) (setCountField (ru1 r) (c - 1) (setAddressField (ru1 r) (da + 1) t)))

/-- TBS (R391 to R393). -/
def execTbs (r : RegNum) (d : BitVec 20) (s : State) : Host.Outcome State Fault Refusal := finish (stepTbs r d s)

/-- One byte step of TTBS (R395 to R397): R = 0 provides a mask of eight 1's and is not written (D26); an odd R
field is unpredictable (U9). -/
def stepTtbs (r : RegNum) (d : BitVec 20) (s : State) : Except Stop State :=
  let c := countField (getReg s (ru1 r))
  let da := addressField (getReg s (ru1 r))
  let mask : Byte := if r = 0 then 0xFF else countField (getReg s r)
  if isOdd r then .error (.refuse .translateOddRegister)
  else if c = 0 then .ok s
  else do
    let b ← readByte s da
    let x ← translate r d b s
    if x &&& mask ≠ 0 then
      .ok { (if r = 0 then s else setCountField r (x &&& mask) s) with psd := { s.psd with cc4 := true } }
    else
      let t := setCountField (ru1 r) (c - 1) (setAddressField (ru1 r) (da + 1) s)
      .ok (again (c != 1) (if c = 1 then { t with psd := { t.psd with cc4 := false } } else t))

/-- TTBS (R395 to R397). -/
def execTtbs (r : RegNum) (d : BitVec 20) (s : State) : Host.Outcome State Fault Refusal := finish (stepTtbs r d s)

/-! ### EBS -/

/-- A positive sign code (45_decimal R341). -/
def positiveSign (n : BitVec 4) : Bool := n == 0xA || n == 0xC || n == 0xE || n == 0xF
/-- A negative sign code. -/
def negativeSign (n : BitVec 4) : Bool := n == 0xB || n == 0xD
/-- A sign code. -/
def isSign (n : BitVec 4) : Bool := (9 : BitVec 4).ult n

/-- What step d of EBS does to the pattern byte: the byte to store, whether significance starts, and the mark (0 none, 1
this address, 2 the next) (R402). -/
structure EditAction where
  out : Byte
  start : Bool
  mark : Nat
  deriving DecidableEq, Repr

/-- The action table of step d: pattern byte `p` (ds X'20', ss X'21', si X'23'), CC4 on entry, the digit, the fill
character (R402). -/
def editAction (p : Byte) (cc4 : Bool) (digit : BitVec 4) (fill : Byte) : EditAction :=
  let zoned : Byte := 0xF#4 ++ digit
  if p = 0x23 then ⟨zoned, true, 1⟩
  else if cc4 then ⟨zoned, false, 0⟩
  else if digit ≠ 0 then ⟨zoned, true, 1⟩
  else if p = 0x21 then ⟨fill, true, 2⟩
  else ⟨fill, false, 0⟩

/-- Steps d and e on the condition code: CC3 for a nonzero digit, CC4 for significance, then the sign that follows a left
digit, or the change to the other digit (R402). -/
def editFlags (b : Byte) (digit : BitVec 4) (start : Bool) (p : Psd) : Psd :=
  let q := { p with cc3 := p.cc3 || digit != 0, cc4 := p.cc4 || start }
  let low : BitVec 4 := fld b 4 4
  if !p.cc2 && positiveSign low then { q with cc1 := true, cc4 := false }
  else if !p.cc2 && negativeSign low then { q with cc1 := true, cc4 := true }
  else { q with cc2 := !p.cc2 }

/-- Step e on the source address: it advances after a right digit, and over a sign (R402). -/
def editAdvances (b : Byte) (cc2 : Bool) : Bool := cc2 || isSign (fld b 4 4)

/-- Step f: register 1 receives the mark; its bits 0 to 12 are a free value (R402, U11). -/
def editMark (mark : Nat) (da : ByteAddr) (s : State) : State :=
  if mark = 0 then s
  else
    let (f, t) := draw s
    setReg t 1 ((f.setWidth 13 : BitVec 13) ++ (if mark = 1 then da else da + 1))

/-- The end of every step of EBS: the count and the destination address (R402). -/
def editNext (r : RegNum) (da : ByteAddr) (c : Byte) (s : State) : State :=
  again (c != 1) (setCountField (ru1 r) (c - 1) (setAddressField (ru1 r) (da + 1) s))

/-- A digit selector, significance start or immediate significance start (R402 steps a to f). A sign code where a digit is
needed takes trap X'45' with nothing changed (R403), and a pattern byte that may not be stored takes its trap with
nothing changed (R383). The source address and the mark are written before the pattern byte, the count and the
destination address after it, in the order of the pseudocode (D9). -/
def editDigit (r : RegNum) (d : BitVec 20) (p : Byte) (da : ByteAddr) (c : Byte) (s : State) : Except Stop State := do
  let b ← readByte s (displaced (getReg s r) d)
  if isSign (fld b 0 4) || (s.psd.cc2 && isSign (fld b 4 4)) then .error (.trap .decimalFault s)
  else do
    let digit : BitVec 4 := if s.psd.cc2 then fld b 4 4 else fld b 0 4
    let act := editAction p s.psd.cc4 digit (countField (getReg s r))
    let l ← locate (programPath s) .write (fld da 0 17) s
    let sa := addressField (getReg s r)
    let t := setAddressField r (if editAdvances b s.psd.cc2 then sa + 1 else sa)
      { s with psd := editFlags b digit act.start s.psd }
    .ok (editNext r da c (locSetByte (editMark act.mark da t) l (fld da 17 2) act.out))

/-- Any other pattern byte: unchanged while CC4 = 1; else the fill character, or a blank after a positive sign (R402). -/
def editOther (r : RegNum) (da : ByteAddr) (c : Byte) (s : State) : Except Stop State := do
  let t ← (if s.psd.cc4 then .ok s
    else writeByte s da (if s.psd.cc1 then 0x40 else countField (getReg s r)))
  .ok (editNext r da c t)

/-- A field separator: the fill character is stored, CC1, CC3 and CC4 are reset (R402). -/
def editSeparator (r : RegNum) (da : ByteAddr) (c : Byte) (s : State) : Except Stop State := do
  let t ← writeByte s da (countField (getReg s r))
  .ok (editNext r da c { t with psd := { t.psd with cc1 := false, cc3 := false, cc4 := false } })

/-- One step of EBS, one pattern byte (R400 to R403): an odd or zero R field is unpredictable (U10). -/
def stepEbs (r : RegNum) (d : BitVec 20) (s : State) : Except Stop State := do
  requireOption s.cfg.hasDecimal s
  if isOdd r || r == 0 then .error (.refuse .editRegister)
  else
    let c := countField (getReg s (ru1 r))
    let da := addressField (getReg s (ru1 r))
    if c = 0 then .ok s
    else do
      let p ← readByte s da
      if p = 0x20 ∨ p = 0x21 ∨ p = 0x23 then editDigit r d p da c s
      else if p = 0x22 then editSeparator r da c s
      else editOther r da c s

/-- The step of EBS alters register R: step e advances the source address in it, a step that only stores into the register at
its address does not alter it through the R field (R402; 70_reset R670, D10). -/
def editMoves (r : RegNum) (d : BitVec 20) (s : State) : Bool :=
  match readByte s (addressField (getReg s (ru1 r))), readByte s (displaced (getReg s r) d) with
  | .ok p, .ok b => (p == 0x20 || p == 0x21 || p == 0x23) && editAdvances b s.psd.cc2
  | _, _ => false

/-- EBS (R400 to R403). -/
def execEbs (r : RegNum) (d : BitVec 20) (s : State) : Host.Outcome State Fault Refusal := finish (stepEbs r d s)

end Sys2Proof.Machine
end

