-- ==== Sys2Proof/Machine/CompareLogical.lean ====
section
/-! DEFINITION. Comparison and logical instructions (spec 42_compare_logical). -/

namespace Sys2Proof.Machine

open Sys2Proof

/-- CI (R251). -/
def execCi (r : RegNum) (v : BitVec 20) (s : State) : Host.Outcome State Fault Refusal :=
  finish (.ok (compareFlags (getReg s r) (immediate v) s))

/-- CB (R252): magnitudes of the two bytes. -/
def execCb (r : RegNum) (m : MemRef) (s : State) : Host.Outcome State Fault Refusal :=
  finish do
    let v ← operandByte m s
    let a : Byte := fld (getReg s r) 24 8
    .ok (cmpUnsigned a v (setCc2 (a &&& v != 0) s))

/-- CH (R253). -/
def execCh (r : RegNum) (m : MemRef) (s : State) : Host.Outcome State Fault Refusal :=
  finish do
    let v ← operandHalf m s
    .ok (compareFlags (getReg s r) (v.signExtend 32) s)

/-- CW (R254). -/
def execCw (r : RegNum) (m : MemRef) (s : State) : Host.Outcome State Fault Refusal :=
  finish do
    let v ← operandWord m s
    .ok (compareFlags (getReg s r) v s)

/-- CD (R255): an odd R duplicates the register. -/
def execCd (r : RegNum) (m : MemRef) (s : State) : Host.Outcome State Fault Refusal :=
  finish do
    let v ← operandDouble m s
    .ok (cmpSigned (getPair s r) v s)

/-- CS (R256): for odd R the mask is the register itself. -/
def execCs (r : RegNum) (m : MemRef) (s : State) : Host.Outcome State Fault Refusal :=
  finish do
    let v ← operandWord m s
    let mask := getReg s (ru1 r)
    .ok (cmpUnsigned (getReg s r &&& mask) (v &&& mask) s)

/-- CLR (R257): R against the word in CC3 CC4, Ru1 in CC1 CC2. -/
def execClr (r : RegNum) (m : MemRef) (s : State) : Host.Outcome State Fault Refusal :=
  finish do
    let v ← operandWord m s
    let a := getReg s r
    let b := getReg s (ru1 r)
    .ok (setCc12 (v.slt b) (b.slt v) (cmpSigned a v s))

/-- CLM (R258): the high limit in CC3 CC4, the low limit in CC1 CC2. -/
def execClm (r : RegNum) (m : MemRef) (s : State) : Host.Outcome State Fault Refusal :=
  finish do
    let v ← operandDouble m s
    let a := getReg s r
    .ok (setCc12 ((loWord v).slt a) (a.slt (loWord v)) (cmpSigned a (hiWord v) s))

/-- OR (R261). DESIGN CHOICE (log 29), for EOR and AND too: CC3 and CC4 test the result, also where RP selects a block that
is not installed and register R keeps reading as all ones or all zeros (R13, U8). -/
def execOr (r : RegNum) (m : MemRef) (s : State) : Host.Outcome State Fault Refusal :=
  finish do
    let v ← operandWord m s
    .ok (test34 (getReg s r ||| v) (setReg s r (getReg s r ||| v)))

/-- EOR (R262). -/
def execEor (r : RegNum) (m : MemRef) (s : State) : Host.Outcome State Fault Refusal :=
  finish do
    let v ← operandWord m s
    .ok (test34 (getReg s r ^^^ v) (setReg s r (getReg s r ^^^ v)))

/-- AND (R263). -/
def execAnd (r : RegNum) (m : MemRef) (s : State) : Host.Outcome State Fault Refusal :=
  finish do
    let v ← operandWord m s
    .ok (test34 (getReg s r &&& v) (setReg s r (getReg s r &&& v)))

end Sys2Proof.Machine
end

