-- ==== Sys2Proof/Machine/IoSystem.lean ====
section
/-! DEFINITION. The input/output system as the CPU sees it, and what an IOP does with a command list
(spec 49_input_output R501 to R533). IOP references use actual addresses, no map, no protection (R532). -/

namespace Sys2Proof.Machine

open Sys2Proof

/-! ### Status -/

/-- The controller has a device with this I/O address: `recognized` (R501, R510). -/
def Controller.has (c : Controller) (a : BitVec 11) : Bool := c.devices.any (fun d => d.addr == a)

/-- The controller's device at an address. -/
def Controller.device (c : Controller) (a : BitVec 11) : Option Device := c.devices.find? (fun d => d.addr == a)

/-- Change the device at an address. -/
def Controller.onDevice (c : Controller) (a : BitVec 11) (f : Device → Device) : Controller :=
  { c with devices := c.devices.map (fun d => if d.addr == a then f d else d) }

/-- The controller and device at an I/O address; none is "I/O address not recognized". -/
def findDevice (io : List Controller) (a : BitVec 11) : Option (Controller × Device) :=
  match io.find? (fun c => c.has a) with
  | none => none
  | some c => (c.device a).map (fun d => (c, d))

/-- Change the controller at an I/O address. -/
def onController (io : List Controller) (a : BitVec 11) (f : Controller → Controller) : List Controller :=
  io.map (fun c => if c.has a then f c else c)

/-- `selbusy`: the controller is on a selector IOP that serves another controller (R502, R520). -/
def selectorBusy (io : List Controller) (c : Controller) (a : BitVec 11) : Bool :=
  c.selector && io.any (fun k => k.selector && k.iop == c.iop && k.cond == 3 && !k.has a)

/-- The operational status byte with its bit 15 (R504). -/
def operationalByte (io : List Controller) (c : Controller) (a : BitVec 11) : BitVec 8 :=
  fld c.opStatus 0 7 ++ BitVec.ofBool (selectorBusy io c a)

/-- The 16 status bits of SIO, HIO and TIO (R504). -/
def statusBits (io : List Controller) (c : Controller) (d : Device) : BitVec 16 :=
  BitVec.ofBool d.intPending ++ d.cond ++ BitVec.ofBool d.automatic ++ BitVec.ofBool d.unusualEnd ++ c.cond ++ 0#1 ++
    operationalByte io c d.addr

/-- The 16 status bits of TDV (R507). -/
def testDeviceBits (io : List Controller) (c : Controller) (d : Device) : BitVec 16 :=
  d.tdv ++ operationalByte io c d.addr

/-- An SIO would be accepted: device and controller ready, no interrupt pending, no fault condition (R503, R527); the
device may be in the manual mode (R530). -/
def sioAcceptable (c : Controller) (d : Device) : Bool := d.cond == 0 && c.cond == 0 && !d.intPending && !d.fault

/-- The answer to SIO, HIO, TIO and TDV (R502). -/
structure IoResponse where
  recognized : Bool
  selbusy : Bool
  cc2 : Bool
  status : BitVec 16
  count : BitVec 16
  cda : BitVec 16
  deriving DecidableEq, Repr

/-- "I/O address not recognized". -/
def IoResponse.none : IoResponse := ⟨false, false, true, 0, 0, 0⟩

/-- TIO's answer; the I/O system is not affected (R506). -/
def tioResponse (io : List Controller) (a : BitVec 11) : IoResponse :=
  match findDevice io a with
  | none => .none
  | some (c, d) =>
    let busy := selectorBusy io c a
    ⟨true, busy, !busy && !sioAcceptable c d, statusBits io c d, c.count, c.counter⟩

/-- TDV's answer; the I/O system is not affected (R507). -/
def tdvResponse (io : List Controller) (a : BitVec 11) : IoResponse :=
  match findDevice io a with
  | none => .none
  | some (c, d) =>
    let busy := selectorBusy io c a
    ⟨true, busy, !busy && d.dependent, testDeviceBits io c d, c.count, c.counter⟩

/-- An accepted SIO: the counter is loaded, device and controller go busy, the status of the last operation is cleared,
its data overrun (TDV bit 0) with it, and no command is in effect yet: no flags and no order (R503, R507, R521; the
clearing is DEDUCED, log 15). -/
def startDevice (c : Controller) (a : BitVec 11) (fca : BitVec 16) : Controller :=
  { c.onDevice a (fun d =>
      { d with cond := 3, unusualEnd := false, tdv := d.tdv &&& 0x7F, aio := 0, unusual := false }) with
    cond := 3, counter := fca, serving := a, opStatus := 0, countDone := false, active := false, flags := 0 }

/-- SIO's effect in the I/O system (R503); a rejected SIO changes nothing (90_conflicts C19). -/
def sioEffect (io : List Controller) (a : BitVec 11) (fca : BitVec 16) : List Controller :=
  match findDevice io a with
  | none => io
  | some (c, d) =>
    if selectorBusy io c a || !sioAcceptable c d then io else onController io a (fun k => startDevice k a fca)

/-- HIO's answer: CC2 tells that the controller was busy (R505). -/
def hioResponse (io : List Controller) (a : BitVec 11) : IoResponse :=
  match findDevice io a with
  | none => .none
  | some (c, d) => ⟨true, false, c.cond == 3, statusBits io c d, c.count, c.counter⟩

/-- A device's interrupt request is reset (R505, R508). DESIGN CHOICE (log 15): its AIO status, the device's own bits 1 to 7
among it, and its unusual recognition go with the request, of which alone the rules speak. -/
def clearRequest (d : Device) : Device := { d with intPending := false, aio := 0, unusual := false }

/-- HIO's effect: the device halts and its pending interrupt is cleared; `after` is the condition a busy device then
shows (R505). DESIGN CHOICE (log 15): its controller, busy with the halted operation, then shows ready in status bits 5 and 6,
where R505 speaks of the device alone. -/
def hioEffect (io : List Controller) (a : BitVec 11) (after : BitVec 2) : List Controller :=
  onController io a (fun c =>
    let k := c.onDevice a (fun d => { clearRequest d with cond := if d.cond == 3 then after else d.cond })
    if c.serving == a && c.cond == 3 then { k with cond := 0, active := false } else k)

/-- The device whose interrupt AIO acknowledges: the first requesting one in the priority sequence (R508). DESIGN CHOICE (log
15): the customer-assigned sequence, whose form the spec does not give, is that of the controllers in the list, and within a
controller that of its devices; a sequence that mixes devices of two controllers cannot be given. -/
def requestingDevice (io : List Controller) : Option Device :=
  (io.flatMap (fun c => c.devices)).find? (fun d => d.intPending)

/-- AIO resets the request of the device it identifies (R508). -/
def aioEffect (io : List Controller) (a : BitVec 11) : List Controller :=
  onController io a (fun c => c.onDevice a clearRequest)

/-- `IOSystem.request`: the OR of all device interrupt requests (R510). -/
def ioRequest (s : State) : Bool := (requestingDevice s.io).isSome

/-- The I/O level sees the steady OR of the requests: an armed level advances to waiting (60_exceptions R605, D37). -/
def ioSync (s : State) : State := if ioRequest s then signal s 12 else s

/-- `IOSystem.reset()`: devices ready, no operation, no pending interrupt, no fault, no status (R533, 70_reset R653). DESIGN
CHOICE (log 15): R533 gives no contents of the IOP registers after a reset and nothing says whether status bit 3 is
reset; the command address counter, the order, the address, the flags, the count and `automatic` stay as they were. -/
def ioReset (io : List Controller) : List Controller :=
  io.map (fun c =>
    { c with
      cond := 0, opStatus := 0, countDone := false, active := false
      devices := c.devices.map (fun d =>
        { d with intPending := false, cond := 0, unusualEnd := false, fault := false, tdv := 0, dependent := false,
                 aio := 0, unusual := false }) })

/-! ### The IOP (R522 to R529) -/

/-- Status bit `8 + k` is set in the operational status byte (R511). -/
def Controller.setStatus (c : Controller) (k : Nat) : Controller :=
  { c with opStatus := c.opStatus ||| (0x80#8 >>> k) }

/-- The flags of the current command (R527). -/
def Controller.flag (c : Controller) (k : Nat) : Bool := c.flags.getMsbD k

/-- The device requests an interrupt, with these AIO status bits, and bit 0 if there has been a data overrun in the current
operation (R508, R509). -/
def requestInterrupt (a : BitVec 11) (bits : BitVec 16) (c : Controller) : Controller :=
  c.onDevice a (fun d =>
    { d with intPending := true, aio := d.aio ||| bits ||| (BitVec.ofBool (d.tdv.getMsbD 0) ++ 0#15) })

/-- The operation ends: device and controller leave the busy condition (R529). DESIGN CHOICE (log 15): both then show ready,
also after an unusual end or a halt by the IOP, where the spec does not say ready or not operational. -/
def endOperation (a : BitVec 11) (c : Controller) : Controller :=
  { c.onDevice a (fun d => { d with cond := if d.cond == 3 then 0 else d.cond }) with cond := 0, active := false }

/-- An unusual end, shown in status bit 4: with IUE, an interrupt with AIO bit 12 (and `bits`); servicing of the list stops
(R504, R509, R527). -/
def unusualEnd (a : BitVec 11) (bits : BitVec 16) (c : Controller) : Controller :=
  let k := c.onDevice a (fun d => { d with unusualEnd := true })
  endOperation a (if c.flag 5 then requestInterrupt a (0x0008#16 ||| bits) k else k)

/-! ### Core memory as an IOP reaches it -/

/-- A module's indicator: bit `module` of the manual's numbering (log 32). -/
def moduleBit (module : BitVec 3) : BitVec 8 := 0x80#8 >>> module.toNat

/-- The interleaving in effect: that of the installation, but none with INTERLEAVE SELECT at DIAGNOSTIC (70_reset R665). -/
def interleaving (s : State) : Interleave := if s.panel.interleaveDiagnostic then .none else s.cfg.interleave

/-- The module that holds an actual word address, of a memory of `words` words. DESIGN CHOICE (log 32): modules of 16384
words from address 0 on; interleaved, the low-order address bit tells the module of a pair, or the two low-order bits that
of four; modules of a group that is not installed whole are not interleaved. -/
def moduleOf (words : Nat) (i : Interleave) (a : WordAddr) : BitVec 3 :=
  match i with
  | .none => fld a 0 3
  | .twoWay =>
    if 32768 * ((fld a 0 2 : BitVec 2).toNat + 1) ≤ words then (fld a 0 2 : BitVec 2) ++ (fld a 16 1 : BitVec 1)
    else fld a 0 3
  | .fourWay =>
    if 65536 * ((fld a 0 1 : BitVec 1).toNat + 1) ≤ words then (fld a 0 1 : BitVec 1) ++ (fld a 15 2 : BitVec 2)
    else fld a 0 3

/-- The indicator of the module that now holds an actual word address. -/
def moduleBitAt (s : State) (a : WordAddr) : BitVec 8 := moduleBit (moduleOf s.cfg.memWords (interleaving s) a)

/-- Core memory as an IOP reaches it: actual addresses, the installed words and their interleaving, the modules a parity halt
has made unavailable (R532, 60_exceptions R606). -/
structure IopMemory where
  mem : List Host.Cell
  words : Nat
  interleave : Interleave
  unavailable : BitVec 8
  deriving DecidableEq, Repr

/-- What the IOPs reach in a state. -/
def iopMemory (s : State) : IopMemory := ⟨s.mem, s.cfg.memWords, interleaving s, s.unavailable⟩

/-- The word can be accessed: it is installed, and its module available; an unavailable module answers an IOP as no memory
does (R511; DESIGN CHOICE, log 32). Locations 0 to 15 are core memory for an IOP (R511, R532). -/
def IopMemory.reaches (core : IopMemory) (a : WordAddr) : Bool :=
  decide (a.toNat < core.words) && core.unavailable &&& moduleBit (moduleOf core.words core.interleave a) == 0

/-- The command doubleword at a doubleword address, if both its words can be accessed (R522). -/
def commandAt (core : IopMemory) (cda : BitVec 16) : Option (Word × Word) :=
  if core.reaches (cda ++ 0#1) && core.reaches (cda ++ 1#1) then
    some (coreWord core.mem (cda ++ 0#1), coreWord core.mem (cda ++ 1#1))
  else none

/-- Transfer in Channel: bits 4-7 are 1000 (R524; PRESUMED, log 39). -/
def isTransferInChannel (hi : Word) : Bool := fld hi 4 4 == (8 : BitVec 4)
/-- Stop: bits 1-7 are 0 (R525; PRESUMED, log 39). -/
def isStop (hi : Word) : Bool := fld hi 1 7 == (0 : BitVec 7)

/-- A command that is not Transfer in Channel is loaded: Stop ends the operation; any other gives address, flags and
count, and its order unless this is data chaining (R525 to R529). In data chaining "the new command doubleword is used only
to supply a new memory address, a new count, and new flags" (R527), so that it is no Stop whatever its order. DESIGN CHOICE
(log 39): a Stop with a nonzero bit among 32 to 39, "not specified" by R525, acts as one with zeros there; and bits 8 to 12
and 40 to 47 of the other commands, "not described; code 0" (R522), are ignored whatever they hold. -/
def loadCommand (a : BitVec 11) (dataChain : Bool) (hi lo : Word) (c : Controller) : Controller :=
  if isStop hi && !dataChain then
    let k := endOperation a c
    if hi.getMsbD 0 then requestInterrupt a 0x0100 k else k
  else
    { c with
      address := fld hi 13 19, flags := fld lo 0 8, count := fld lo 16 16, countDone := false, active := true
      order := if dataChain then c.order else fld hi 0 8 }

/-- `fetch_command` of R529, with at most one Transfer in Channel; two in succession are a control error (R524). A
nonexistent address sets status bit 11, a parity error bit 12, and is an unusual end under the flags of the command
before. DESIGN CHOICE (log 15): a control error is an unusual end too and sets status bit 4 beside bits 13 and 14, which alone
R524 and R529 name. -/
def fetchCommand (core : IopMemory) (parity : FetchParity) (a : BitVec 11) (dataChain : Bool) (c : Controller) :
    Controller :=
  match commandAt core c.counter with
  | none => unusualEnd a 0 (c.setStatus 3)
  | some (hi, lo) =>
    if parity == .command then unusualEnd a 0 (c.setStatus 4)
    else if isTransferInChannel hi then
      let k := { c with counter := fld hi 16 16 }
      match commandAt core k.counter with
      | none => unusualEnd a 0 (k.setStatus 3)
      | some (hi2, lo2) =>
        if parity == .target then unusualEnd a 0 (k.setStatus 4)
        else if isTransferInChannel hi2 then unusualEnd a 0 ((k.setStatus 5).setStatus 6)
        else loadCommand a dataChain hi2 lo2 k
    else loadCommand a dataChain hi lo c

/-- The device is in the automatic mode, in which alone "a busy device requests orders" (R503, R530). -/
def Controller.automatic (c : Controller) (a : BitVec 11) : Bool :=
  match c.device a with
  | none => false
  | some d => d.automatic

/-- The next order of the list: requested at once by a device in the automatic mode; in the manual mode the operation has no
order until a service call after the device's return to it (R503, R530). -/
def nextCommand (core : IopMemory) (parity : FetchParity) (a : BitVec 11) (c : Controller) : Controller :=
  if c.automatic a then fetchCommand core parity a false c else { c with active := false }

/-- The order is Read Backward: bits 4-7 are 1100 (R523). -/
def isReadBackward (order : BitVec 8) : Bool := fld order 4 4 == (12 : BitVec 4)
/-- The order is an input order: Read, Sense or Read Backward (R523). -/
def isInputOrder (order : BitVec 8) : Bool :=
  fld order 6 2 == (2 : BitVec 2) || fld order 4 4 == (4 : BitVec 4) || isReadBackward order
/-- The order is an output order: Write or Control (R523). -/
def isOutputOrder (order : BitVec 8) : Bool := order.getLsbD 0

/-- The bookkeeping after a byte: address, count, IZC, data chaining or count done (R526 to R529). DESIGN CHOICE (log 39):
the memory byte address wraps modulo 2^19, which R526 calls "not described". -/
def afterByte (core : IopMemory) (parity : FetchParity) (a : BitVec 11) (c : Controller) : Controller :=
  let k := { c with
    address := if isReadBackward c.order then c.address - 1 else c.address + 1
    count := c.count - 1 }
  if k.count != 0 then k
  else
    let k := if c.flag 1 then requestInterrupt a 0x0020 k else k
    if c.flag 0 then fetchCommand core parity a true { k with counter := k.counter + 1 } else { k with countDone := true }

/-- The controller is transmitting for this device: an order has been passed and its count is not done (R521). -/
def Controller.transmitting (c : Controller) (a : BitVec 11) : Bool :=
  c.cond == 3 && c.serving == a && c.active && !c.countDone

/-- One byte of input (R529). -/
def inputByte (a : BitVec 11) (b : Byte) (parity : FetchParity) (s : State) : State :=
  match s.io.find? (fun c => c.has a) with
  | none => s
  | some c =>
    if !(c.transmitting a && isInputOrder c.order) then s
    else if c.flag 7 then { s with io := onController s.io a (afterByte (iopMemory s) parity a) }
    else if (iopMemory s).reaches (fld c.address 0 17) then
      let t := { s with mem := memPut s.mem c.address.toNat b }
      { t with io := onController s.io a (afterByte (iopMemory t) parity a) }
    else { s with io := onController s.io a (fun k => unusualEnd a 0 (k.setStatus 3)) }

/-- One byte of output (R529). -/
def outputByte (a : BitVec 11) (parity : FetchParity) (s : State) : State :=
  match s.io.find? (fun c => c.has a) with
  | none => s
  | some c =>
    if !(c.transmitting a && isOutputOrder c.order) then s
    else if !c.flag 7 && !(iopMemory s).reaches (fld c.address 0 17) then
      { s with io := onController s.io a (fun k => unusualEnd a 0 (k.setStatus 3)) }
    else
      let b := if c.flag 7 then 0 else memByte s.mem c.address.toNat
      { s with io := onController s.io a (fun k => afterByte (iopMemory s) parity a { k with dataOut := b }) }

/-- Channel end (R529): incorrect length, ICE, command chaining or the end of the operation. A channel end before count done
is an incorrect length, and so is one that the device has found (R511 bit 8). In a command chain the next doubleword comes
next, or, when the device skips a command, the one after it (R524). DESIGN CHOICE (log 15): the HTE flag is that of the
current doubleword, also where those of one record differ (R527, "not specified"), and a length that halts the operation
does not set status bit 4, of which R504 does not say. -/
def channelEnd (core : IopMemory) (parity : FetchParity) (a : BitVec 11) (deviceLength skip : Bool) (c : Controller) :
    Controller :=
  let incorrect := deviceLength || !c.countDone
  let k := if incorrect then c.setStatus 0 else c
  let halting := incorrect && !c.flag 6 && c.flag 4
  let k := if halting then k.setStatus 6 else k
  let k := if halting && c.flag 5 then requestInterrupt a 0x0088 k else k
  let k := if c.flag 3 then requestInterrupt a 0x0010 k else k
  if c.flag 2 && !halting then
    nextCommand core parity a { k with counter := k.counter + (if skip then 2 else 1) }
  else endOperation a k

/-- The device shows a data overrun to TDV and AIO (R507, R508). -/
def noteOverrun (a : BitVec 11) (c : Controller) : Controller :=
  c.onDevice a (fun d => { d with tdv := d.tdv ||| 0x80, aio := d.aio ||| 0x8000 })

/-- A transmission data error (status bit 9) or a transmission memory error (bit 10): recorded; with HTE the operation
halts, and with IUE too an interrupt is requested (R509, R529). DESIGN CHOICE (log 15): the HTE flag is that of the current
doubleword, also where those of one record differ (R527, "not specified"), and the halt sets status bit 4, of which R504 does
not say. -/
def transmissionError (a : BitVec 11) (kind : TransmissionError) (c : Controller) : Controller :=
  let memory := kind == .memory
  let k := c.setStatus (if memory then 2 else 1)
  let k := if kind == .overrun then noteOverrun a k else k
  if c.flag 4 then unusualEnd a (if memory then 0 else 0x0040) (k.setStatus 6) else k

/-- What a device tells of itself: AIO bits 1 to 7 are its own, but a bit 7 set by a Stop stays (R508, R525). -/
def deviceStatus (cond : BitVec 2) (automatic fault : Bool) (tdv : BitVec 8) (dependent : Bool) (unique : BitVec 7)
    (unusual : Bool) (d : Device) : Device :=
  { d with
    cond := cond, automatic := automatic, fault := fault, tdv := tdv, dependent := dependent, unusual := unusual
    aio := BitVec.ofBool (d.aio.getMsbD 0 || tdv.getMsbD 0) ++ (unique ||| (0#6 ++ BitVec.ofBool (d.aio.getMsbD 7))) ++
      fld d.aio 8 8 }

/-- A controller becomes ready, not operational or unavailable (R504 bits 5-6); it becomes busy by an SIO alone. An
operation in progress has no order any more. -/
def controllerStatus (cond : BitVec 2) (c : Controller) : Controller :=
  if cond == 3 then c else { c with cond := cond, active := false }

/-- `IOSystem.step()`: one action of an IOP, a controller or a device (R510, R529). A transfer, an error or a channel end
belongs to an order that has been passed (R521); an order is requested in the automatic mode (R530). -/
def ioEvent (e : IoEvent) (s : State) : State :=
  let busy (a : BitVec 11) (f : Controller → Controller) : State :=
    { s with io := onController s.io a (fun c => if c.cond == 3 && c.serving == a then f c else c) }
  let core := iopMemory s
  match e with
  | .command a p => busy a (fun c => if !c.active && c.automatic a then fetchCommand core p a false c else c)
  | .input a b p => inputByte a b p s
  | .output a p => outputByte a p s
  | .channelEnd a il skip p => busy a (fun c => if c.active then channelEnd core p a il skip c else c)
  | .transmissionError a k => busy a (fun c => if c.active then transmissionError a k c else c)
  | .unusualEnd a fault =>
    busy a (fun c => unusualEnd a 0 (c.onDevice a (fun d => { d with fault := d.fault || fault })))
  | .request a => { s with io := onController s.io a (requestInterrupt a 0) }
  | .status a cond automatic fault tdv dependent unique unusual =>
    { s with io := onController s.io a (fun c =>
        c.onDevice a (deviceStatus cond automatic fault tdv dependent unique unusual)) }
  | .controller a cond => { s with io := onController s.io a (controllerStatus cond) }

end Sys2Proof.Machine
end

