-- ==== Sys2Proof/Machine/Environment.lean ====
section
/-! DEFINITION. What happens between CPU steps: the operator's panel, resets, the bootstrap and the other outside events
(spec 70_reset_and_hazards R650 to R664, 60_exceptions R593, R603 to R608). -/

namespace Sys2Proof.Machine

open Sys2Proof

/-! ### The panel's view of memory -/

/-- The panel's address is an operand address in master mode under the current PSD (70_reset R663, D40). -/
def asMaster (s : State) : State := { s with psd := { s.psd with ms := false } }

/-- A parity halt has made the module of this core word unavailable (60_exceptions R606); a register is never so. -/
def unavailableLoc (s : State) : Loc → Bool
  | .reg _ => false
  | .core a => s.unavailable &&& moduleBitAt s a != 0

/-- The instruction register takes a free value. -/
def displayFree (s : State) : State := { (draw s).2 with ir := (draw s).1 }

/-- DISPLAY: the word at an address goes to the instruction register; what a nonexistent address or an unavailable module
shows is not stated, a free value (log 40). -/
def displayAt (a : WordAddr) (s : State) : State :=
  let shown (t : State) : State := { t with irAt := some a }
  match locate (programPath s) .operand a (asMaster s) with
  | .ok l => shown (if unavailableLoc s l then displayFree s else { s with ir := locWord s l })
  | .error _ => shown (displayFree s)

/-- The next instruction is a word that the register hazard makes unpredictable (70_reset R670, U27). -/
def hazardous (s : State) : Bool := decide (s.psd.ia.toNat < 16) && s.hazard == some (s.psd.ia.setWidth 4)

/-- The next instruction, the word at IA, is displayed (70_reset R661); a free value under the register hazard (R670). -/
def displayNext (s : State) : State :=
  if hazardous s then { displayFree s with irAt := some s.psd.ia } else displayAt s.psd.ia s

/-- STORE: the instruction register goes to an address; a nonexistent or locked address, and one in an unavailable module,
stores nothing (log 40). -/
def storeAt (a : WordAddr) (s : State) : State :=
  match locate (programPath s) .write a (asMaster s) with
  | .ok l => if unavailableLoc s l then s else locSetWord s l s.ir
  | .error _ => s

/-- Bits of `old` replaced by the DATA switches that are not in the centre position. -/
def dataSwitches (old mask up : Word) : Word := (old &&& ~~~mask) ||| (up &&& mask)

/-! ### Resets and LOAD -/

/-- CPU RESET/CLEAR (70_reset R651, R652; D4, D5). DESIGN CHOICE (log 5): PCF, which R51 calls unspecified after a reset, stays
as it was. -/
def cpuReset (s : State) : State :=
  { s with
    psd := Psd.reset, ir := 0x02000000, irAt := none, entry := none, watchdog := 0, levels := Level.resetAll, alarm := false
    hazard := none, midway := none, stopPending := false
    halts := { s.halts with wait := false, addrStop := false } }

/-- SYS RESET/CLEAR (70_reset R653): every module is available again; an over-temperature still present sets its indicator
again (10_state R45). -/
def sysReset (s : State) : State :=
  let t := cpuReset s
  { t with io := ioReset t.io, memFault := t.overTemp, unavailable := 0, halts := { t.halts with parity := false } }

/-- SYS RESET/CLEAR and CPU RESET/CLEAR together: every core word becomes 0 (70_reset R650). -/
def memoryClear (s : State) : State := { sysReset s with mem := [] }

/-- The bootstrap that LOAD stores at locations X'20' to X'29' (70_reset R654). -/
def bootstrap (unit : BitVec 11) : List (WordAddr × Word) :=
  [(0x20, 0), (0x21, 0), (0x22, 0x020000A8), (0x23, 0x0E000058), (0x24, 0x00000011), (0x25, unit.setWidth 32),
   (0x26, 0x32000024), (0x27, 0xCC000025), (0x28, 0xCD000025), (0x29, 0x69C00028)]

/-- LOAD (70_reset R654): the bootstrap is stored by actual address; an unavailable module takes none of it. -/
def storeBootstrap (s : State) : State :=
  let put (m : List Host.Cell) (aw : WordAddr × Word) :=
    if unavailableLoc s (.core aw.1) then m else coreSetWord m aw.1 aw.2
  { s with mem := (bootstrap s.panel.unitAddress).foldl put s.mem }

/-! ### The switches -/

/-- COMPUTE comes to IDLE: the ADDRESS STOP and WAIT halts are "reset (cleared)" (70_reset R661, 60_exceptions R620). -/
def atIdle (s : State) : State :=
  { s with
    panel := { s.panel with compute := .idle }, stopPending := false
    halts := { s.halts with wait := false, addrStop := false } }

/-- A move of COMPUTE to IDLE: the next instruction is displayed, unless the displayed word still is it (70_reset R661). -/
def moveToIdle (s : State) : State :=
  atIdle (if s.panel.compute == .idle || s.started then s else displayNext s)

/-- STEP in a parity halt: DESIGN CHOICE (log 32), the spec does not say what it does: nothing is executed and the switch, which is
momentary (70_reset R661), is back at IDLE, so that SYS RESET/CLEAR, with which alone the machine proceeds (60_exceptions
R606), is operative. -/
def stepEnds (s : State) : State := if s.halts.parity && s.panel.compute == .step then moveToIdle s else s

/-- COMPUTE (70_reset R661): leaving IDLE, to RUN or to STEP, takes the displayed word as the next instruction. -/
def setCompute (c : Compute) (s : State) : State :=
  let start (t : State) : State := { t with panel := { t.panel with compute := c }, started := true }
  match c with
  | .idle => moveToIdle s
  | .run => if s.panel.compute == .run then s else start (moveToIdle s)
  | .step => stepEnds (start (moveToIdle s))

/-- The COMPUTE switch of the panel that is not operative: its position alone; the lower position is momentary. -/
def setOtherCompute (c : Compute) (s : State) : State :=
  { s with panel := { s.panel with otherCompute := if c = .step then .idle else c } }

/-- A move of the CONTROL MODE key (70_reset R664): between REMOTE and LOCAL "with either COMPUTE switch not at IDLE", or
between LOCAL and LOCK with that of the processor control panel not at RUN, "an undefined operation occurs", refused
(U26). LOCK fixes COMPUTE at RUN, WATCHDOG TIMER and INTERLEAVE SELECT at NORMAL and PARITY ERROR MODE at CONT. DESIGN CHOICE
(log 40): there they stay when the key returns to LOCAL, until they are moved. -/
def setControlMode (m : ControlMode) (s : State) : Host.Outcome State Fault Refusal :=
  let move (p : Panel) : Host.Outcome State Fault Refusal :=
    .next { s with panel := { p with controlMode := m }, stopPending := false }
  let bothIdle := s.panel.compute == .idle && s.panel.otherCompute == .idle
  match s.panel.controlMode, m with
  | .remote, .remote => .next s
  | .localPanel, .localPanel => .next s
  | .lock, .lock => .next s
  | .remote, .localPanel => if bothIdle then move s.panel else .refused .controlModeMove
  | .localPanel, .remote => if bothIdle then move s.panel else .refused .controlModeMove
  | .localPanel, .lock =>
    if s.panel.compute == .run then 
      move { s.panel with watchdogOverride := false, parityHalt := false, interleaveDiagnostic := false }
    else .refused .controlModeMove
  | .lock, .localPanel => if s.panel.compute == .run then move s.panel else .refused .controlModeMove
  | .remote, .lock => .refused .controlModeMove
  | .lock, .remote => .refused .controlModeMove

/-- The operator's actions that need COMPUTE at IDLE (70_reset R651, R663). -/
def idleAction (a : PanelAction) (s : State) : State :=
  match a with
  | .insert1 mask up =>
    let t := { s with psd := loadPsw1 s.psd (dataSwitches (psw1 s.psd) mask up) }
    displayAt t.psd.ia t
  | .insert2 mask up =>
    let w := dataSwitches (psw2 s.psd) mask up
    let p := loadPsw2 s.psd w true
    let t := { s with psd := { p with ci := w.getMsbD 5, ii := w.getMsbD 6, ei := w.getMsbD 7 } }
    displayAt t.psd.ia t
  | .store select => storeAt (if select then s.panel.selectAddress else s.psd.ia) s
  | .display select => displayAt (if select then s.panel.selectAddress else s.psd.ia) s
  | .dataClear => { s with ir := 0, irAt := none }
  | .dataEnter mask up => { s with ir := dataSwitches s.ir mask up, irAt := none }
  | .increment => setIa s (s.psd.ia + 1)
  | .load => storeBootstrap s
  | .cpuReset => cpuReset s
  | .ioReset => { s with io := ioReset s.io }
  | .sysReset => sysReset s
  | .memoryClear => memoryClear s
  | _ => s

/-- The controls of the lower section of the processor control panel that the free-standing console does not have; they are
inoperative in REMOTE (70_reset R664; which controls these are is DEDUCED, log 40). -/
def lowerPanelOnly : PanelAction → Bool
  | .insert1 _ _ => true
  | .insert2 _ _ => true
  | .store _ => true
  | .display _ => true
  | .dataClear => true
  | .dataEnter _ _ => true
  | .increment => true
  | .hold _ => true
  | .addrStop _ => true
  | .selectAddress _ => true
  | _ => false

/-- The operator's actions (70_reset R661 to R664). In LOCK only INTERRUPT and SENSE are operative, in REMOTE the lower
section of the processor control panel is not; away from IDLE only COMPUTE, ADDR STOP, INSTR ADDR at HOLD, the address
switches and the maintenance section. DESIGN CHOICE (log 40): SELECT ADDRESS and UNIT ADDRESS, moved with COMPUTE at RUN,
take effect there too, though the switches that R651 quotes as operative at RUN do not name them. -/
def panelAction (a : PanelAction) (s : State) : Host.Outcome State Fault Refusal :=
  match a with
  | .sense v => .next { s with panel := { s.panel with sense := v } }
  | .consoleSense v => .next { s with panel := { s.panel with consoleSense := v } }
  | .controlMode m => setControlMode m s
  | .otherCompute c => .next (setOtherCompute c s)
  | _ =>
    if s.panel.controlMode == .lock || (s.panel.controlMode == .remote && lowerPanelOnly a) then .next s
    else match a with
      | .compute c => .next (setCompute c s)
      | .hold on => .next { s with panel := { s.panel with instrHold := on } }
      | .addrStop on => .next { s with panel := { s.panel with addrStop := on }, stopPending := s.stopPending && on }
      | .selectAddress v => .next { s with panel := { s.panel with selectAddress := v } }
      | .unitAddress v => .next { s with panel := { s.panel with unitAddress := v } }
      | .parityMode h => .next { s with panel := { s.panel with parityHalt := h } }
      | .watchdogTimer o => .next { s with panel := { s.panel with watchdogOverride := o } }
      | .interleaveSelect d => .next { s with panel := { s.panel with interleaveDiagnostic := d } }
      | _ => .next (if s.panel.compute == .idle then idleAction a s else s)

/-! ### The other events -/

/-- A memory parity error in the word at an actual address (60_exceptions R606): what it reads as is a free value (U31, log
32); the indicator of its module is set; and the level is signalled, or, with PARITY ERROR MODE at HALT, the CPU halts
and the module is unavailable to any access; a step in progress then ends (log 32). -/
def parityError (a : WordAddr) (s : State) : State :=
  let bit := moduleBitAt s a
  let t := { (draw s).2 with
    mem := if installedAddr s a then coreSetWord s.mem a (draw s).1 else s.mem
    memFault := s.memFault ||| bit }
  if s.panel.parityHalt then
    stepEnds { t with halts := { t.halts with parity := true }, unavailable := t.unavailable ||| bit }
  else signal t 6

/-- An event of the environment (70_reset R660). -/
def applyEvent (e : Event) (s : State) : Host.Outcome State Fault Refusal :=
  match e with
  | .countPulse n => .next (signal s (2 + n.toNat))
  | .external g k => .next (if g.toNat < 2 then s else signal s (16 * (g.toNat - 2) + 16 + k.toNat))
  | .powerOn => .next (signal s 0)
  | .powerOff => .next (signal s 1)
  | .interruptSwitch => .next (signal s 13)
  | .parityError a => .next (parityError a s)
  | .overTemperature m present =>
    .next (if present then
        { s with overTemp := s.overTemp ||| moduleBit m, memFault := s.memFault ||| moduleBit m }
      else { s with overTemp := s.overTemp &&& ~~~moduleBit m })
  | .io e => .next (ioEvent e s)
  | .element e => .next { s with elements := e :: s.elements.filter (fun k => k.addr != e.addr) }
  | .removeElement a => .next { s with elements := s.elements.filter (fun k => k.addr != a) }
  | .panel a => panelAction a s

/-- The SENSE switches that RD and WD copy (10_state R45, 70_reset R664). -/
def senseSwitches (s : State) : BitVec 4 :=
  match s.panel.controlMode with
  | .remote => s.panel.consoleSense
  | .localPanel => s.panel.sense
  | .lock => s.panel.sense ||| s.panel.consoleSense

end Sys2Proof.Machine
end

