-- ==== Sys2Proof/Machine/Control.lean ====
section
/-! DEFINITION. The control instructions (spec 48_control R460 to R487). All are privileged. -/

namespace Sys2Proof.Machine

open Sys2Proof

/-- LPSD (R462): TAKING THE RETURN from a trap or interrupt routine; bits 8 to 11 are flags. -/
def execLpsd (r : BitVec 4) (m : MemRef) (s : State) : Host.Outcome State Fault Refusal :=
  finish do
    requireMaster s
    let ed ← operandDouble m s
    .ok (loadPsd r ed s)

/-- XPSD (R463, R464) outside a trap or interrupt location. -/
def execXpsd (r : BitVec 4) (m : MemRef) (s : State) : Host.Outcome State Fault Refusal :=
  finish do
    requireMaster s
    exchangePsd r m s

/-- LRP (R467); the R field is ignored. -/
def execLrp (_r : BitVec 4) (m : MemRef) (s : State) : Host.Outcome State Fault Refusal :=
  finish do
    requireMaster s
    let w ← operandWord m s
    .ok { s with psd := { s.psd with rp := fld w 23 5 } }

/-! ### MMC -/

/-- The memory control storage that bits 12 to 14 select (R470). -/
inductive ControlStorage where
  | map | access | locks
  deriving DecidableEq, Repr

/-- The selection of R470; all 0's or more than one 1 is undefined (U13). -/
def controlStorage (sel : BitVec 3) : Option ControlStorage :=
  if sel = 4 then some .map else if sel = 2 then some .access else if sel = 1 then some .locks else none

/-- The selected storage is implemented (R470). -/
def storageInstalled (c : Installation) : ControlStorage → Bool
  | .map => c.hasMap
  | .access => c.hasMap
  | .locks => c.hasLocks

/-- Register `k` of a storage of 256 registers. -/
def putEntry {w : Nat} (v : Vector (BitVec w) 256) (k : BitVec 8) (x : BitVec w) : Vector (BitVec w) 256 :=
  v.set k.toNat x (BitVec.isLt _)

/-- The four page addresses of an image word, from page `p` on (R471). -/
def loadMapWord (v : Vector (BitVec 8) 256) (p : BitVec 8) (w : Word) : Vector (BitVec 8) 256 :=
  putEntry (putEntry (putEntry (putEntry v p (fld w 0 8)) (p + 1) (fld w 8 8)) (p + 2) (fld w 16 8)) (p + 3) (fld w 24 8)

/-- The sixteen 2-bit codes of an image word, from register `p` on (R471). -/
def loadCodeWord (v : Vector (BitVec 2) 256) (p : BitVec 8) (w : Word) : Vector (BitVec 2) 256 :=
  (List.range 16).foldl (fun acc k => putEntry acc (p + BitVec.ofNat 8 k) (fld w (2 * k) 2)) v

/-- The control start of R471: a page number, or for the 2-bit storages a page number divided by 4. -/
def controlStart (c : ControlStorage) (w : Word) : BitVec 8 :=
  match c with
  | .map => fld w 15 8
  | .access => fld w 15 6 ++ 0#2
  | .locks => fld w 15 6 ++ 0#2

/-- Ru1 after an image word: the count goes down by 1, the control start up by four registers or by sixteen (R471). -/
def nextControl (c : ControlStorage) (w : Word) : Word :=
  let counted := setFld w 0 ((fld w 0 8 : BitVec 8) - 1)
  match c with
  | .map => setFld counted 15 ((fld w 15 8 : BitVec 8) + 4)
  | .access => setFld counted 15 ((fld w 15 6 : BitVec 6) + 4)
  | .locks => setFld counted 15 ((fld w 15 6 : BitVec 6) + 4)

/-- An image word goes to its storage (R471). -/
def loadStorage (c : ControlStorage) (p : BitVec 8) (w : Word) (s : State) : State :=
  match c with
  | .map => { s with map := loadMapWord s.map p w }
  | .access => { s with acc := loadCodeWord s.acc p w }
  | .locks => { s with lock := loadCodeWord s.lock p w }

/-- One image word of MMC (R471); while the count, read again from Ru1, is not 0, IA stays at the MMC. -/
def moveControlWord (c : ControlStorage) (r : RegNum) (s : State) : Except Stop State := do
  let image : WordAddr := fld (getReg s r) 15 17
  let control := getReg s (ru1 r)
  let w ← readWord s image
  let t := setReg (loadStorage c (controlStart c control) w s) r (setFld (getReg s r) 15 (image + 1))
  let u := setReg t (ru1 r) (nextControl c control)
  .ok (again ((fld (getReg u (ru1 r)) 0 8 : BitVec 8) != 0) u)

/-- x[R] and x[Ru1] take any value (R470). -/
def freePair (r : RegNum) (s : State) : State :=
  let (v, t) := draw s
  let (w, u) := draw t
  setReg (setReg u r v) (ru1 r) w

/-- The selected storage takes any contents (R471 with no layout, D31). -/
def freeStorage (c : ControlStorage) (s : State) : State :=
  let t := { s with draws := s.draws + 256 }
  match c with
  | .map => { t with map := Vector.ofFn (fun k => (Config.freeWord (s.draws + k.val)).setWidth 8) }
  | .access => { t with acc := Vector.ofFn (fun k => (Config.freeWord (s.draws + k.val)).setWidth 2) }
  | .locks => { t with lock := Vector.ofFn (fun k => (Config.freeWord (s.draws + k.val)).setWidth 2) }

/-- One step of MMC, one image word (R470, R471). -/
def stepMmc (r : RegNum) (sel : BitVec 3) (s : State) : Except Stop State := do
  requireMaster s
  match controlStorage sel with
  | none => .error (.refuse .mmcSelector)
  | some c =>
    if !storageInstalled s.cfg c then .ok (freePair r s)
    else match s.cfg.mmcLayout with
      | .unset => .ok (freePair r (freeStorage c s))
      | .standard => if isOdd r then .error (.refuse .mmcOddRegister) else moveControlWord c r s

/-- MMC (R470, R471): the indirect bit and the address field are ignored. -/
def execMmc (_ind : Bool) (r : RegNum) (sel : BitVec 3) (_ra : WordAddr) (s : State) :
    Host.Outcome State Fault Refusal :=
  finish (stepMmc r sel s)

/-- WAIT (R475): the address computation, then the halt. -/
def execWait (_r : BitVec 4) (m : MemRef) (s : State) : Host.Outcome State Fault Refusal :=
  finish do
    requireMaster s
    let _ ← eaWord m s
    .ok { s with halts := { s.halts with wait := true } }

/-! ### RD and WD -/

/-- The mode of a direct address, bits 16 to 19 (R476). -/
def directMode (a : BitVec 16) : BitVec 4 := fld a 0 4

/-- No element answers: the watchdog trap, or no end at all with the timer at OVERRIDE (R476). -/
def noElement (s : State) : Except Stop State :=
  if s.panel.watchdogOverride then .error (.fault .stuckDirectLines) else .error (.trap .watchdog s)

/-- The element at an address of the direct lines (R476). RD mode 1 is unassigned (R487). -/
def elementAt (a : BitVec 16) (s : State) : Option Element := s.elements.find? (fun e => e.addr == a)

/-- `Direct(A, read)`: CC3, CC4 and the data; none when nothing responds to a read at that address (R476). -/
def readAnswer (a : BitVec 16) (s : State) : Option (BitVec 2 × Word) := (elementAt a s).bind (fun e => e.read)

/-- The condition code information that an element returns for a word (R479). -/
def WriteAnswer.to (w : WriteAnswer) (data : Word) : Option (BitVec 2) :=
  match w.special.find? (fun p => p.1 == data) with
  | some p => p.2
  | none => w.other

/-- `Direct(A, write, data)`: CC3 and CC4, if the element returns them; none when nothing responds to a write at that
address (R476, R479). -/
def writeAnswer (a : BitVec 16) (data : Word) (s : State) : Option (Option (BitVec 2)) :=
  (elementAt a s).bind (fun e => e.write.map (fun w => w.to data))

/-- RD mode 0 after the condition code has been set (R477). -/
def readInternal (r : RegNum) (a : BitVec 16) (s : State) : State :=
  if r = 0 then s
  else if a = s.cfg.rdMemFaultAddr then { setReg s r (s.memFault.setWidth 32) with memFault := s.overTemp }
  else if a = s.cfg.rdSenseAddr then s
  else setReg (draw s).2 r (draw s).1

/-- RD (R477, R487). -/
def execRd (r : RegNum) (m : MemRef) (s : State) : Host.Outcome State Fault Refusal :=
  finish do
    requireMaster s
    let a ← elementAddress m s
    if directMode a = 0 then .ok (readInternal r a (setCc s (senseSwitches s)))
    else if directMode a = 1 then noElement s
    else match readAnswer a s with
      | none => noElement s
      | some (cc, data) =>
        let t := setCc34 (cc.getMsbD 0) (cc.getMsbD 1) s
        .ok (if r = 0 then t else setReg t r data)

/-- The interrupt level that selection bit 16 + `k` of a group names (R486, 60_exceptions R581); none for a position with
no level and for group 1. -/
def selectedLevel (g : BitVec 4) (k : Nat) : Option Nat :=
  if g.toNat ≥ 2 then some (16 * (g.toNat - 2) + 16 + k)
  else if g.toNat = 0 ∧ k < 12 ∧ k ≠ 5 then some (k + 2)
  else none

/-- What function `f` of interrupt control does to a level whose selection bit is `sel` (R486). -/
def controlLevel (f : BitVec 3) (sel : Bool) (l : Level) : Level :=
  match f.toNat with
  | 1 => if sel then { l with state := .disarmed } else l
  | 2 => if sel then ⟨.armed, true⟩ else l
  | 3 => if sel then ⟨.armed, false⟩ else l
  | 4 => if sel then { l with enabled := true } else l
  | 5 => if sel then { l with enabled := false } else l
  | 6 => { l with enabled := sel }
  | 7 => if sel && l.state == .armed then { l with state := .waiting } else l
  | _ => l

/-- One level of a group under interrupt control; a level that is not installed is not there to act on (R486). -/
def controlOne (f : BitVec 3) (g : BitVec 4) (data : Word) (s : State) (k : Nat) : State :=
  match selectedLevel g k with
  | none => s
  | some n =>
    if levelInstalled s.cfg n then setLevel s n (controlLevel f (data.getMsbD (16 + k)) (level s n)) else s

/-- WD mode 1, interrupt control (R486). -/
def controlInterrupts (a : BitVec 16) (data : Word) (s : State) : Except Stop State :=
  if (fld a 5 3 : BitVec 3) = 0 then .error (.refuse .interruptControlFunction)
  else .ok ((List.range 16).foldl (controlOne (fld a 5 3) (fld a 12 4) data) s)

/-- WD mode 0 after the condition code has been set (R480 to R485). -/
def writeInternal (a : BitVec 16) (s : State) : State :=
  let c := a.getMsbD 13
  let i := a.getMsbD 14
  let e := a.getMsbD 15
  let p := s.psd
  if a &&& 0xFFF8 = 0x0030 then { s with psd := { p with ci := p.ci || c, ii := p.ii || i, ei := p.ei || e } }
  else if a &&& 0xFFF8 = 0x0020 then { s with psd := { p with ci := p.ci && !c, ii := p.ii && !i, ei := p.ei && !e } }
  else if a = s.cfg.wdSetAlarmAddr then { s with alarm := true }
  else if a = s.cfg.wdResetAlarmAddr then { s with alarm := false }
  else if a = s.cfg.wdTogglePcfAddr then { s with pcf := !s.pcf, alarm := false }
  else { s with flagged := true }

/-- The word that WD sends: 32 zeros when R is 0 (R479). -/
def directData (r : RegNum) (s : State) : Word := if r = 0 then 0 else getReg s r

/-- An element takes a word (R476). -/
def writeElement (a : BitVec 16) (data : Word) (s : State) : State :=
  { s with elements := s.elements.map (fun e => if e.addr == a then { e with written := some data } else e) }

/-- WD (R479 to R486). -/
def execWd (r : RegNum) (m : MemRef) (s : State) : Host.Outcome State Fault Refusal :=
  finish do
    requireMaster s
    let a ← elementAddress m s
    if directMode a = 0 then .ok (writeInternal a (setCc s (senseSwitches s)))
    else if directMode a = 1 then controlInterrupts a (directData r s) s
    else match writeAnswer a (directData r s) s with
      | none => noElement s
      | some none => .ok (writeElement a (directData r s) s)
      | some (some cc) => .ok (setCc34 (cc.getMsbD 0) (cc.getMsbD 1) (writeElement a (directData r s) s))

end Sys2Proof.Machine
end

