-- ==== Sys2Proof/Machine/Decimal.lean ====
section
/-! DEFINITION. The optional decimal instructions (spec 45_decimal). A packed number of `n` bytes is a natural number
below 2^(8n); its nibble 0 is the high-order one (R341). -/

namespace Sys2Proof.Machine

open Sys2Proof

/-! ### Packed numbers (R341) -/

/-- Nibble `i` of the `n`-byte number `p`. -/
def nibble (p n i : Nat) : Nat := p / 16 ^ (2 * n - 1 - i) % 16

/-- `legal(b)`: digits 0 to 9 and a sign code. -/
def legalPacked (p n : Nat) : Bool :=
  (List.range (2 * n - 1)).all (fun i => nibble p n i ≤ 9) && 10 ≤ p % 16

/-- `isneg(b)`: the sign code is X'B' or X'D'. -/
def negPacked (p : Nat) : Bool := p % 16 == 11 || p % 16 == 13

/-- The number with the `k` low-order nibbles of `q` as decimal digits. -/
def fromDigits : Nat → Nat → Nat
  | 0, _ => 0
  | k + 1, q => fromDigits k (q / 16) * 10 + q % 16

/-- The `k` low-order decimal digits of `m` as nibbles. -/
def toDigits : Nat → Nat → Nat
  | 0, _ => 0
  | k + 1, m => toDigits k (m / 10) * 16 + m % 10

/-- `mag(b)`. -/
def magPacked (p n : Nat) : Nat := fromDigits (2 * n - 1) (p / 16)

/-- `val(b)`. -/
def valPacked (p n : Nat) : Int := if negPacked p then -(magPacked p n : Int) else magPacked p n

/-- `mk(m, neg, n)`: the generated sign codes are X'C' and X'D'. -/
def mkPacked (m : Nat) (neg : Bool) (n : Nat) : Nat := toDigits (2 * n - 1) m * 16 + (if neg then 13 else 12)

/-- Some nibble of the 16-byte number is a sign code (R345). -/
def hasSignCode (p : Nat) : Bool := (List.range 32).any (fun i => 10 ≤ nibble p 16 i)

/-! ### The decimal accumulator and the operand (R343, R344) -/

/-- `DECA`. -/
def getDeca (s : State) : Nat := (getReg s 12 ++ getReg s 13 ++ getReg s 14 ++ getReg s 15).toNat

/-- `DECA <- v`. -/
def setDeca (s : State) (v : Nat) : State :=
  let b : BitVec 128 := BitVec.ofNat 128 v
  setReg (setReg (setReg (setReg s 12 (fld b 0 32)) 13 (fld b 32 32)) 14 (fld b 64 32)) 15 (fld b 96 32)

/-- The bytes at successive byte addresses, modulo 2^19, as one number. -/
def readBytes (s : State) : Nat → ByteAddr → Nat → Except Stop Nat
  | 0, _, acc => .ok acc
  | k + 1, a, acc => do
    let b ← readByte s a
    readBytes s k (a + 1) (acc * 256 + b.toNat)

/-- `EDO` (R344). -/
def decimalOperand (r : BitVec 4) (m : MemRef) (s : State) : Except Stop Nat := do
  let a ← eaByte m s
  readBytes s (decimalLength r) a 0

/-! ### Faults and flags (R345 to R347) -/

/-- The end of an aborted instruction: CC1 and CC2 tell the reason, the trap is taken if DM is set. -/
def decimalAbort (illegal : Bool) (s : State) : Except Stop State :=
  let t := setCc12 illegal (!illegal) s
  if t.psd.dm then .error (.trap .decimalFault t) else .ok t

/-- `decimal_illegal()` (R345). -/
def decimalIllegal (s : State) : Except Stop State := decimalAbort true s
/-- `decimal_overflow()` (R346). -/
def decimalOverflow (s : State) : Except Stop State := decimalAbort false s

/-- `dcc34` for a magnitude and a sign (R347). -/
def decimalFlags (m : Nat) (neg : Bool) (s : State) : State := setCc34 (m != 0 && !neg) (m != 0 && neg) s

/-- Load DECA with a number in generated form, CC2 as given (R349, R356). DESIGN CHOICE (log 29), for DL, DA, DS, DM, DSA and
PACK, whose rules test DECA after the load (R349 to R357): CC3 and CC4 test the number that is loaded, also where RP selects
a block that is not installed and discards it. -/
def loadDeca (m : Nat) (neg : Bool) (cc2 : Bool) (s : State) : State :=
  decimalFlags m neg (setCc12 false cc2 (setDeca s (mkPacked m neg 16)))

/-- Load DECA with an integer that fits, zero being positive (R351, R352, R354). -/
def loadDecaInt (x : Int) (s : State) : State := loadDeca x.natAbs (x < 0) false s

/-- The indeterminate result of DM and DD: DECA and CC are free values (R352, R353, U5). -/
def freeDeca (s : State) : State :=
  let (a, s1) := draw s
  let (b, s2) := draw s1
  let (c, s3) := draw s2
  let (d, s4) := draw s3
  let (e, s5) := draw s4
  setCc (setReg (setReg (setReg (setReg s5 12 a) 13 b) 14 c) 15 d) (e.setWidth 4)

/-! ### Stores of several bytes (R348, U7) -/

/-- Store bytes at successive byte addresses. -/
def storeBytes : List Byte → ByteAddr → State → Except Stop State
  | [], _, s => .ok s
  | b :: rest, a, s => do
    let t ← writeByte s a b
    storeBytes rest (a + 1) t

/-- Store those bytes whose bit in `mask` is set and whose location may be written. -/
def storeSome (mask : Word) : Nat → List Byte → ByteAddr → State → State
  | _, [], _, s => s
  | i, b :: rest, a, s =>
    let t := if mask.getLsbD i then (match writeByte s a b with | .ok u => u | .error _ => s) else s
    storeSome mask (i + 1) rest (a + 1) t

/-- The operand store of DST and UNPK: when a byte faults, any subset of the operand's bytes may have been written, a free
value (R348, U7). -/
def storeOperand (bytes : List Byte) (a : ByteAddr) (s : State) : Except Stop State :=
  match storeBytes bytes a s with
  | .ok t => .ok t
  | .error (.trap c _) => .error (.trap c (storeSome (draw s).1 0 bytes a (draw s).2))
  | .error e => .error e

/-- The `n` low-order bytes of a number, the high-order one first. -/
def lowBytes : Nat → Nat → List Byte
  | 0, _ => []
  | k + 1, v => BitVec.ofNat 8 (v / 256 ^ k) :: lowBytes k v

/-! ### The instructions -/

/-- DL (R349). -/
def execDl (r : BitVec 4) (m : MemRef) (s : State) : Host.Outcome State Fault Refusal :=
  finish do
    requireOption s.cfg.hasDecimal s
    let p ← decimalOperand r m s
    let n := decimalLength r
    if !legalPacked p n then decimalIllegal s
    else .ok (loadDeca (magPacked p n) (negPacked p) false s)

/-- DST (R350): only the low-order bytes are checked and stored. DESIGN CHOICE (log 45): CC2 tests DECA as it was before the
stores, also where a destination byte lies in registers 12 to 15. -/
def execDst (r : BitVec 4) (m : MemRef) (s : State) : Host.Outcome State Fault Refusal :=
  finish do
    requireOption s.cfg.hasDecimal s
    let a ← eaByte m s
    let n := decimalLength r
    let low := getDeca s % 256 ^ n
    if !legalPacked low n then decimalIllegal s
    else do
      let t ← storeOperand (lowBytes n (mkPacked (magPacked low n) (negPacked low) n)) a s
      .ok (setCc12 false (getDeca s / 256 ^ n != 0) t)

/-- The sum or difference `x` of two legal numbers goes to DECA, or overflows (R351, R354). -/
def decimalSum (x : Int) (s : State) : Except Stop State :=
  if 10 ^ 31 ≤ x.natAbs then decimalOverflow s else .ok (loadDecaInt x s)

/-- DA (R351). -/
def execDa (r : BitVec 4) (m : MemRef) (s : State) : Host.Outcome State Fault Refusal :=
  finish do
    requireOption s.cfg.hasDecimal s
    let p ← decimalOperand r m s
    let n := decimalLength r
    if !(legalPacked p n && legalPacked (getDeca s) 16) then decimalIllegal s
    else decimalSum (valPacked (getDeca s) 16 + valPacked p n) s

/-- DS (R354). -/
def execDs (r : BitVec 4) (m : MemRef) (s : State) : Host.Outcome State Fault Refusal :=
  finish do
    requireOption s.cfg.hasDecimal s
    let p ← decimalOperand r m s
    let n := decimalLength r
    if !(legalPacked p n && legalPacked (getDeca s) 16) then decimalIllegal s
    else decimalSum (valPacked (getDeca s) 16 - valPacked p n) s

/-- The preconditions of DM, without which its result is indeterminate (R352). -/
def multiplyPrepared (n : Nat) (s : State) : Bool :=
  legalPacked (getDeca s) 16 && getReg s 12 == 0 && getReg s 13 == 0 && decide (n ≤ 8)

/-- DM (R352). -/
def execDm (r : BitVec 4) (m : MemRef) (s : State) : Host.Outcome State Fault Refusal :=
  finish do
    requireOption s.cfg.hasDecimal s
    let p ← decimalOperand r m s
    let n := decimalLength r
    if !(legalPacked p n && hasSignCode (getDeca s)) then decimalIllegal s
    else if !multiplyPrepared n s then .ok (freeDeca s)
    else .ok (loadDecaInt (valPacked (getDeca s) 16 * valPacked p n) s)

/-- The overflow of DD: a zero divisor, a quotient of more than 15 digits, or, with `DD_LONG_DIVISOR_OVERFLOWS`, a divisor of
more than 8 bytes (R353, D23). -/
def decimalDivideOverflows (c : Installation) (n : Nat) (a b : Nat) : Bool :=
  b == 0 || decide (b ≤ a / 10 ^ 15) || (decide (8 < n) && c.ddLongDivisorOverflows)

/-- The divisor of a DD that does not overflow has more than 15 digits, so that its remainder might not fit: the result is
indeterminate (D23, U5, 70_reset R672, log 18). -/
def divisorTooLong (n b : Nat) : Bool := decide (8 < n) && decide (10 ^ 15 ≤ b)

/-- The result of DD: remainder to registers 12 and 13, quotient to 14 and 15, flags of the quotient (R353). -/
def loadQuotient (a b : Nat) (aneg bneg : Bool) (s : State) : State :=
  let q := a / b
  let qneg := q != 0 && (aneg != bneg)
  let t := setDeca s (mkPacked (a % b) aneg 8 * 256 ^ 8 + mkPacked q qneg 8)
  setCc34 (q != 0 && !qneg) qneg (setCc12 false false t)

/-- DD (R353). -/
def execDd (r : BitVec 4) (m : MemRef) (s : State) : Host.Outcome State Fault Refusal :=
  finish do
    requireOption s.cfg.hasDecimal s
    let p ← decimalOperand r m s
    let n := decimalLength r
    let d := getDeca s
    if !(legalPacked p n && hasSignCode d) then decimalIllegal s
    else if !legalPacked d 16 then .ok (freeDeca s)
    else if decimalDivideOverflows s.cfg n (magPacked d 16) (magPacked p n) then decimalOverflow s
    else if divisorTooLong n (magPacked p n) then .ok (freeDeca s)
    else .ok (loadQuotient (magPacked d 16) (magPacked p n) (negPacked d) (negPacked p) s)

/-- DC (R355). -/
def execDc (r : BitVec 4) (m : MemRef) (s : State) : Host.Outcome State Fault Refusal :=
  finish do
    requireOption s.cfg.hasDecimal s
    let p ← decimalOperand r m s
    let n := decimalLength r
    if !(legalPacked p n && legalPacked (getDeca s) 16) then decimalIllegal s
    else
      let a := valPacked (getDeca s) 16
      let b := valPacked p n
      .ok (setCc34 (b < a) (a < b) (setCc12 false false s))

/-- The shift count of DSA: bits 16 to 31 of the word part of the effective byte address, held to -31 .. 31 (R356). -/
def decimalShiftCount (a : ByteAddr) : Int := max (-31) (min 31 ((fld a 1 16 : BitVec 16).toInt))

/-- DSA (R356); the L field is not used. -/
def execDsa (_r : BitVec 4) (m : MemRef) (s : State) : Host.Outcome State Fault Refusal :=
  finish do
    requireOption s.cfg.hasDecimal s
    let a ← eaByte m s
    let c := decimalShiftCount a
    let d := getDeca s
    if !legalPacked d 16 then decimalIllegal s
    else if 0 ≤ c then
      let x := magPacked d 16 * 10 ^ c.toNat
      .ok (loadDeca (x % 10 ^ 31) (negPacked d) (decide (10 ^ 31 ≤ x)) s)
    else .ok (loadDeca (magPacked d 16 / 10 ^ (-c).toNat) (negPacked d) false s)

/-- The packed number of `k` zoned bytes: the low nibbles as digits, the zone of the last byte as the sign (R357). -/
def packZoned : Nat → Nat → Nat
  | 0, _ => 0
  | k + 1, z => packZoned k (z / 256) * 16 + z % 16

/-- PACK (R357). -/
def execPack (r : BitVec 4) (m : MemRef) (s : State) : Host.Outcome State Fault Refusal :=
  finish do
    requireOption s.cfg.hasDecimal s
    let a ← eaByte m s
    let n := decimalLength r
    let z ← readBytes s (2 * n - 1) a 0
    let p := packZoned (2 * n - 1) z * 16 + z / 16 % 16
    if !legalPacked p n then decimalIllegal s
    else .ok (loadDeca (magPacked p n) (negPacked p) false s)

/-- The zoned bytes of the `k` low-order digit nibbles of `q`, the last with the zone `sign` (R358). -/
def zonedBytes (sign : Nat) : Nat → Nat → List Byte
  | 0, _ => []
  | k + 1, q => BitVec.ofNat 8 ((if k = 0 then sign else 15) * 16 + q / 16 ^ k % 16) :: zonedBytes sign k q

/-- UNPK (R358). DESIGN CHOICE (log 45): CC2 tests DECA as it was before the stores, also where a destination byte lies in
registers 12 to 15. -/
def execUnpk (r : BitVec 4) (m : MemRef) (s : State) : Host.Outcome State Fault Refusal :=
  finish do
    requireOption s.cfg.hasDecimal s
    let a ← eaByte m s
    let n := decimalLength r
    let d := getDeca s
    if !legalPacked d 16 then decimalIllegal s
    else do
      let t ← storeOperand (zonedBytes (if negPacked d then 13 else 12) (2 * n - 1) (d / 16)) a s
      .ok (setCc12 false (d / 256 ^ n != 0) t)

end Sys2Proof.Machine
end

