-- ==== Sys2Proof/Machine/FixedPoint.lean ====
section
/-! DEFINITION. Fixed-point arithmetic instructions (spec 41_fixed_point). -/

namespace Sys2Proof.Machine

open Sys2Proof

/-- Add `v` to register R: result, the four flags, the overflow trap (R211, R212). -/
def addToReg (r : RegNum) (v : Word) (s : State) : Except Stop State :=
  overflowTrap (addOverflows (getReg s r) v) (addFlags (getReg s r) v (setReg s r (getReg s r + v)))

/-- Subtract `v` from register R (R211, R212). -/
def subFromReg (r : RegNum) (v : Word) (s : State) : Except Stop State :=
  overflowTrap (subOverflows (getReg s r) v) (subFlags (getReg s r) v (setReg s r (getReg s r - v)))

/-- AI (R213). -/
def execAi (r : RegNum) (v : BitVec 20) (s : State) : Host.Outcome State Fault Refusal :=
  finish (addToReg r (immediate v) s)

/-- AH (R214). -/
def execAh (r : RegNum) (m : MemRef) (s : State) : Host.Outcome State Fault Refusal :=
  finish do
    let v ← operandHalf m s
    addToReg r (v.signExtend 32) s

/-- AW (R215). -/
def execAw (r : RegNum) (m : MemRef) (s : State) : Host.Outcome State Fault Refusal :=
  finish do
    let v ← operandWord m s
    addToReg r v s

/-- AD and SD with an odd R field: x[R] and CC are free values, and the overflow trap follows the CC2 drawn (R216, R219,
U1). -/
def freeDouble (r : RegNum) (s : State) : Except Stop State :=
  let (v, t) := draw s
  let (c, u) := draw t
  let w := setCc (setReg u r v) (c.setWidth 4)
  overflowTrap w.psd.cc2 w

/-- AD (R216). -/
def execAd (r : RegNum) (m : MemRef) (s : State) : Host.Outcome State Fault Refusal :=
  finish do
    let v ← operandDouble m s
    if isOdd r then freeDouble r s
    else overflowTrap (addOverflows (getPair s r) v) (addFlags (getPair s r) v (setPair s r (getPair s r + v)))

/-- SH (R217). -/
def execSh (r : RegNum) (m : MemRef) (s : State) : Host.Outcome State Fault Refusal :=
  finish do
    let v ← operandHalf m s
    subFromReg r (v.signExtend 32) s

/-- SW (R218). -/
def execSw (r : RegNum) (m : MemRef) (s : State) : Host.Outcome State Fault Refusal :=
  finish do
    let v ← operandWord m s
    subFromReg r v s

/-- SD (R219). -/
def execSd (r : RegNum) (m : MemRef) (s : State) : Host.Outcome State Fault Refusal :=
  finish do
    let v ← operandDouble m s
    if isOdd r then freeDouble r s
    else overflowTrap (subOverflows (getPair s r) v) (subFlags (getPair s r) v (setPair s r (getPair s r - v)))

/-- The 64-bit product to R and then Ru1, so that an odd R ends with the low half; flags of the exact product
(R220, R222). -/
def loadProduct (r : RegNum) (p : Int) (s : State) : State :=
  let v : Double := BitVec.ofInt 64 p
  productFlags p (setReg (setReg s r (hiWord v)) (ru1 r) (loWord v))

/-- MI (R220). -/
def execMi (r : RegNum) (v : BitVec 20) (s : State) : Host.Outcome State Fault Refusal :=
  finish (.ok (loadProduct r ((getReg s (ru1 r)).toInt * (immediate v).toInt) s))

/-- MH (R221). -/
def execMh (r : RegNum) (m : MemRef) (s : State) : Host.Outcome State Fault Refusal :=
  finish do
    let v ← operandHalf m s
    let p : Word := BitVec.ofInt 32 ((fld (getReg s r) 16 16 : Half).toInt * v.toInt)
    .ok (test34 p (setReg s (ru1 r) p))

/-- MW (R222). -/
def execMw (r : RegNum) (m : MemRef) (s : State) : Host.Outcome State Fault Refusal :=
  finish do
    let v ← operandWord m s
    .ok (loadProduct r ((getReg s (ru1 r)).toInt * v.toInt) s)

/-- The quotient cannot be represented (R225, D17, U2). -/
def divideOverflows (c : Installation) (n d : Int) : Bool :=
  d == 0 || overflows 32 (n.tdiv d) || (c.divMinqOverflows && n.tdiv d == -(2 ^ 31))

/-- DW and DH on overflow: only CC2 changes; the trap if AM is set (R212, R223, R224). -/
def divideAborted (s : State) : Except Stop State := overflowTrap true (setCc2 true s)

/-- DH (R223). -/
def execDh (r : RegNum) (m : MemRef) (s : State) : Host.Outcome State Fault Refusal :=
  finish do
    let v ← operandHalf m s
    let n := (getReg s r).toInt
    if divideOverflows s.cfg n v.toInt then divideAborted s
    else
      let q : Word := BitVec.ofInt 32 (n.tdiv v.toInt)
      .ok (test34 q (setCc2 false (setReg s r q)))

/-- DW (R224). -/
def execDw (r : RegNum) (m : MemRef) (s : State) : Host.Outcome State Fault Refusal :=
  finish do
    let v ← operandWord m s
    let n := if isOdd r then (getReg s r).toInt else (getPair s r).toInt
    if divideOverflows s.cfg n v.toInt then divideAborted s
    else
      let q : Word := BitVec.ofInt 32 (n.tdiv v.toInt)
      let rem : Word := BitVec.ofInt 32 (n.tmod v.toInt)
      let t := if isOdd r then setReg s r q else setReg (setReg s r rem) (ru1 r) q
      .ok (test34 q (setCc2 false t))

/-- AWM (R226). -/
def execAwm (r : RegNum) (m : MemRef) (s : State) : Host.Outcome State Fault Refusal :=
  finish do
    let a ← eaWord m s
    let v ← readWord s a
    let t ← writeWord s a (v + getReg s r)
    overflowTrap (addOverflows v (getReg s r)) (addFlags v (getReg s r) t)

/-- MTB (R227). -/
def execMtb (r : RegNum) (m : MemRef) (s : State) : Host.Outcome State Fault Refusal :=
  finish do
    let a ← eaByte m s
    let v ← readByte s a
    if r = 0 then .ok (byteTestFlags false v s)
    else do
      let k : Byte := modifyValue 8 r
      let t ← writeByte s a (v + k)
      .ok (byteTestFlags (addCarries v k) (v + k) t)

/-- MTH (R228). -/
def execMth (r : RegNum) (m : MemRef) (s : State) : Host.Outcome State Fault Refusal :=
  finish do
    let a ← eaHalf m s
    let v ← readHalf s a
    if r = 0 then .ok (test34 v (setCc12 false false s))
    else do
      let k : Half := modifyValue 16 r
      let t ← writeHalf s a (v + k)
      overflowTrap (addOverflows v k) (addFlags v k t)

/-- MTW (R229). -/
def execMtw (r : RegNum) (m : MemRef) (s : State) : Host.Outcome State Fault Refusal :=
  finish do
    let a ← eaWord m s
    let v ← readWord s a
    if r = 0 then .ok (test34 v (setCc12 false false s))
    else do
      let k : Word := modifyValue 32 r
      let t ← writeWord s a (v + k)
      overflowTrap (addOverflows v k) (addFlags v k t)

end Sys2Proof.Machine
end

