-- ==== Sys2Proof/Machine/Floating.lean ====
section
/-! DEFINITION. The optional floating-point instructions (spec 44_floating_point). Fractions are natural numbers and
characteristics integers until the final tests (R306). -/

namespace Sys2Proof.Machine

open Sys2Proof

/-- An unpacked number: sign, characteristic, fraction (R301). -/
structure Unpacked where
  neg : Bool
  ch : Int
  fr : Nat
  deriving DecidableEq, Repr

/-- `unpack(v, n)` (R301). -/
def unpackFloat {n : Nat} (v : BitVec n) : Unpacked :=
  let m := absolute v
  ⟨v.msb, (fld m 1 7 : BitVec 7).toNat, m.toNat % 2 ^ (n - 8)⟩

/-- `pack(neg, ch, fr, n)` (R301). -/
def packFloat (n : Nat) (neg : Bool) (ch : Int) (fr : Nat) : BitVec n :=
  let r : BitVec n := BitVec.ofNat n (ch.toNat * 2 ^ (n - 8) + fr)
  if neg then -r else r

/-- The end of a floating-point operation: a fault with its condition code, or a result with its own (R307, R308). -/
inductive FloatResult (n : Nat) where
  | fault (cc : BitVec 4)
  | result (v : BitVec n) (cc : BitVec 4)
  deriving DecidableEq, Repr

/-- The three mode bits (R304). -/
structure FloatMode where
  fs : Bool
  fz : Bool
  fn : Bool
  deriving DecidableEq, Repr

/-- The mode of the PSD. -/
def floatMode (p : Psd) : FloatMode := ⟨p.fs, p.fz, p.fn⟩

/-- A code for a negative result or for a positive one. -/
def signCode (neg : Bool) (negative positive : BitVec 4) : BitVec 4 := if neg then negative else positive

/-- Multiply by 16 until the number has `w` digits, counting the digits (R311, R320). -/
def normalizeDigits (w : Nat) : Nat → Nat → Nat × Nat
  | 0, f => (f, 0)
  | k + 1, f =>
    if f < 16 ^ (w - 1) then
      let (g, c) := normalizeDigits w k (f * 16)
      (g, c + 1)
    else (f, 0)

/-- The aligned, exact sum of R311 with its characteristic, after the carry step: sign, magnitude of `w` digits,
characteristic. `guard` is the number of guard digits. -/
def alignedSum (a b : Unpacked) (w guard : Nat) : Bool × Nat × Int :=
  let f1 := a.fr * 16 ^ guard
  let f2 := b.fr * 16 ^ guard
  let (g1, g2, c) :=
    if b.ch ≤ a.ch then (f1, f2 / 16 ^ (a.ch - b.ch).toNat, a.ch)
    else (f1 / 16 ^ (b.ch - a.ch).toNat, f2, b.ch)
  let sum : Int := (if a.neg then -(g1 : Int) else g1) + (if b.neg then -(g2 : Int) else g2)
  let mag := sum.natAbs
  if 16 ^ w ≤ mag then (sum < 0, mag / 16, c + 1) else (sum < 0, mag, c)

/-- The result of an addition without postnormalization, FN = 1 (R310, R311). -/
def addUnnormalized (n : Nat) (neg : Bool) (fr : Nat) (c : Int) : FloatResult n :=
  if fr = 0 then .result 0 0
  else if 127 < c then .fault (signCode neg 5 6)
  else .result (packFloat n neg c fr) (signCode neg 1 2)

/-- The result of an addition with postnormalization, FN = 0: `k` digits were shifted (R310, R311). -/
def addNormalized (n : Nat) (mode : FloatMode) (neg : Bool) (fr : Nat) (c : Int) (k : Nat) : FloatResult n :=
  if 127 < c then .fault (signCode neg 5 6)
  else if c < 0 ∧ mode.fz then .fault (signCode neg 13 14)
  else if 2 < k ∧ mode.fs then .fault (signCode neg 9 10)
  else if c < 0 then .result 0 12
  else .result (packFloat n neg c fr) (if 2 < k then signCode neg 9 10 else signCode neg 1 2)

/-- `fadd(a, b, n)` (R311, D21): `n` = 32 has one guard digit, `n` = 64 none. -/
def floatAdd (n : Nat) (mode : FloatMode) (a b : BitVec n) : FloatResult n :=
  let digits := (n - 8) / 4
  let guard := if n = 32 then 1 else 0
  let w := digits + guard
  let (neg, m, c) := alignedSum (unpackFloat a) (unpackFloat b) w guard
  if mode.fn then addUnnormalized n neg (m / 16 ^ guard) c
  else if m = 0 then (if mode.fs then .fault 8 else .result 0 8)
  else
    let (m', k) := normalizeDigits w w m
    addNormalized n mode neg (m' / 16 ^ guard) (c - k) k

/-- `fp_finish` (R320). -/
def floatFinish (n : Nat) (mode : FloatMode) (neg : Bool) (c : Int) (fr : Nat) : FloatResult n :=
  if 127 < c then .fault (signCode neg 5 6)
  else if c < 0 then (if mode.fz then .fault (signCode neg 13 14) else .result 0 12)
  else .result (packFloat n neg c fr) (signCode neg 1 2)

/-- `prenorm` (R320) for a nonzero fraction of `digits` digits. -/
def prenormalize (digits : Nat) (a : Unpacked) : Unpacked :=
  let (f, k) := normalizeDigits digits digits a.fr
  { a with ch := a.ch - k, fr := f }

/-- The product of two nonzero numbers: sign, characteristic, and the fraction of 2 * `digits` digits, postnormalized by at
most one digit (R321, R322). -/
def floatProduct (digits : Nat) (a b : Unpacked) : Unpacked :=
  let x := prenormalize digits a
  let y := prenormalize digits b
  let p := x.fr * y.fr
  let c := x.ch + y.ch - 64
  if p < 16 ^ (2 * digits - 1) then ⟨a.neg != b.neg, c - 1, p * 16⟩ else ⟨a.neg != b.neg, c, p⟩

/-- FMS to a long result (even R) (R321). -/
def floatMulShortLong (mode : FloatMode) (a b : Word) : FloatResult 64 :=
  let x := unpackFloat a
  let y := unpackFloat b
  if x.fr = 0 ∨ y.fr = 0 then .result 0 0
  else
    let p := floatProduct 6 x y
    floatFinish 64 mode p.neg p.ch (p.fr * 16 ^ 2)

/-- FMS to a truncated short result (odd R), and FML: the product cut to the `digits` digits of the format
(R321, R322). -/
def floatMulTruncated (n : Nat) (mode : FloatMode) (a b : BitVec n) : FloatResult n :=
  let digits := (n - 8) / 4
  let x := unpackFloat a
  let y := unpackFloat b
  if x.fr = 0 ∨ y.fr = 0 then .result 0 0
  else
    let p := floatProduct digits x y
    floatFinish n mode p.neg p.ch (p.fr / 16 ^ digits)

/-- `fdiv(a, b, n)` (R323, D22). -/
def floatDiv (n : Nat) (mode : FloatMode) (a b : BitVec n) : FloatResult n :=
  let digits := (n - 8) / 4
  let u := unpackFloat a
  let v := unpackFloat b
  if v.fr = 0 then .fault 4
  else if u.fr = 0 then .result 0 0
  else
    let x := prenormalize digits u
    let y := prenormalize digits v
    let c := x.ch - y.ch + 64
    let neg := u.neg != v.neg
    if y.fr ≤ x.fr then floatFinish n mode neg (c + 1) (x.fr * 16 ^ (digits - 1) / y.fr)
    else floatFinish n mode neg c (x.fr * 16 ^ digits / y.fr)

/-- `fp_trap(cc)`: CC is set, no register is written, trap X'44' (R307). -/
def floatFault (cc : BitVec 4) (s : State) : Except Stop State := .error (.trap .floatingFault (setCc s cc))

/-- Load a short result (R312). -/
def finishShort (r : RegNum) (x : FloatResult 32) (s : State) : Except Stop State :=
  match x with
  | .fault cc => floatFault cc s
  | .result v cc => .ok (setCc (setReg s r v) cc)

/-- Load a long result: x[R], then x[Ru1] (R313). -/
def finishLong (r : RegNum) (x : FloatResult 64) (s : State) : Except Stop State :=
  match x with
  | .fault cc => floatFault cc s
  | .result v cc => .ok (setCc (setReg (setReg s r (hiWord v)) (ru1 r) (loWord v)) cc)

/-- A long instruction with an odd R field: x[R] and CC are free values, and the fault trap may or may not be taken
(R313, U4). -/
def freeLong (r : RegNum) (s : State) : Except Stop State :=
  let (v, t) := draw s
  let (c, u) := draw t
  let (k, w) := draw u
  let x := setCc (setReg w r v) (c.setWidth 4)
  if k.getLsbD 0 then .error (.trap .floatingFault x) else .ok x

/-- FAS (R312). -/
def execFas (r : RegNum) (m : MemRef) (s : State) : Host.Outcome State Fault Refusal :=
  finish do
    requireOption s.cfg.hasFloat s
    let v ← operandWord m s
    finishShort r (floatAdd 32 (floatMode s.psd) (getReg s r) v) s

/-- FAL (R313). -/
def execFal (r : RegNum) (m : MemRef) (s : State) : Host.Outcome State Fault Refusal :=
  finish do
    requireOption s.cfg.hasFloat s
    let v ← operandDouble m s
    if isOdd r then freeLong r s
    else finishLong r (floatAdd 64 (floatMode s.psd) (getPair s r) v) s

/-- FSS (R314): the two's complement of the effective word is added. -/
def execFss (r : RegNum) (m : MemRef) (s : State) : Host.Outcome State Fault Refusal :=
  finish do
    requireOption s.cfg.hasFloat s
    let v ← operandWord m s
    finishShort r (floatAdd 32 (floatMode s.psd) (getReg s r) (-v)) s

/-- FSL (R315). -/
def execFsl (r : RegNum) (m : MemRef) (s : State) : Host.Outcome State Fault Refusal :=
  finish do
    requireOption s.cfg.hasFloat s
    let v ← operandDouble m s
    if isOdd r then freeLong r s
    else finishLong r (floatAdd 64 (floatMode s.psd) (getPair s r) (-v)) s

/-- FMS (R321): a long result for even R, a truncated short one for odd R. -/
def execFms (r : RegNum) (m : MemRef) (s : State) : Host.Outcome State Fault Refusal :=
  finish do
    requireOption s.cfg.hasFloat s
    let v ← operandWord m s
    if isOdd r then finishShort r (floatMulTruncated 32 (floatMode s.psd) (getReg s r) v) s
    else finishLong r (floatMulShortLong (floatMode s.psd) (getReg s r) v) s

/-- FML (R322). -/
def execFml (r : RegNum) (m : MemRef) (s : State) : Host.Outcome State Fault Refusal :=
  finish do
    requireOption s.cfg.hasFloat s
    let v ← operandDouble m s
    if isOdd r then freeLong r s
    else finishLong r (floatMulTruncated 64 (floatMode s.psd) (getPair s r) v) s

/-- FDS (R323). -/
def execFds (r : RegNum) (m : MemRef) (s : State) : Host.Outcome State Fault Refusal :=
  finish do
    requireOption s.cfg.hasFloat s
    let v ← operandWord m s
    finishShort r (floatDiv 32 (floatMode s.psd) (getReg s r) v) s

/-- FDL (R324). -/
def execFdl (r : RegNum) (m : MemRef) (s : State) : Host.Outcome State Fault Refusal :=
  finish do
    requireOption s.cfg.hasFloat s
    let v ← operandDouble m s
    if isOdd r then freeLong r s
    else finishLong r (floatDiv 64 (floatMode s.psd) (getPair s r) v) s

end Sys2Proof.Machine
end

