-- ==== Sys2Proof/Machine/InputOutput.lean ====
section
/-! DEFINITION. The input/output instructions (spec 49_input_output R500 to R508). All are privileged. -/

namespace Sys2Proof.Machine

open Sys2Proof

/-- `io_load` of R502: an odd R gets status and count; an even nonzero R gets the command doubleword address (bits 0 to
15 zero, log 16) and R + 1 the status and count; R = 0 gets nothing. -/
def ioLoad (r : RegNum) (loads : Bool) (a : IoResponse) (s : State) : State :=
  if r = 0 || !loads then s
  else if isOdd r then setReg s r (a.status ++ a.count)
  else setReg (setReg s r (0#16 ++ a.cda)) (r + 1) (a.status ++ a.count)

/-- CC1, CC2 and the registers of SIO, TIO and TDV (R503, R506, R507). -/
def ioAnswer (r : RegNum) (a : IoResponse) (s : State) : State :=
  ioLoad r (a.recognized && !a.selbusy) a (setCc12 (!a.recognized || a.selbusy) a.cc2 s)

/-- SIO (R503): the first command doubleword address is in bits 16 to 31 of register 0. -/
def execSio (r : RegNum) (m : MemRef) (s : State) : Host.Outcome State Fault Refusal :=
  finish do
    requireMaster s
    let a ← ioAddress m s
    let t := ioAnswer r (tioResponse s.io a) s
    .ok { t with io := sioEffect s.io a (fld (getReg s 0) 16 16) }

/-- HIO (R505): which condition a busy device shows after the halt is a free value, ready or not operational. -/
def execHio (r : RegNum) (m : MemRef) (s : State) : Host.Outcome State Fault Refusal :=
  finish do
    requireMaster s
    let a ← ioAddress m s
    let answer := hioResponse s.io a
    let (v, t) := draw (ioLoad r answer.recognized answer
      (setCc12 (!answer.recognized) (!answer.recognized || answer.cc2) s))
    .ok { t with io := hioEffect s.io a (0#1 ++ v.setWidth 1) }

/-- TIO (R506). -/
def execTio (r : RegNum) (m : MemRef) (s : State) : Host.Outcome State Fault Refusal :=
  finish do
    requireMaster s
    let a ← ioAddress m s
    .ok (ioAnswer r (tioResponse s.io a) s)

/-- TDV (R507). -/
def execTdv (r : RegNum) (m : MemRef) (s : State) : Host.Outcome State Fault Refusal :=
  finish do
    requireMaster s
    let a ← ioAddress m s
    .ok (ioAnswer r (tdvResponse s.io a) s)

/-- The standard acknowledgement of R508. -/
def acknowledgeDevice (r : RegNum) (s : State) : State :=
  match requestingDevice s.io with
  | none => setCc12 true true s
  | some d =>
    let t := setCc12 false d.unusual s
    let u := if r = 0 then t else setReg t r (d.aio ++ 0#5 ++ d.addr)
    { u with io := aioEffect s.io d.addr }

/-- An AIO of another type: its answer is a free value (R508, U19, log 38). -/
def acknowledgeSpecial (r : RegNum) (s : State) : State :=
  let (v, t) := draw s
  let (c, u) := draw t
  setCc12 (c.getLsbD 1) (c.getLsbD 0) (if r = 0 then u else setReg u r v)

/-- AIO (R508): bits 21 to 23 of the effective address are the type of interrupt. -/
def execAio (r : RegNum) (m : MemRef) (s : State) : Host.Outcome State Fault Refusal :=
  finish do
    requireMaster s
    let a ← ioAddress m s
    .ok (if (fld a 0 3 : BitVec 3) = 0 then acknowledgeDevice r s else acknowledgeSpecial r s)

end Sys2Proof.Machine
end

