-- ==== Sys2Proof/Machine/LoadStore.lean ====
section
/-! DEFINITION. Load, store, analyze and interpret instructions (spec 40_load_store_analyze). -/

namespace Sys2Proof.Machine

open Sys2Proof

/-- LI (R161). -/
def execLi (r : RegNum) (v : BitVec 20) (s : State) : Host.Outcome State Fault Refusal :=
  finish (.ok (test34 (immediate v) (setReg s r (immediate v))))

/-- LB (R162). -/
def execLb (r : RegNum) (m : MemRef) (s : State) : Host.Outcome State Fault Refusal :=
  finish do
    let v ← operandByte m s
    .ok (testNonzero v (setReg s r (v.setWidth 32)))

/-- LH (R163). -/
def execLh (r : RegNum) (m : MemRef) (s : State) : Host.Outcome State Fault Refusal :=
  finish do
    let v ← operandHalf m s
    .ok (test34 (v.signExtend 32) (setReg s r (v.signExtend 32)))

/-- LW (R164). DESIGN CHOICE (log 29), for this and every load: the flags test the loaded value, also where RP selects a
block that is not installed and register R keeps reading as all ones or all zeros. -/
def execLw (r : RegNum) (m : MemRef) (s : State) : Host.Outcome State Fault Refusal :=
  finish do
    let v ← operandWord m s
    .ok (test34 v (setReg s r v))

/-- LD (R165): the flags are of the doubleword. -/
def execLd (r : RegNum) (m : MemRef) (s : State) : Host.Outcome State Fault Refusal :=
  finish do
    let v ← operandDouble m s
    .ok (test34 v (setPair s r v))

/-- LCH (R166). -/
def execLch (r : RegNum) (m : MemRef) (s : State) : Host.Outcome State Fault Refusal :=
  finish do
    let v ← operandHalf m s
    .ok (test34 (-(v.signExtend 32)) (setReg s r (-(v.signExtend 32))))

/-- LAH (R167). -/
def execLah (r : RegNum) (m : MemRef) (s : State) : Host.Outcome State Fault Refusal :=
  finish do
    let v ← operandHalf m s
    .ok (testNonzero (absolute (v.signExtend 32)) (setReg s r (absolute (v.signExtend 32))))

/-- LCW (R168). -/
def execLcw (r : RegNum) (m : MemRef) (s : State) : Host.Outcome State Fault Refusal :=
  finish do
    let v ← operandWord m s
    overflowTrap (isMostNegative v) (complementFlags v (setReg s r (-v)))

/-- LAW (R169). -/
def execLaw (r : RegNum) (m : MemRef) (s : State) : Host.Outcome State Fault Refusal :=
  finish do
    let v ← operandWord m s
    overflowTrap (isMostNegative v) (absoluteFlags v (setReg s r (absolute v)))

/-- LCD (R170). -/
def execLcd (r : RegNum) (m : MemRef) (s : State) : Host.Outcome State Fault Refusal :=
  finish do
    let v ← operandDouble m s
    overflowTrap (isMostNegative v) (complementFlags v (setPair s r (-v)))

/-- LAD (R171). -/
def execLad (r : RegNum) (m : MemRef) (s : State) : Host.Outcome State Fault Refusal :=
  finish do
    let v ← operandDouble m s
    overflowTrap (isMostNegative v) (absoluteFlags v (setPair s r (absolute v)))

/-- The bits of `new` where `mask` is 1 and of `old` where it is 0 (R172, R181). -/
def select (mask new old : Word) : Word := (new &&& mask) ||| (old &&& ~~~mask)

/-- LS (R172). -/
def execLs (r : RegNum) (m : MemRef) (s : State) : Host.Outcome State Fault Refusal :=
  finish do
    let w ← operandWord m s
    let v := if isOdd r then w &&& getReg s r else select (getReg s (ru1 r)) w (getReg s r)
    .ok (test34 v (setReg s r v))

/-- The loads of LM and PLM in the order of the words (R173): registers loaded before a trap keep their values. -/
def loadWords : Nat → WordAddr → RegNum → State → Except Stop State
  | 0, _, _, s => .ok s
  | n + 1, a, r, s => do
    let w ← readWord s a
    loadWords n (a + 1) (r + 1) (setReg s r w)

/-- LM (R173). -/
def execLm (r : RegNum) (m : MemRef) (s : State) : Host.Outcome State Fault Refusal :=
  finish do
    let a ← eaWord m s
    loadWords (ccCount s.psd) a r s

/-- LCFI (R174): instruction bits 10 and 11 are the two low bits of the R field; bits 24-27 and 29-31 are in the value. -/
def execLcfi (r : RegNum) (v : BitVec 20) (s : State) : Host.Outcome State Fault Refusal :=
  let t := if r.getMsbD 2 then setCc s (fld v 12 4) else s
  finish (.ok (if r.getMsbD 3 then setFloatMode t (fld v 17 3) else t))

/-- LCF (R175). -/
def execLcf (r : RegNum) (m : MemRef) (s : State) : Host.Outcome State Fault Refusal :=
  finish do
    let v ← operandByte m s
    let t := if r.getMsbD 2 then setCc s (fld v 0 4) else s
    .ok (if r.getMsbD 3 then setFloatMode t (fld v 5 3) else t)

/-- XW (R176). -/
def execXw (r : RegNum) (m : MemRef) (s : State) : Host.Outcome State Fault Refusal :=
  finish do
    let a ← eaWord m s
    let v ← readWord s a
    let t ← writeWord s a (getReg s r)
    .ok (test34 v (setReg t r v))

/-- STB (R177). -/
def execStb (r : RegNum) (m : MemRef) (s : State) : Host.Outcome State Fault Refusal :=
  finish do
    let a ← eaByte m s
    writeByte s a (fld (getReg s r) 24 8)

/-- STH (R178): CC2 tells that the word exceeds halfword limits, tested after the store, which may lie in register R itself;
it is no overflow trap. -/
def execSth (r : RegNum) (m : MemRef) (s : State) : Host.Outcome State Fault Refusal :=
  finish do
    let a ← eaHalf m s
    let t ← writeHalf s a (fld (getReg s r) 16 16)
    .ok (setCc2 (exceedsHalf (getReg t r)) t)

/-- STW (R179). -/
def execStw (r : RegNum) (m : MemRef) (s : State) : Host.Outcome State Fault Refusal :=
  finish do
    let a ← eaWord m s
    writeWord s a (getReg s r)

/-- STD (R180). -/
def execStd (r : RegNum) (m : MemRef) (s : State) : Host.Outcome State Fault Refusal :=
  finish do
    let a ← eaDouble m s
    writeDouble s a (getReg s r) (getReg s (ru1 r))

/-- STS (R181). -/
def execSts (r : RegNum) (m : MemRef) (s : State) : Host.Outcome State Fault Refusal :=
  finish do
    let a ← eaWord m s
    let w ← readWord s a
    writeWord s a (if isOdd r then getReg s r ||| w else select (getReg s (ru1 r)) (getReg s r) w)

/-- The stores of STM and PSM in the order of the words (R182): words stored before a trap stay stored. -/
def storeRegs : Nat → WordAddr → RegNum → State → Except Stop State
  | 0, _, _, s => .ok s
  | n + 1, a, r, s => do
    let t ← writeWord s a (getReg s r)
    storeRegs n (a + 1) (r + 1) t

/-- STM (R182). -/
def execStm (r : RegNum) (m : MemRef) (s : State) : Host.Outcome State Fault Refusal :=
  finish do
    let a ← eaWord m s
    storeRegs (ccCount s.psd) a r s

/-- The byte STCF stores: PSD bits 0 to 7, the undefined bit 4 as 0 (R183, D3). -/
def conditionByte (p : Psd) : Byte := fld (psw1 p) 0 8

/-- STCF (R183); the R field is ignored. -/
def execStcf (_r : RegNum) (m : MemRef) (s : State) : Host.Outcome State Fault Refusal :=
  finish do
    let a ← eaByte m s
    writeByte s a (conditionByte s.psd)

/-- CC1, CC2 and CC4 of ANLZ for an addressing type, CC3 being bit 0 of the analyzed word (R190). -/
def analyzeFlags (t : AddressType) (ind : Bool) (s : State) : State :=
  match t with
  | .byte => setCc12 false false (setCc34 ind false s)
  | .immediateByte => setCc12 false false (setCc34 ind true s)
  | .half => setCc12 false true (setCc34 ind false s)
  | .word => setCc12 true false (setCc34 ind false s)
  | .immediateWord => setCc12 true false (setCc34 ind true s)
  | .double => setCc12 true true (setCc34 ind false s)

/-- The right-justified effective address of the analyzed word, the bits above it 0 (R190; PRESUMED, log 10). -/
def analyzedAddress (t : AddressType) (dra : WordAddr) (d : Word) : Word :=
  match t with
  | .byte => (addrByte dra d).setWidth 32
  | .half => (addrHalf dra d).setWidth 32
  | .double => (addrDouble dra d).setWidth 32
  | .word => (addrWord dra d).setWidth 32
  | .immediateByte => 0
  | .immediateWord => 0

/-- The addressing type has no address part. -/
def isImmediateType (t : AddressType) : Bool := t == .immediateByte || t == .immediateWord

/-- ANLZ (R190): the analyzed word is an operand; for an immediate type register R is unchanged. -/
def execAnlz (r : RegNum) (m : MemRef) (s : State) : Host.Outcome State Fault Refusal :=
  finish do
    let w ← operandWord m s
    let t := addressType (opField w)
    if isImmediateType t then .ok (analyzeFlags t (indBit w) s)
    else do
      let dra ← direct (memRefOf w) s
      .ok (analyzeFlags t (indBit w) (setReg s r (analyzedAddress t dra (indexOf (memRefOf w) s))))

/-- INT (R191): R first, then Ru1, so that an odd R ends with bits 16 to 31. -/
def execInt (r : RegNum) (m : MemRef) (s : State) : Host.Outcome State Fault Refusal :=
  finish do
    let w ← operandWord m s
    let t := setReg (setReg s r ((fld w 4 12 : BitVec 12).setWidth 32)) (ru1 r) ((fld w 16 16 : Half).setWidth 32)
    .ok (setCc t (fld w 0 4))

end Sys2Proof.Machine
end

