-- ==== Sys2Proof/Machine/PushDown.lean ====
section
/-! DEFINITION. The push-down instructions (spec 47_push_down_branch_call R420 to R429). -/

namespace Sys2Proof.Machine

open Sys2Proof

/-! ### The stack pointer doubleword (R421) -/

/-- TSA, the top-of-stack address: bits 15 to 31. -/
def stackTop (spd : Double) : WordAddr := fld spd 15 17
/-- TS, the trap-on-space inhibit: bit 32. -/
def spaceInhibit (spd : Double) : Bool := spd.getMsbD 32
/-- The space count: bits 33 to 47. -/
def spaceCount (spd : Double) : BitVec 15 := fld spd 33 15
/-- TW, the trap-on-word inhibit: bit 48. -/
def wordInhibit (spd : Double) : Bool := spd.getMsbD 48
/-- The word count: bits 49 to 63. -/
def wordCount (spd : Double) : BitVec 15 := fld spd 49 15

/-- A count cannot take the value `x` (R422). -/
def countViolated (x : Int) : Bool := x < 0 || 32767 < x

/-- The pointer after `delta` words have been added: TSA and the counts move, the other bits stay (R421, D27). -/
def movedPointer (spd : Double) (delta : Int) : Double :=
  setFld (setFld (setFld spd 15 (stackTop spd + BitVec.ofInt 17 delta)) 33 (spaceCount spd - BitVec.ofInt 15 delta)) 49
    (wordCount spd + BitVec.ofInt 15 delta)

/-- The condition code of an aborted push-down instruction whose violated limits are inhibited (R422). -/
def limitFlags (spd : Double) (delta : Int) (s : State) : State :=
  setCc s
    (BitVec.ofBool (countViolated ((spaceCount spd).toNat - delta)) ++ BitVec.ofBool (spaceCount spd == 0) ++
      BitVec.ofBool (countViolated ((wordCount spd).toNat + delta)) ++ BitVec.ofBool (wordCount spd == 0))

/-- The condition code of a completed push-down instruction, from the pointer it leaves (R422). -/
def stackFlags (spd : Double) (s : State) : State :=
  setCc s (0#1 ++ BitVec.ofBool (spaceCount spd == 0) ++ 0#1 ++ BitVec.ofBool (wordCount spd == 0))

/-- A push-down instruction that adds `delta` words to the stack (R422, R429): the pointer is read, the limits are
tested, `body` moves the words, the pointer is written last. -/
def pushDown (m : MemRef) (delta : Int) (body : WordAddr → State → Except Stop State) (s : State) :
    Except Stop State := do
  let a ← eaDouble m s
  let spd ← readDouble s a
  let space := countViolated ((spaceCount spd).toNat - delta)
  let word := countViolated ((wordCount spd).toNat + delta)
  if (space && !spaceInhibit spd) || (word && !wordInhibit spd) then .error (.trap .stackLimit s)
  else if space || word then .ok (limitFlags spd delta s)
  else do
    let t ← body (stackTop spd) s
    let new := movedPointer spd delta
    let u ← writeDouble t a (hiWord new) (loWord new)
    .ok (stackFlags new u)

/-- PLW (R425). -/
def execPlw (r : RegNum) (m : MemRef) (s : State) : Host.Outcome State Fault Refusal :=
  finish (pushDown m (-1) (fun top t => do
    let w ← readWord t top
    .ok (setReg t r w)) s)

/-- PSW (R424). -/
def execPsw (r : RegNum) (m : MemRef) (s : State) : Host.Outcome State Fault Refusal :=
  finish (pushDown m 1 (fun top t => writeWord t (top + 1) (getReg t r)) s)

/-- The loads of PLM: from the top of the stack down, into registers R + CC - 1 down to R (R427). -/
def pullWords : Nat → WordAddr → RegNum → State → Except Stop State
  | 0, _, _, s => .ok s
  | n + 1, a, r, s => do
    let w ← readWord s a
    pullWords n (a - 1) (r - 1) (setReg s r w)

/-- PLM (R427). -/
def execPlm (r : RegNum) (m : MemRef) (s : State) : Host.Outcome State Fault Refusal :=
  let n := ccCount s.psd
  finish (pushDown m (-n) (fun top t => pullWords n top (r + BitVec.ofNat 4 n - 1) t) s)

/-- PSM (R426). -/
def execPsm (r : RegNum) (m : MemRef) (s : State) : Host.Outcome State Fault Refusal :=
  let n := ccCount s.psd
  finish (pushDown m n (fun top t => storeRegs n (top + 1) r t) s)

/-- MSP (R428): no stack word is read or written. -/
def execMsp (r : RegNum) (m : MemRef) (s : State) : Host.Outcome State Fault Refusal :=
  finish (pushDown m (fld (getReg s r) 16 16 : Half).toInt (fun _ t => .ok t) s)

end Sys2Proof.Machine
end

