-- ==== Sys2Proof/Machine/Shift.lean ====
section
/-! DEFINITION. Shift and conversion instructions (spec 43_shift_conversion). -/

namespace Sys2Proof.Machine

open Sys2Proof

/-- What a shift moves into the vacated positions (R281 to R288). -/
inductive ShiftKind where
  | logical | circular | arithmetic
  deriving DecidableEq, Repr

/-- A value being shifted, with CC1 (parity of the 1's shifted off the left end) and CC2 (the sign bit changed on a left
shift) (R282). -/
structure Shifting (n : Nat) where
  v : BitVec n
  cc1 : Bool
  cc2 : Bool
  deriving DecidableEq, Repr

/-- One place to the left (R282). -/
def shiftLeft1 {n : Nat} (kind : ShiftKind) (x : Shifting n) : Shifting n :=
  let v := (x.v <<< 1) ||| (if kind = .circular ∧ x.v.msb then 1 else 0)
  ⟨v, x.cc1 != x.v.msb, x.cc2 || (v.msb != x.v.msb)⟩

/-- One place to the right (R282). -/
def shiftRight1 {n : Nat} (kind : ShiftKind) (x : Shifting n) : Shifting n :=
  let fill := match kind with
    | .logical => false
    | .circular => x.v.getLsbD 0
    | .arithmetic => x.v.msb
  { x with v := (x.v >>> 1) ||| (if fill then BitVec.intMin n else 0) }

/-- Apply a step `k` times. -/
def repeatStep {α : Type} (f : α → α) : Nat → α → α
  | 0, x => x
  | k + 1, x => repeatStep f k (f x)

/-- A shift by the signed count: left when it is not negative, else right by its magnitude (R280, R282). -/
def shiftBy {n : Nat} (kind : ShiftKind) (count : BitVec 7) (v : BitVec n) : Shifting n :=
  let c := count.toInt
  if 0 ≤ c then repeatStep (shiftLeft1 kind) c.toNat ⟨v, false, false⟩
  else repeatStep (shiftRight1 kind) (-c).toNat ⟨v, false, false⟩

/-- A single-register shift (R281). -/
def shiftSingle (kind : ShiftKind) (count : BitVec 7) (r : RegNum) (s : State) : State :=
  let x := shiftBy kind count (getReg s r)
  setCc12 x.cc1 x.cc2 (setReg s r x.v)

/-- Load the result of a long shift: R gets the high half, Ru1 the low half when R is even (R281, R294). -/
def loadLong (r : RegNum) (v : Double) (s : State) : State :=
  let t := setReg s r (hiWord v)
  if isOdd r then t else setReg t (ru1 r) (loWord v)

/-- A double-register shift; an odd R duplicates the register (R281). -/
def shiftDouble (kind : ShiftKind) (count : BitVec 7) (r : RegNum) (s : State) : State :=
  let x := shiftBy kind count (getPair s r)
  setCc12 x.cc1 x.cc2 (loadLong r x.v s)

/-- Shift types 110 and 111: x[R], x[Ru1], CC1 and CC2 are free values (R289, U3). -/
def shiftUndefined (r : RegNum) (s : State) : State :=
  let (v1, t) := draw s
  let (v2, u) := draw t
  let (c, w) := draw u
  setCc12 (c.getLsbD 0) (c.getLsbD 1) (setReg (setReg w r v1) (ru1 r) v2)

/-- S (R280 to R290). -/
def execS (r : RegNum) (m : MemRef) (s : State) : Host.Outcome State Fault Refusal :=
  finish do
    let (ty, count) ← shiftFields m s
    .ok (match ty.toNat with
      | 0 => shiftSingle .logical count r s
      | 1 => shiftDouble .logical count r s
      | 2 => shiftSingle .circular count r s
      | 3 => shiftDouble .circular count r s
      | 4 => shiftSingle .arithmetic count r s
      | 5 => shiftDouble .arithmetic count r s
      | _ => shiftUndefined r s)

/-! ### Shift floating -/

/-- A floating-point number being shifted: its `f`-bit fraction and its characteristic, with CC1 and CC2 (R292, R293). -/
structure FloatShifting (f : Nat) where
  ch : BitVec 7
  fr : BitVec f
  cc1 : Bool
  cc2 : Bool
  deriving DecidableEq, Repr

/-- The fraction's first hexadecimal digit is not 0 (R292). -/
def leadingDigit {f : Nat} (fr : BitVec f) : Bool := (fld fr 0 4 : BitVec 4) != 0

/-- The left shift digit by digit, until normalized, underflow or the count is used up (R292). -/
def floatLeft {f : Nat} : Nat → FloatShifting f → FloatShifting f
  | 0, x => x
  | k + 1, x =>
    let fr := x.fr <<< 4
    let ch := x.ch - 1
    let y : FloatShifting f := ⟨ch, fr, leadingDigit fr, ch == 127⟩
    if y.cc1 || y.cc2 then y else floatLeft k y

/-- The right shift digit by digit, until overflow or the count is used up (R293). -/
def floatRight {f : Nat} : Nat → FloatShifting f → FloatShifting f
  | 0, x => x
  | k + 1, x =>
    let ch := x.ch + 1
    let y : FloatShifting f := ⟨ch, x.fr >>> 4, false, ch == 0⟩
    if y.cc2 then y else floatRight k y

/-- SF on the magnitude's characteristic and fraction: a zero fraction ends as true zero (R292, R293, D19). -/
def floatShift {f : Nat} (count : BitVec 7) (ch : BitVec 7) (fr : BitVec f) : FloatShifting f :=
  let c := count.toInt
  if 0 ≤ c then
    if fr = 0 then ⟨0, 0, true, false⟩
    else if leadingDigit fr then ⟨ch, fr, true, false⟩
    else floatLeft c.toNat ⟨ch, fr, false, false⟩
  else
    let y := floatRight (-c).toNat ⟨ch, fr, false, false⟩
    if y.fr = 0 then { y with ch := 0 } else y

/-- SF on a whole floating-point number of `n` bits with an `f`-bit fraction (R291, R294): the magnitude is shifted and
the sign given back. The answer is the number with CC1 and CC2. -/
def shiftFloating (n f : Nat) (count : BitVec 7) (v : BitVec n) : Shifting n :=
  let a := absolute v
  let y := floatShift count (fld a 1 7) (fld a 8 f)
  let w : BitVec n := (y.ch.setWidth n <<< f) ||| y.fr.setWidth n
  ⟨if v.msb then -w else w, y.cc1, y.cc2⟩

/-- SF (R291 to R294): bit 23 of the address selects the long format. -/
def execSf (r : RegNum) (m : MemRef) (s : State) : Host.Outcome State Fault Refusal :=
  finish do
    let (ty, count) ← shiftFields m s
    if ty.getLsbD 0 then
      let x := shiftFloating 64 56 count (getPair s r)
      .ok (test34 x.v (setCc12 x.cc1 x.cc2 (loadLong r x.v s)))
    else
      let x := shiftFloating 32 24 count (getReg s r)
      .ok (test34 x.v (setCc12 x.cc1 x.cc2 (setReg s r x.v)))

/-! ### Conversion -/

/-- The iterations of CVA from bit `32 - k` on: sum and carry; a table word is read only for a 1 bit (R296). -/
def convertAdd (s : State) (sel : Word) : Nat → WordAddr → Word → Bool → Except Stop (Word × Bool)
  | 0, _, sum, c => .ok (sum, c)
  | k + 1, a, sum, c =>
    if sel.getLsbD k then do
      let w ← readWord s a
      convertAdd s sel k (a + 1) (sum + w) (c || addCarries sum w)
    else convertAdd s sel k (a + 1) sum c

/-- CVA (R296). DESIGN CHOICE (log 29): CC3 and CC4 test the sum, also where RP selects a block that is not installed. -/
def execCva (r : RegNum) (m : MemRef) (s : State) : Host.Outcome State Fault Refusal :=
  finish do
    let a ← eaWord m s
    let (v, c) ← convertAdd s (getReg s (ru1 r)) 32 a 0 false
    .ok (test34 v (setCc1 c (setReg s r v)))

/-- The iterations of CVS: the remainder and the bits gathered so far (R297). -/
def convertSub (s : State) : Nat → WordAddr → Word → Word → Except Stop (Word × Word)
  | 0, _, rem, bits => .ok (rem, bits)
  | k + 1, a, rem, bits => do
    let w ← readWord s a
    if w.ule rem then convertSub s k (a + 1) (rem - w) (bits ||| (1#32 <<< k))
    else convertSub s k (a + 1) rem bits

/-- CVS (R297): R first, then Ru1. DESIGN CHOICE (log 29): CC3 and CC4 test the bits for Ru1, also where RP selects a block
that is not installed. -/
def execCvs (r : RegNum) (m : MemRef) (s : State) : Host.Outcome State Fault Refusal :=
  finish do
    let a ← eaWord m s
    let (rem, bits) ← convertSub s 32 a (getReg s r) 0
    .ok (test34 bits (setReg (setReg s r rem) (ru1 r) bits))

end Sys2Proof.Machine
end

