-- ==== Sys2Proof/Machine/Execute.lean ====
section
/-! DEFINITION. EXU (spec 47_push_down_branch_call R442): the chain of EXECUTE instructions and its subject. -/

namespace Sys2Proof.Machine

open Sys2Proof

/-- The execution of the subject of EXU, "performed exactly as if the subject instruction were initially accessed instead
of the EXU instruction" (R442). The chain never ends in another EXU. -/
def execSubject (i : Instr) (s : State) : Host.Outcome State Fault Refusal :=
  match i with
  | .lcfi r v => execLcfi r v s
  | .cal1 r m => execCal1 r m s
  | .cal2 r m => execCal2 r m s
  | .cal3 r m => execCal3 r m s
  | .cal4 r m => execCal4 r m s
  | .plw r m => execPlw r m s
  | .psw r m => execPsw r m s
  | .plm r m => execPlm r m s
  | .psm r m => execPsm r m s
  | .lpsd r m => execLpsd r m s
  | .xpsd r m => execXpsd r m s
  | .ad r m => execAd r m s
  | .cd r m => execCd r m s
  | .ld r m => execLd r m s
  | .msp r m => execMsp r m s
  | .std r m => execStd r m s
  | .sd r m => execSd r m s
  | .clm r m => execClm r m s
  | .lcd r m => execLcd r m s
  | .lad r m => execLad r m s
  | .fsl r m => execFsl r m s
  | .fal r m => execFal r m s
  | .fdl r m => execFdl r m s
  | .fml r m => execFml r m s
  | .ai r v => execAi r v s
  | .ci r v => execCi r v s
  | .li r v => execLi r v s
  | .mi r v => execMi r v s
  | .sf r m => execSf r m s
  | .s r m => execS r m s
  | .cvs r m => execCvs r m s
  | .cva r m => execCva r m s
  | .lm r m => execLm r m s
  | .stm r m => execStm r m s
  | .wait r m => execWait r m s
  | .lrp r m => execLrp r m s
  | .aw r m => execAw r m s
  | .cw r m => execCw r m s
  | .lw r m => execLw r m s
  | .mtw r m => execMtw r m s
  | .stw r m => execStw r m s
  | .dw r m => execDw r m s
  | .mw r m => execMw r m s
  | .sw r m => execSw r m s
  | .clr r m => execClr r m s
  | .lcw r m => execLcw r m s
  | .law r m => execLaw r m s
  | .fss r m => execFss r m s
  | .fas r m => execFas r m s
  | .fds r m => execFds r m s
  | .fms r m => execFms r m s
  | .ttbs r d => execTtbs r d s
  | .tbs r d => execTbs r d s
  | .anlz r m => execAnlz r m s
  | .cs r m => execCs r m s
  | .xw r m => execXw r m s
  | .sts r m => execSts r m s
  | .eor r m => execEor r m s
  | .or r m => execOr r m s
  | .ls r m => execLs r m s
  | .and r m => execAnd r m s
  | .sio r m => execSio r m s
  | .tio r m => execTio r m s
  | .tdv r m => execTdv r m s
  | .hio r m => execHio r m s
  | .ah r m => execAh r m s
  | .ch r m => execCh r m s
  | .lh r m => execLh r m s
  | .mth r m => execMth r m s
  | .sth r m => execSth r m s
  | .dh r m => execDh r m s
  | .mh r m => execMh r m s
  | .sh r m => execSh r m s
  | .lch r m => execLch r m s
  | .lah r m => execLah r m s
  | .cbs r d => execCbs r d s
  | .mbs r d => execMbs r d s
  | .ebs r d => execEbs r d s
  | .bdr r m => execBdr r m s
  | .bir r m => execBir r m s
  | .awm r m => execAwm r m s
  | .exu _ _ => .next (backUp s)
  | .bcr r m => execBcr r m s
  | .bcs r m => execBcs r m s
  | .bal r m => execBal r m s
  | .int r m => execInt r m s
  | .rd r m => execRd r m s
  | .wd r m => execWd r m s
  | .aio r m => execAio r m s
  | .mmc ind r sel ra => execMmc ind r sel ra s
  | .lcf r m => execLcf r m s
  | .cb r m => execCb r m s
  | .lb r m => execLb r m s
  | .mtb r m => execMtb r m s
  | .stcf r m => execStcf r m s
  | .stb r m => execStb r m s
  | .pack r m => execPack r m s
  | .unpk r m => execUnpk r m s
  | .ds r m => execDs r m s
  | .da r m => execDa r m s
  | .dd r m => execDd r m s
  | .dm r m => execDm r m s
  | .dsa r m => execDsa r m s
  | .dc r m => execDc r m s
  | .dl r m => execDl r m s
  | .dst r m => execDst r m s

/-- The subject at the end of a chain of EXECUTE instructions, each fetched as an instruction (R442, D28); none when the
chain has not ended after `n` accesses. Nothing changes on the way. -/
def resolveSubject : Nat → MemRef → State → Except Stop (Option Word)
  | 0, _, _ => .ok none
  | n + 1, m, s => do
    let a ← eaWord m s
    let w ← readInstr s a
    if opField w = 0x67 then resolveSubject n (memRefOf w) s else .ok (some w)

/-- The accesses after which a chain must have closed on itself: more than there are word addresses. -/
def chainLimit : Nat := 131073

/-- EXU (R442); the R field is ignored. A chain that closes on itself never ends and is interruptible at every access: the
step leaves IA at the initial EXU (log 36). -/
def execExu (_r : BitVec 4) (m : MemRef) (s : State) : Host.Outcome State Fault Refusal :=
  match resolveSubject chainLimit m s with
  | .error e => finish (.error e)
  | .ok none => .next (backUp s)
  | .ok (some w) =>
    match decodeWord w with
    | .ok i => execSubject i s
    | .error _ => finish (nonexistent w s)

end Sys2Proof.Machine
end

