-- ==== Sys2Proof/Machine/AddressStop.lean ====
section
/-! DEFINITION. The references an instruction makes to memory, for the ADDR STOP switch (spec 60_exceptions R621). -/

namespace Sys2Proof.Machine

open Sys2Proof

/-- A reference of the program's own. -/
def ownReference (s : State) (k : Access) (a : WordAddr) : Reference := ⟨programPath s, k, a⟩

/-- The program's own indirect word (30_encoding R127). -/
def ownIndirect (m : MemRef) (s : State) : List Reference := indirectReference (programPath s) m

/-- The words of `n` consecutive bytes. -/
def byteReferences (k : Access) (n : Nat) (a : ByteAddr) (s : State) : List Reference :=
  (List.range n).map (fun i => ownReference s k (fld (a + BitVec.ofNat 19 i) 0 17))

/-- `n` consecutive words. -/
def wordReferences (k : Access) (n : Nat) (a : WordAddr) (s : State) : List Reference :=
  (List.range n).map (fun i => ownReference s k (a + BitVec.ofNat 17 i))

/-- The accesses `ks` of an effective byte, after its indirect word. -/
def onByte (ks : List Access) (m : MemRef) (s : State) : List Reference :=
  ownIndirect m s ++ whenReached (eaByte m s) (fun a => ks.flatMap (fun k => byteReferences k 1 a s))
/-- The accesses `ks` of an effective halfword. -/
def onHalf (ks : List Access) (m : MemRef) (s : State) : List Reference :=
  ownIndirect m s ++ whenReached (eaHalf m s) (fun a => ks.map (fun k => ownReference s k (fld a 0 17)))
/-- The accesses `ks` of an effective word. -/
def onWord (ks : List Access) (m : MemRef) (s : State) : List Reference :=
  ownIndirect m s ++ whenReached (eaWord m s) (fun a => ks.map (ownReference s · a))
/-- The accesses `ks` of both words of an effective doubleword. -/
def onDouble (ks : List Access) (m : MemRef) (s : State) : List Reference :=
  ownIndirect m s ++
    whenReached (eaDouble m s) (fun a => ks.flatMap (fun k => wordReferences k 2 (a ++ 0#1) s))
/-- The accesses `k` of `n` words from the effective word on. -/
def onWords (k : Access) (n : Nat) (m : MemRef) (s : State) : List Reference :=
  ownIndirect m s ++ whenReached (eaWord m s) (fun a => wordReferences k n a s)
/-- The accesses `k` of `n` bytes from the effective byte on. -/
def onBytes (k : Access) (n : Nat) (m : MemRef) (s : State) : List Reference :=
  ownIndirect m s ++ whenReached (eaByte m s) (fun a => byteReferences k n a s)

/-- The accesses of a modify and test: with R field 0 the operand is only read. -/
def modifyAccesses (r : BitVec 4) : List Access := if r = 0 then [.operand] else [.operand, .write]

/-- References made in master mode only: in slave mode the instruction traps at decoding (R559). -/
def inMaster (s : State) (l : List Reference) : List Reference := if s.psd.ms then [] else l
/-- References made when an option is installed: else the instruction traps at decoding (R561). -/
def withOption (present : Bool) (l : List Reference) : List Reference := if present then l else []

/-- A push-down instruction: the pointer, and, unless a limit stops it, `words` of the stack top and the pointer again
(47_push_down_branch_call R422). -/
def stackReferences (m : MemRef) (delta : Int) (words : WordAddr → List Reference) (s : State) : List Reference :=
  onDouble [.operand] m s ++ whenReached (eaDouble m s) (fun a => whenReached (readDouble s a) (fun spd =>
    if countViolated ((spaceCount spd).toNat - delta) || countViolated ((wordCount spd).toNat + delta) then []
    else words (stackTop spd) ++ wordReferences .write 2 (a ++ 0#1) s))

/-- A branch: its effective address, whether or not it is taken; a target that traps is not accessed (R443 to R447). -/
def branchReferences (m : MemRef) (taken : Bool) (s : State) : List Reference :=
  ownIndirect m s ++
    whenReached (eaWord m s) (fun a => [⟨⟨(programPath s).mapped, taken⟩, .instruction, a⟩])

/-- One step of EBS: the pattern byte, the decimal byte that a selector takes, the pattern byte again (46_byte_string
R402). -/
def editReferences (r : RegNum) (d : BitVec 20) (s : State) : List Reference :=
  let da := addressField (getReg s (ru1 r))
  byteReferences .operand 1 da s ++ whenReached (readByte s da) (fun p =>
    let sa := displaced (getReg s r) d
    (if p = 0x20 ∨ p = 0x21 ∨ p = 0x23 then byteReferences .operand 1 sa s else []) ++
    whenReached (stepEbs r d s) (fun _ =>
      if p = 0x20 ∨ p = 0x21 ∨ p = 0x22 ∨ p = 0x23 ∨ s.psd.cc4 = false then byteReferences .write 1 da s else []))

/-- The references of an instruction in the order it makes them, those of EXU without its subject's. A byte string, EBS and
MMC make those of one iteration. -/
def ownReferences (i : Instr) (s : State) : List Reference :=
  let more (r : RegNum) : Bool := countField (getReg s (ru1 r)) != 0
  let source (r : RegNum) (d : BitVec 20) (k : Access) := byteReferences k 1 (sourceAddress r d s) s
  let dest (r : RegNum) (k : Access) := byteReferences k 1 (addressField (getReg s (ru1 r))) s
  let table (r : RegNum) (d : BitVec 20) : List Reference :=
    whenReached (readByte s (addressField (getReg s (ru1 r)))) (fun b =>
      byteReferences .operand 1 (sourceAddress r d s + b.setWidth 19) s)
  match i with
  | .lcfi _ _ | .li _ _ | .ai _ _ | .ci _ _ | .mi _ _ => []
  | .cal1 _ _ | .cal2 _ _ | .cal3 _ _ | .cal4 _ _ => []
  | .lb _ m | .cb _ m | .lcf _ m => onByte [.operand] m s
  | .stb _ m | .stcf _ m => onByte [.write] m s
  | .mtb r m => onByte (modifyAccesses r) m s
  | .lh _ m | .lch _ m | .lah _ m | .ah _ m | .sh _ m | .mh _ m | .dh _ m | .ch _ m => onHalf [.operand] m s
  | .sth _ m => onHalf [.write] m s
  | .mth r m => onHalf (modifyAccesses r) m s
  | .lw _ m | .lcw _ m | .law _ m | .ls _ m | .aw _ m | .sw _ m | .mw _ m | .dw _ m => onWord [.operand] m s
  | .cw _ m | .cs _ m | .clr _ m | .and _ m | .or _ m | .eor _ m | .int _ m => onWord [.operand] m s
  | .fas _ m | .fss _ m | .fms _ m | .fds _ m => withOption s.cfg.hasFloat (onWord [.operand] m s)
  | .lrp _ m => inMaster s (onWord [.operand] m s)
  | .stw _ m => onWord [.write] m s
  | .xw _ m | .sts _ m | .awm _ m => onWord [.operand, .write] m s
  | .mtw r m => onWord (modifyAccesses r) m s
  | .ld _ m | .lcd _ m | .lad _ m | .ad _ m | .sd _ m | .cd _ m | .clm _ m => onDouble [.operand] m s
  | .fal _ m | .fsl _ m | .fml _ m | .fdl _ m => withOption s.cfg.hasFloat (onDouble [.operand] m s)
  | .lpsd _ m => inMaster s (onDouble [.operand] m s)
  | .std _ m => onDouble [.write] m s
  | .s _ m | .sf _ m => ownIndirect m s
  | .wait _ m | .rd _ m | .wd _ m => inMaster s (ownIndirect m s)
  | .sio _ m | .tio _ m | .tdv _ m | .hio _ m | .aio _ m => inMaster s (ownIndirect m s)
  | .dsa _ m => withOption s.cfg.hasDecimal (ownIndirect m s)
  | .lm _ m => onWords .operand (ccCount s.psd) m s
  | .stm _ m => onWords .write (ccCount s.psd) m s
  | .cvs _ m => onWords .operand 32 m s
  | .cva r m => ownIndirect m s ++ whenReached (eaWord m s) (fun a =>
      ((List.range 32).filter (fun k => (getReg s (ru1 r)).getMsbD k)).map (fun k =>
        ownReference s .operand (a + BitVec.ofNat 17 k)))
  | .anlz _ m => onWord [.operand] m s ++ whenReached (operandWord m s) (fun w =>
      if isImmediateType (addressType (opField w)) then [] else ownIndirect (memRefOf w) s)
  | .psw _ m => stackReferences m 1 (fun top => [ownReference s .write (top + 1)]) s
  | .plw _ m => stackReferences m (-1) (fun top => [ownReference s .operand top]) s
  | .psm _ m =>
    stackReferences m (ccCount s.psd) (fun top => wordReferences .write (ccCount s.psd) (top + 1) s) s
  | .plm _ m => stackReferences m (-(ccCount s.psd)) (fun top =>
      (List.range (ccCount s.psd)).map (fun k => ownReference s .operand (top - BitVec.ofNat 17 k))) s
  | .msp r m => stackReferences m (fld (getReg s r) 16 16 : Half).toInt (fun _ => []) s
  | .xpsd r m => inMaster s (exchangeReferences r m s)
  | .bcs r m => branchReferences m (r &&& ccBits s.psd != 0) s
  | .bcr r m => branchReferences m (r &&& ccBits s.psd == 0) s
  | .bir r m => branchReferences m (getReg s r + 1).msb s
  | .bdr r m => branchReferences m (!(getReg s r - 1).msb && getReg s r - 1 != 0) s
  | .bal _ m => branchReferences m true s
  | .exu _ m => onWord [.instruction] m s
  | .dl r m | .da r m | .ds r m | .dm r m | .dd r m | .dc r m =>
    withOption s.cfg.hasDecimal (onBytes .operand (decimalLength r) m s)
  | .dst r m => withOption s.cfg.hasDecimal
      (if legalPacked (getDeca s % 256 ^ decimalLength r) (decimalLength r) then onBytes .write (decimalLength r) m s
        else ownIndirect m s)
  | .pack r m => withOption s.cfg.hasDecimal (onBytes .operand (2 * decimalLength r - 1) m s)
  | .unpk r m => withOption s.cfg.hasDecimal
      (if legalPacked (getDeca s) 16 then onBytes .write (2 * decimalLength r - 1) m s else ownIndirect m s)
  | .mbs r d => if more r then source r d .operand ++ dest r .write else []
  | .cbs r d => if more r then source r d .operand ++ dest r .operand else []
  | .tbs r d => if more r && !isOdd r then dest r .operand ++ table r d ++ dest r .write else []
  | .ttbs r d => if more r && !isOdd r then dest r .operand ++ table r d else []
  | .ebs r d => if s.cfg.hasDecimal && more r && !isOdd r && r != 0 then editReferences r d s else []
  | .mmc _ r sel _ => inMaster s (whenReached (stepMmc r sel s) (fun _ =>
      if (controlStorage sel).any (storageInstalled s.cfg) && s.cfg.mmcLayout == .standard then
        [ownReference s .operand (fld (getReg s r) 15 17)]
      else []))

/-- The references of an instruction; those of EXU go on with its chain, of `n` accesses at most, and the final subject
(47_push_down_branch_call R442). -/
def references : Nat → Instr → State → List Reference
  | 0, _, _ => []
  | n + 1, i, s =>
    ownReferences i s ++
      match i with
      | .exu _ m => whenReached (eaWord m s) (fun a => whenReached (readInstr s a) (fun w =>
          match decodeWord w with
          | .ok j => references n j s
          | .error _ => []))
      | _ => []

/-- The references of an instruction word: its indirect word, operands and results, the subjects of EXU and their operands,
the effective address of a branch (R621; log 33). -/
def instructionReferences (w : Word) (s : State) : List Reference :=
  match decodeWord w with
  | .error _ => []
  | .ok i => references chainLimit i s

end Sys2Proof.Machine
end

