-- ==== Sys2Proof/Machine/Dispatch.lean ====
section
/-! DEFINITION. One arm for each instruction: a direct call of its meaning. -/

namespace Sys2Proof.Machine

/-- The meaning of an instruction, IA having been incremented by its fetch (47_push_down_branch_call R440). -/
def exec (i : Instr) (s : State) : Host.Outcome State Fault Refusal :=
  match i with
  | .lcfi r v => Sys2Proof.Machine.execLcfi r v s
  | .cal1 r m => Sys2Proof.Machine.execCal1 r m s
  | .cal2 r m => Sys2Proof.Machine.execCal2 r m s
  | .cal3 r m => Sys2Proof.Machine.execCal3 r m s
  | .cal4 r m => Sys2Proof.Machine.execCal4 r m s
  | .plw r m => Sys2Proof.Machine.execPlw r m s
  | .psw r m => Sys2Proof.Machine.execPsw r m s
  | .plm r m => Sys2Proof.Machine.execPlm r m s
  | .psm r m => Sys2Proof.Machine.execPsm r m s
  | .lpsd r m => Sys2Proof.Machine.execLpsd r m s
  | .xpsd r m => Sys2Proof.Machine.execXpsd r m s
  | .ad r m => Sys2Proof.Machine.execAd r m s
  | .cd r m => Sys2Proof.Machine.execCd r m s
  | .ld r m => Sys2Proof.Machine.execLd r m s
  | .msp r m => Sys2Proof.Machine.execMsp r m s
  | .std r m => Sys2Proof.Machine.execStd r m s
  | .sd r m => Sys2Proof.Machine.execSd r m s
  | .clm r m => Sys2Proof.Machine.execClm r m s
  | .lcd r m => Sys2Proof.Machine.execLcd r m s
  | .lad r m => Sys2Proof.Machine.execLad r m s
  | .fsl r m => Sys2Proof.Machine.execFsl r m s
  | .fal r m => Sys2Proof.Machine.execFal r m s
  | .fdl r m => Sys2Proof.Machine.execFdl r m s
  | .fml r m => Sys2Proof.Machine.execFml r m s
  | .ai r v => Sys2Proof.Machine.execAi r v s
  | .ci r v => Sys2Proof.Machine.execCi r v s
  | .li r v => Sys2Proof.Machine.execLi r v s
  | .mi r v => Sys2Proof.Machine.execMi r v s
  | .sf r m => Sys2Proof.Machine.execSf r m s
  | .s r m => Sys2Proof.Machine.execS r m s
  | .cvs r m => Sys2Proof.Machine.execCvs r m s
  | .cva r m => Sys2Proof.Machine.execCva r m s
  | .lm r m => Sys2Proof.Machine.execLm r m s
  | .stm r m => Sys2Proof.Machine.execStm r m s
  | .wait r m => Sys2Proof.Machine.execWait r m s
  | .lrp r m => Sys2Proof.Machine.execLrp r m s
  | .aw r m => Sys2Proof.Machine.execAw r m s
  | .cw r m => Sys2Proof.Machine.execCw r m s
  | .lw r m => Sys2Proof.Machine.execLw r m s
  | .mtw r m => Sys2Proof.Machine.execMtw r m s
  | .stw r m => Sys2Proof.Machine.execStw r m s
  | .dw r m => Sys2Proof.Machine.execDw r m s
  | .mw r m => Sys2Proof.Machine.execMw r m s
  | .sw r m => Sys2Proof.Machine.execSw r m s
  | .clr r m => Sys2Proof.Machine.execClr r m s
  | .lcw r m => Sys2Proof.Machine.execLcw r m s
  | .law r m => Sys2Proof.Machine.execLaw r m s
  | .fss r m => Sys2Proof.Machine.execFss r m s
  | .fas r m => Sys2Proof.Machine.execFas r m s
  | .fds r m => Sys2Proof.Machine.execFds r m s
  | .fms r m => Sys2Proof.Machine.execFms r m s
  | .ttbs r d => Sys2Proof.Machine.execTtbs r d s
  | .tbs r d => Sys2Proof.Machine.execTbs r d s
  | .anlz r m => Sys2Proof.Machine.execAnlz r m s
  | .cs r m => Sys2Proof.Machine.execCs r m s
  | .xw r m => Sys2Proof.Machine.execXw r m s
  | .sts r m => Sys2Proof.Machine.execSts r m s
  | .eor r m => Sys2Proof.Machine.execEor r m s
  | .or r m => Sys2Proof.Machine.execOr r m s
  | .ls r m => Sys2Proof.Machine.execLs r m s
  | .and r m => Sys2Proof.Machine.execAnd r m s
  | .sio r m => Sys2Proof.Machine.execSio r m s
  | .tio r m => Sys2Proof.Machine.execTio r m s
  | .tdv r m => Sys2Proof.Machine.execTdv r m s
  | .hio r m => Sys2Proof.Machine.execHio r m s
  | .ah r m => Sys2Proof.Machine.execAh r m s
  | .ch r m => Sys2Proof.Machine.execCh r m s
  | .lh r m => Sys2Proof.Machine.execLh r m s
  | .mth r m => Sys2Proof.Machine.execMth r m s
  | .sth r m => Sys2Proof.Machine.execSth r m s
  | .dh r m => Sys2Proof.Machine.execDh r m s
  | .mh r m => Sys2Proof.Machine.execMh r m s
  | .sh r m => Sys2Proof.Machine.execSh r m s
  | .lch r m => Sys2Proof.Machine.execLch r m s
  | .lah r m => Sys2Proof.Machine.execLah r m s
  | .cbs r d => Sys2Proof.Machine.execCbs r d s
  | .mbs r d => Sys2Proof.Machine.execMbs r d s
  | .ebs r d => Sys2Proof.Machine.execEbs r d s
  | .bdr r m => Sys2Proof.Machine.execBdr r m s
  | .bir r m => Sys2Proof.Machine.execBir r m s
  | .awm r m => Sys2Proof.Machine.execAwm r m s
  | .exu r m => Sys2Proof.Machine.execExu r m s
  | .bcr r m => Sys2Proof.Machine.execBcr r m s
  | .bcs r m => Sys2Proof.Machine.execBcs r m s
  | .bal r m => Sys2Proof.Machine.execBal r m s
  | .int r m => Sys2Proof.Machine.execInt r m s
  | .rd r m => Sys2Proof.Machine.execRd r m s
  | .wd r m => Sys2Proof.Machine.execWd r m s
  | .aio r m => Sys2Proof.Machine.execAio r m s
  | .mmc ind r sel ra => Sys2Proof.Machine.execMmc ind r sel ra s
  | .lcf r m => Sys2Proof.Machine.execLcf r m s
  | .cb r m => Sys2Proof.Machine.execCb r m s
  | .lb r m => Sys2Proof.Machine.execLb r m s
  | .mtb r m => Sys2Proof.Machine.execMtb r m s
  | .stcf r m => Sys2Proof.Machine.execStcf r m s
  | .stb r m => Sys2Proof.Machine.execStb r m s
  | .pack r m => Sys2Proof.Machine.execPack r m s
  | .unpk r m => Sys2Proof.Machine.execUnpk r m s
  | .ds r m => Sys2Proof.Machine.execDs r m s
  | .da r m => Sys2Proof.Machine.execDa r m s
  | .dd r m => Sys2Proof.Machine.execDd r m s
  | .dm r m => Sys2Proof.Machine.execDm r m s
  | .dsa r m => Sys2Proof.Machine.execDsa r m s
  | .dc r m => Sys2Proof.Machine.execDc r m s
  | .dl r m => Sys2Proof.Machine.execDl r m s
  | .dst r m => Sys2Proof.Machine.execDst r m s

end Sys2Proof.Machine
end

