-- ==== Sys2Proof/Machine/Cycle.lean ====
section
/-! DEFINITION. The CPU cycle: interruptible points, acknowledgement, fetch, execution (spec 60_exceptions R584, R595 to
R598, R620, R630, 47_push_down_branch_call R440, 70_reset R661, R670). -/

namespace Sys2Proof.Machine

open Sys2Proof

/-! ### Interrupt acknowledgement -/

/-- MTB, MTH or MTW in an interrupt location (60_exceptions R597): actual addresses, no protection test, no condition
code, no overflow trap. The answer is the state and whether the result is zero. -/
def modifyTestActual (op : BitVec 7) (r : BitVec 4) (m : MemRef) (s : State) : Except Stop (State × Bool) := do
  let path : Path := ⟨false, false⟩
  let dra ← directVia path m s
  let d := indexOf m s
  if op = 0x73 then
    let a := addrByte dra d
    let l ← locate path .write (fld a 0 17) s
    let v := byteOf (locWord s l) (fld a 17 2) + modifyValue 8 r
    .ok (if r = 0 then s else locSetByte s l (fld a 17 2) v, v == 0)
  else if op = 0x53 then
    let a := addrHalf dra d
    let l ← locate path .write (fld a 0 17) s
    let v := halfOf (locWord s l) (a.getLsbD 0) + modifyValue 16 r
    .ok (if r = 0 then s else locSetHalf s l (a.getLsbD 0) v, v == 0)
  else
    let l ← locate path .write (addrWord dra d) s
    let v := locWord s l + modifyValue 32 r
    .ok (if r = 0 then s else locSetWord s l v, v == 0)

/-- The references of MTB, MTH or MTW in an interrupt location: its indirect word and its operand, which is stored too unless
the R field is 0 (60_exceptions R597). -/
def modifyTestReferences (op : BitVec 7) (r : BitVec 4) (m : MemRef) (s : State) : List Reference :=
  let path : Path := ⟨false, false⟩
  indirectReference path m ++ whenReached (directVia path m s) (fun dra =>
    let d := indexOf m s
    let a : WordAddr :=
      if op = 0x73 then fld (addrByte dra d) 0 17
      else if op = 0x53 then fld (addrHalf dra d) 0 17
      else addrWord dra d
    (modifyAccesses r).map (fun k => ⟨path, k, a⟩))

/-- The references of the instruction in interrupt location X'50' + `k`, the location itself first. -/
def interruptReferences (k : Nat) (w : Word) (s : State) : List Reference :=
  entryFetch (BitVec.ofNat 17 (0x50 + k)) ::
    (if opField w = 0x0F then exchangeReferences (rField w) (memRefOf w) s
      else modifyTestReferences (opField w) (rField w) (memRefOf w) s)

/-- The level is one of the count-pulse levels X'52' to X'55'. -/
def isCountPulse (k : Nat) : Bool := 2 ≤ k && k ≤ 5

/-- Acknowledge level `k` (60_exceptions R584): it becomes active, a WAIT ends, and the word of its location, read by
actual address, is executed. -/
def acknowledge (k : Nat) (s : State) : Host.Outcome State Fault Refusal :=
  let w := coreWord s.mem (BitVec.ofNat 17 (0x50 + k))
  let op := opField w
  let active := setLevel { s with halts := { s.halts with wait := false }, hazard := none } k
    { level s k with state := .active }
  let served := noteReferences (interruptReferences k w) { active with entry := some (.interrupt k) }
  let t := { served with entry := active.entry }
  if op = 0x0F ∧ isCountPulse k = false then
    match exchangePsd (rField w) (memRefOf w) served with
    | .ok u => .next { u with entry := none }
    | .error (.trap c u) => takeTrapAt c u
    | .error (.fault f) => .fault f
    | .error (.refuse r) => .refused r
  else if op = 0x73 ∨ op = 0x53 ∨ op = 0x33 then
    match modifyTestActual op (rField w) (memRefOf w) t with
    | .ok (u, zero) =>
      let v := setLevel u k { level u k with state := .armed }
      .next (if isCountPulse k && zero then signal v (k + 6) else v)
    | .error _ => .refused .modifyTestNonexistent
  else .refused .interruptLocation

/-! ### Fetch -/

/-- The next instruction word (R440): the displayed word after COMPUTE has left IDLE (70_reset R661); a free value where
the register hazard makes it unpredictable (70_reset R670, U27); else the word at IA, an instruction read. -/
def fetch (s : State) : Except Stop (Word × State) :=
  if s.started then .ok (s.ir, s)
  else if hazardous s then .ok ((draw s).1, displayFree s)
  else do
    let w ← readInstr s s.psd.ia
    .ok (w, { s with ir := w })

/-- "the instruction address ... is incremented by 1", unless INSTR ADDR is at HOLD (R440, 70_reset R663). -/
def advance (s : State) : State := if s.panel.holds then s else setIa s (s.psd.ia + 1)

/-- Decode and execute a fetched word (30_encoding R135). -/
def execWord (w : Word) (s : State) : Host.Outcome State Fault Refusal :=
  match decodeWord w with
  | .ok i => exec i s
  | .error _ => finish (nonexistent w s)

/-- Apply a function to a next state. -/
def onNext (f : State → State) : Host.Outcome State Fault Refusal → Host.Outcome State Fault Refusal
  | .next s => .next (f s)
  | .fault x => .fault x
  | .refused x => .refused x

/-! ### The register hazard -/

/-- The instructions whose R field names a register that they can write. DESIGN CHOICE (log 28): EXU is not one, whatever
its subject writes, because R670 speaks of the R field of the instruction accessed from the register. -/
def writesR : Instr → Bool
  | .lcfi _ _ => false
  | .cal1 _ _ => false
  | .cal2 _ _ => false
  | .cal3 _ _ => false
  | .cal4 _ _ => false
  | .plw _ _ => true
  | .psw _ _ => false
  | .plm _ _ => true
  | .psm _ _ => false
  | .lpsd _ _ => false
  | .xpsd _ _ => false
  | .ad _ _ => true
  | .cd _ _ => false
  | .ld _ _ => true
  | .msp _ _ => false
  | .std _ _ => false
  | .sd _ _ => true
  | .clm _ _ => false
  | .lcd _ _ => true
  | .lad _ _ => true
  | .fsl _ _ => true
  | .fal _ _ => true
  | .fdl _ _ => true
  | .fml _ _ => true
  | .ai _ _ => true
  | .ci _ _ => false
  | .li _ _ => true
  | .mi _ _ => true
  | .sf _ _ => true
  | .s _ _ => true
  | .cvs _ _ => true
  | .cva _ _ => true
  | .lm _ _ => true
  | .stm _ _ => false
  | .wait _ _ => false
  | .lrp _ _ => false
  | .aw _ _ => true
  | .cw _ _ => false
  | .lw _ _ => true
  | .mtw _ _ => false
  | .stw _ _ => false
  | .dw _ _ => true
  | .mw _ _ => true
  | .sw _ _ => true
  | .clr _ _ => false
  | .lcw _ _ => true
  | .law _ _ => true
  | .fss _ _ => true
  | .fas _ _ => true
  | .fds _ _ => true
  | .fms _ _ => true
  | .ttbs _ _ => true
  | .tbs _ _ => false
  | .anlz _ _ => true
  | .cs _ _ => false
  | .xw _ _ => true
  | .sts _ _ => false
  | .eor _ _ => true
  | .or _ _ => true
  | .ls _ _ => true
  | .and _ _ => true
  | .sio _ _ => true
  | .tio _ _ => true
  | .tdv _ _ => true
  | .hio _ _ => true
  | .ah _ _ => true
  | .ch _ _ => false
  | .lh _ _ => true
  | .mth _ _ => false
  | .sth _ _ => false
  | .dh _ _ => true
  | .mh _ _ => true
  | .sh _ _ => true
  | .lch _ _ => true
  | .lah _ _ => true
  | .cbs _ _ => true
  | .mbs _ _ => true
  | .ebs _ _ => true
  | .bdr _ _ => true
  | .bir _ _ => true
  | .awm _ _ => false
  | .exu _ _ => false
  | .bcr _ _ => false
  | .bcs _ _ => false
  | .bal _ _ => true
  | .int _ _ => true
  | .rd _ _ => true
  | .wd _ _ => false
  | .aio _ _ => true
  | .mmc _ _ _ _ => true
  | .lcf _ _ => false
  | .cb _ _ => false
  | .lb _ _ => true
  | .mtb _ _ => false
  | .stcf _ _ => false
  | .stb _ _ => false
  | .pack _ _ => false
  | .unpk _ _ => false
  | .ds _ _ => false
  | .da _ _ => false
  | .dd _ _ => false
  | .dm _ _ => false
  | .dsa _ _ => false
  | .dc _ _ => false
  | .dl _ _ => false
  | .dst _ _ => false

/-! ### Interruptible instructions -/

/-- One iteration of an interruptible instruction (60_exceptions R595 case 3); none for the other instructions. -/
def iteration (i : Instr) (s : State) : Option (Except Stop State) :=
  match i with
  | .mbs r d => some (stepMbs r d s)
  | .cbs r d => some (stepCbs r d s)
  | .tbs r d => some (stepTbs r d s)
  | .ttbs r d => some (stepTtbs r d s)
  | .ebs r d => some (stepEbs r d s)
  | .mmc _ r sel _ => some (stepMmc r sel s)
  | _ => none

/-- The iteration executed in `s` is not the last one: without the HOLD switch it would leave IA at the instruction. -/
def goesBack (i : Instr) (s : State) : Bool :=
  let free := { s with panel := { s.panel with instrHold := false } }
  match iteration i free with
  | some (.ok t) => t.psd.ia != s.psd.ia
  | some (.error _) => false
  | none => false

/-- The instruction of a word, executed in `s`, is not complete: iterations remain, its own or those of the subject of EXU,
or a chain of EXU has not ended (47_push_down_branch_call R442). -/
def iterationsRemain (w : Word) (s : State) : Bool :=
  match decodeWord w with
  | .error _ => false
  | .ok (.exu _ m) =>
    match resolveSubject chainLimit m s with
    | .error _ => false
    | .ok none => true
    | .ok (some v) =>
      match decodeWord v with
      | .ok i => goesBack i s
      | .error _ => false
  | .ok i => goesBack i s

/-- Where the next instruction word is accessed: at IA, or, when it is the displayed one, where that was read; none for a word
the operator has entered. DESIGN CHOICE (log 28): the subject of an EXU counts as accessed by the EXU and not from a register,
also when the EXU was itself fetched from register `n` and its subject is a BIR, BDR or BAL with R = `n` + 1 that branches to
`n` + 1 (R442 has it executed "as if" it were initially accessed): it makes no hazard. -/
def accessedAt (s : State) : Option WordAddr := if s.started then s.irAt else some s.psd.ia

/-- The word of register `n` + 1 is looked ahead while an instruction accessed from register `n` whose R field names that
register, and that can write it, is executed (70_reset R670). A trap discards it (`trapState`). -/
def lookAhead (w : Word) (s : State) : State :=
  { s with
    hazard := match accessedAt s, decodeWord w with
      | some n, .ok i => if n.toNat < 15 && writesR i && rField w == n.setWidth 4 + 1 then some (rField w) else none
      | _, _ => none }

/-- The instruction, begun in `before` and ended in `after`, has altered the register `n1` of its R field: its contents differ,
and for EBS, which may also store into it, its source address has advanced (70_reset R670, 46_byte_string R402). -/
def alteredR (w : Word) (n1 : RegNum) (before after : State) : Bool :=
  getReg { after with psd := before.psd } n1 != getReg before n1 &&
    match decodeWord w with
    | .ok (.ebs r d) => editMoves r d before
    | _ => true

/-- The register whose next fetch is unpredictable: the one looked ahead, when the instruction has altered it, be it in an
earlier iteration, and no trap was taken (70_reset R670). -/
def hazardAfter (w : Word) (before after : State) : Option RegNum :=
  after.hazard.filter (fun n1 =>
    alteredR w n1 before after || (before.midway == some before.psd.ia && before.hazard == some n1))

/-! ### Address stop (60_exceptions R621) -/

/-- Enter the ADDRESS STOP halt; the next instruction is displayed (R621). -/
def stopAtAddress (s : State) : State :=
  let t := displayNext s
  { t with halts := { t.halts with addrStop := true }, stopPending := false }

/-- The ADDRESS STOP halt phase comes if its condition has been detected (R621). -/
def stopIfPending (s : State) : State := if s.panel.stops && s.stopPending then stopAtAddress s else s

/-- An instruction access to the SELECT ADDRESS value with ADDR STOP on (R621); none is made to go on with an interruptible
instruction. DESIGN CHOICE (log 33): the halt comes before the fetch, also of an instruction whose fetch would trap, its
address nonexistent or protected; the spec does not say whether the halt or trap X'40' comes, and no trap is taken then. -/
def atSelectedAddress (s : State) : Bool :=
  s.panel.stops && s.panel.compute == .run && !s.started && s.psd.ia == s.panel.selectAddress &&
    s.midway != some s.psd.ia

/-! ### The cycle -/

/-- After an instruction: the register hazard is noted and the displayed word is used up; a stepped instruction is executed
whole, all its iterations, and then leaves COMPUTE at IDLE with the next instruction displayed (70_reset R661). -/
def afterInstruction (w : Word) (before after : State) : State :=
  let remain := iterationsRemain w (advance before)
  let t := { after with
    hazard := hazardAfter w before after
    midway := if remain then some after.psd.ia else none
    started := before.started && after.panel.compute == .step && remain }
  if t.panel.compute == .step && !remain then atIdle (displayNext t) else t

/-- The level to acknowledge at this interruptible point: none while stepping and before a started instruction
(60_exceptions R584, R610, 70_reset R661). -/
def interruptNow (s : State) : Option Nat :=
  if s.panel.compute == .run && !s.started then nextInterrupt s else none

/-- The acknowledgement of an interrupt; the ADDRESS STOP halt phase follows if its condition has been detected, by this
instruction or before it (R621). -/
def acknowledgeAndStop (k : Nat) (s : State) : Host.Outcome State Fault Refusal := onNext stopIfPending (acknowledge k s)

/-- After an instruction in which the ADDRESS STOP halt condition has been detected: while iterations remain, the condition
is kept; else comes the halt phase, after the instruction in the interrupt location if an interrupt is detected before it
(R621); the I/O level follows the device requests first (R605). -/
def settle (x : Host.Outcome State Fault Refusal) : Host.Outcome State Fault Refusal :=
  match x with
  | .next s =>
    if s.panel.stops && s.panel.compute == .run && s.stopPending && s.midway.isNone then
      match interruptNow (ioSync s) with
      | some k => acknowledgeAndStop k (ioSync s)
      | none => .next (stopAtAddress (ioSync s))
    else .next s
  | .fault f => .fault f
  | .refused r => .refused r

/-- Execute a fetched word and do what follows. -/
def executeWord (w : Word) (before fetched : State) : Host.Outcome State Fault Refusal :=
  settle (onNext (afterInstruction w before)
    (execWord w (noteReferences (instructionReferences w) (advance (lookAhead w fetched)))))

/-- Fetch and execute one instruction, or one iteration of an interruptible one (R630). A fetch that is not allowed
traps with IA as it stands (60_exceptions R552 step 3, D41). -/
def executeNext (s : State) : Host.Outcome State Fault Refusal :=
  match fetch s with
  | .ok (w, t) => executeWord w s t
  | .error (.trap c t) => settle (onNext (afterInstruction 0 s) (takeTrapAt c t))
  | .error (.fault f) => .fault f
  | .error (.refuse r) => .refused r

/-- `cpu_step()` of R630. In a parity halt, from which SYS RESET/CLEAR alone leads on (60_exceptions R606), nothing is executed,
wherever COMPUTE is (DESIGN CHOICE, log 32; STEP: `stepEnds`). -/
def cpuStep (s : State) : Host.Outcome State Fault Refusal :=
  if s.panel.compute == .idle || s.halts.addrStop || s.halts.parity then .next s
  else
    let t := { s with watchdog := 0 }
    match interruptNow t with
    | some k => acknowledgeAndStop k t
    | none =>
      if t.halts.wait then .next t
      else if atSelectedAddress t then .next (stopAtAddress t)
      else executeNext t

/-- The next step of the machine: an outside event if the schedule has one next, else a step of the CPU. The I/O level
follows the device requests first (60_exceptions R605). -/
def machineStep (s : State) : Host.Outcome State Fault Refusal :=
  match s.inputs with
  | [] => cpuStep (ioSync s)
  | .cpu :: rest => cpuStep (ioSync { s with inputs := rest })
  | .event e :: rest => applyEvent e (ioSync { s with inputs := rest })

/-- A word stored where the next fetch reads it: the instruction register when it is the next instruction, a general
register, or core memory at the actual address of IA. -/
def placeFetchWord (s : State) (w : Word) : State :=
  if s.started then { s with ir := w }
  else if s.psd.ia.toNat < 16 then setReg s (s.psd.ia.setWidth 4) w
  else { s with mem := coreSetWord s.mem (actualOf (programPath s) s.psd.ia s) w }

end Sys2Proof.Machine
end

