-- ==== Sys2Proof/Machine/Step.lean ====
section
/-! DEFINITION. One step of the machine; everything it does is in `Sys2Proof/Machine/Cycle.lean`. -/

namespace Sys2Proof.Machine

/-- One step: `machineStep` of `Cycle.lean`. -/
def step (s : State) : Host.Outcome State Fault Refusal := machineStep s

/-- The state with an instruction placed where the next step fetches it. Every instruction is one word of 32 bits, so
`nbits` is 32; the bits of `w` above it are dropped. -/
def State.withFetchWord (s : State) (nbits w : Nat) : State := placeFetchWord s (BitVec.ofNat 32 (w % 2 ^ nbits))

end Sys2Proof.Machine
end

