-- ==== Sys2Proof/Safety.lean ====
section
/-! DEFINITION. The terms statements use: a safe run, the invariant of the machine, and what an instruction leaves changed
and unchanged, read through single registers and single bytes. -/

namespace Sys2Proof.Safety

open Sys2Proof Machine

/-- The outcome is a next state. -/
def goesOn : Host.Outcome State Fault Refusal → Prop
  | .next _ => True
  | .fault _ => False
  | .refused _ => False

/-- The memory has its canonical form. -/
def memoryOk (s : State) : Prop := Memory.wf s.mem = true

/-- A step from `s` is safe: it goes on, and keeps the form of the memory. -/
def safeStep (s : State) : Prop := ∃ t, step s = .next t ∧ memoryOk t

/-- A power level is "always armed, always enabled": it is never disarmed and its enable is set (60_exceptions R594). -/
def powerLevelOk (l : Level) : Prop := l.enabled = true ∧ l.state ≠ .disarmed

/-- The invariant of the machine: the memory has its canonical form, no trap or interrupt location is half served between
steps, the power levels are armed and enabled, and the priority chain is a permutation of the groups (00_scope R5). -/
def Inv (s : State) : Prop :=
  memoryOk s ∧ s.entry = none ∧ powerLevelOk (level s 0) ∧ powerLevelOk (level s 1) ∧ s.cfg.chainOk = true

/-! ### Effects -/

/-- The registers of the current block that an instruction writes, with their values. -/
abbrev Regs := RegNum → Option Word
/-- The bytes of core memory that an instruction writes, by actual byte address, with their values. -/
abbrev Bytes := Nat → Option Byte

/-- No register. -/
def noRegs : Regs := fun _ => none
/-- One register. -/
def oneReg (r : RegNum) (v : Word) : Regs := fun k => if k = r then some v else none
/-- The writes of `a`, and in other places those of `b`. -/
def firstOf {α β : Type} (a b : α → Option β) : α → Option β := fun k => (a k).or (b k)
/-- A doubleword in the pair R, Ru1; an odd R receives the high-order word. -/
def pairRegs (r : RegNum) (d : Double) : Regs := firstOf (oneReg r (hiWord d)) (oneReg (ru1 r) (loWord d))
/-- A doubleword in the pair R, Ru1; an odd R receives the low-order word. -/
def pairRegsLow (r : RegNum) (d : Double) : Regs := firstOf (oneReg (ru1 r) (loWord d)) (oneReg r (hiWord d))
/-- No byte. -/
def noBytes : Bytes := fun _ => none
/-- The four bytes of a word at an actual word address. -/
def wordBytes (a : WordAddr) (w : Word) : Bytes :=
  fun n => if n / 4 = a.toNat then some (fld w (8 * (n % 4)) 8) else none

/-- The register written by storing a word in a location. -/
def locRegs : Loc → Word → Regs
  | .reg r, w => oneReg r w
  | .core _, _ => noRegs
/-- The bytes written by storing a word in a location. -/
def locBytes : Loc → Word → Bytes
  | .reg _, _ => noBytes
  | .core a, w => wordBytes a w
/-- The register written by storing byte `k` of a location. -/
def locRegsByte (s : State) : Loc → BitVec 2 → Byte → Regs
  | .reg r, k, b => oneReg r (setByte (getReg s r) k b)
  | .core _, _, _ => noRegs
/-- The byte written by storing byte `k` of a location. -/
def locBytesByte : Loc → BitVec 2 → Byte → Bytes
  | .reg _, _, _ => noBytes
  | .core a, k, b => fun n => if n = 4 * a.toNat + k.toNat then some b else none
/-- The register written by storing a halfword of a location. -/
def locRegsHalf (s : State) : Loc → Bool → Half → Regs
  | .reg r, k, h => oneReg r (setHalf (getReg s r) k h)
  | .core _, _, _ => noRegs
/-- The two bytes written by storing a halfword of a location. -/
def locBytesHalf : Loc → Bool → Half → Bytes
  | .reg _, _, _ => noBytes
  | .core a, k, h => fun n =>
    if n / 2 = 2 * a.toNat + (if k then 1 else 0) then some (fld h (8 * (n % 2)) 8) else none

/-- Four condition-code bits, CC1 high. -/
def ccOf (a b c d : Bool) : BitVec 4 := BitVec.ofBool a ++ BitVec.ofBool b ++ BitVec.ofBool c ++ BitVec.ofBool d

/-- CC1 and CC2 as given, CC3 and CC4 from the sign of a number: 00 zero, 01 negative, 10 positive. -/
def ccSign (a b : Bool) (x : Int) : BitVec 4 := ccOf a b (decide (0 < x)) (decide (x < 0))

/-- Everything but the registers of the current block, core memory, the condition code and the instruction address is the
same in `t` as in `s`. -/
def SameRest (s t : State) : Prop :=
  (∀ n : Fin 512, n.val / 16 ≠ s.psd.rp.toNat → t.regs[n] = s.regs[n]) ∧
  { t with
    regs := s.regs, mem := s.mem
    psd := { t.psd with
      cc1 := s.psd.cc1, cc2 := s.psd.cc2, cc3 := s.psd.cc3, cc4 := s.psd.cc4, ia := s.psd.ia } } = s

/-- From `s` to `t`: IA and CC have these values, these registers and bytes are written, and nothing else changes. A
write to a register of a missing block is discarded (10_state R13, U8). -/
def Effect (s t : State) (ia : WordAddr) (cc : BitVec 4) (regs : Regs) (bytes : Bytes) : Prop :=
  (∀ k, getReg t k = if blockInstalled s then (regs k).getD (getReg s k) else getReg s k) ∧
  (∀ a, memByte t.mem a = (bytes a).getD (memByte s.mem a)) ∧
  ccBits t.psd = cc ∧ t.psd.ia = ia ∧ SameRest s t

/-- `Effect` but for the count of the free values drawn. -/
def EffectDrawn (s t : State) (ia : WordAddr) (cc : BitVec 4) (regs : Regs) (bytes : Bytes) : Prop :=
  Effect { s with draws := t.draws } t ia cc regs bytes

/-- The instruction goes on to a state with this effect. -/
def Completes (i : Instr) (s : State) (ia : WordAddr) (cc : BitVec 4) (regs : Regs) (bytes : Bytes) : Prop :=
  ∃ t, exec i s = .next t ∧ Effect s t ia cc regs bytes

/-- The instruction ends with this effect and, if the trap is unmasked, then takes it: the trap comes after the effect is in
place. -/
def TrapsAfter (unmasked : Bool) (c : TrapCause) (i : Instr) (s : State) (cc : BitVec 4) (regs : Regs)
    (bytes : Bytes) : Prop :=
  (unmasked = false → Completes i s s.psd.ia cc regs bytes) ∧
  (unmasked = true → ∃ t, exec i s = takeTrap c t ∧ Effect s t s.psd.ia cc regs bytes)

/-- A fixed-point instruction with this effect, which overflows when `bad` holds: then, with AM = 1, trap X'43' is taken
(41_fixed_point R212, 60_exceptions R568). -/
def Arithmetic (i : Instr) (s : State) (bad : Prop) (cc : BitVec 4) (regs : Regs) (bytes : Bytes) : Prop :=
  (¬ bad → Completes i s s.psd.ia cc regs bytes) ∧ (bad → TrapsAfter s.psd.am .overflow i s cc regs bytes)

/-- A decimal instruction that is aborted: CC1 and CC2 tell an illegal digit or sign (`illegal`) or an overflow, nothing else
changes, and with DM = 1 trap X'45' is taken (45_decimal R345, R346). -/
def DecimalAborted (i : Instr) (s : State) (illegal : Bool) : Prop :=
  TrapsAfter s.psd.dm .decimalFault i s (ccOf illegal (!illegal) s.psd.cc3 s.psd.cc4) noRegs noBytes

/-- A decimal instruction whose result is indeterminate: it completes, registers 12 to 15 and CC hold any values, and
everything else is as it was (45_decimal R352, R353, U5). -/
def DecimalFree (i : Instr) (s : State) : Prop :=
  ∃ t cc, exec i s = .next t ∧
    EffectDrawn s t s.psd.ia cc (fun k => if 12 ≤ k.toNat then some (getReg t k) else none) noBytes

/-! ### Floating point -/

/-- The number `a` of `n` bits, `f` of them fraction, shifted by a count of hexadecimal digits: `done` holds of the result
with CC1 and CC2 (43_shift_conversion R291 to R294). The number is sign and magnitude, the magnitude a characteristic and a
fraction; `z` is the number of digits from the fraction to its normalized form. -/
def FloatShifted {n : Nat} (f : Nat) (count : BitVec 7) (a : BitVec n) (done : BitVec n → Bool → Bool → Prop) : Prop :=
  let mag := a.toInt.natAbs
  let ch := mag / 2 ^ f % 128
  let fr := mag % 2 ^ f
  let signed (x : Nat) : BitVec n := if a.toInt < 0 then -BitVec.ofNat n x else BitVec.ofNat n x
  let left := count.toNat
  let right := 128 - count.toNat
  (count.msb = false → fr = 0 → done 0 true false) ∧
  (∀ z, count.msb = false → 2 ^ (f - 4) ≤ fr * 16 ^ z → fr * 16 ^ z < 2 ^ f →
    let j := min left (min z (ch + 1))
    done (signed ((ch + 128 - j) % 128 * 2 ^ f + fr * 16 ^ j)) (decide (z ≤ left ∧ z ≤ ch + 1))
      (decide (ch + 1 ≤ left ∧ ch + 1 ≤ z))) ∧
  (count.msb = true →
    let j := min right (128 - ch)
    let y := fr / 16 ^ j
    done (signed (if y = 0 then 0 else (ch + j) % 128 * 2 ^ f + y)) false (decide (128 - ch ≤ right)))

/-- The floating-point number with this sign, characteristic and fraction (44_floating_point R301). -/
def floatNumber (n : Nat) (neg : Bool) (c : Int) (f : Nat) : BitVec n :=
  if neg then -BitVec.ofNat n (c.toNat * 2 ^ (n - 8) + f) else BitVec.ofNat n (c.toNat * 2 ^ (n - 8) + f)

/-- The end of a multiplication or division with the normalized fraction `f` and the exact characteristic `c`: overflow is a
fault, underflow one if FZ is set and else true zero (44_floating_point R308, R320). -/
def floatEnds (n : Nat) (mode : FloatMode) (neg : Bool) (c : Int) (f : Nat) : FloatResult n :=
  if 127 < c then .fault (if neg then 5 else 6)
  else if 0 ≤ c then .result (floatNumber n neg c f) (if neg then 1 else 2)
  else if mode.fz then .fault (if neg then 13 else 14)
  else .result 0 12

/-- The end of an addition whose aligned sum, with `guard` digits behind the fraction of `digits` digits, is the magnitude
`m` with characteristic `c`: with FN = 1 it is not normalized, with FN = 0 it is, by `k` digits (44_floating_point R308,
R310, R311). -/
def FloatSumEnds (n : Nat) (mode : FloatMode) (neg : Bool) (digits guard m : Nat) (c : Int) (x : FloatResult n) : Prop :=
  (mode.fn = true → x =
    if m / 16 ^ guard = 0 then .result 0 0
    else if 127 < c then .fault (if neg then 5 else 6)
    else .result (floatNumber n neg c (m / 16 ^ guard)) (if neg then 1 else 2)) ∧
  (mode.fn = false → m = 0 → x = if mode.fs then .fault 8 else .result 0 8) ∧
  (mode.fn = false → ∀ k : Nat, 16 ^ (digits + guard - 1) ≤ m * 16 ^ k → m * 16 ^ k < 16 ^ (digits + guard) → x =
    if 127 < c - k then .fault (if neg then 5 else 6)
    else if c - k < 0 ∧ mode.fz = true then .fault (if neg then 13 else 14)
    else if 2 < k ∧ mode.fs = true then .fault (if neg then 9 else 10)
    else if c - k < 0 then .result 0 12
    else .result (floatNumber n neg (c - k) (m * 16 ^ k / 16 ^ guard))
      (if 2 < k then (if neg then 9 else 10) else (if neg then 1 else 2)))

/-! ### Strings of words and bytes -/

/-- The words of consecutive virtual addresses from `a` on are stored: word `i` is `val i`, and nothing else changes but
the condition code and IA. The locations `except` may end with something else. -/
def StoredWords (s t : State) (n : Nat) (a : WordAddr) (val : Nat → Word) (except : Loc → Prop) : Prop :=
  (∀ i < n, ∀ l, locate (programPath s) .write (a + BitVec.ofNat 17 i) s = .ok l → ¬ except l →
    (∀ k, l = .reg k → blockInstalled s = true) → locWord t l = val i) ∧
  (∀ x, (∀ i < n, ∀ b, locate (programPath s) .write (a + BitVec.ofNat 17 i) s = .ok (.core b) → x / 4 ≠ b.toNat) →
    (∀ b, except (.core b) → x / 4 ≠ b.toNat) → memByte t.mem x = memByte s.mem x) ∧
  (∀ k, (∀ i < n, locate (programPath s) .write (a + BitVec.ofNat 17 i) s ≠ .ok (.reg k)) → ¬ except (.reg k) →
    getReg t k = getReg s k) ∧
  SameRest s t

/-- The actual address of a byte that may be stored to, if it is in core memory. -/
def coreByte (s : State) (a : ByteAddr) : Option Nat :=
  match locate (programPath s) .write (fld a 0 17) s with
  | .ok (.core b) => some (4 * b.toNat + (fld a 17 2 : BitVec 2).toNat)
  | _ => none

/-- Every one of `n` consecutive bytes from `a` on may be stored to. -/
def BytesWritable (s : State) (n : Nat) (a : ByteAddr) : Prop :=
  ∀ i < n, ∃ l, locate (programPath s) .write (fld (a + BitVec.ofNat 19 i) 0 17) s = .ok l

/-- Consecutive bytes from `a` on are stored, in core memory or in registers, and nothing else changes but the condition
code and IA: no other byte of core memory, and no other byte of a register. -/
def StoredBytes (s t : State) (a : ByteAddr) (bytes : List Byte) : Prop :=
  (∀ i (h : i < bytes.length) x, coreByte s (a + BitVec.ofNat 19 i) = some x → memByte t.mem x = bytes[i]) ∧
  (∀ i (h : i < bytes.length) k,
    locate (programPath s) .write (fld (a + BitVec.ofNat 19 i) 0 17) s = .ok (.reg k) → blockInstalled s = true →
    byteOf (getReg t k) (fld (a + BitVec.ofNat 19 i) 17 2) = bytes[i]) ∧
  (∀ x, (∀ i < bytes.length, coreByte s (a + BitVec.ofNat 19 i) ≠ some x) → memByte t.mem x = memByte s.mem x) ∧
  (∀ (k : RegNum) (j : BitVec 2), (∀ i < bytes.length,
      locate (programPath s) .write (fld (a + BitVec.ofNat 19 i) 0 17) s = .ok (.reg k) →
      (fld (a + BitVec.ofNat 19 i) 17 2 : BitVec 2) ≠ j) →
    byteOf (getReg t k) j = byteOf (getReg s k) j) ∧
  SameRest s t

/-- The stack pointer doubleword `new` is `old` after `delta` words have been added: the top and the two counts have moved,
the other bits are as they were (47_push_down_branch_call R421, R422; decision D27, log 27). -/
def PointerMoved (old new : Double) (delta : Int) : Prop :=
  (fld new 0 15 : BitVec 15) = fld old 0 15 ∧ (fld new 15 17 : WordAddr) = fld old 15 17 + BitVec.ofInt 17 delta ∧
  new.getMsbD 32 = old.getMsbD 32 ∧ new.getMsbD 48 = old.getMsbD 48 ∧
  ((fld new 33 15 : BitVec 15).toNat : Int) = (fld old 33 15 : BitVec 15).toNat - delta ∧
  ((fld new 49 15 : BitVec 15).toNat : Int) = (fld old 49 15 : BitVec 15).toNat + delta

/-- From `u` to `t` the doubleword `new` is stored in the two locations of the pointer, the even word first. -/
def PointerStored (u t : State) (cc : BitVec 4) (p0 p1 : Loc) (new : Double) : Prop :=
  Effect u t u.psd.ia cc (firstOf (locRegs p1 (fld new 32 32)) (locRegs p0 (fld new 0 32)))
    (firstOf (locBytes p1 (fld new 32 32)) (locBytes p0 (fld new 0 32)))

/-! ### Exchanging the PSD -/

/-- The four words of an XPSD with flags `r` and address part `m` can be reached: `l0`, `l1` for the old PSD, `l2`, `l3`
with the new one (48_control R463). -/
def ExchangeAt (s : State) (r : BitVec 4) (m : MemRef) (l0 l1 l2 l3 : Loc) : Prop :=
  let on := s.cfg.hasMap && s.psd.mm
  let path : Path := ⟨on && r.getMsbD 2, s.entry.isNone⟩
  ∃ dra, directVia ⟨on && (r.getMsbD 2 || s.entry.isNone), s.entry.isNone⟩ m s = .ok dra ∧
    let a : WordAddr := addrDouble dra (indexOf m s) ++ 0#1
    locate path .write a s = .ok l0 ∧ locate path .write (a + 1) s = .ok l1 ∧
    locate path .operand (a + 2) s = .ok l2 ∧ locate path .operand (a + 3) s = .ok l3

/-- The fields of the PSD after XPSD, from the old ones and the two new words (R464): bits 0 to 35 are replaced, the
inhibits are ORed in, RP is replaced if bit 8 of the XPSD is set. -/
def NewPsd (old new : Psd) (hi lo : Word) (lp : Bool) : Prop :=
  ccBits new = fld hi 0 4 ∧ new.fs = hi.getMsbD 5 ∧ new.fz = hi.getMsbD 6 ∧ new.fn = hi.getMsbD 7 ∧
  new.ms = hi.getMsbD 8 ∧ new.mm = hi.getMsbD 9 ∧ new.dm = hi.getMsbD 10 ∧ new.am = hi.getMsbD 11 ∧
  new.ia = fld hi 15 17 ∧ new.wk = fld lo 2 2 ∧
  new.ci = (old.ci || lo.getMsbD 5) ∧ new.ii = (old.ii || lo.getMsbD 6) ∧ new.ei = (old.ei || lo.getMsbD 7) ∧
  new.rp = if lp then fld lo 23 5 else old.rp

/-- The old PSD, with IA = `ia`, has been stored at `l0`, `l1` and the rest of the machine but the PSD is as it was. -/
def PsdStored (s t : State) (ia : WordAddr) (l0 l1 : Loc) : Prop :=
  (∀ n : Fin 512, n.val / 16 ≠ s.psd.rp.toNat → t.regs[n] = s.regs[n]) ∧
  (∀ k, getReg { t with psd := s.psd } k =
    if blockInstalled s then
      ((firstOf (locRegs l1 (psw2 s.psd)) (locRegs l0 (psw1 { s.psd with ia := ia }))) k).getD (getReg s k)
    else getReg s k) ∧
  (∀ a, memByte t.mem a =
    ((firstOf (locBytes l1 (psw2 s.psd)) (locBytes l0 (psw1 { s.psd with ia := ia }))) a).getD (memByte s.mem a)) ∧
  { t with regs := s.regs, mem := s.mem, psd := s.psd, entry := s.entry } = s

end Sys2Proof.Safety
end

