-- ==== Sys2Proof/Certificates/Slice0/Obligations.lean ====
section
/-! DEFINITION. The statements for the provers. `Completes i s ia cc regs bytes` says that exec of `i` in `s` goes on to a
state with this IA and condition code, in which these registers and bytes of memory have these values and EVERYTHING ELSE
is as in `s` (every other register of every block, every other byte, every flag, every special register). -/

open Sys2Proof Sys2Proof.Machine Sys2Proof.Safety

/-! ### Encoding -/

/-- Decoding the encoding of a well-formed instruction gives that instruction back, for every instruction with every
operand. -/
def Obligations.DecodeEncode : Prop :=
  ∀ i : Instr, i.wellFormed = true → decodeWord (encode i) = .ok i

/-- A word is no instruction exactly when its operation code is one of the 22 unassigned ones, or when bit 0 is 1 and its
code is one of the ten without indirect addressing: 02, 20 to 23, 40, 41, 60, 61, 63; executed, it takes the trap to X'40' as
a nonexistent instruction (CC1), and a privileged one besides (CC3) for the codes 0C, 0D, 2C, 2D in slave mode, with nothing
changed before the trap. Every other word is the encoding of the well-formed instruction it decodes to. -/
def Obligations.DecodesExactly : Prop :=
  ∀ w : Word,
    ((∃ e, decodeWord w = .error e) ↔
      fld w 1 7 ∈ ([0x00, 0x01, 0x03, 0x0C, 0x0D, 0x14, 0x16, 0x17, 0x26, 0x27, 0x2C, 0x2D, 0x34, 0x42, 0x43, 0x54,
        0x59, 0x5C, 0x5D, 0x5E, 0x5F, 0x62] : List (BitVec 7)) ∨
      (w.getMsbD 0 = true ∧
        fld w 1 7 ∈ ([0x02, 0x20, 0x21, 0x22, 0x23, 0x40, 0x41, 0x60, 0x61, 0x63] : List (BitVec 7)))) ∧
    (∀ e s, decodeWord w = .error e → execWord w s = takeTrap (.nonallowed (if s.psd.ms = true ∧
      fld w 1 7 ∈ ([0x0C, 0x0D, 0x2C, 0x2D] : List (BitVec 7)) then 10 else 8)) s) ∧
    ∀ i, decodeWord w = .ok i → i.wellFormed = true ∧ encode i = w

/-- Words written out from the formats and codes decode to the instructions they stand for. -/
def Obligations.DecodeWords : Prop :=
  decodeWord 0x32500100 = .ok (.lw 5 ⟨false, none, 0x100⟩) ∧
  decodeWord 0xB2540100 = .ok (.lw 5 ⟨true, some 2, 0x100⟩) ∧
  decodeWord 0x223FFFFF = .ok (.li 3 0xFFFFF) ∧
  decodeWord 0x612FFFF0 = .ok (.mbs 2 0xFFFF0) ∧
  decodeWord 0x6F280000 = .ok (.mmc false 2 4 0) ∧
  decodeWord 0xCC000025 = .ok (.sio 0 ⟨true, none, 0x25⟩) ∧
  decodeWord 0x0EB00100 = .ok (.lpsd 11 ⟨false, none, 0x100⟩) ∧
  decodeWord 0x69C00028 = .ok (.bcs 12 ⟨false, none, 0x28⟩)

/-! ### The machine -/

/-- With nothing coming from outside, no halt, no interrupt to take and no address stop, a step reads the word at IA,
moves IA past it (unless INSTR ADDR is at HOLD) and is exec of the instruction that word decodes to, followed by what
`afterInstruction` adds (the displayed word is used up, the register hazard and the iterations left of an interruptible
instruction are noted, a stepped instruction, when it is complete, leaves COMPUTE at IDLE). Right after COMPUTE has left
IDLE the word is the displayed one. While the instruction is executed, `lookAhead` notes the register, if any, that the hazard
would be about (log 28). -/
def Obligations.StepRunsInstruction : Prop :=
  ∀ (s : State) (w : Word) (i : Instr),
    s.inputs = [] → ioRequest s = false → s.panel.compute = .run → s.halts = ⟨false, false, false⟩ →
    nextInterrupt s = none → s.panel.addrStop = false → decodeWord w = .ok i →
    (s.started = false → s.hazard = none → readInstr s s.psd.ia = .ok w →
      step s = onNext (afterInstruction w { s with watchdog := 0 })
        (exec i (advance (lookAhead w { s with watchdog := 0, ir := w })))) ∧
    (s.started = true → s.ir = w →
      step s = onNext (afterInstruction w { s with watchdog := 0 })
        (exec i (advance (lookAhead w { s with watchdog := 0 }))))

/-- Every step, from every state with the invariant, leaves the invariant: the memory keeps its canonical form, no trap
or interrupt location is left half served, the power levels stay armed and enabled, and the priority chain stays a
permutation of the groups. -/
def Obligations.StepKeepsInvariant : Prop :=
  ∀ s t : State, Inv s → step s = .next t → Inv t

/-- The state after reset has the invariant. (The invariant is the model's own: log 8 for the memory, R594 for the
power levels, log 6 for the installation and its priority chain.) -/
def Obligations.ResetInvariant : Prop := Inv State.reset

/-- CPU RESET/CLEAR: every PSD field is 0 but IA = X'25', the instruction register holds X'02000000', ALARM is reset,
the levels are disarmed and disabled but the two power levels, which are armed and enabled; registers, memory, map,
access codes and locks are unchanged. The PSD, the instruction register and the disabled levels are the spec's
decisions D4 and D6, what stays is D5 (log 4). -/
def Obligations.CpuReset : Prop :=
  ∀ s : State,
    let t := cpuReset s
    psw1 t.psd = 0x00000025 ∧ psw2 t.psd = 0 ∧ t.ir = 0x02000000 ∧ t.alarm = false ∧
    (∀ k, k < 240 → level t k = if k < 2 then ⟨.armed, true⟩ else ⟨.disarmed, false⟩) ∧
    t.regs = s.regs ∧ t.mem = s.mem ∧ t.map = s.map ∧ t.acc = s.acc ∧ t.lock = s.lock

/-- A slave program cannot change, by any instruction, the map, the access codes, the write locks, the interrupt levels, the
input/output system, the direct elements, the panel, the halts, ALARM, PCF or the MEMORY FAULT indicators, even by a trap. -/
def Obligations.SlaveIsConfined : Prop :=
  ∀ (i : Instr) (s t : State), s.psd.ms = true → exec i s = .next t →
    t.map = s.map ∧ t.acc = s.acc ∧ t.lock = s.lock ∧ t.levels = s.levels ∧ t.io = s.io ∧ t.elements = s.elements ∧
    t.panel = s.panel ∧ t.halts = s.halts ∧ t.alarm = s.alarm ∧ t.pcf = s.pcf ∧ t.memFault = s.memFault

/-! ### Addresses and memory -/

/-- The effective addresses: the direct address of an indirect reference is the low 17 bits of the word at the reference
address, of a direct one the reference address itself; the index, register X of the current block, is in units of the
operand; the sum is modulo the address space; a doubleword address drops the low-order bit of the word address. -/
def Obligations.EffectiveAddresses : Prop :=
  (∀ (dra : WordAddr) (d : Word),
    (addrByte dra d).toNat = (4 * dra.toNat + d.toNat) % 2 ^ 19 ∧
    (addrHalf dra d).toNat = (2 * dra.toNat + d.toNat) % 2 ^ 18 ∧
    (addrWord dra d).toNat = (dra.toNat + d.toNat) % 2 ^ 17 ∧
    (addrDouble dra d).toNat = (dra.toNat + 2 * d.toNat) % 2 ^ 17 / 2) ∧
  ∀ (m : MemRef) (s : State),
    (m.ind = false → direct m s = .ok m.ra) ∧
    (∀ w, m.ind = true → readWord s m.ra = .ok w → direct m s = .ok (w.setWidth 17)) ∧
    (∀ k, m.x = some k → indexOf m s = getReg s (k.setWidth 4)) ∧ (m.x = none → indexOf m s = 0) ∧
    ∀ dra, direct m s = .ok dra →
      eaByte m s = .ok (addrByte dra (indexOf m s)) ∧ eaHalf m s = .ok (addrHalf dra (indexOf m s)) ∧
      eaWord m s = .ok (addrWord dra (indexOf m s)) ∧ eaDouble m s = .ok (addrDouble dra (indexOf m s))

/-- What a virtual address designates. Addresses 0 to 15 are the general registers of the current block, mapped or
not, and no protection applies there. Bytes and halfwords are numbered from the left of the word that holds them, and
a doubleword is its two words, the even one first. (Which of the two words of a doubleword is read first is not
observable here.) -/
def Obligations.MemoryReads : Prop :=
  ∀ (s : State) (a : WordAddr),
    (∀ w, a.toNat < 16 → readWord s a = .ok (getReg s (a.setWidth 4)) ∧
      readInstr s a = .ok (getReg s (a.setWidth 4)) ∧ writeWord s a w = .ok (setReg s (a.setWidth 4) w)) ∧
    ∀ w : Word, readWord s a = .ok w →
      readByte s (a ++ 0#2) = .ok (fld w 0 8) ∧ readByte s (a ++ 1#2) = .ok (fld w 8 8) ∧
      readByte s (a ++ 2#2) = .ok (fld w 16 8) ∧ readByte s (a ++ 3#2) = .ok (fld w 24 8) ∧
      readHalf s (a ++ 0#1) = .ok (fld w 0 16) ∧ readHalf s (a ++ 1#1) = .ok (fld w 16 16) ∧
      (∀ (d : BitVec 16) (v : Word), a = d ++ 0#1 → readWord s (d ++ 1#1) = .ok v → readDouble s d = .ok (w ++ v))

/-- A word stored at a virtual address is what a program then reads there. In a missing block of registers the store is
discarded: nothing changes, and a register keeps reading as all ones or all zeros. (The discarded store is treatment U8,
log 29.) -/
def Obligations.ReadAfterWrite : Prop :=
  ∀ (s t : State) (a : WordAddr) (w : Word), writeWord s a w = .ok t →
    (16 ≤ a.toNat ∨ blockInstalled s = true → readWord t a = .ok w) ∧
    (a.toNat < 16 → blockInstalled s = false →
      t = s ∧ readWord t a = .ok (if s.cfg.missingOnes then 0xFFFFFFFF else 0))

/-- The protection of core memory. With the map in effect a slave reference is denied by the access code of its page,
01 a write, 10 a write or an instruction, 11 every one, and a master reference by none; without the map no code
applies. With the write locks a write, in either mode, is allowed exactly when the lock of the actual page or the
write key is 00 or both are equal, and no read is affected. A denied reference traps to X'40' with reason 1 (CC4), and
4 (CC2) besides when the actual address does not exist. (Which addresses exist is the spec's decision D1, log 6.) -/
def Obligations.AccessProtection : Prop :=
  ∀ (s : State) (k : Access) (a : WordAddr), 16 ≤ a.toNat →
    let code : BitVec 2 := s.acc[(fld a 0 8).toNat]'(BitVec.isLt _)
    let actual : WordAddr :=
      if s.cfg.hasMap && s.psd.mm then s.map[(fld a 0 8).toNat]'(BitVec.isLt _) ++ fld a 8 9 else a
    let lock : BitVec 2 := s.lock[(fld actual 0 8).toNat]'(BitVec.isLt _)
    let byCode := s.cfg.hasMap && s.psd.mm && s.psd.ms &&
      (match k with
        | .write => code != 0
        | .instruction => code == 2 || code == 3
        | .operand => code == 3)
    let byLock := decide (k = .write) && s.cfg.hasLocks && !(lock == 0 || s.psd.wk == 0 || s.psd.wk == lock)
    let denied := byCode || byLock
    locate (programPath s) k a s =
      if actual.toNat < s.cfg.memWords ∧ denied = false then .ok (.core actual)
      else .error (.trap (.nonallowed ((if actual.toNat < s.cfg.memWords then 0 else 4) ||| (if denied then 1 else 0))) s)

/-- The write locks: a store to an existing actual page whose lock and the write key are both nonzero and differ traps
to X'40' with reason 1 and stores nothing, in master mode too; with the lock or the key 00, or both equal, and no
access code in the way, the store is made; a read is never denied. (Which addresses exist is the spec's decision D1,
log 6.) -/
def Obligations.WriteLocks : Prop :=
  ∀ (s : State) (a : WordAddr) (w : Word), 16 ≤ a.toNat → s.cfg.hasLocks = true → s.psd.mm = false →
    a.toNat < s.cfg.memWords →
    let lock : BitVec 2 := s.lock[(fld a 0 8).toNat]'(BitVec.isLt _)
    (lock ≠ 0 → s.psd.wk ≠ 0 → lock ≠ s.psd.wk → writeWord s a w = .error (.trap (.nonallowed 1) s)) ∧
    (lock = 0 ∨ s.psd.wk = 0 ∨ lock = s.psd.wk → writeWord s a w = .ok { s with mem := coreSetWord s.mem a w }) ∧
    readWord s a = .ok (coreWord s.mem a)

/-! ### Load and store -/

/-- LI, LB, LH, LW, LD, LCH and LAH: register R (for LD the pair R, Ru1) receives the immediate value, the byte, the
halfword, the word, the doubleword, or the complement or absolute value of the halfword; CC3 and CC4 tell its sign, for LD
that of the doubleword; CC1, CC2, memory and everything else stay. When the operand or the indirect word cannot be read the
instruction takes trap X'40' with nothing changed; so does, as nonexistent, an LI whose word has bit 0 = 1. (Where RP
selects a missing block the flags are those of the loaded value: the model's choice, log 29.) -/
def Obligations.Loads : Prop :=
  ∀ (r : RegNum) (m : MemRef) (s : State),
    let p := s.psd
    (∀ v : BitVec 20,
      Completes (.li r v) s p.ia (ccSign p.cc1 p.cc2 v.toInt) (oneReg r (v.signExtend 32)) noBytes) ∧
    (∀ w : Word, fld w 1 7 = (0x22 : BitVec 7) → w.getMsbD 0 = true → execWord w s = takeTrap (.nonallowed 8) s) ∧
    (∀ v, operandByte m s = .ok v →
      Completes (.lb r m) s p.ia (ccSign p.cc1 p.cc2 v.toNat) (oneReg r (v.setWidth 32)) noBytes) ∧
    (∀ v, operandHalf m s = .ok v →
      Completes (.lh r m) s p.ia (ccSign p.cc1 p.cc2 v.toInt) (oneReg r (v.signExtend 32)) noBytes) ∧
    (∀ v, operandWord m s = .ok v →
      Completes (.lw r m) s p.ia (ccSign p.cc1 p.cc2 v.toInt) (oneReg r v) noBytes) ∧
    (∀ v, operandDouble m s = .ok v →
      Completes (.ld r m) s p.ia (ccSign p.cc1 p.cc2 v.toInt) (pairRegs r v) noBytes) ∧
    (∀ v, operandHalf m s = .ok v →
      Completes (.lch r m) s p.ia (ccSign p.cc1 p.cc2 (-v.toInt)) (oneReg r (BitVec.ofInt 32 (-v.toInt))) noBytes) ∧
    (∀ v, operandHalf m s = .ok v →
      Completes (.lah r m) s p.ia (ccSign p.cc1 p.cc2 v.toInt.natAbs) (oneReg r (BitVec.ofNat 32 v.toInt.natAbs))
        noBytes) ∧
    (∀ e, operandByte m s = .error e → ∃ x, e = .trap (.nonallowed x) s ∧
      exec (.lb r m) s = takeTrap (.nonallowed x) s) ∧
    (∀ e, operandHalf m s = .error e → ∃ x, e = .trap (.nonallowed x) s ∧
      ∀ i ∈ [Instr.lh r m, .lch r m, .lah r m], exec i s = takeTrap (.nonallowed x) s) ∧
    (∀ e, operandWord m s = .error e → ∃ x, e = .trap (.nonallowed x) s ∧
      exec (.lw r m) s = takeTrap (.nonallowed x) s) ∧
    (∀ e, operandDouble m s = .error e → ∃ x, e = .trap (.nonallowed x) s ∧
      exec (.ld r m) s = takeTrap (.nonallowed x) s)

/-- LCW, LCD, LAW and LAD: R (or the pair) receives the complement or the absolute value; CC2 is 1 exactly for the most
negative number, which stays as it is; then, with AM = 1, the instruction, completed, takes trap X'43'. (Where RP selects a
missing block the flags are those of the computed value: the model's choice, log 29.) -/
def Obligations.ComplementAndAbsolute : Prop :=
  ∀ (r : RegNum) (m : MemRef) (s : State),
    let p := s.psd
    (∀ v, operandWord m s = .ok v →
      let worst : Prop := v = 0x80000000
      Arithmetic (.lcw r m) s worst
        (ccSign p.cc1 (v == 0x80000000) (if v = 0x80000000 then -1 else -v.toInt)) (oneReg r (-v)) noBytes ∧
      Arithmetic (.law r m) s worst
        (ccSign p.cc1 (v == 0x80000000) (if v = 0x80000000 then -1 else v.toInt.natAbs))
        (oneReg r (BitVec.ofNat 32 v.toInt.natAbs)) noBytes) ∧
    (∀ v, operandDouble m s = .ok v →
      let worst : Prop := v = 0x8000000000000000
      Arithmetic (.lcd r m) s worst
        (ccSign p.cc1 (v == 0x8000000000000000) (if v = 0x8000000000000000 then -1 else -v.toInt))
        (pairRegs r (-v)) noBytes ∧
      Arithmetic (.lad r m) s worst
        (ccSign p.cc1 (v == 0x8000000000000000) (if v = 0x8000000000000000 then -1 else v.toInt.natAbs))
        (pairRegs r (BitVec.ofNat 64 v.toInt.natAbs)) noBytes)

/-- LS, INT and ANLZ. LS loads the bits that the mask in Ru1 selects (for odd R, the AND of R and the word). INT puts
bits 0 to 3 in CC, 4 to 15 in R, 16 to 31 in Ru1 (which an odd R keeps). ANLZ analyzes the word: CC by its addressing
type, CC3 for its indirect bit, and R the effective address it would have, unless its type is immediate. (The zeros
above the address that ANLZ loads are PRESUMED, log 10; the types of unassigned codes are decision D13. Where RP selects
a missing block CC3 and CC4 of LS are those of the computed word: the model's choice, log 29.) -/
def Obligations.SelectInterpretAnalyze : Prop :=
  ∀ (r : RegNum) (m : MemRef) (s : State) (v : Word), operandWord m s = .ok v →
    let p := s.psd
    (∀ x : Word,
      (∀ k < 32, x.getMsbD k = if r.getLsbD 0 then v.getMsbD k && (getReg s r).getMsbD k
        else if (getReg s (ru1 r)).getMsbD k then v.getMsbD k else (getReg s r).getMsbD k) →
      Completes (.ls r m) s p.ia (ccSign p.cc1 p.cc2 x.toInt) (oneReg r x) noBytes) ∧
    Completes (.int r m) s p.ia (fld v 0 4)
      (firstOf (oneReg (ru1 r) ((fld v 16 16 : Half).setWidth 32)) (oneReg r ((fld v 4 12 : BitVec 12).setWidth 32)))
      noBytes ∧
    (fld v 3 5 < (4 : BitVec 5) →
      Completes (.anlz r m) s p.ia (ccOf (fld v 1 2 < (2 : BitVec 2)) false (v.getMsbD 0) true) noRegs noBytes) ∧
    (∀ dra, ¬ fld v 3 5 < (4 : BitVec 5) → direct (memRefOf v) s = .ok dra →
      let d := indexOf (memRefOf v) s
      let half := fld v 3 5 < (16 : BitVec 5)
      let word := fld v 1 2 = (1 : BitVec 2) ∨ fld v 3 5 < (8 : BitVec 5) ∨ (half ∧ fld v 1 2 ≠ (0 : BitVec 2))
      (word → Completes (.anlz r m) s p.ia (ccOf true false (v.getMsbD 0) false)
        (oneReg r ((addrWord dra d).setWidth 32)) noBytes) ∧
      (¬ word → fld v 1 2 = (0 : BitVec 2) → Completes (.anlz r m) s p.ia (ccOf true true (v.getMsbD 0) false)
        (oneReg r ((addrDouble dra d).setWidth 32)) noBytes) ∧
      (¬ word → fld v 1 2 = (2 : BitVec 2) → Completes (.anlz r m) s p.ia (ccOf false true (v.getMsbD 0) false)
        (oneReg r ((addrHalf dra d).setWidth 32)) noBytes) ∧
      (¬ word → fld v 1 2 = (3 : BitVec 2) → Completes (.anlz r m) s p.ia (ccOf false false (v.getMsbD 0) false)
        (oneReg r ((addrByte dra d).setWidth 32)) noBytes))

/-- LCFI and LCF: with bit 10 of the instruction set CC is replaced, from bits 24 to 27 of the instruction or 0 to 3 of the
byte; with bit 11 set FS, FZ and FN are, from the last three bits; otherwise they stay; nothing else changes. An LCFI whose
word has bit 0 = 1, and an LCF whose byte or indirect word cannot be read, take trap X'40' with nothing changed. (That an LCF
does so whatever bits 10 and 11 are is R175's own inference: "the effective byte is the instruction's operand; the manual
states no exception".) -/
def Obligations.LoadConditions : Prop :=
  ∀ (r : BitVec 4) (s : State),
    (∀ v : BitVec 20, ∃ t, exec (.lcfi r v) s = .next t ∧
      { t with psd := s.psd } = s ∧
      psw1 t.psd = psw1 { (if r.getLsbD 1 then (setCc s (fld v 12 4)).psd else s.psd) with
        fs := if r.getLsbD 0 then v.getLsbD 2 else s.psd.fs
        fz := if r.getLsbD 0 then v.getLsbD 1 else s.psd.fz
        fn := if r.getLsbD 0 then v.getLsbD 0 else s.psd.fn } ∧
      psw2 t.psd = psw2 s.psd) ∧
    (∀ w : Word, fld w 1 7 = (0x02 : BitVec 7) → w.getMsbD 0 = true → execWord w s = takeTrap (.nonallowed 8) s) ∧
    (∀ m v, operandByte m s = .ok v → ∃ t, exec (.lcf r m) s = .next t ∧
      { t with psd := s.psd } = s ∧
      psw1 t.psd = psw1 { (if r.getLsbD 1 then (setCc s (fld v 0 4)).psd else s.psd) with
        fs := if r.getLsbD 0 then v.getLsbD 2 else s.psd.fs
        fz := if r.getLsbD 0 then v.getLsbD 1 else s.psd.fz
        fn := if r.getLsbD 0 then v.getLsbD 0 else s.psd.fn } ∧
      psw2 t.psd = psw2 s.psd) ∧
    (∀ m e, operandByte m s = .error e → ∃ x, e = .trap (.nonallowed x) s ∧
      exec (.lcf r m) s = takeTrap (.nonallowed x) s)

/-- STB, STH, STW, STD, STS, STCF and XW: the byte, halfword, word or doubleword at the effective address (a location
in core memory or in a register) receives the register's part; STS stores the bits that the mask in Ru1 selects (for
odd R, the OR of R and the word); STCF stores the condition code and the floating controls; XW loads the old word into
R. CC2 of STH tells that the word in R, as it is after the store, exceeds a halfword; every byte outside the stored ones
stays. (The 0 in bit 4 of STCF's byte is decision D3, log 9. Where RP selects a missing block CC3 and CC4 of XW are those of
the loaded word: the model's choice, log 29.) -/
def Obligations.Stores : Prop :=
  ∀ (r : RegNum) (m : MemRef) (s : State),
    let p := s.psd
    let v := getReg s r
    (∀ a l, eaByte m s = .ok a → locate (programPath s) .write (fld a 0 17) s = .ok l →
      Completes (.stb r m) s p.ia (ccBits p) (locRegsByte s l (fld a 17 2) (v.setWidth 8))
        (locBytesByte l (fld a 17 2) (v.setWidth 8)) ∧
      Completes (.stcf r m) s p.ia (ccBits p)
        (locRegsByte s l (fld a 17 2) (ccBits p ++ ccOf false p.fs p.fz p.fn))
        (locBytesByte l (fld a 17 2) (ccBits p ++ ccOf false p.fs p.fz p.fn))) ∧
    (∀ a l, eaHalf m s = .ok a → locate (programPath s) .write (fld a 0 17) s = .ok l →
      let stored := locRegsHalf s l (a.getLsbD 0) (v.setWidth 16)
      let x : Word := if blockInstalled s then (stored r).getD v else v
      Completes (.sth r m) s p.ia
        (ccOf p.cc1 (decide (x.toInt < -32768 ∨ 32767 < x.toInt)) p.cc3 p.cc4)
        stored (locBytesHalf l (a.getLsbD 0) (v.setWidth 16))) ∧
    (∀ a l, eaWord m s = .ok a → locate (programPath s) .write a s = .ok l →
      Completes (.stw r m) s p.ia (ccBits p) (locRegs l v) (locBytes l v)) ∧
    (∀ a l w, eaWord m s = .ok a → readWord s a = .ok w → locate (programPath s) .write a s = .ok l →
      Completes (.xw r m) s p.ia (ccSign p.cc1 p.cc2 w.toInt) (firstOf (oneReg r w) (locRegs l v)) (locBytes l v) ∧
      ∀ x : Word,
        (∀ k < 32, x.getMsbD k = if r.getLsbD 0 then v.getMsbD k || w.getMsbD k
          else if (getReg s (ru1 r)).getMsbD k then v.getMsbD k else w.getMsbD k) →
        Completes (.sts r m) s p.ia (ccBits p) (locRegs l x) (locBytes l x)) ∧
    (∀ a l0 l1, eaDouble m s = .ok a → locate (programPath s) .write (a ++ 0#1) s = .ok l0 →
      locate (programPath s) .write (a ++ 1#1) s = .ok l1 →
      Completes (.std r m) s p.ia (ccBits p) (firstOf (locRegs l1 (getReg s (ru1 r))) (locRegs l0 v))
        (firstOf (locBytes l1 (getReg s (ru1 r))) (locBytes l0 v)))

/-- LM and STM: as many registers as CC says (0 means 16), from R on, 0 after 15, are loaded from or stored to consecutive
words. For LM a word that lies in a register is that register's value when its turn comes; for STM a register that an
earlier word of the same instruction has replaced gives its new value. -/
def Obligations.LoadStoreMultiple : Prop :=
  ∀ (r : RegNum) (m : MemRef) (s : State) (a : WordAddr) (n : Nat),
    eaWord m s = .ok a → n = (if (ccBits s.psd).toNat = 0 then 16 else (ccBits s.psd).toNat) →
    ((∀ i < n, ∃ l, locate (programPath s) .operand (a + BitVec.ofNat 17 i) s = .ok l) →
      ∃ t, exec (.lm r m) s = .next t ∧
        Effect s t s.psd.ia (ccBits s.psd) (fun k => if (k - r).toNat < n then some (getReg t k) else none) noBytes ∧
        (blockInstalled s = true → ∀ i < n,
          (∀ b, locate (programPath s) .operand (a + BitVec.ofNat 17 i) s = .ok (.core b) →
            getReg t (r + BitVec.ofNat 4 i) = coreWord s.mem b) ∧
          (∀ k, locate (programPath s) .operand (a + BitVec.ofNat 17 i) s = .ok (.reg k) →
            getReg t (r + BitVec.ofNat 4 i) = if (k - r).toNat < i then getReg t k else getReg s k))) ∧
    ((∀ i < n, ∃ l, locate (programPath s) .write (a + BitVec.ofNat 17 i) s = .ok l) →
      ∃ t, exec (.stm r m) s = .next t ∧ ccBits t.psd = ccBits s.psd ∧ t.psd.ia = s.psd.ia ∧
        StoredWords s t n a (fun i =>
          let k := r + BitVec.ofNat 4 i
          if (k.setWidth 17 - a).toNat < i then getReg t k else getReg s k) (fun _ => False))

/-! ### Fixed-point arithmetic -/

/-- AI, AH, AW, SH and SW: the sum or difference modulo 2^32 goes to R; CC1 is the carry from bit 0 (for a subtraction
that of a + not b + 1), CC2 that the exact result does not fit, CC3 and CC4 the sign of the result. Without overflow, or
with AM = 0, the instruction completes; on overflow with AM = 1 result and flags are written and then trap X'43' is taken.
(The carry of a subtraction is the spec's decision D15, log 25.) -/
def Obligations.AddSubtract : Prop :=
  ∀ (r : RegNum) (m : MemRef) (s : State),
    let a := getReg s r
    let adds (i : Instr) (b : Word) : Prop :=
      let exact := a.toInt + b.toInt
      Arithmetic i s ((a + b).toInt ≠ exact)
        (ccSign (decide (2 ^ 32 ≤ a.toNat + b.toNat)) (decide ((a + b).toInt ≠ exact)) (a + b).toInt)
        (oneReg r (a + b)) noBytes
    let subtracts (i : Instr) (b : Word) : Prop :=
      let exact := a.toInt - b.toInt
      Arithmetic i s ((a - b).toInt ≠ exact)
        (ccSign (decide (b.toNat ≤ a.toNat)) (decide ((a - b).toInt ≠ exact)) (a - b).toInt)
        (oneReg r (a - b)) noBytes
    (∀ v : BitVec 20, adds (.ai r v) (v.signExtend 32)) ∧
    (∀ v : Half, operandHalf m s = .ok v → adds (.ah r m) (v.signExtend 32) ∧ subtracts (.sh r m) (v.signExtend 32)) ∧
    (∀ b, operandWord m s = .ok b → adds (.aw r m) b ∧ subtracts (.sw r m) b)

/-- AD and SD on an even register pair, with the flags of AW and SW on 64 bits, and the trap to X'43' on overflow with
AM = 1. With an odd R field (the model's choice, log 37, for the spec's 'unpredictable') register R and CC hold free values
and everything else stays; the overflow trap follows the CC2 so drawn. (The carry of SD is decision D15, log 25.) -/
def Obligations.AddSubtractDouble : Prop :=
  ∀ (r : RegNum) (m : MemRef) (s : State) (b : Double), operandDouble m s = .ok b →
    let a := getPair s r
    (r.getLsbD 0 = false →
      Arithmetic (.ad r m) s ((a + b).toInt ≠ a.toInt + b.toInt)
        (ccSign (decide (2 ^ 64 ≤ a.toNat + b.toNat)) (decide ((a + b).toInt ≠ a.toInt + b.toInt)) (a + b).toInt)
        (pairRegs r (a + b)) noBytes ∧
      Arithmetic (.sd r m) s ((a - b).toInt ≠ a.toInt - b.toInt)
        (ccSign (decide (b.toNat ≤ a.toNat)) (decide ((a - b).toInt ≠ a.toInt - b.toInt)) (a - b).toInt)
        (pairRegs r (a - b)) noBytes) ∧
    (r.getLsbD 0 = true →
      ∀ i, i = .ad r m ∨ i = .sd r m →
      ∃ t v c, EffectDrawn s t s.psd.ia c (oneReg r v) noBytes ∧
        (s.psd.am = false ∨ c.getMsbD 1 = false → exec i s = .next t) ∧
        (s.psd.am = true → c.getMsbD 1 = true → exec i s = takeTrap .overflow t))

/-- MI, MH and MW: the exact product of the signed factors. MI and MW: 64 bits to R and Ru1 (an odd R keeps the low half),
CC2 tells that it does not fit in 32 bits. MH: 32 bits to Ru1, CC1 and CC2 unchanged. CC3 and CC4: the sign of the product.
(Where RP selects a missing block CC3 and CC4 of MH are those of the product too: the model's choice, log 29.) -/
def Obligations.Multiply : Prop :=
  ∀ (r : RegNum) (m : MemRef) (s : State),
    let p := s.psd
    let x := (getReg s (ru1 r)).toInt
    let outside (q : Int) : Bool := decide (q < -2147483648 ∨ 2147483647 < q)
    (∀ (v : BitVec 20) (q : Int), q = x * v.toInt →
      Completes (.mi r v) s p.ia (ccSign p.cc1 (outside q) q) (pairRegsLow r (BitVec.ofInt 64 q)) noBytes) ∧
    (∀ (v : Word) (q : Int), operandWord m s = .ok v → q = x * v.toInt →
      Completes (.mw r m) s p.ia (ccSign p.cc1 (outside q) q) (pairRegsLow r (BitVec.ofInt 64 q)) noBytes) ∧
    (∀ (v : Half) (q : Int), operandHalf m s = .ok v → q = ((getReg s r).setWidth 16 : Half).toInt * v.toInt →
      Completes (.mh r m) s p.ia (ccSign p.cc1 p.cc2 q) (oneReg (ru1 r) (BitVec.ofInt 32 q)) noBytes)

/-- DH and DW: the quotient truncated toward zero and, for DW with even R, the remainder with the sign of the
dividend. With a zero divisor or a quotient that cannot be represented in 32 bits, which with the installation's
parameter includes -2^31 (U2), only CC2 changes (set), and with AM = 1 trap X'43' is then taken. (A zero divisor as an
overflow is the spec's decision D17, log 24. Where RP selects a missing block CC3 and CC4 of DH are those of the computed
quotient: the model's choice, log 29.) -/
def Obligations.Divide : Prop :=
  ∀ (r : RegNum) (m : MemRef) (s : State),
    let p := s.psd
    let bad (n d : Int) : Prop := d = 0 ∨ n.tdiv d < -2147483648 ∨ 2147483647 < n.tdiv d ∨
      (s.cfg.divMinqOverflows = true ∧ n.tdiv d = -2147483648)
    let aborts (i : Instr) : Prop := TrapsAfter p.am .overflow i s (ccOf p.cc1 true p.cc3 p.cc4) noRegs noBytes
    (∀ v, operandHalf m s = .ok v →
      let n := (getReg s r).toInt
      let q := n.tdiv v.toInt
      (¬ bad n v.toInt →
        Completes (.dh r m) s p.ia (ccSign p.cc1 false q) (oneReg r (BitVec.ofInt 32 q)) noBytes) ∧
      (bad n v.toInt → aborts (.dh r m))) ∧
    (∀ v, operandWord m s = .ok v →
      let n := if r.getLsbD 0 then (getReg s r).toInt else (getPair s r).toInt
      let q := n.tdiv v.toInt
      let rem := n.tmod v.toInt
      (¬ bad n v.toInt →
        Completes (.dw r m) s p.ia (ccSign p.cc1 false q)
          (firstOf (oneReg (ru1 r) (BitVec.ofInt 32 q)) (oneReg r (BitVec.ofInt 32 rem))) noBytes ∧
        n = v.toInt * q + rem) ∧
      (bad n v.toInt → aborts (.dw r m)))

/-- AWM, MTB, MTH and MTW: the sum with register R (AWM), or with the R field as a number from -8 to 7, goes back to its
location, with the flags of an addition and, for AWM, MTH and MTW on overflow with AM = 1, the trap to X'43' after the sum
is stored; MTB never overflows and takes its byte as unsigned; with R field 0 the operand is only tested. -/
def Obligations.ModifyMemory : Prop :=
  ∀ (r : RegNum) (m : MemRef) (s : State),
    let p := s.psd
    (∀ a l v, eaWord m s = .ok a → readWord s a = .ok v →
      (r = 0 → Completes (.mtw r m) s p.ia (ccSign false false v.toInt) noRegs noBytes) ∧
      (locate (programPath s) .write a s = .ok l →
        let adds (i : Instr) (k : Word) : Prop :=
          let exact := v.toInt + k.toInt
          Arithmetic i s ((v + k).toInt ≠ exact)
            (ccSign (decide (2 ^ 32 ≤ v.toNat + k.toNat)) (decide ((v + k).toInt ≠ exact)) (v + k).toInt)
            (locRegs l (v + k)) (locBytes l (v + k))
        adds (.awm r m) (getReg s r) ∧ (r ≠ 0 → adds (.mtw r m) (r.signExtend 32)))) ∧
    (∀ a l v, eaHalf m s = .ok a → readHalf s a = .ok v →
      (r = 0 → Completes (.mth r m) s p.ia (ccSign false false v.toInt) noRegs noBytes) ∧
      (∀ k : Half, locate (programPath s) .write (fld a 0 17) s = .ok l → r ≠ 0 → k = r.signExtend 16 →
        Arithmetic (.mth r m) s ((v + k).toInt ≠ v.toInt + k.toInt)
          (ccSign (decide (2 ^ 16 ≤ v.toNat + k.toNat)) (decide ((v + k).toInt ≠ v.toInt + k.toInt)) (v + k).toInt)
          (locRegsHalf s l (a.getLsbD 0) (v + k)) (locBytesHalf l (a.getLsbD 0) (v + k)))) ∧
    (∀ a l v, eaByte m s = .ok a → readByte s a = .ok v →
      (r = 0 → Completes (.mtb r m) s p.ia (ccSign false false v.toNat) noRegs noBytes) ∧
      (∀ k : Byte, locate (programPath s) .write (fld a 0 17) s = .ok l → r ≠ 0 → k = r.signExtend 8 →
        Completes (.mtb r m) s p.ia (ccSign (decide (2 ^ 8 ≤ v.toNat + k.toNat)) false (v + k).toNat)
          (locRegsByte s l (fld a 17 2) (v + k)) (locBytesByte l (fld a 17 2) (v + k))))

/-- The overflow trap of AI, AW, SW, LCW, AWM and DW, with AM = 1. An overflowing AI, AW, SW, LCW or AWM has its result and
its flags, CC2 among them, in place and then takes the trap to location X'43'; a DW by zero has changed CC2 alone. (DW's
zero divisor is decision D17, log 24; CC1 of SW, the carry of a subtraction, is decision D15, log 25. Where RP selects a
missing block the flags of LCW are those of the computed value: the model's choice, log 29.) -/
def Obligations.OverflowTrap : Prop :=
  trapLocation .overflow = 0x43 ∧
  ∀ (r : RegNum) (m : MemRef) (s : State), s.psd.am = true →
    let p := s.psd
    let a := getReg s r
    let traps (i : Instr) (cc : BitVec 4) (regs : Regs) (bytes : Bytes) : Prop :=
      ∃ t, exec i s = takeTrap .overflow t ∧ Effect s t p.ia cc regs bytes
    let sum (b : Word) : BitVec 4 := ccSign (decide (2 ^ 32 ≤ a.toNat + b.toNat)) true (a + b).toInt
    (∀ (v : BitVec 20) (b : Word), b = v.signExtend 32 → (a + b).toInt ≠ a.toInt + b.toInt →
      traps (.ai r v) (sum b) (oneReg r (a + b)) noBytes) ∧
    (∀ x b l, eaWord m s = .ok x → readWord s x = .ok b →
      ((a + b).toInt ≠ a.toInt + b.toInt →
        traps (.aw r m) (sum b) (oneReg r (a + b)) noBytes ∧
        (locate (programPath s) .write x s = .ok l →
          traps (.awm r m) (sum b) (locRegs l (a + b)) (locBytes l (a + b)))) ∧
      ((a - b).toInt ≠ a.toInt - b.toInt →
        traps (.sw r m) (ccSign (decide (b.toNat ≤ a.toNat)) true (a - b).toInt) (oneReg r (a - b)) noBytes) ∧
      (b = 0x80000000 → traps (.lcw r m) (ccSign p.cc1 true (-1)) (oneReg r b) noBytes) ∧
      (b = 0 → traps (.dw r m) (ccOf p.cc1 true p.cc3 p.cc4) noRegs noBytes))

/-! ### Comparison, logic, shifts, conversion -/

/-- CI, CB, CH, CW, CD, CS, CLR and CLM change the condition code alone: CC3 for greater, CC4 for less, CC2 for common
1-bits where the rule has it, CC1 and CC2 for the second comparison of CLR and CLM. When the operand or the indirect word
cannot be read the instruction takes trap X'40' with nothing changed; so does, as nonexistent, a CI whose word has bit 0 = 1.
-/
def Obligations.Comparisons : Prop :=
  ∀ (r : RegNum) (m : MemRef) (s : State),
    let p := s.psd
    let a := getReg s r
    let u := getReg s (ru1 r)
    let only (i : Instr) (cc : BitVec 4) : Prop := Completes i s p.ia cc noRegs noBytes
    (∀ (v : BitVec 20) (b : Word), b = v.signExtend 32 →
      only (.ci r v) (ccOf p.cc1 (a &&& b != 0) (decide (b.toInt < a.toInt)) (decide (a.toInt < b.toInt)))) ∧
    (∀ w : Word, fld w 1 7 = (0x21 : BitVec 7) → w.getMsbD 0 = true → execWord w s = takeTrap (.nonallowed 8) s) ∧
    (∀ (v : Byte) (c : Nat), operandByte m s = .ok v → c = a.toNat % 256 →
      only (.cb r m) (ccOf p.cc1 (decide (c &&& v.toNat ≠ 0)) (decide (v.toNat < c)) (decide (c < v.toNat)))) ∧
    (∀ (v : Half) (b : Word), operandHalf m s = .ok v → b = v.signExtend 32 →
      only (.ch r m) (ccOf p.cc1 (a &&& b != 0) (decide (v.toInt < a.toInt)) (decide (a.toInt < v.toInt)))) ∧
    (∀ b, operandWord m s = .ok b →
      only (.cw r m) (ccOf p.cc1 (a &&& b != 0) (decide (b.toInt < a.toInt)) (decide (a.toInt < b.toInt))) ∧
      only (.cs r m) (ccOf p.cc1 p.cc2 (decide ((b &&& u).toNat < (a &&& u).toNat))
        (decide ((a &&& u).toNat < (b &&& u).toNat))) ∧
      only (.clr r m) (ccOf (decide (b.toInt < u.toInt)) (decide (u.toInt < b.toInt)) (decide (b.toInt < a.toInt))
        (decide (a.toInt < b.toInt)))) ∧
    (∀ (b : Double) (h l : Word), operandDouble m s = .ok b → h = fld b 0 32 → l = fld b 32 32 →
      only (.cd r m) (ccOf p.cc1 p.cc2 (decide (b.toInt < (a ++ u).toInt)) (decide ((a ++ u).toInt < b.toInt))) ∧
      only (.clm r m) (ccOf (decide (l.toInt < a.toInt)) (decide (a.toInt < l.toInt)) (decide (h.toInt < a.toInt))
        (decide (a.toInt < h.toInt)))) ∧
    (∀ e, operandByte m s = .error e → ∃ x, e = .trap (.nonallowed x) s ∧
      exec (.cb r m) s = takeTrap (.nonallowed x) s) ∧
    (∀ e, operandHalf m s = .error e → ∃ x, e = .trap (.nonallowed x) s ∧
      exec (.ch r m) s = takeTrap (.nonallowed x) s) ∧
    (∀ e, operandWord m s = .error e → ∃ x, e = .trap (.nonallowed x) s ∧
      ∀ i ∈ [Instr.cw r m, .cs r m, .clr r m], exec i s = takeTrap (.nonallowed x) s) ∧
    (∀ e, operandDouble m s = .error e → ∃ x, e = .trap (.nonallowed x) s ∧
      ∀ i ∈ [Instr.cd r m, .clm r m], exec i s = takeTrap (.nonallowed x) s)

/-- OR, EOR and AND: each bit of R is the or, exclusive or, and of the two bits; CC3 and CC4 tell the sign of the result,
CC1 and CC2 stay. When the operand or the indirect word cannot be read the instruction takes trap X'40' with nothing
changed. (Where RP selects a missing block the flags are those of the result: the model's choice, log 29.) -/
def Obligations.Logic : Prop :=
  ∀ (r : RegNum) (m : MemRef) (s : State),
    let p := s.psd
    let a := getReg s r
    (∀ v x : Word, operandWord m s = .ok v →
      ((∀ k < 32, x.getMsbD k = (a.getMsbD k || v.getMsbD k)) →
        Completes (.or r m) s p.ia (ccSign p.cc1 p.cc2 x.toInt) (oneReg r x) noBytes) ∧
      ((∀ k < 32, x.getMsbD k = (a.getMsbD k ^^ v.getMsbD k)) →
        Completes (.eor r m) s p.ia (ccSign p.cc1 p.cc2 x.toInt) (oneReg r x) noBytes) ∧
      ((∀ k < 32, x.getMsbD k = (a.getMsbD k && v.getMsbD k)) →
        Completes (.and r m) s p.ia (ccSign p.cc1 p.cc2 x.toInt) (oneReg r x) noBytes)) ∧
    (∀ e, operandWord m s = .error e → ∃ x, e = .trap (.nonallowed x) s ∧
      ∀ i ∈ [Instr.or r m, .eor r m, .and r m], exec i s = takeTrap (.nonallowed x) s)

/-- S to the left: the register, or the pair, is shifted by the count (circularly for types 2 and 3); CC1 is the
parity of the 1's shifted off the left end, CC2 that the sign bit changed on the way; CC3 and CC4 stay. An odd R of a
pair gets the high half. (The fields of the count are those of `shiftFields`: decision D18, log 6.) -/
def Obligations.ShiftLeft : Prop :=
  ∀ (r : RegNum) (m : MemRef) (s : State) (ty : BitVec 3) (count : BitVec 7),
    shiftFields m s = .ok (ty, count) → count.msb = false →
    let p := s.psd
    let c := count.toNat
    let a := getReg s r
    let d := getPair s r
    let parity (bit : Nat → Bool) : Bool := (List.range c).foldl (fun x j => x ^^ bit j) false
    let changed (bit : Nat → Bool) : Bool := (List.range c).any (fun j => bit (j + 1) != bit j)
    let longRegs (v : Double) : Regs := if r.getLsbD 0 then oneReg r (hiWord v) else pairRegs r v
    (ty = 0 ∨ ty = 4 → Completes (.s r m) s p.ia
      (ccOf (parity a.getMsbD) (changed a.getMsbD) p.cc3 p.cc4) (oneReg r (a <<< c)) noBytes) ∧
    (ty = 1 ∨ ty = 5 → Completes (.s r m) s p.ia
      (ccOf (parity d.getMsbD) (changed d.getMsbD) p.cc3 p.cc4) (longRegs (d <<< c)) noBytes) ∧
    (ty = 2 → Completes (.s r m) s p.ia
      (ccOf (parity (fun j => a.getMsbD (j % 32))) (changed (fun j => a.getMsbD (j % 32))) p.cc3 p.cc4)
      (oneReg r (a.rotateLeft c)) noBytes) ∧
    (ty = 3 → Completes (.s r m) s p.ia
      (ccOf (parity (fun j => d.getMsbD (j % 64))) (changed (fun j => d.getMsbD (j % 64))) p.cc3 p.cc4)
      (longRegs (d.rotateLeft c)) noBytes)

/-- S to the right: by the magnitude of the negative count, with zeros, circularly, or with copies of the sign; CC1
and CC2 are reset. Shift types 6 and 7, left or right, leave R, Ru1, CC1 and CC2 with free values (U3; the model's
choice, log 37). (Fields: decision D18, log 6.) -/
def Obligations.ShiftRight : Prop :=
  ∀ (r : RegNum) (m : MemRef) (s : State) (ty : BitVec 3) (count : BitVec 7),
    shiftFields m s = .ok (ty, count) →
    let p := s.psd
    let c := 128 - count.toNat
    let cc := ccOf false false p.cc3 p.cc4
    let a := getReg s r
    let d := getPair s r
    let longRegs (v : Double) : Regs := if r.getLsbD 0 then oneReg r (hiWord v) else pairRegs r v
    (count.msb = true →
      (ty = 0 → Completes (.s r m) s p.ia cc (oneReg r (a >>> c)) noBytes) ∧
      (ty = 1 → Completes (.s r m) s p.ia cc (longRegs (d >>> c)) noBytes) ∧
      (ty = 2 → Completes (.s r m) s p.ia cc (oneReg r (a.rotateRight c)) noBytes) ∧
      (ty = 3 → Completes (.s r m) s p.ia cc (longRegs (d.rotateRight c)) noBytes) ∧
      (ty = 4 → Completes (.s r m) s p.ia cc (oneReg r (a.sshiftRight c)) noBytes) ∧
      (ty = 5 → Completes (.s r m) s p.ia cc (longRegs (d.sshiftRight c)) noBytes)) ∧
    (ty = 6 ∨ ty = 7 → ∃ t v w b1 b2, exec (.s r m) s = .next t ∧
      EffectDrawn s t s.psd.ia (ccOf b1 b2 p.cc3 p.cc4) (firstOf (oneReg (ru1 r) w) (oneReg r v)) noBytes)

/-- SF, short format on R or long format on the pair R, Ru1 (odd R: R twice, the high half kept). A left shift of a zero
fraction gives true zero, CC1 = 1. Else the fraction goes left and the characteristic down by one digit at a time until the
count is used up, the first digit is not 0 (CC1), or the characteristic passes 0 and wraps to 127 (CC2). A right shift goes
the other way until the count is used up or the characteristic wraps to 0 (CC2); an empty fraction then gives true zero. A
negative number is shifted as its magnitude and complemented back. CC3 and CC4 tell the sign of the result. (Fields:
decision D18, log 6; a count of 0 is a left shift, decision D19, log 23; flags where RP selects a missing block: log 29.) -/
def Obligations.ShiftFloating : Prop :=
  ∀ (r : RegNum) (m : MemRef) (s : State) (ty : BitVec 3) (count : BitVec 7),
    shiftFields m s = .ok (ty, count) →
    (ty.getLsbD 0 = false → FloatShifted 24 count (getReg s r) (fun v b1 b2 =>
      Completes (.sf r m) s s.psd.ia (ccSign b1 b2 v.toInt) (oneReg r v) noBytes)) ∧
    (ty.getLsbD 0 = true → FloatShifted 56 count (getPair s r) (fun v b1 b2 =>
      Completes (.sf r m) s s.psd.ia (ccSign b1 b2 v.toInt) (if r.getLsbD 0 then oneReg r (hiWord v) else pairRegs r v)
        noBytes))

/-- CVA: R is the sum modulo 2^32 of the table words whose bit of Ru1 is 1, bit 0 with the first word; CC1 tells that the
exact sum does not fit. Only those words are read. CVS: from the number in R the table words are subtracted in order, each
exactly when it is not greater than what remains; Ru1 records which, and R keeps the remainder (an odd R keeps the
remainder's place for the record). CC3 and CC4 tell the sign of the sum, or of the record. (Where RP selects a missing block
they are those of the computed value: the model's choice, log 29.) -/
def Obligations.Conversions : Prop :=
  ∀ (r : RegNum) (m : MemRef) (s : State) (a : WordAddr) (table : Nat → Word), eaWord m s = .ok a →
    let p := s.psd
    ((∀ i < 32, (getReg s (ru1 r)).getMsbD i = true → readWord s (a + BitVec.ofNat 17 i) = .ok (table i)) →
      let sum := ((List.range 32).map (fun i => if (getReg s (ru1 r)).getMsbD i then (table i).toNat else 0)).sum
      Completes (.cva r m) s p.ia (ccSign (decide (2 ^ 32 ≤ sum)) p.cc2 (BitVec.ofNat 32 sum).toInt)
        (oneReg r (BitVec.ofNat 32 sum)) noBytes) ∧
    ((∀ i < 32, readWord s (a + BitVec.ofNat 17 i) = .ok (table i)) →
      ∃ (rem : Nat → Nat) (bits : Word),
        rem 0 = (getReg s r).toNat ∧
        (∀ i < 32, bits.getMsbD i = decide ((table i).toNat ≤ rem i) ∧
          rem (i + 1) = if (table i).toNat ≤ rem i then rem i - (table i).toNat else rem i) ∧
        Completes (.cvs r m) s p.ia (ccSign p.cc1 p.cc2 bits.toInt)
          (firstOf (oneReg (ru1 r) bits) (oneReg r (BitVec.ofNat 32 (rem 32)))) noBytes)

/-! ### Floating point -/

/-- FAS, FSS, FMS with odd R, and FDS: when the option is installed and the operation has a result, R and CC receive
it and nothing else changes; when it faults, CC is set, no register is written and trap X'44' is taken. FSS adds the
complement. (The sum, product and quotient are those of decisions D21 and D22, log 23.) -/
def Obligations.FloatShort : Prop :=
  ∀ (r : RegNum) (m : MemRef) (s : State) (b : Word), s.cfg.hasFloat = true → operandWord m s = .ok b →
    let mode := floatMode s.psd
    let a := getReg s r
    ∀ i x, (i = .fas r m ∧ x = floatAdd 32 mode a b) ∨ (i = .fss r m ∧ x = floatAdd 32 mode a (-b)) ∨
      (i = .fds r m ∧ x = floatDiv 32 mode a b) ∨
      (i = .fms r m ∧ r.getLsbD 0 = true ∧ x = floatMulTruncated 32 mode a b) →
      (∀ v cc, x = .result v cc → Completes i s s.psd.ia cc (oneReg r v) noBytes) ∧
      (∀ cc, x = .fault cc → exec i s = takeTrap .floatingFault (setCc s cc))

/-- FAL, FSL, FML and FDL on an even pair, and FMS with even R, which loads a long product. With an odd R the long
instructions (U4; the model's choice, log 37) leave R and CC with free values, or take trap X'44' with them. (The sum,
product and quotient are those of decisions D21 and D22, log 23.) -/
def Obligations.FloatLong : Prop :=
  ∀ (r : RegNum) (m : MemRef) (s : State), s.cfg.hasFloat = true →
    let mode := floatMode s.psd
    let a := getPair s r
    (∀ i x, (∃ b, operandWord m s = .ok b ∧ i = .fms r m ∧ x = floatMulShortLong mode (getReg s r) b) ∨
      (∃ b, operandDouble m s = .ok b ∧
        ((i = .fal r m ∧ x = floatAdd 64 mode a b) ∨ (i = .fsl r m ∧ x = floatAdd 64 mode a (-b)) ∨
          (i = .fml r m ∧ x = floatMulTruncated 64 mode a b) ∨ (i = .fdl r m ∧ x = floatDiv 64 mode a b))) →
      r.getLsbD 0 = false →
      (∀ v cc, x = .result v cc → Completes i s s.psd.ia cc (pairRegs r v) noBytes) ∧
      (∀ cc, x = .fault cc → exec i s = takeTrap .floatingFault (setCc s cc))) ∧
    (∀ b, operandDouble m s = .ok b → r.getLsbD 0 = true →
      ∀ i, i = .fal r m ∨ i = .fsl r m ∨ i = .fml r m ∨ i = .fdl r m →
      ∃ t v c, EffectDrawn s t s.psd.ia c (oneReg r v) noBytes ∧
        (exec i s = .next t ∨ exec i s = takeTrap .floatingFault t))

/-- What the four operations compute, on both formats. A number is sign and magnitude; its two's complement has the other
sign. Addition is commutative: the fraction with the smaller characteristic is shifted right, with one guard digit in the
short format, the sum is exact, a carry is a digit more. Multiplication: with a zero fraction true zero, CC = 0000; else the
product of the fractions, normalized, cut to the format, or whole for the long product of FMS. Division: by a zero fraction a
fault, CC = 0100; of one true zero; else the quotient with as many digits as the format. The ends (overflow, underflow,
significance) are those of `floatEnds` and `FloatSumEnds`. (Decisions D21 and D22, log 23.) -/
def Obligations.FloatLaws : Prop :=
  (∀ (n : Nat), n = 32 ∨ n = 64 → ∀ (mode : FloatMode) (a b : BitVec n),
    let digits : Nat := (n - 8) / 4
    let guard : Nat := if n = 32 then 1 else 0
    let x := unpackFloat a
    let y := unpackFloat b
    (x.neg = a.msb ∧ x.ch = a.toInt.natAbs / 2 ^ (n - 8) % 128 ∧ x.fr = a.toInt.natAbs % 2 ^ (n - 8)) ∧
    (a ≠ 0 → a ≠ BitVec.intMin n → unpackFloat (-a) = { x with neg := !x.neg }) ∧
    floatAdd n mode a b = floatAdd n mode b a ∧
    (y.ch ≤ x.ch →
      let f := x.fr * 16 ^ guard
      let g := y.fr * 16 ^ guard / 16 ^ (x.ch - y.ch).toNat
      let sum : Int := (if x.neg then -(f : Int) else f) + (if y.neg then -(g : Int) else g)
      (sum.natAbs < 16 ^ (digits + guard) →
        FloatSumEnds n mode (decide (sum < 0)) digits guard sum.natAbs x.ch (floatAdd n mode a b)) ∧
      (16 ^ (digits + guard) ≤ sum.natAbs →
        FloatSumEnds n mode (decide (sum < 0)) digits guard (sum.natAbs / 16) (x.ch + 1) (floatAdd n mode a b))) ∧
    (x.fr = 0 ∨ y.fr = 0 → floatMulTruncated n mode a b = .result 0 0) ∧
    (∀ z : Nat, 16 ^ (2 * digits - 1) ≤ x.fr * y.fr * 16 ^ z → x.fr * y.fr * 16 ^ z < 16 ^ (2 * digits) →
      floatMulTruncated n mode a b =
        floatEnds n mode (x.neg != y.neg) (x.ch + y.ch - 64 - z) (x.fr * y.fr * 16 ^ z / 16 ^ digits)) ∧
    (y.fr = 0 → floatDiv n mode a b = .fault 4) ∧
    (y.fr ≠ 0 → x.fr = 0 → floatDiv n mode a b = .result 0 0) ∧
    (∀ (i j q : Nat), y.fr ≠ 0 → q = x.fr * 16 ^ i / (y.fr * 16 ^ j) → 16 ^ (digits - 1) ≤ q → q < 16 ^ digits →
      floatDiv n mode a b = floatEnds n mode (x.neg != y.neg) (x.ch - y.ch + 64 + digits + j - i) q)) ∧
  ∀ (mode : FloatMode) (a b : Word),
    let x := unpackFloat a
    let y := unpackFloat b
    (x.fr = 0 ∨ y.fr = 0 → floatMulShortLong mode a b = .result 0 0) ∧
    (∀ z : Nat, 16 ^ 11 ≤ x.fr * y.fr * 16 ^ z → x.fr * y.fr * 16 ^ z < 16 ^ 12 →
      floatMulShortLong mode a b =
        floatEnds 64 mode (x.neg != y.neg) (x.ch + y.ch - 64 - z) (x.fr * y.fr * 16 ^ z * 16 ^ 2))

/-! ### Decimal -/

/-- A number of up to 2n - 1 digits, packed, is legal and has that value: the packed form loses nothing. Its sign code is the
generated one, X'C' for positive and X'D' for negative. -/
def Obligations.PackedRoundTrip : Prop :=
  ∀ (n m : Nat) (neg : Bool), 0 < n → m < 10 ^ (2 * n - 1) →
    legalPacked (mkPacked m neg n) n = true ∧ magPacked (mkPacked m neg n) n = m ∧
    negPacked (mkPacked m neg n) = neg ∧ mkPacked m neg n < 256 ^ n ∧
    mkPacked m neg n % 16 = if neg then 0xD else 0xC

/-- DL, DA, DS and DM, with legal operands and a result of at most 31 digits (for DM: at most 8 bytes, a multiplicand
of at most 15 digits): DECA holds exactly the operand, the sum, the difference, the product, in generated form, CC = 00 and
its sign; only registers 12 to 15 and CC change. The sign of a zero that DL loads stays, that of a zero sum, difference or
product is positive. An illegal digit or sign code, in the operand or for DA, DS and DC in DECA (for DM and
DD: no sign code anywhere in DECA), or a sum of more than 31 digits, aborts: CC1 or CC2 is set, nothing else changes, and
with DM = 1 trap X'45' is taken. DM on a DECA or a length it is not prepared for leaves DECA and CC with any value (U5; the
model's free values, log 37). (DM as one indivisible step is decision D16, log 35. Where RP selects a missing block CC3 and
CC4 of DL, DA, DS and DM are those of the computed number: the model's choice, log 29.) -/
def Obligations.DecimalArithmetic : Prop :=
  ∀ (r : BitVec 4) (m : MemRef) (s : State) (q : Nat), s.cfg.hasDecimal = true → decimalOperand r m s = .ok q →
    let p := s.psd
    let n := if r = 0 then 16 else r.toNat
    let y := valPacked q n
    let d := getDeca s
    let x := valPacked d 16
    let loads (i : Instr) (z : Int) (neg : Bool) : Prop := ∃ t, exec i s = .next t ∧
      Effect s t p.ia (ccSign false false z) (fun k => if 12 ≤ k.toNat then some (getReg t k) else none) noBytes ∧
      (blockInstalled s = true → valPacked (getDeca t) 16 = z ∧ legalPacked (getDeca t) 16 = true ∧
        getDeca t = mkPacked z.natAbs neg 16)
    (legalPacked q n = true → loads (.dl r m) y (negPacked q)) ∧
    (legalPacked q n = true → legalPacked d 16 = true →
      ((x + y).natAbs < 10 ^ 31 → loads (.da r m) (x + y) (decide (x + y < 0))) ∧
      ((x - y).natAbs < 10 ^ 31 → loads (.ds r m) (x - y) (decide (x - y < 0))) ∧
      (n ≤ 8 → d < 16 ^ 16 → loads (.dm r m) (x * y) (decide (x * y < 0))) ∧
      (10 ^ 31 ≤ (x + y).natAbs → DecimalAborted (.da r m) s false) ∧
      (10 ^ 31 ≤ (x - y).natAbs → DecimalAborted (.ds r m) s false)) ∧
    (legalPacked q n = false → ∀ i ∈ [Instr.dl r m, .da r m, .ds r m, .dm r m, .dd r m, .dc r m],
      DecimalAborted i s true) ∧
    (legalPacked d 16 = false → ∀ i ∈ [Instr.da r m, .ds r m, .dc r m], DecimalAborted i s true) ∧
    ((∀ k < 32, d / 16 ^ k % 16 ≤ 9) → ∀ i ∈ [Instr.dm r m, .dd r m], DecimalAborted i s true) ∧
    (∀ k < 32, legalPacked q n = true → 10 ≤ d / 16 ^ k % 16 →
      legalPacked d 16 = false ∨ 16 ^ 16 ≤ d ∨ 8 < n → DecimalFree (.dm r m) s)

/-- DD and DC, with a legal operand. DD of a legal DECA overflows when the divisor is 0, the quotient has more than 15
digits, or, with the installation's parameter, the divisor has more than 8 bytes: it is aborted with CC2 set, and with
DM = 1 trap X'45' is taken. Else the quotient goes to registers 14 and 15, a zero quotient as positive, and the remainder, with
the sign of the dividend even when zero, to 12 and 13, both in generated form; only for a divisor of more than 15 digits, and for a DECA that has a sign code but is illegal, are DECA and CC any
values (D23, U5, log 18). DC: only CC changes, 0010 for DECA greater, 0001 for less. (DD as one indivisible step is decision
D16, log 35.) -/
def Obligations.DecimalDivideCompare : Prop :=
  ∀ (r : BitVec 4) (m : MemRef) (s : State) (q : Nat), s.cfg.hasDecimal = true → decimalOperand r m s = .ok q →
    let p := s.psd
    let n := if r = 0 then 16 else r.toNat
    let d := getDeca s
    let dividend := magPacked d 16
    let divisor := magPacked q n
    let long := decide (8 < n)
    let overflows : Prop :=
      divisor = 0 ∨ 10 ^ 15 ≤ dividend / divisor ∨ (long = true ∧ s.cfg.ddLongDivisorOverflows = true)
    legalPacked q n = true →
    (legalPacked d 16 = true →
      (overflows → DecimalAborted (.dd r m) s false) ∧
      (¬ overflows → 10 ^ 15 ≤ divisor → DecimalFree (.dd r m) s) ∧
      (¬ overflows → divisor < 10 ^ 15 →
        ∃ t, exec (.dd r m) s = .next t ∧
          Effect s t p.ia (ccSign false false ((valPacked d 16).tdiv (valPacked q n)))
            (fun k => if 12 ≤ k.toNat then some (getReg t k) else none) noBytes ∧
          (blockInstalled s = true →
            valPacked (getDeca t % 256 ^ 8) 8 = (valPacked d 16).tdiv (valPacked q n) ∧
            valPacked (getDeca t / 256 ^ 8) 8 = (valPacked d 16).tmod (valPacked q n) ∧
            getDeca t = mkPacked (dividend % divisor) (negPacked d) 8 * 256 ^ 8 +
              mkPacked (dividend / divisor) (decide ((valPacked d 16).tdiv (valPacked q n) < 0)) 8)) ∧
      Completes (.dc r m) s p.ia
        (ccOf false false (decide (valPacked q n < valPacked d 16)) (decide (valPacked d 16 < valPacked q n)))
        noRegs noBytes) ∧
    (∀ k < 32, legalPacked d 16 = false → 10 ≤ d / 16 ^ k % 16 → DecimalFree (.dd r m) s)

/-- DSA, PACK, DST and UNPK. DSA shifts a legal DECA by decimal places, left for a positive count, held to 31, with CC2 for
digits lost on the left. PACK loads the digits of the zoned bytes with the sign in the zone of the last. Both leave DECA in
generated form, and the sign of a zero as it was. DST stores the
low-order digits of DECA with the sign X'C' or X'D'; UNPK stores them as zoned bytes, zone X'F' but for the last, which has
the sign in its place; CC2 tells of a part of DECA not stored; both store in their own bytes and nowhere else. An illegal
digit or sign code (for DST in the part to be stored) aborts: CC1 is set, nothing else changes, and with DM = 1 trap X'45' is
taken. (PACK and UNPK as one indivisible step are decision D16, log 35; CC2 tests DECA as it was before the stores, the
model's choice, log 45. Where RP selects a missing block CC3 and CC4 of DSA and PACK are those of the computed number: the
model's choice, log 29.) -/
def Obligations.DecimalMove : Prop :=
  ∀ (r : BitVec 4) (m : MemRef) (s : State) (a : ByteAddr), s.cfg.hasDecimal = true → eaByte m s = .ok a →
    let p := s.psd
    let n := if r = 0 then 16 else r.toNat
    let d := getDeca s
    let mag := magPacked d 16
    let c : Int := max (-31) (min 31 ((fld a 1 16 : BitVec 16).toInt))
    let sign (x : Int) : Int := if negPacked d then -x else x
    let code := if negPacked d then 13 else 12
    let loads (i : Instr) (z : Int) (neg b2 : Bool) : Prop := ∃ t, exec i s = .next t ∧
      Effect s t p.ia (ccSign false b2 z) (fun k => if 12 ≤ k.toNat then some (getReg t k) else none) noBytes ∧
      (blockInstalled s = true → valPacked (getDeca t) 16 = z ∧ legalPacked (getDeca t) 16 = true ∧
        getDeca t = mkPacked z.natAbs neg 16)
    let stores (i : Instr) (bytes : List Byte) : Prop := ∃ t, exec i s = .next t ∧ StoredBytes s t a bytes ∧
      t.psd.ia = p.ia ∧ ccBits t.psd = ccOf false (decide (256 ^ n ≤ d)) p.cc3 p.cc4
    (legalPacked d 16 = true → 0 ≤ c →
      loads (.dsa r m) (sign (mag * 10 ^ c.toNat % 10 ^ 31 : Nat)) (negPacked d)
        (decide (10 ^ 31 ≤ mag * 10 ^ c.toNat))) ∧
    (legalPacked d 16 = true → c < 0 →
      loads (.dsa r m) (sign (mag / 10 ^ (-c).toNat : Nat)) (negPacked d) false) ∧
    (legalPacked d 16 = false → DecimalAborted (.dsa r m) s true ∧ DecimalAborted (.unpk r m) s true) ∧
    (∀ z, readBytes s (2 * n - 1) a 0 = .ok z →
      let q := packZoned (2 * n - 1) z * 16 + z / 16 % 16
      (legalPacked q n = true → loads (.pack r m) (valPacked q n) (negPacked q) false) ∧
      (legalPacked q n = false → DecimalAborted (.pack r m) s true)) ∧
    (legalPacked (d % 256 ^ n) n = false → DecimalAborted (.dst r m) s true) ∧
    (∀ bytes : List Byte, legalPacked (d % 256 ^ n) n = true → BytesWritable s n a → bytes.length = n →
      bytes.foldl (fun x b => x * 256 + b.toNat) 0 = d % 256 ^ n / 16 * 16 + code → stores (.dst r m) bytes) ∧
    (∀ bytes : List Byte, legalPacked d 16 = true → BytesWritable s (2 * n - 1) a → bytes.length = 2 * n - 1 →
      (∀ i (h : i < bytes.length),
        bytes[i].toNat = (if i = 2 * n - 2 then code else 15) * 16 + d / 16 ^ (2 * n - 1 - i) % 16) →
      stores (.unpk r m) bytes)

/-! ### Byte strings -/

/-- MBS and CBS: with count 0 nothing changes. Else one step of MBS moves one byte, and one step of CBS compares a
source and a destination byte as magnitudes in CC3 and CC4; unequal bytes end CBS with the registers as they are.
After a move, or equal bytes, the source address (in even, nonzero R) and the destination address in Ru1 go up and the
count down; while it is not 0, IA goes back to the instruction. (Unchanged bits of the registers, and nothing changed
for count 0, are decisions D24 and D25, log 26; one step is one byte, log 34.) -/
def Obligations.MoveCompareByteString : Prop :=
  ∀ (r : RegNum) (d : BitVec 20) (s : State),
    let c : Byte := fld (getReg s (ru1 r)) 0 8
    let da : ByteAddr := fld (getReg s (ru1 r)) 13 19
    let sa : ByteAddr := (if r = 0 then 0 else fld (getReg s r) 13 19) + fld d 1 19
    let ia := if c = 1 then s.psd.ia else backIa s
    let moved (u : State) : Regs :=
      firstOf (oneReg (ru1 r) ((c - 1) ++ (fld (getReg u (ru1 r)) 8 5 : BitVec 5) ++ (da + 1)))
        (if r.getLsbD 0 ∨ r = 0 then noRegs
          else oneReg r ((fld (getReg u r) 0 13 : BitVec 13) ++ (fld (getReg s r) 13 19 + 1 : ByteAddr)))
    (c = 0 → exec (.mbs r d) s = .next s ∧ exec (.cbs r d) s = .next s) ∧
    (∀ b l, c ≠ 0 → readByte s sa = .ok b → locate (programPath s) .write (fld da 0 17) s = .ok l →
      ∃ u t, exec (.mbs r d) s = .next t ∧
        Effect s u s.psd.ia (ccBits s.psd) (locRegsByte s l (fld da 17 2) b) (locBytesByte l (fld da 17 2) b) ∧
        Effect u t ia (ccBits s.psd) (moved u) noBytes) ∧
    (∀ x y, c ≠ 0 → readByte s sa = .ok x → readByte s da = .ok y →
      (x ≠ y → Completes (.cbs r d) s s.psd.ia
        (ccOf s.psd.cc1 s.psd.cc2 (decide (y.toNat < x.toNat)) (decide (x.toNat < y.toNat))) noRegs noBytes) ∧
      (x = y → Completes (.cbs r d) s ia (ccOf s.psd.cc1 s.psd.cc2 false false) (moved s) noBytes))

/-- TBS and TTBS with even R. TBS replaces the destination byte by the table byte it selects; TTBS tests the table
byte against the mask (eight 1's for R = 0): a hit sets CC4 and puts the result in the mask field of R, unless R = 0;
else the destination moves on, and CC4 is reset at the end. With an odd R field both are refused (unpredictable, U9).
(Decisions D24, D25 and D26, log 26; one step is one byte, log 34.) -/
def Obligations.TranslateByteString : Prop :=
  ∀ (r : RegNum) (d : BitVec 20) (s : State),
    let c : Byte := fld (getReg s (ru1 r)) 0 8
    let da : ByteAddr := fld (getReg s (ru1 r)) 13 19
    let table : ByteAddr := (if r = 0 then 0 else fld (getReg s r) 13 19) + fld d 1 19
    let mask : Byte := if r = 0 then 0xFF else fld (getReg s r) 0 8
    let moved (u : State) : Regs := oneReg (ru1 r) ((c - 1) ++ (fld (getReg u (ru1 r)) 8 5 : BitVec 5) ++ (da + 1))
    let ia := if c = 1 then s.psd.ia else backIa s
    (r.getLsbD 0 = true → exec (.tbs r d) s = .refused .translateOddRegister ∧
      exec (.ttbs r d) s = .refused .translateOddRegister) ∧
    (r.getLsbD 0 = false → c = 0 → exec (.tbs r d) s = .next s ∧ exec (.ttbs r d) s = .next s) ∧
    (∀ b x, r.getLsbD 0 = false → c ≠ 0 → readByte s da = .ok b →
      readByte s (table + BitVec.ofNat 19 b.toNat) = .ok x →
      (∀ l, locate (programPath s) .write (fld da 0 17) s = .ok l →
        ∃ u t, exec (.tbs r d) s = .next t ∧
          Effect s u s.psd.ia (ccBits s.psd) (locRegsByte s l (fld da 17 2) x) (locBytesByte l (fld da 17 2) x) ∧
          Effect u t ia (ccBits s.psd) (moved u) noBytes) ∧
      (x &&& mask ≠ 0 → Completes (.ttbs r d) s s.psd.ia (ccOf s.psd.cc1 s.psd.cc2 s.psd.cc3 true)
        (if r = 0 then noRegs else oneReg r ((x &&& mask) ++ (fld (getReg s r) 8 24 : BitVec 24))) noBytes) ∧
      (x &&& mask = 0 → Completes (.ttbs r d) s ia
        (ccOf s.psd.cc1 s.psd.cc2 s.psd.cc3 (s.psd.cc4 && decide (c ≠ 1))) (moved s) noBytes))

/-- EBS with the decimal option. With an odd or zero R field it is refused (unpredictable, U10); with count 0 nothing
changes; else one step completes. A pattern byte that is no selector, separator or start code stays while CC4 = 1 and
becomes the fill character (or a blank after a positive sign, CC1 = 1) while CC4 = 0; a field separator becomes the
fill character and resets CC1, CC3 and CC4. A selector with a legal digit: the digit replaces the pattern byte, zone X'F', if
it is significant (CC4, a nonzero digit, or X'23'), else the fill character does; CC3 and CC4 take up the digit and the
significance; then a sign after a left digit sets CC1, and CC4 if it is negative, and else the other digit is next (CC2); the
source address in R moves on after the byte; a mark goes to register 1, the address where significance starts, or the next.
A sign code as digit takes trap X'45' with nothing changed. (Decision D24, log 26; the order of the writes is D9; bits 0 to 12
of register 1 are free after a mark, U11, log 37; one step is one byte, log 34.) -/
def Obligations.EditByteString : Prop :=
  ∀ (r : RegNum) (d : BitVec 20) (s : State), s.cfg.hasDecimal = true →
    let p := s.psd
    let c : Byte := fld (getReg s (ru1 r)) 0 8
    let da : ByteAddr := fld (getReg s (ru1 r)) 13 19
    let sa : ByteAddr := fld (getReg s r) 13 19
    let fill : Byte := fld (getReg s r) 0 8
    let ia := if c = 1 then p.ia else backIa s
    let moved (u : State) : Regs := oneReg (ru1 r) ((c - 1) ++ (fld (getReg u (ru1 r)) 8 5 : BitVec 5) ++ (da + 1))
    (r.getLsbD 0 = true ∨ r = 0 → exec (.ebs r d) s = .refused .editRegister) ∧
    (r.getLsbD 0 = false → r ≠ 0 → c = 0 → exec (.ebs r d) s = .next s) ∧
    (∀ l b, r.getLsbD 0 = false → r ≠ 0 → c ≠ 0 → readByte s da = .ok b →
      locate (programPath s) .write (fld da 0 17) s = .ok l →
      (b ≠ 0x20 → b ≠ 0x21 → b ≠ 0x22 → b ≠ 0x23 →
        (p.cc4 = true → Completes (.ebs r d) s ia (ccBits p) (moved s) noBytes) ∧
        (∀ x : Byte, p.cc4 = false → x = (if p.cc1 then 0x40 else fill) →
          ∃ u t, exec (.ebs r d) s = .next t ∧
            Effect s u p.ia (ccBits p) (locRegsByte s l (fld da 17 2) x) (locBytesByte l (fld da 17 2) x) ∧
            Effect u t ia (ccBits p) (moved u) noBytes)) ∧
      (b = 0x22 → ∃ u t, exec (.ebs r d) s = .next t ∧
        Effect s u p.ia (ccBits p) (locRegsByte s l (fld da 17 2) fill) (locBytesByte l (fld da 17 2) fill) ∧
        Effect u t ia (ccOf false p.cc2 false false) (moved u) noBytes) ∧
      (∀ x, b = 0x20 ∨ b = 0x21 ∨ b = 0x23 → readByte s (sa + fld d 1 19) = .ok x →
        let digit : BitVec 4 := if p.cc2 then fld x 4 4 else fld x 0 4
        let low : BitVec 4 := fld x 4 4
        let illegal : Prop := (9 : BitVec 4) < fld x 0 4 ∨ (p.cc2 = true ∧ (9 : BitVec 4) < low)
        let shown : Bool := b == 0x23 || p.cc4 || digit != 0
        let cc3 := p.cc3 || digit != 0
        let cc4 := shown || b == 0x21
        let cc : BitVec 4 :=
          if p.cc2 = false ∧ low ∈ ([0xA, 0xC, 0xE, 0xF] : List (BitVec 4)) then ccOf true false cc3 false
          else if p.cc2 = false ∧ low ∈ ([0xB, 0xD] : List (BitVec 4)) then ccOf true false cc3 true
          else ccOf p.cc1 (!p.cc2) cc3 cc4
        let next : ByteAddr := if p.cc2 = true ∨ (9 : BitVec 4) < low then sa + 1 else sa
        let out : Byte := if shown then 0xF#4 ++ digit else fill
        let mark (f : BitVec 13) : Regs :=
          if b = 0x23 ∨ (p.cc4 = false ∧ digit ≠ 0) then oneReg 1 (f ++ da)
          else if p.cc4 = false ∧ b = 0x21 then oneReg 1 (f ++ (da + 1))
          else noRegs
        (illegal → exec (.ebs r d) s = takeTrap .decimalFault s) ∧
        (¬ illegal → ∃ u v t f, exec (.ebs r d) s = .next t ∧
          EffectDrawn s u p.ia cc (firstOf (mark f) (oneReg r ((fld (getReg s r) 0 13 : BitVec 13) ++ next))) noBytes ∧
          Effect u v p.ia cc (locRegsByte u l (fld da 17 2) out) (locBytesByte l (fld da 17 2) out) ∧
          Effect v t ia cc (moved v) noBytes)))

/-! ### Push-down, branches, calls, EXU -/

/-- PSW, PLW and MSP when neither limit is passed: the word is stored above the top or loaded from it, the pointer
doubleword is written last with its three counts moved and its other bits as they were, and CC tells which count is 0.
(The pointer's other bits and its place in the order are decision D27, log 27.) -/
def Obligations.PushPullWord : Prop :=
  ∀ (r : RegNum) (m : MemRef) (s : State) (e : BitVec 16) (spd : Double) (p0 p1 : Loc),
    eaDouble m s = .ok e → readDouble s e = .ok spd →
    locate (programPath s) .write (e ++ 0#1) s = .ok p0 → locate (programPath s) .write (e ++ 1#1) s = .ok p1 →
    let top : WordAddr := fld spd 15 17
    let space : Int := (fld spd 33 15 : BitVec 15).toNat
    let words : Int := (fld spd 49 15 : BitVec 15).toNat
    let done (i : Instr) (delta : Int) (regs : Regs) (bytes : Bytes) : Prop :=
      ∃ new : Double,
        (fld new 0 15 : BitVec 15) = fld spd 0 15 ∧ (fld new 15 17 : WordAddr) = top + BitVec.ofInt 17 delta ∧
        new.getMsbD 32 = spd.getMsbD 32 ∧ new.getMsbD 48 = spd.getMsbD 48 ∧
        ((fld new 33 15 : BitVec 15).toNat : Int) = space - delta ∧
        ((fld new 49 15 : BitVec 15).toNat : Int) = words + delta ∧
        Completes i s s.psd.ia (ccOf false (decide (space - delta = 0)) false (decide (words + delta = 0)))
          (firstOf (locRegs p1 (fld new 32 32)) (firstOf (locRegs p0 (fld new 0 32)) regs))
          (firstOf (locBytes p1 (fld new 32 32)) (firstOf (locBytes p0 (fld new 0 32)) bytes))
    let fits (delta : Int) : Prop :=
      0 ≤ space - delta ∧ space - delta ≤ 32767 ∧ 0 ≤ words + delta ∧ words + delta ≤ 32767
    (∀ l, fits 1 → locate (programPath s) .write (top + 1) s = .ok l →
      done (.psw r m) 1 (locRegs l (getReg s r)) (locBytes l (getReg s r))) ∧
    (∀ v, fits (-1) → readWord s top = .ok v → done (.plw r m) (-1) (oneReg r v) noBytes) ∧
    (∀ k, k = (fld (getReg s r) 16 16 : Half).toInt → fits k → done (.msp r m) k noRegs noBytes)

/-- PSM and PLM when neither limit is passed, of as many words as CC says (0 means 16). PSM stores registers R, R + 1,
... at the addresses above the top, in order (a register that an earlier word has replaced gives its new value); PLM loads
them back from the top downwards, last register first (a word that lies in a register is its value when its turn comes).
The pointer is written last, after all the words: the top and the counts have moved, its other bits are as they were; CC
tells which count is 0; nothing else changes. (The order is decision D27, log 27.) -/
def Obligations.PushPullMultiple : Prop :=
  ∀ (r : RegNum) (m : MemRef) (s : State) (e : BitVec 16) (spd : Double) (p0 p1 : Loc) (n : Nat),
    eaDouble m s = .ok e → readDouble s e = .ok spd →
    locate (programPath s) .write (e ++ 0#1) s = .ok p0 → locate (programPath s) .write (e ++ 1#1) s = .ok p1 →
    n = (if (ccBits s.psd).toNat = 0 then 16 else (ccBits s.psd).toNat) →
    let top : WordAddr := fld spd 15 17
    let space : Nat := (fld spd 33 15 : BitVec 15).toNat
    let words : Nat := (fld spd 49 15 : BitVec 15).toNat
    (n ≤ space → words + n ≤ 32767 →
      (∀ i < n, ∃ l, locate (programPath s) .write (top + 1 + BitVec.ofNat 17 i) s = .ok l) →
      ∃ u t new, exec (.psm r m) s = .next t ∧ u.psd = s.psd ∧
        StoredWords s u n (top + 1) (fun i =>
          let k := r + BitVec.ofNat 4 i
          if (k.setWidth 17 - (top + 1)).toNat < i then getReg u k else getReg s k) (fun _ => False) ∧
        PointerMoved spd new n ∧ PointerStored u t (ccOf false (decide (space = n)) false false) p0 p1 new) ∧
    (n ≤ words → space + n ≤ 32767 →
      (∀ i < n, ∃ l, locate (programPath s) .operand (top - BitVec.ofNat 17 i) s = .ok l) →
      ∃ u t new, exec (.plm r m) s = .next t ∧
        Effect s u s.psd.ia (ccBits s.psd) (fun k => if (k - r).toNat < n then some (getReg u k) else none) noBytes ∧
        (blockInstalled s = true → ∀ i < n,
          let last := r + BitVec.ofNat 4 n - 1
          (∀ b, locate (programPath s) .operand (top - BitVec.ofNat 17 i) s = .ok (.core b) →
            getReg u (last - BitVec.ofNat 4 i) = coreWord s.mem b) ∧
          (∀ k, locate (programPath s) .operand (top - BitVec.ofNat 17 i) s = .ok (.reg k) →
            getReg u (last - BitVec.ofNat 4 i) = if (last - k).toNat < i then getReg u k else getReg s k)) ∧
        PointerMoved spd new (-n) ∧ PointerStored u t (ccOf false false false (decide (words = n))) p0 p1 new)

/-- The limit test: when a count would leave 0 .. 32767 and its inhibit bit is 0, the instruction takes trap X'42' with the
condition code and everything else unchanged; when every violated limit is inhibited, only CC changes: CC1 and CC3 for the
violated limits, CC2 and CC4 for counts that are 0. -/
def Obligations.StackLimits : Prop :=
  ∀ (r : RegNum) (m : MemRef) (s : State) (e : BitVec 16) (spd : Double),
    eaDouble m s = .ok e → readDouble s e = .ok spd →
    let space : Int := (fld spd 33 15 : BitVec 15).toNat
    let words : Int := (fld spd 49 15 : BitVec 15).toNat
    let n : Int := if (ccBits s.psd).toNat = 0 then 16 else (ccBits s.psd).toNat
    ∀ i delta, (i = .psw r m ∧ delta = 1) ∨ (i = .plw r m ∧ delta = -1) ∨ (i = .psm r m ∧ delta = n) ∨
      (i = .plm r m ∧ delta = -n) ∨ (i = .msp r m ∧ delta = (fld (getReg s r) 16 16 : Half).toInt) →
      let badSpace : Bool := decide (space - delta < 0 ∨ 32767 < space - delta)
      let badWords : Bool := decide (words + delta < 0 ∨ 32767 < words + delta)
      ((badSpace && !spd.getMsbD 32) || (badWords && !spd.getMsbD 48) → exec i s = takeTrap .stackLimit s) ∧
      (badSpace || badWords → !((badSpace && !spd.getMsbD 32) || (badWords && !spd.getMsbD 48)) →
        Completes i s s.psd.ia (ccOf badSpace (decide (space = 0)) badWords (decide (words = 0))) noRegs noBytes)

/-- BCS, BCR, BIR, BDR and BAL. IA becomes the effective address if the branch is taken (a common 1 of mask and CC;
none; a negative incremented register; a positive decremented one; always) and stays otherwise; BIR and BDR write the
counted register, BAL the link; CC and memory stay. A nonexistent target traps to X'40' taken or not, a target
unavailable to the slave program for instruction access when taken, a register target never; BCS, BCR, BIR and BDR
then leave everything as it was, BAL has loaded the link. (BIR and BDR with a nonexistent target: the spec's decision
D29.) -/
def Obligations.Branches : Prop :=
  ∀ (r : RegNum) (m : MemRef) (s : State) (a : WordAddr), eaWord m s = .ok a →
    let p := s.psd
    let v := getReg s r
    let bad (taken : Bool) : BitVec 4 := if a.toNat < 16 then 0 else
      (if (actualOf (programPath s) a s).toNat < s.cfg.memWords then 0 else 4) |||
      (if taken ∧ s.cfg.hasMap = true ∧ p.mm = true ∧ p.ms = true ∧
        (s.acc[(fld a 0 8).toNat]'(BitVec.isLt _)).getMsbD 0 = true then 1 else 0)
    let goes (taken : Bool) : WordAddr := if taken then a else p.ia
    let does (i : Instr) (taken : Bool) (regs : Regs) : Prop :=
      (bad taken = 0 → Completes i s (goes taken) (ccBits p) regs noBytes) ∧
      (bad taken ≠ 0 → exec i s = takeTrap (.nonallowed (bad taken)) s)
    does (.bcs r m) (decide (r &&& ccBits p ≠ 0)) noRegs ∧
    does (.bcr r m) (decide (r &&& ccBits p = 0)) noRegs ∧
    does (.bir r m) (decide ((v + 1).toInt < 0)) (oneReg r (v + 1)) ∧
    does (.bdr r m) (decide (0 < (v - 1).toInt)) (oneReg r (v - 1)) ∧
    (bad true = 0 → Completes (.bal r m) s a (ccBits p) (oneReg r (p.ia.setWidth 32)) noBytes) ∧
    (bad true ≠ 0 → exec (.bal r m) s = takeTrap (.nonallowed (bad true)) (setReg s r (p.ia.setWidth 32)))

/-- EXU is the execution of the word at its effective address, fetched as an instruction, in the same state; of an
EXU, that of the next word of the chain. So a subject LI, for one, completes with LI's own effect. (The fetch as an
instruction is the spec's decision D28, log 36.) -/
def Obligations.Execute : Prop :=
  ∀ (r : RegNum) (m : MemRef) (s : State) (a : WordAddr) (w : Word), eaWord m s = .ok a → readInstr s a = .ok w →
    (∀ i, decodeWord w = .ok i → (∀ r' m', i ≠ .exu r' m') → exec (.exu r m) s = exec i s) ∧
    (∀ e, decodeWord w = .error e → exec (.exu r m) s = takeTrap (.nonallowed (nonexistentReasons w s)) s) ∧
    (∀ k v, decodeWord w = .ok (.li k v) → Completes (.exu r m) s s.psd.ia
      (ccSign s.psd.cc1 s.psd.cc2 v.toInt) (oneReg k (v.signExtend 32)) noBytes) ∧
    (∀ r' m' b v i, decodeWord w = .ok (.exu r' m') → eaWord m' s = .ok b → readInstr s b = .ok v →
      decodeWord v = .ok i → (∀ r2 m2, i ≠ .exu r2 m2) → exec (.exu r m) s = exec i s)

/-! ### Traps, interrupts and the control instructions -/

/-- Taking a trap whose location holds an XPSD, with its four words reachable: the old PSD, with IA the address of the
trapped instruction, is stored; the new PSD is loaded, with the inhibits ORed; for X'40' the reasons, and for a CALL
its R field, are ORed into CC and, with bit 9 of the XPSD, added to IA. The other traps leave CC and IA as loaded.
Nothing else changes, but that with ADDR STOP on the halt condition may be noted (log 33), and that a register looked ahead is
so no longer (log 28). CAL1 to CAL4 are the traps to X'48'
to X'4B' with their R field, in either mode, whatever their address part. (The stored image has zeros in the undefined
positions, decision D3, log 9.) -/
def Obligations.TrapEntry : Prop :=
  ∀ (c : TrapCause) (s : State) (l0 l1 l2 l3 : Loc),
    let w := coreWord s.mem (trapLocation c)
    let flags : BitVec 4 := fld w 8 4
    let mask : BitVec 4 := match c with
      | .nonallowed reasons => reasons
      | .call _ r => r
      | _ => 0
    let at' : State := { backUp s with entry := some (.trap c) }
    c ≠ .watchdog → fld w 1 7 = (0x0F : BitVec 7) →
    (flags.getMsbD 1 = false ∨ ∃ x, c = .nonallowed x ∨ ∃ n, c = .call n x) →
    ExchangeAt at' flags (memRefOf w) l0 l1 l2 l3 →
    ∃ t new, takeTrap c s = .next t ∧
      (∀ r m, (c = .call 0 r → exec (.cal1 r m) s = .next t) ∧ (c = .call 1 r → exec (.cal2 r m) s = .next t) ∧
        (c = .call 2 r → exec (.cal3 r m) s = .next t) ∧ (c = .call 3 r → exec (.cal4 r m) s = .next t)) ∧
      PsdStored { s with stopPending := t.stopPending, hazard := none } t (backIa s) l0 l1 ∧
      (s.panel.addrStop = false → t.stopPending = s.stopPending) ∧
      NewPsd s.psd new (locWord s l2) (locWord s l3) (flags.getMsbD 0) ∧
      t.psd = { (setCc { s with psd := new } (ccBits new ||| mask)).psd with
        ia := if flags.getMsbD 1 then new.ia + mask.setWidth 17 else new.ia } ∧
      trapLocation c = (match c with
        | .nonallowed _ => 0x40
        | .unimplemented => 0x41
        | .stackLimit => 0x42
        | .overflow => 0x43
        | .floatingFault => 0x44
        | .decimalFault => 0x45
        | .watchdog => 0x46
        | .call n _ => 0x48 + n.setWidth 17)

/-- The traps at decoding, before any address is formed and with nothing changed: a control or input/output instruction in
slave mode takes trap X'40' with reason 2 (CC3); an optional instruction whose option is not installed takes trap X'41'. -/
def Obligations.TrapsAtDecoding : Prop :=
  ∀ (r : RegNum) (m : MemRef) (v : BitVec 20) (ind : Bool) (sel : BitVec 3) (ra : WordAddr) (s : State),
    (s.psd.ms = true →
      ∀ i ∈ [Instr.lpsd r m, .xpsd r m, .lrp r m, .mmc ind r sel ra, .wait r m, .rd r m, .wd r m, .sio r m, .hio r m,
        .tio r m, .tdv r m, .aio r m], exec i s = takeTrap (.nonallowed 2) s) ∧
    (s.cfg.hasFloat = false →
      ∀ i ∈ [Instr.fas r m, .fal r m, .fss r m, .fsl r m, .fms r m, .fml r m, .fds r m, .fdl r m],
        exec i s = takeTrap .unimplemented s) ∧
    (s.cfg.hasDecimal = false →
      ∀ i ∈ [Instr.dl r m, .dst r m, .da r m, .ds r m, .dm r m, .dd r m, .dc r m, .dsa r m, .pack r m, .unpk r m,
        .ebs r v], exec i s = takeTrap .unimplemented s)

/-- LPSD in master mode: the PSD fields are replaced from bits 0 to 39 of the doubleword, RP too if bit 8 is set; with bit 10
set the highest-priority active level is cleared, to armed if bit 11 is set and to disarmed if not (a power level always
to armed); nothing else changes. -/
def Obligations.LoadProgramStatus : Prop :=
  ∀ (r : BitVec 4) (m : MemRef) (s : State) (ed : Double), s.psd.ms = false → operandDouble m s = .ok ed →
    ∃ t, exec (.lpsd r m) s = .next t ∧ { t with psd := s.psd, levels := s.levels } = s ∧
      ccBits t.psd = fld ed 0 4 ∧ t.psd.fs = ed.getMsbD 5 ∧ t.psd.fz = ed.getMsbD 6 ∧ t.psd.fn = ed.getMsbD 7 ∧
      t.psd.ms = ed.getMsbD 8 ∧ t.psd.mm = ed.getMsbD 9 ∧ t.psd.dm = ed.getMsbD 10 ∧ t.psd.am = ed.getMsbD 11 ∧
      t.psd.ia = fld ed 15 17 ∧ t.psd.wk = fld ed 34 2 ∧ t.psd.ci = ed.getMsbD 37 ∧ t.psd.ii = ed.getMsbD 38 ∧
      t.psd.ei = ed.getMsbD 39 ∧ t.psd.rp = (if r.getMsbD 0 then fld ed 55 5 else s.psd.rp) ∧
      ∀ k < 240, level t k =
        if r.getMsbD 2 = true ∧ highestActive s = some k then
          { level s k with state := if r.getMsbD 3 = true ∨ k < 2 then .armed else .disarmed }
        else level s k

/-- XPSD in master mode outside a trap or interrupt location, with bit 9 zero and its four words reachable: the old
PSD is stored, with the updated IA, the new one is loaded; no level and nothing else changes. An XPSD started from the
DISPLAY indicators stores IA as it was before the increment instead (R661, log 21: `storedIa`). With bit 9 = 1 it is
refused (undefined, U12). (The stored image has zeros in the undefined positions, decision D3, log 9.) -/
def Obligations.ExchangeProgramStatus : Prop :=
  ∀ (r : BitVec 4) (m : MemRef) (s : State) (l0 l1 l2 l3 : Loc), s.psd.ms = false → s.entry = none →
    ExchangeAt s r m l0 l1 l2 l3 →
    (r.getMsbD 1 = false → ∃ t, exec (.xpsd r m) s = .next t ∧ PsdStored s t (storedIa s) l0 l1 ∧
      NewPsd s.psd t.psd (locWord s l2) (locWord s l3) (r.getMsbD 0)) ∧
    (r.getMsbD 1 = true → exec (.xpsd r m) s = .refused .xpsdIncrement) ∧
    (s.started = false → storedIa s = s.psd.ia)

/-- LRP in master mode loads bits 23 to 27 of the word into RP and changes nothing else; every register of a block that is not
installed then reads as all ones or all zeros. In slave mode, and when the word cannot be read, it takes trap X'40' with
nothing changed. -/
def Obligations.LoadRegisterPointer : Prop :=
  ∀ (r : BitVec 4) (m : MemRef) (s : State),
    (s.psd.ms = true → exec (.lrp r m) s = takeTrap (.nonallowed 2) s) ∧
    (∀ e, s.psd.ms = false → operandWord m s = .error e →
      ∃ x, e = .trap (.nonallowed x) s ∧ exec (.lrp r m) s = takeTrap (.nonallowed x) s) ∧
    (∀ w, s.psd.ms = false → operandWord m s = .ok w →
      ∃ t, exec (.lrp r m) s = .next t ∧ t.psd.rp = fld w 23 5 ∧
        { t with psd := { t.psd with rp := s.psd.rp } } = s ∧
        (s.cfg.nBlocks ≤ (fld w 23 5 : BitVec 5).toNat →
          (∀ k, getReg t k = BitVec.allOnes 32) ∨ (∀ k, getReg t k = 0)))

/-- WAIT in master mode, when its address can be formed, halts the CPU and changes nothing else (the model's choice, log 12):
with no level to acknowledge, later steps leave the machine as it is. -/
def Obligations.WaitHalts : Prop :=
  ∀ (r : BitVec 4) (m : MemRef) (s : State) (a : WordAddr), s.psd.ms = false → eaWord m s = .ok a →
    exec (.wait r m) s = .next { s with halts := { s.halts with wait := true } } ∧
    ∀ t : State, t.halts.wait = true → t.inputs = [] → ioRequest t = false → nextInterrupt t = none →
      t.watchdog = 0 → step t = .next t

/-- MMC in master mode with the standard layout (the model's choice, log 11), an even R and an installed storage: one step
loads one image word, four page addresses or sixteen codes, moves the image address on by 1, the count down by 1, the
control start up by four or by sixteen registers; while the count then read from Ru1, in a missing block as it was, is not
0, IA goes back to the MMC. A selector of none or
of several storages is refused (U13), and so is an odd R with an installed storage. With the storage absent no storage
changes and R and Ru1 hold any values (the storage is then still selected: log 19). (CC stays: decision D31; one step is one
image word, log 34.) -/
def Obligations.MoveToMemoryControl : Prop :=
  ∀ (ind : Bool) (r : RegNum) (sel : BitVec 3) (ra : WordAddr) (s : State), s.psd.ms = false →
    let x := getReg s r
    let u := getReg s (ru1 r)
    let count : Byte := fld u 0 8
    let p : BitVec 8 := fld u 15 8
    let g : BitVec 6 := fld u 15 6
    let left : Byte := if blockInstalled s then count - 1 else count
    let ia := if left = 0 then s.psd.ia else backIa s
    let image : Word := (fld x 0 15 : BitVec 15) ++ (fld x 15 17 + 1 : WordAddr)
    let mapControl : Word := (count - 1) ++ (fld u 8 7 : BitVec 7) ++ (p + 4) ++ (fld u 23 9 : BitVec 9)
    let codeControl : Word := (count - 1) ++ (fld u 8 7 : BitVec 7) ++ (g + 4) ++ (fld u 21 11 : BitVec 11)
    (sel ≠ 4 → sel ≠ 2 → sel ≠ 1 → exec (.mmc ind r sel ra) s = .refused .mmcSelector) ∧
    (s.cfg.mmcLayout = .standard → r.getLsbD 0 = true →
      (sel = 4 ∨ sel = 2) ∧ s.cfg.hasMap = true ∨ sel = 1 ∧ s.cfg.hasLocks = true →
      exec (.mmc ind r sel ra) s = .refused .mmcOddRegister) ∧
    (∀ w, s.cfg.mmcLayout = .standard → r.getLsbD 0 = false → readWord s (fld x 15 17) = .ok w →
      (sel = 4 → s.cfg.hasMap = true → ∃ t, exec (.mmc ind r sel ra) s = .next t ∧
        Effect { s with map := t.map } t ia (ccBits s.psd) (firstOf (oneReg (ru1 r) mapControl) (oneReg r image))
          noBytes ∧
        ∀ k : BitVec 8, t.map[k.toNat]'(BitVec.isLt _) =
          if (k - p).toNat < 4 then fld w (8 * (k - p).toNat) 8 else s.map[k.toNat]'(BitVec.isLt _)) ∧
      (sel = 2 → s.cfg.hasMap = true → ∃ t, exec (.mmc ind r sel ra) s = .next t ∧
        Effect { s with acc := t.acc } t ia (ccBits s.psd) (firstOf (oneReg (ru1 r) codeControl) (oneReg r image))
          noBytes ∧
        ∀ k : BitVec 8, t.acc[k.toNat]'(BitVec.isLt _) =
          if (k - (g ++ 0#2)).toNat < 16 then fld w (2 * (k - (g ++ 0#2)).toNat) 2
          else s.acc[k.toNat]'(BitVec.isLt _)) ∧
      (sel = 1 → s.cfg.hasLocks = true → ∃ t, exec (.mmc ind r sel ra) s = .next t ∧
        Effect { s with lock := t.lock } t ia (ccBits s.psd) (firstOf (oneReg (ru1 r) codeControl) (oneReg r image))
          noBytes ∧
        ∀ k : BitVec 8, t.lock[k.toNat]'(BitVec.isLt _) =
          if (k - (g ++ 0#2)).toNat < 16 then fld w (2 * (k - (g ++ 0#2)).toNat) 2
          else s.lock[k.toNat]'(BitVec.isLt _))) ∧
    ((sel = 4 ∨ sel = 2) ∧ s.cfg.hasMap = false ∨ sel = 1 ∧ s.cfg.hasLocks = false →
      ∃ t v w, exec (.mmc ind r sel ra) s = .next t ∧
        EffectDrawn s t s.psd.ia (ccBits s.psd) (firstOf (oneReg (ru1 r) w) (oneReg r v)) noBytes)

/-- RD in master mode. Internal control (mode 0): CC becomes the SENSE switches; the memory-fault function loads the
indicators into a nonzero R and resets them (an over-temperature still present sets its own again); the sense function
does nothing more. Other modes: what the element at the address answers to a read, its condition bits to CC3 and CC4 and
its word to a nonzero R. In mode 1, and when nothing answers a read there, trap X'46', or, with the watchdog timer at
OVERRIDE, no end. (The codes are parameters, log 13; the value for an unlisted code is free, log 37. The elements are the
model's own data, a read leaves them as they are, and mode 1 has none: the model's choice, log 17.) -/
def Obligations.ReadDirect : Prop :=
  ∀ (r : RegNum) (m : MemRef) (s : State) (a : WordAddr) (e : BitVec 16), s.psd.ms = false → eaWord m s = .ok a →
    e = a.setWidth 16 →
    let mode := e.toNat / 4096
    let answer : Option (BitVec 2 × Word) := (s.elements.find? (fun x => x.addr == e)).bind (fun x => x.read)
    (mode = 0 →
      (e = s.cfg.rdMemFaultAddr → r ≠ 0 → ∃ t, exec (.rd r m) s = .next t ∧ t.memFault = s.overTemp ∧
        Effect { s with memFault := t.memFault } t s.psd.ia (senseSwitches s) (oneReg r (s.memFault.setWidth 32))
          noBytes) ∧
      (r = 0 ∨ (e = s.cfg.rdSenseAddr ∧ e ≠ s.cfg.rdMemFaultAddr) →
        Completes (.rd r m) s s.psd.ia (senseSwitches s) noRegs noBytes) ∧
      (r ≠ 0 → e ≠ s.cfg.rdMemFaultAddr → e ≠ s.cfg.rdSenseAddr → ∃ t v, exec (.rd r m) s = .next t ∧
        EffectDrawn s t s.psd.ia (senseSwitches s) (oneReg r v) noBytes)) ∧
    (2 ≤ mode → ∀ cc x, answer = some (cc, x) →
      Completes (.rd r m) s s.psd.ia (ccOf s.psd.cc1 s.psd.cc2 (cc.getMsbD 0) (cc.getMsbD 1))
        (if r = 0 then noRegs else oneReg r x) noBytes) ∧
    (mode = 1 ∨ (2 ≤ mode ∧ answer = none) →
      (s.panel.watchdogOverride = false → exec (.rd r m) s = takeTrap .watchdog s) ∧
      (s.panel.watchdogOverride = true → exec (.rd r m) s = .fault .stuckDirectLines))

/-- WD in master mode, internal control and elements. Mode 0: CC becomes the SENSE switches; codes X'0030' and X'0020' with
C, I, E set and reset the inhibits they name; the alarm codes set and reset ALARM, the frequency code complements PCF and
resets ALARM; any other code does nothing more (but for the model's own `flagged`). Modes 2 and up: what answers a write at
the address receives register R, or zeros for R = 0, and CC3 and CC4 take its condition bits, if it returns any; every other
element stays. When nothing answers: trap X'46', or, with the watchdog timer at OVERRIDE, no end. (The codes are parameters,
PRESUMED, log 13; an unlisted code, log 14; the elements are the model's own data, log 17.) -/
def Obligations.WriteDirect : Prop :=
  ∀ (r : RegNum) (m : MemRef) (s : State) (a : WordAddr) (e : BitVec 16), s.psd.ms = false → eaWord m s = .ok a →
    e = a.setWidth 16 →
    let sensed := setCc s (senseSwitches s)
    let data : Word := if r = 0 then 0 else getReg s r
    let c := s.cfg
    let unnamed : Prop := e.toNat < 4096 ∧ e.toNat / 8 ≠ 6 ∧ e.toNat / 8 ≠ 4
    (e.toNat / 8 = 6 → exec (.wd r m) s = .next { sensed with psd := { sensed.psd with
      ci := s.psd.ci || e.getLsbD 2, ii := s.psd.ii || e.getLsbD 1, ei := s.psd.ei || e.getLsbD 0 } }) ∧
    (e.toNat / 8 = 4 → exec (.wd r m) s = .next { sensed with psd := { sensed.psd with
      ci := s.psd.ci && !e.getLsbD 2, ii := s.psd.ii && !e.getLsbD 1, ei := s.psd.ei && !e.getLsbD 0 } }) ∧
    (unnamed → e = c.wdSetAlarmAddr → exec (.wd r m) s = .next { sensed with alarm := true }) ∧
    (unnamed → e ≠ c.wdSetAlarmAddr → e = c.wdResetAlarmAddr → exec (.wd r m) s = .next { sensed with alarm := false }) ∧
    (unnamed → e ≠ c.wdSetAlarmAddr → e ≠ c.wdResetAlarmAddr → e = c.wdTogglePcfAddr →
      exec (.wd r m) s = .next { sensed with pcf := !s.pcf, alarm := false }) ∧
    (unnamed → e ≠ c.wdSetAlarmAddr → e ≠ c.wdResetAlarmAddr → e ≠ c.wdTogglePcfAddr →
      exec (.wd r m) s = .next { sensed with flagged := true }) ∧
    (8192 ≤ e.toNat →
      (∀ x w, s.elements.find? (fun x => x.addr == e) = some x → x.write = some w →
        let answer : Option (BitVec 2) := ((w.special.find? (fun p => p.1 == data)).map (fun p => p.2)).getD w.other
        ∃ t, exec (.wd r m) s = .next t ∧
          t.elements = s.elements.map (fun y => if y.addr = e then { y with written := some data } else y) ∧
          Effect { s with elements := t.elements } t s.psd.ia
            (match answer with
              | none => ccBits s.psd
              | some cc => ccOf s.psd.cc1 s.psd.cc2 (cc.getMsbD 0) (cc.getMsbD 1)) noRegs noBytes) ∧
      ((∀ x, s.elements.find? (fun x => x.addr == e) = some x → x.write = none) →
        (s.panel.watchdogOverride = false → exec (.wd r m) s = takeTrap .watchdog s) ∧
        (s.panel.watchdogOverride = true → exec (.wd r m) s = .fault .stuckDirectLines)))

/-- WD interrupt control (mode 1) in master mode with a function code other than 000: every selected installed level
takes its new state and enable, 001 disarms, 010 arms and enables, 011 arms and disables, 100 enables, 101 disables,
110 enables the selected and disables the others of the group, 111 triggers an armed level; only interrupt levels
change. The word of register R selects (none for R = 0): bit 16 the first level of the group; group 0 has counters,
parity, input/output and the control panel. Code 000 is refused (undefined, U18). (The functions applied to a waiting
or active level are the spec's decision D34; that CC stays is D33.) -/
def Obligations.InterruptControl : Prop :=
  ∀ (r : RegNum) (m : MemRef) (s : State) (a : WordAddr) (e : BitVec 16), s.psd.ms = false → eaWord m s = .ok a →
    e = a.setWidth 16 → e.toNat / 4096 = 1 →
    let f : BitVec 3 := fld e 5 3
    let g := e.toNat % 16
    let data := if r = 0 then 0 else getReg s r
    (f = 0 → exec (.wd r m) s = .refused .interruptControlFunction) ∧
    (f ≠ 0 → ∃ t, exec (.wd r m) s = .next t ∧ { t with levels := s.levels } = s ∧
      ∀ k < 240,
        let bit : Option Nat :=
          if g = 0 then (if 2 ≤ k ∧ k < 14 ∧ k ≠ 7 then some (14 + k) else none)
          else if g = 1 then none
          else if k / 16 = g - 1 then some (16 + k % 16) else none
        level t k = match bit with
          | none => level s k
          | some b =>
            if levelInstalled s.cfg k = false then level s k
            else if data.getMsbD b then
              (if f = 1 then { level s k with state := .disarmed }
                else if f = 2 then ⟨.armed, true⟩ else if f = 3 then ⟨.armed, false⟩
                else if f = 4 ∨ f = 6 then { level s k with enabled := true }
                else if f = 5 then { level s k with enabled := false }
                else if (level s k).state = .armed then { level s k with state := .waiting } else level s k)
            else if f = 6 then { level s k with enabled := false } else level s k)

/-- The level to acknowledge is, in the priority order (the override group, then the chain), the first that is active or
eligible, if it is eligible: waiting, enabled and not inhibited, CI for the counter-equals-zero levels, II for the
input/output levels, EI for the external ones, none for the override group. It is acknowledged in place of the next
instruction: the level becomes active, a WAIT ends, and the XPSD in its location stores the PSD of the interrupted program
with its IA as it stands and loads the new one; with ADDR STOP on its references may bring the halt after it (log 33). (The exemptions of the XPSD in an interrupt location are the spec's decision
D30, log 22; taken at the first interruptible point, D38, log 30; the stored image has zeros in the undefined positions, D3,
log 9.) -/
def Obligations.InterruptEntry : Prop :=
  (∀ (s : State) (k : Nat),
    let order : List Nat := List.range 7 ++ s.cfg.priorityChain.flatMap (fun g => match g with
      | .counter => [8, 9, 10, 11]
      | .io => [12, 13]
      | .external g => (List.range 16).map (fun j => 16 * (g.toNat - 2) + 16 + j))
    let inhibited (j : Nat) : Prop :=
      (8 ≤ j ∧ j < 12 ∧ s.psd.ci = true) ∨ (12 ≤ j ∧ j < 16 ∧ s.psd.ii = true) ∨ (16 ≤ j ∧ s.psd.ei = true)
    let eligible (j : Nat) : Prop := (level s j).state = .waiting ∧ (level s j).enabled = true ∧ ¬ inhibited j
    nextInterrupt s = some k ↔ eligible k ∧ ∃ before after, order = before ++ k :: after ∧
      ∀ j ∈ before, (level s j).state ≠ .active ∧ ¬ eligible j) ∧
  ∀ (s : State) (k : Nat) (l0 l1 l2 l3 : Loc),
    s.inputs = [] → ioRequest s = false → s.panel.compute = .run → s.started = false →
    s.halts.addrStop = false → s.halts.parity = false → s.stopPending = false → s.entry = none →
    nextInterrupt s = some k →
    let w := coreWord s.mem (BitVec.ofNat 17 (0x50 + k))
    let flags : BitVec 4 := fld w 8 4
    let u := setLevel { s with watchdog := 0, hazard := none, halts := { s.halts with wait := false } } k
      { level s k with state := .active }
    fld w 1 7 = (0x0F : BitVec 7) → ¬ (2 ≤ k ∧ k ≤ 5) → flags.getMsbD 1 = false →
    ExchangeAt { u with entry := some (.interrupt k) } flags (memRefOf w) l0 l1 l2 l3 →
    ∃ t, step s = .next (stopIfPending t) ∧ (s.panel.addrStop = false → stopIfPending t = t ∧ t.stopPending = false) ∧
      PsdStored { u with stopPending := t.stopPending } t s.psd.ia l0 l1 ∧
      NewPsd s.psd t.psd (locWord s l2) (locWord s l3) (flags.getMsbD 0)

/-- A single-instruction interrupt: MTW, MTH or MTB in the location of the level acknowledged. Its addresses are
actual ones, no protection applies; the operand plus the R field (from -8 to 7) goes back to its place, unless the R
field is 0; the condition code and IA stay, no overflow trap is taken; the level is cleared and armed; a zero result
in a count-pulse location X'52' to X'55' signals the counter-equals-zero level, six above, which an armed one
remembers. With ADDR STOP on its references may bring the halt after it (log 33). (Taken at the first interruptible point: decision D38, log 30.) -/
def Obligations.SingleInstructionInterrupt : Prop :=
  ∀ (s : State) (k : Nat) (dra : WordAddr) (l : Loc),
    s.inputs = [] → ioRequest s = false → s.panel.compute = .run → s.started = false →
    s.halts.addrStop = false → s.halts.parity = false → s.stopPending = false → nextInterrupt s = some k →
    let w := coreWord s.mem (BitVec.ofNat 17 (0x50 + k))
    let r : BitVec 4 := fld w 8 4
    let d := indexOf (memRefOf w) s
    let u : State := { s with watchdog := 0, hazard := none, halts := { s.halts with wait := false } }
    let actual : Path := ⟨false, false⟩
    directVia actual (memRefOf w) s = .ok dra →
    let done (regs : Regs) (bytes : Bytes) (zero : Prop) : Prop :=
      ∃ t, step s = .next (stopIfPending t) ∧
        (s.panel.addrStop = false → stopIfPending t = t ∧ t.stopPending = false) ∧
        Effect { u with levels := t.levels, stopPending := t.stopPending } t s.psd.ia (ccBits s.psd) (if r = 0 then noRegs else regs)
          (if r = 0 then noBytes else bytes) ∧
        level t k = { level s k with state := .armed } ∧
        ∀ j < 240, j ≠ k →
          (2 ≤ k ∧ k ≤ 5 ∧ zero ∧ j = k + 6 ∧ levelInstalled s.cfg j = true ∧ (level s j).state = .armed →
            level t j = { level s j with state := .waiting }) ∧
          (¬ (2 ≤ k ∧ k ≤ 5 ∧ zero ∧ j = k + 6 ∧ levelInstalled s.cfg j = true ∧ (level s j).state = .armed) →
            level t j = level s j)
    (∀ v : Word, fld w 1 7 = (0x33 : BitVec 7) → locate actual .write (addrWord dra d) s = .ok l →
      v = locWord s l + r.signExtend 32 → done (locRegs l v) (locBytes l v) (v = 0)) ∧
    (∀ (a : BitVec 18) (v : Half), fld w 1 7 = (0x53 : BitVec 7) → a = addrHalf dra d →
      locate actual .write (fld a 0 17) s = .ok l → v = halfOf (locWord s l) (a.getLsbD 0) + r.signExtend 16 →
      done (locRegsHalf s l (a.getLsbD 0) v) (locBytesHalf l (a.getLsbD 0) v) (v = 0)) ∧
    (∀ (a : ByteAddr) (v : Byte), fld w 1 7 = (0x73 : BitVec 7) → a = addrByte dra d →
      locate actual .write (fld a 0 17) s = .ok l → v = byteOf (locWord s l) (fld a 17 2) + r.signExtend 8 →
      done (locRegsByte s l (fld a 17 2) v) (locBytesByte l (fld a 17 2) v) (v = 0))

/-! ### Input and output -/

/-- SIO, TIO, TDV and HIO. An address that nothing answers: CC1 and CC2 are set, no register is loaded, the
input/output system is as it was. Of a device that answers: CC1 is the busy selector IOP, CC2 that a start is not
possible (SIO, TIO), that a device-dependent condition is present (TDV), or that the controller was busy (HIO). An odd
R receives status and byte count, an even nonzero R the command address and R + 1 status and count; R = 0 receives
nothing. TIO, TDV and a start not accepted leave the input/output system as it was. An accepted start makes the device and
its controller busy, loads the command counter from register 0, and clears their last status. HIO halts the device: no
interrupt is pending, a busy one is ready or not operational, and the controller that serves it is ready (the model's choice,
log 15). Every other device and controller stays. (The system is the model's own data, log 15; bits 0 to 15 of an even register are 0, U22, log 16.) -/
def Obligations.InputOutput : Prop :=
  ∀ (r : RegNum) (m : MemRef) (s : State) (a : WordAddr), s.psd.ms = false → eaWord m s = .ok a →
    let p := s.psd
    let addr : BitVec 11 := a.setWidth 11
    ((∀ c ∈ s.io, ∀ d ∈ c.devices, d.addr ≠ addr) →
      (∀ i ∈ [Instr.sio r m, .tio r m, .tdv r m], Completes i s p.ia (ccOf true true p.cc3 p.cc4) noRegs noBytes) ∧
      ∃ t, exec (.hio r m) s = .next t ∧ EffectDrawn s t p.ia (ccOf true true p.cc3 p.cc4) noRegs noBytes) ∧
    ∀ c d, findDevice s.io addr = some (c, d) →
    let busy := selectorBusy s.io c addr
    let ready := d.cond == 0 && c.cond == 0 && !d.intPending && !d.fault
    let loaded (status : BitVec 16) : Regs :=
      if r = 0 then noRegs
      else if r.getLsbD 0 then oneReg r (status ++ c.count)
      else firstOf (oneReg (r + 1) (status ++ c.count)) (oneReg r (0#16 ++ c.counter))
    let regs (status : BitVec 16) : Regs := if busy then noRegs else loaded status
    let changed (k : Controller) (f : Device → Device) : Controller :=
      { k with devices := k.devices.map (fun x => if x.addr = addr then f x else x) }
    let system (f : Controller → Controller) : List Controller :=
      s.io.map (fun k => if k.devices.any (fun x => x.addr == addr) then f k else k)
    let start (x : Device) : Device :=
      { x with cond := 3, unusualEnd := false, tdv := x.tdv &&& 0x7F, aio := 0, unusual := false }
    let halt (after : BitVec 2) (x : Device) : Device :=
      { x with intPending := false, aio := 0, unusual := false, cond := if x.cond = 3 then after else x.cond }
    Completes (.tio r m) s p.ia (ccOf busy (!busy && !ready) p.cc3 p.cc4) (regs (statusBits s.io c d)) noBytes ∧
    Completes (.tdv r m) s p.ia (ccOf busy (!busy && d.dependent) p.cc3 p.cc4) (regs (testDeviceBits s.io c d))
      noBytes ∧
    (∃ t, exec (.sio r m) s = .next t ∧
      Effect { s with io := t.io } t p.ia (ccOf busy (!busy && !ready) p.cc3 p.cc4) (regs (statusBits s.io c d))
        noBytes ∧
      (busy = true ∨ ready = false → t.io = s.io) ∧
      (busy = false → ready = true → t.io = system (fun k => { changed k start with
        cond := 3, counter := (getReg s 0).setWidth 16, serving := addr, opStatus := 0, countDone := false
        active := false, flags := 0 }))) ∧
    (∃ t after, exec (.hio r m) s = .next t ∧ (after = 0 ∨ after = 1) ∧
      EffectDrawn { s with io := t.io } t p.ia (ccOf false (c.cond == 3) p.cc3 p.cc4) (loaded (statusBits s.io c d))
        noBytes ∧
      t.io = system (fun k => if k.serving = addr ∧ k.cond = 3 then { changed k (halt after) with
          cond := 0, active := false }
        else changed k (halt after)))

/-- AIO of the standard type: with no device requesting, CC1 and CC2 are set; else CC2 tells an unusual interrupt, a nonzero
R receives the response bits and the address of the first requesting device, and the request of that device is reset. An
AIO of another type completes with free values in CC1, CC2 and a nonzero R (U19; the model's choice, log 38). Every other
device, the rest of that device, and every controller stay. (That the AIO status and the unusual recognition go with the
request is the model's choice, log 15.) -/
def Obligations.AcknowledgeIo : Prop :=
  ∀ (r : RegNum) (m : MemRef) (s : State) (a : WordAddr), s.psd.ms = false → eaWord m s = .ok a →
    let p := s.psd
    (fld a 6 3 = (0 : BitVec 3) →
      (requestingDevice s.io = none →
        Completes (.aio r m) s p.ia (ccOf true true p.cc3 p.cc4) noRegs noBytes) ∧
      (∀ d, requestingDevice s.io = some d → ∃ t, exec (.aio r m) s = .next t ∧
        Effect { s with io := t.io } t p.ia (ccOf false d.unusual p.cc3 p.cc4)
          (if r = 0 then noRegs else oneReg r (d.aio ++ 0#5 ++ d.addr)) noBytes ∧
        t.io = s.io.map (fun c => { c with devices := c.devices.map (fun x =>
          if x.addr = d.addr then { x with intPending := false, aio := 0, unusual := false } else x) }))) ∧
    (fld a 6 3 ≠ (0 : BitVec 3) → ∃ t v b1 b2, exec (.aio r m) s = .next t ∧
      EffectDrawn s t p.ia (ccOf b1 b2 p.cc3 p.cc4) (if r = 0 then noRegs else oneReg r v) noBytes)
end

