-- ==== Sys2Proof/Laws/Bits.lean ====
section
/-! SUPPORT. Bit fields, bit by bit and as numbers. -/

namespace Sys2Proof.Machine

open Sys2Proof

/-- Bit `i` of a field is bit `a + i` of the whole, both in the manual's numbering. -/
theorem getMsbD_fld {w : Nat} (v : BitVec w) (a n i : Nat) (h : a + n ≤ w) :
    (fld v a n).getMsbD i = (decide (i < n) && v.getMsbD (a + i)) := by
  unfold fld BitVec.getMsbD
  by_cases hi : i < n
  · have h1 : a + i < w := by omega
    have h2 : w - (a + n) + (n - 1 - i) = w - 1 - (a + i) := by omega
    simp [hi, h1, h2, show n - 1 - i < n by omega]
  · simp [hi]

/-- A field from bit 0's side on, counted from the right. -/
theorem getLsbD_fld {w : Nat} (v : BitVec w) (a n i : Nat) :
    (fld v a n).getLsbD i = (decide (i < n) && v.getLsbD (w - (a + n) + i)) := by
  simp [fld, BitVec.getLsbD_extractLsb']

theorem getElem_fld {w : Nat} (v : BitVec w) (a n i : Nat) (h : i < n) :
    (fld v a n)[i] = v.getLsbD (w - (a + n) + i) := by
  rw [← BitVec.getLsbD_eq_getElem, getLsbD_fld]
  simp [h]

/-- A field as a number. -/
theorem toNat_fld {w : Nat} (v : BitVec w) (a n : Nat) : (fld v a n).toNat = v.toNat / 2 ^ (w - (a + n)) % 2 ^ n := by
  simp [fld, BitVec.extractLsb'_toNat, Nat.shiftRight_eq_div_pow]

/-- Bit `i` of a word with a field replaced. -/
theorem getLsbD_setFld {w n : Nat} (v : BitVec w) (a : Nat) (f : BitVec n) (i : Nat) (h : a + n ≤ w) :
    (setFld v a f).getLsbD i =
      if w - (a + n) ≤ i ∧ i < w - a then f.getLsbD (i - (w - (a + n))) else v.getLsbD i := by
  unfold setFld
  by_cases hi : i < w
  · simp only [BitVec.getLsbD_or, BitVec.getLsbD_and, BitVec.getLsbD_not, BitVec.getLsbD_shiftLeft, BitVec.getLsbD_setWidth,
      BitVec.getLsbD_allOnes, hi, decide_true, Bool.true_and]
    by_cases h1 : i < w - (a + n)
    · rw [if_neg (by omega)]
      simp [h1]
    · by_cases h2 : i < w - a
      · rw [if_pos (by omega)]
        simp [h1, show i - (w - (a + n)) < n by omega, show i - (w - (a + n)) < w by omega]
      · rw [if_neg (by omega), BitVec.getLsbD_of_ge f _ (by omega)]
        simp [h1, show ¬ i - (w - (a + n)) < n by omega]
  · have h1 : v.getLsbD i = false := BitVec.getLsbD_of_ge _ _ (by omega)
    rw [BitVec.getLsbD_of_ge _ _ (by omega), h1]
    simp
    omega

/-- The field just replaced. -/
theorem fld_setFld_same {w n : Nat} (v : BitVec w) (a : Nat) (f : BitVec n) (h : a + n ≤ w) :
    fld (setFld v a f) a n = f := by
  apply BitVec.eq_of_getLsbD_eq
  intro i hi
  rw [getLsbD_fld, getLsbD_setFld v a f _ h]
  simp only [hi, decide_true, Bool.true_and]
  rw [if_pos (by omega)]
  congr 1
  omega

/-- A field beside the replaced one. -/
theorem fld_setFld_other {w n : Nat} (v : BitVec w) (a : Nat) (f : BitVec n) (b k : Nat) (h : a + n ≤ w)
    (hk : b + k ≤ a ∨ (a + n ≤ b ∧ b + k ≤ w)) : fld (setFld v a f) b k = fld v b k := by
  apply BitVec.eq_of_getLsbD_eq
  intro i hi
  rw [getLsbD_fld, getLsbD_fld, getLsbD_setFld v a f _ h]
  simp only [hi, decide_true, Bool.true_and]
  rw [if_neg (by omega)]

theorem hiWord_append (h l : Word) : hiWord (h ++ l) = h := by
  apply BitVec.eq_of_getLsbD_eq
  intro i hi
  rw [hiWord, getLsbD_fld, BitVec.getLsbD_append]
  simp only [hi, decide_true, Bool.true_and]
  rw [if_neg (by omega)]
  congr 1
  omega

theorem loWord_append (h l : Word) : loWord (h ++ l) = l := by
  apply BitVec.eq_of_getLsbD_eq
  intro i hi
  rw [loWord, getLsbD_fld, BitVec.getLsbD_append]
  simp only [hi, decide_true, Bool.true_and]
  rw [if_pos (by omega)]
  congr 1
  omega

theorem hi_append_lo (d : Double) : hiWord d ++ loWord d = d := by
  apply BitVec.eq_of_getLsbD_eq
  intro i hi
  simp only [hiWord, loWord, BitVec.getLsbD_append, getLsbD_fld]
  by_cases h : i < 32
  · simp [h]
  · simp [h, show i - 32 < 32 by omega, show 32 + (i - 32) = i by omega]

end Sys2Proof.Machine
end

