-- ==== Sys2Proof/Laws/State.lean ====
section
/-! SUPPORT. One lemma for each field under each update of the state: what the update writes, and that it writes nothing
else. -/

namespace Sys2Proof.Machine

open Sys2Proof

/-! ### `setCc` -/

@[simp] theorem setCc_cfg (s : State) (c : BitVec 4) : (setCc s c).cfg = s.cfg := rfl
@[simp] theorem setCc_regs (s : State) (c : BitVec 4) : (setCc s c).regs = s.regs := rfl
@[simp] theorem setCc_map (s : State) (c : BitVec 4) : (setCc s c).map = s.map := rfl
@[simp] theorem setCc_acc (s : State) (c : BitVec 4) : (setCc s c).acc = s.acc := rfl
@[simp] theorem setCc_lock (s : State) (c : BitVec 4) : (setCc s c).lock = s.lock := rfl
@[simp] theorem setCc_mem (s : State) (c : BitVec 4) : (setCc s c).mem = s.mem := rfl
@[simp] theorem setCc_levels (s : State) (c : BitVec 4) : (setCc s c).levels = s.levels := rfl
@[simp] theorem setCc_entry (s : State) (c : BitVec 4) : (setCc s c).entry = s.entry := rfl
@[simp] theorem setCc_watchdog (s : State) (c : BitVec 4) : (setCc s c).watchdog = s.watchdog := rfl
@[simp] theorem setCc_ir (s : State) (c : BitVec 4) : (setCc s c).ir = s.ir := rfl
@[simp] theorem setCc_started (s : State) (c : BitVec 4) : (setCc s c).started = s.started := rfl
@[simp] theorem setCc_irAt (s : State) (c : BitVec 4) : (setCc s c).irAt = s.irAt := rfl
@[simp] theorem setCc_panel (s : State) (c : BitVec 4) : (setCc s c).panel = s.panel := rfl
@[simp] theorem setCc_halts (s : State) (c : BitVec 4) : (setCc s c).halts = s.halts := rfl
@[simp] theorem setCc_stopPending (s : State) (c : BitVec 4) : (setCc s c).stopPending = s.stopPending := rfl
@[simp] theorem setCc_memFault (s : State) (c : BitVec 4) : (setCc s c).memFault = s.memFault := rfl
@[simp] theorem setCc_overTemp (s : State) (c : BitVec 4) : (setCc s c).overTemp = s.overTemp := rfl
@[simp] theorem setCc_unavailable (s : State) (c : BitVec 4) : (setCc s c).unavailable = s.unavailable := rfl
@[simp] theorem setCc_alarm (s : State) (c : BitVec 4) : (setCc s c).alarm = s.alarm := rfl
@[simp] theorem setCc_pcf (s : State) (c : BitVec 4) : (setCc s c).pcf = s.pcf := rfl
@[simp] theorem setCc_io (s : State) (c : BitVec 4) : (setCc s c).io = s.io := rfl
@[simp] theorem setCc_elements (s : State) (c : BitVec 4) : (setCc s c).elements = s.elements := rfl
@[simp] theorem setCc_hazard (s : State) (c : BitVec 4) : (setCc s c).hazard = s.hazard := rfl
@[simp] theorem setCc_midway (s : State) (c : BitVec 4) : (setCc s c).midway = s.midway := rfl
@[simp] theorem setCc_flagged (s : State) (c : BitVec 4) : (setCc s c).flagged = s.flagged := rfl
@[simp] theorem setCc_draws (s : State) (c : BitVec 4) : (setCc s c).draws = s.draws := rfl
@[simp] theorem setCc_inputs (s : State) (c : BitVec 4) : (setCc s c).inputs = s.inputs := rfl
@[simp] theorem setCc_psd_cc1 (s : State) (c : BitVec 4) : (setCc s c).psd.cc1 = c.getMsbD 0 := rfl
@[simp] theorem setCc_psd_cc2 (s : State) (c : BitVec 4) : (setCc s c).psd.cc2 = c.getMsbD 1 := rfl
@[simp] theorem setCc_psd_cc3 (s : State) (c : BitVec 4) : (setCc s c).psd.cc3 = c.getMsbD 2 := rfl
@[simp] theorem setCc_psd_cc4 (s : State) (c : BitVec 4) : (setCc s c).psd.cc4 = c.getMsbD 3 := rfl
@[simp] theorem setCc_psd_fs (s : State) (c : BitVec 4) : (setCc s c).psd.fs = s.psd.fs := rfl
@[simp] theorem setCc_psd_fz (s : State) (c : BitVec 4) : (setCc s c).psd.fz = s.psd.fz := rfl
@[simp] theorem setCc_psd_fn (s : State) (c : BitVec 4) : (setCc s c).psd.fn = s.psd.fn := rfl
@[simp] theorem setCc_psd_ms (s : State) (c : BitVec 4) : (setCc s c).psd.ms = s.psd.ms := rfl
@[simp] theorem setCc_psd_mm (s : State) (c : BitVec 4) : (setCc s c).psd.mm = s.psd.mm := rfl
@[simp] theorem setCc_psd_dm (s : State) (c : BitVec 4) : (setCc s c).psd.dm = s.psd.dm := rfl
@[simp] theorem setCc_psd_am (s : State) (c : BitVec 4) : (setCc s c).psd.am = s.psd.am := rfl
@[simp] theorem setCc_psd_ia (s : State) (c : BitVec 4) : (setCc s c).psd.ia = s.psd.ia := rfl
@[simp] theorem setCc_psd_wk (s : State) (c : BitVec 4) : (setCc s c).psd.wk = s.psd.wk := rfl
@[simp] theorem setCc_psd_ci (s : State) (c : BitVec 4) : (setCc s c).psd.ci = s.psd.ci := rfl
@[simp] theorem setCc_psd_ii (s : State) (c : BitVec 4) : (setCc s c).psd.ii = s.psd.ii := rfl
@[simp] theorem setCc_psd_ei (s : State) (c : BitVec 4) : (setCc s c).psd.ei = s.psd.ei := rfl
@[simp] theorem setCc_psd_rp (s : State) (c : BitVec 4) : (setCc s c).psd.rp = s.psd.rp := rfl

/-! ### `setCc1` -/

@[simp] theorem setCc1_cfg (b : Bool) (s : State) : (setCc1 b s).cfg = s.cfg := rfl
@[simp] theorem setCc1_regs (b : Bool) (s : State) : (setCc1 b s).regs = s.regs := rfl
@[simp] theorem setCc1_map (b : Bool) (s : State) : (setCc1 b s).map = s.map := rfl
@[simp] theorem setCc1_acc (b : Bool) (s : State) : (setCc1 b s).acc = s.acc := rfl
@[simp] theorem setCc1_lock (b : Bool) (s : State) : (setCc1 b s).lock = s.lock := rfl
@[simp] theorem setCc1_mem (b : Bool) (s : State) : (setCc1 b s).mem = s.mem := rfl
@[simp] theorem setCc1_levels (b : Bool) (s : State) : (setCc1 b s).levels = s.levels := rfl
@[simp] theorem setCc1_entry (b : Bool) (s : State) : (setCc1 b s).entry = s.entry := rfl
@[simp] theorem setCc1_watchdog (b : Bool) (s : State) : (setCc1 b s).watchdog = s.watchdog := rfl
@[simp] theorem setCc1_ir (b : Bool) (s : State) : (setCc1 b s).ir = s.ir := rfl
@[simp] theorem setCc1_started (b : Bool) (s : State) : (setCc1 b s).started = s.started := rfl
@[simp] theorem setCc1_irAt (b : Bool) (s : State) : (setCc1 b s).irAt = s.irAt := rfl
@[simp] theorem setCc1_panel (b : Bool) (s : State) : (setCc1 b s).panel = s.panel := rfl
@[simp] theorem setCc1_halts (b : Bool) (s : State) : (setCc1 b s).halts = s.halts := rfl
@[simp] theorem setCc1_stopPending (b : Bool) (s : State) : (setCc1 b s).stopPending = s.stopPending := rfl
@[simp] theorem setCc1_memFault (b : Bool) (s : State) : (setCc1 b s).memFault = s.memFault := rfl
@[simp] theorem setCc1_overTemp (b : Bool) (s : State) : (setCc1 b s).overTemp = s.overTemp := rfl
@[simp] theorem setCc1_unavailable (b : Bool) (s : State) : (setCc1 b s).unavailable = s.unavailable := rfl
@[simp] theorem setCc1_alarm (b : Bool) (s : State) : (setCc1 b s).alarm = s.alarm := rfl
@[simp] theorem setCc1_pcf (b : Bool) (s : State) : (setCc1 b s).pcf = s.pcf := rfl
@[simp] theorem setCc1_io (b : Bool) (s : State) : (setCc1 b s).io = s.io := rfl
@[simp] theorem setCc1_elements (b : Bool) (s : State) : (setCc1 b s).elements = s.elements := rfl
@[simp] theorem setCc1_hazard (b : Bool) (s : State) : (setCc1 b s).hazard = s.hazard := rfl
@[simp] theorem setCc1_midway (b : Bool) (s : State) : (setCc1 b s).midway = s.midway := rfl
@[simp] theorem setCc1_flagged (b : Bool) (s : State) : (setCc1 b s).flagged = s.flagged := rfl
@[simp] theorem setCc1_draws (b : Bool) (s : State) : (setCc1 b s).draws = s.draws := rfl
@[simp] theorem setCc1_inputs (b : Bool) (s : State) : (setCc1 b s).inputs = s.inputs := rfl
@[simp] theorem setCc1_psd_cc1 (b : Bool) (s : State) : (setCc1 b s).psd.cc1 = b := rfl
@[simp] theorem setCc1_psd_cc2 (b : Bool) (s : State) : (setCc1 b s).psd.cc2 = s.psd.cc2 := rfl
@[simp] theorem setCc1_psd_cc3 (b : Bool) (s : State) : (setCc1 b s).psd.cc3 = s.psd.cc3 := rfl
@[simp] theorem setCc1_psd_cc4 (b : Bool) (s : State) : (setCc1 b s).psd.cc4 = s.psd.cc4 := rfl
@[simp] theorem setCc1_psd_fs (b : Bool) (s : State) : (setCc1 b s).psd.fs = s.psd.fs := rfl
@[simp] theorem setCc1_psd_fz (b : Bool) (s : State) : (setCc1 b s).psd.fz = s.psd.fz := rfl
@[simp] theorem setCc1_psd_fn (b : Bool) (s : State) : (setCc1 b s).psd.fn = s.psd.fn := rfl
@[simp] theorem setCc1_psd_ms (b : Bool) (s : State) : (setCc1 b s).psd.ms = s.psd.ms := rfl
@[simp] theorem setCc1_psd_mm (b : Bool) (s : State) : (setCc1 b s).psd.mm = s.psd.mm := rfl
@[simp] theorem setCc1_psd_dm (b : Bool) (s : State) : (setCc1 b s).psd.dm = s.psd.dm := rfl
@[simp] theorem setCc1_psd_am (b : Bool) (s : State) : (setCc1 b s).psd.am = s.psd.am := rfl
@[simp] theorem setCc1_psd_ia (b : Bool) (s : State) : (setCc1 b s).psd.ia = s.psd.ia := rfl
@[simp] theorem setCc1_psd_wk (b : Bool) (s : State) : (setCc1 b s).psd.wk = s.psd.wk := rfl
@[simp] theorem setCc1_psd_ci (b : Bool) (s : State) : (setCc1 b s).psd.ci = s.psd.ci := rfl
@[simp] theorem setCc1_psd_ii (b : Bool) (s : State) : (setCc1 b s).psd.ii = s.psd.ii := rfl
@[simp] theorem setCc1_psd_ei (b : Bool) (s : State) : (setCc1 b s).psd.ei = s.psd.ei := rfl
@[simp] theorem setCc1_psd_rp (b : Bool) (s : State) : (setCc1 b s).psd.rp = s.psd.rp := rfl

/-! ### `setCc2` -/

@[simp] theorem setCc2_cfg (b : Bool) (s : State) : (setCc2 b s).cfg = s.cfg := rfl
@[simp] theorem setCc2_regs (b : Bool) (s : State) : (setCc2 b s).regs = s.regs := rfl
@[simp] theorem setCc2_map (b : Bool) (s : State) : (setCc2 b s).map = s.map := rfl
@[simp] theorem setCc2_acc (b : Bool) (s : State) : (setCc2 b s).acc = s.acc := rfl
@[simp] theorem setCc2_lock (b : Bool) (s : State) : (setCc2 b s).lock = s.lock := rfl
@[simp] theorem setCc2_mem (b : Bool) (s : State) : (setCc2 b s).mem = s.mem := rfl
@[simp] theorem setCc2_levels (b : Bool) (s : State) : (setCc2 b s).levels = s.levels := rfl
@[simp] theorem setCc2_entry (b : Bool) (s : State) : (setCc2 b s).entry = s.entry := rfl
@[simp] theorem setCc2_watchdog (b : Bool) (s : State) : (setCc2 b s).watchdog = s.watchdog := rfl
@[simp] theorem setCc2_ir (b : Bool) (s : State) : (setCc2 b s).ir = s.ir := rfl
@[simp] theorem setCc2_started (b : Bool) (s : State) : (setCc2 b s).started = s.started := rfl
@[simp] theorem setCc2_irAt (b : Bool) (s : State) : (setCc2 b s).irAt = s.irAt := rfl
@[simp] theorem setCc2_panel (b : Bool) (s : State) : (setCc2 b s).panel = s.panel := rfl
@[simp] theorem setCc2_halts (b : Bool) (s : State) : (setCc2 b s).halts = s.halts := rfl
@[simp] theorem setCc2_stopPending (b : Bool) (s : State) : (setCc2 b s).stopPending = s.stopPending := rfl
@[simp] theorem setCc2_memFault (b : Bool) (s : State) : (setCc2 b s).memFault = s.memFault := rfl
@[simp] theorem setCc2_overTemp (b : Bool) (s : State) : (setCc2 b s).overTemp = s.overTemp := rfl
@[simp] theorem setCc2_unavailable (b : Bool) (s : State) : (setCc2 b s).unavailable = s.unavailable := rfl
@[simp] theorem setCc2_alarm (b : Bool) (s : State) : (setCc2 b s).alarm = s.alarm := rfl
@[simp] theorem setCc2_pcf (b : Bool) (s : State) : (setCc2 b s).pcf = s.pcf := rfl
@[simp] theorem setCc2_io (b : Bool) (s : State) : (setCc2 b s).io = s.io := rfl
@[simp] theorem setCc2_elements (b : Bool) (s : State) : (setCc2 b s).elements = s.elements := rfl
@[simp] theorem setCc2_hazard (b : Bool) (s : State) : (setCc2 b s).hazard = s.hazard := rfl
@[simp] theorem setCc2_midway (b : Bool) (s : State) : (setCc2 b s).midway = s.midway := rfl
@[simp] theorem setCc2_flagged (b : Bool) (s : State) : (setCc2 b s).flagged = s.flagged := rfl
@[simp] theorem setCc2_draws (b : Bool) (s : State) : (setCc2 b s).draws = s.draws := rfl
@[simp] theorem setCc2_inputs (b : Bool) (s : State) : (setCc2 b s).inputs = s.inputs := rfl
@[simp] theorem setCc2_psd_cc1 (b : Bool) (s : State) : (setCc2 b s).psd.cc1 = s.psd.cc1 := rfl
@[simp] theorem setCc2_psd_cc2 (b : Bool) (s : State) : (setCc2 b s).psd.cc2 = b := rfl
@[simp] theorem setCc2_psd_cc3 (b : Bool) (s : State) : (setCc2 b s).psd.cc3 = s.psd.cc3 := rfl
@[simp] theorem setCc2_psd_cc4 (b : Bool) (s : State) : (setCc2 b s).psd.cc4 = s.psd.cc4 := rfl
@[simp] theorem setCc2_psd_fs (b : Bool) (s : State) : (setCc2 b s).psd.fs = s.psd.fs := rfl
@[simp] theorem setCc2_psd_fz (b : Bool) (s : State) : (setCc2 b s).psd.fz = s.psd.fz := rfl
@[simp] theorem setCc2_psd_fn (b : Bool) (s : State) : (setCc2 b s).psd.fn = s.psd.fn := rfl
@[simp] theorem setCc2_psd_ms (b : Bool) (s : State) : (setCc2 b s).psd.ms = s.psd.ms := rfl
@[simp] theorem setCc2_psd_mm (b : Bool) (s : State) : (setCc2 b s).psd.mm = s.psd.mm := rfl
@[simp] theorem setCc2_psd_dm (b : Bool) (s : State) : (setCc2 b s).psd.dm = s.psd.dm := rfl
@[simp] theorem setCc2_psd_am (b : Bool) (s : State) : (setCc2 b s).psd.am = s.psd.am := rfl
@[simp] theorem setCc2_psd_ia (b : Bool) (s : State) : (setCc2 b s).psd.ia = s.psd.ia := rfl
@[simp] theorem setCc2_psd_wk (b : Bool) (s : State) : (setCc2 b s).psd.wk = s.psd.wk := rfl
@[simp] theorem setCc2_psd_ci (b : Bool) (s : State) : (setCc2 b s).psd.ci = s.psd.ci := rfl
@[simp] theorem setCc2_psd_ii (b : Bool) (s : State) : (setCc2 b s).psd.ii = s.psd.ii := rfl
@[simp] theorem setCc2_psd_ei (b : Bool) (s : State) : (setCc2 b s).psd.ei = s.psd.ei := rfl
@[simp] theorem setCc2_psd_rp (b : Bool) (s : State) : (setCc2 b s).psd.rp = s.psd.rp := rfl

/-! ### `setCc12` -/

@[simp] theorem setCc12_cfg (b c : Bool) (s : State) : (setCc12 b c s).cfg = s.cfg := rfl
@[simp] theorem setCc12_regs (b c : Bool) (s : State) : (setCc12 b c s).regs = s.regs := rfl
@[simp] theorem setCc12_map (b c : Bool) (s : State) : (setCc12 b c s).map = s.map := rfl
@[simp] theorem setCc12_acc (b c : Bool) (s : State) : (setCc12 b c s).acc = s.acc := rfl
@[simp] theorem setCc12_lock (b c : Bool) (s : State) : (setCc12 b c s).lock = s.lock := rfl
@[simp] theorem setCc12_mem (b c : Bool) (s : State) : (setCc12 b c s).mem = s.mem := rfl
@[simp] theorem setCc12_levels (b c : Bool) (s : State) : (setCc12 b c s).levels = s.levels := rfl
@[simp] theorem setCc12_entry (b c : Bool) (s : State) : (setCc12 b c s).entry = s.entry := rfl
@[simp] theorem setCc12_watchdog (b c : Bool) (s : State) : (setCc12 b c s).watchdog = s.watchdog := rfl
@[simp] theorem setCc12_ir (b c : Bool) (s : State) : (setCc12 b c s).ir = s.ir := rfl
@[simp] theorem setCc12_started (b c : Bool) (s : State) : (setCc12 b c s).started = s.started := rfl
@[simp] theorem setCc12_irAt (b c : Bool) (s : State) : (setCc12 b c s).irAt = s.irAt := rfl
@[simp] theorem setCc12_panel (b c : Bool) (s : State) : (setCc12 b c s).panel = s.panel := rfl
@[simp] theorem setCc12_halts (b c : Bool) (s : State) : (setCc12 b c s).halts = s.halts := rfl
@[simp] theorem setCc12_stopPending (b c : Bool) (s : State) : (setCc12 b c s).stopPending = s.stopPending := rfl
@[simp] theorem setCc12_memFault (b c : Bool) (s : State) : (setCc12 b c s).memFault = s.memFault := rfl
@[simp] theorem setCc12_overTemp (b c : Bool) (s : State) : (setCc12 b c s).overTemp = s.overTemp := rfl
@[simp] theorem setCc12_unavailable (b c : Bool) (s : State) : (setCc12 b c s).unavailable = s.unavailable := rfl
@[simp] theorem setCc12_alarm (b c : Bool) (s : State) : (setCc12 b c s).alarm = s.alarm := rfl
@[simp] theorem setCc12_pcf (b c : Bool) (s : State) : (setCc12 b c s).pcf = s.pcf := rfl
@[simp] theorem setCc12_io (b c : Bool) (s : State) : (setCc12 b c s).io = s.io := rfl
@[simp] theorem setCc12_elements (b c : Bool) (s : State) : (setCc12 b c s).elements = s.elements := rfl
@[simp] theorem setCc12_hazard (b c : Bool) (s : State) : (setCc12 b c s).hazard = s.hazard := rfl
@[simp] theorem setCc12_midway (b c : Bool) (s : State) : (setCc12 b c s).midway = s.midway := rfl
@[simp] theorem setCc12_flagged (b c : Bool) (s : State) : (setCc12 b c s).flagged = s.flagged := rfl
@[simp] theorem setCc12_draws (b c : Bool) (s : State) : (setCc12 b c s).draws = s.draws := rfl
@[simp] theorem setCc12_inputs (b c : Bool) (s : State) : (setCc12 b c s).inputs = s.inputs := rfl
@[simp] theorem setCc12_psd_cc1 (b c : Bool) (s : State) : (setCc12 b c s).psd.cc1 = b := rfl
@[simp] theorem setCc12_psd_cc2 (b c : Bool) (s : State) : (setCc12 b c s).psd.cc2 = c := rfl
@[simp] theorem setCc12_psd_cc3 (b c : Bool) (s : State) : (setCc12 b c s).psd.cc3 = s.psd.cc3 := rfl
@[simp] theorem setCc12_psd_cc4 (b c : Bool) (s : State) : (setCc12 b c s).psd.cc4 = s.psd.cc4 := rfl
@[simp] theorem setCc12_psd_fs (b c : Bool) (s : State) : (setCc12 b c s).psd.fs = s.psd.fs := rfl
@[simp] theorem setCc12_psd_fz (b c : Bool) (s : State) : (setCc12 b c s).psd.fz = s.psd.fz := rfl
@[simp] theorem setCc12_psd_fn (b c : Bool) (s : State) : (setCc12 b c s).psd.fn = s.psd.fn := rfl
@[simp] theorem setCc12_psd_ms (b c : Bool) (s : State) : (setCc12 b c s).psd.ms = s.psd.ms := rfl
@[simp] theorem setCc12_psd_mm (b c : Bool) (s : State) : (setCc12 b c s).psd.mm = s.psd.mm := rfl
@[simp] theorem setCc12_psd_dm (b c : Bool) (s : State) : (setCc12 b c s).psd.dm = s.psd.dm := rfl
@[simp] theorem setCc12_psd_am (b c : Bool) (s : State) : (setCc12 b c s).psd.am = s.psd.am := rfl
@[simp] theorem setCc12_psd_ia (b c : Bool) (s : State) : (setCc12 b c s).psd.ia = s.psd.ia := rfl
@[simp] theorem setCc12_psd_wk (b c : Bool) (s : State) : (setCc12 b c s).psd.wk = s.psd.wk := rfl
@[simp] theorem setCc12_psd_ci (b c : Bool) (s : State) : (setCc12 b c s).psd.ci = s.psd.ci := rfl
@[simp] theorem setCc12_psd_ii (b c : Bool) (s : State) : (setCc12 b c s).psd.ii = s.psd.ii := rfl
@[simp] theorem setCc12_psd_ei (b c : Bool) (s : State) : (setCc12 b c s).psd.ei = s.psd.ei := rfl
@[simp] theorem setCc12_psd_rp (b c : Bool) (s : State) : (setCc12 b c s).psd.rp = s.psd.rp := rfl

/-! ### `setCc34` -/

@[simp] theorem setCc34_cfg (b c : Bool) (s : State) : (setCc34 b c s).cfg = s.cfg := rfl
@[simp] theorem setCc34_regs (b c : Bool) (s : State) : (setCc34 b c s).regs = s.regs := rfl
@[simp] theorem setCc34_map (b c : Bool) (s : State) : (setCc34 b c s).map = s.map := rfl
@[simp] theorem setCc34_acc (b c : Bool) (s : State) : (setCc34 b c s).acc = s.acc := rfl
@[simp] theorem setCc34_lock (b c : Bool) (s : State) : (setCc34 b c s).lock = s.lock := rfl
@[simp] theorem setCc34_mem (b c : Bool) (s : State) : (setCc34 b c s).mem = s.mem := rfl
@[simp] theorem setCc34_levels (b c : Bool) (s : State) : (setCc34 b c s).levels = s.levels := rfl
@[simp] theorem setCc34_entry (b c : Bool) (s : State) : (setCc34 b c s).entry = s.entry := rfl
@[simp] theorem setCc34_watchdog (b c : Bool) (s : State) : (setCc34 b c s).watchdog = s.watchdog := rfl
@[simp] theorem setCc34_ir (b c : Bool) (s : State) : (setCc34 b c s).ir = s.ir := rfl
@[simp] theorem setCc34_started (b c : Bool) (s : State) : (setCc34 b c s).started = s.started := rfl
@[simp] theorem setCc34_irAt (b c : Bool) (s : State) : (setCc34 b c s).irAt = s.irAt := rfl
@[simp] theorem setCc34_panel (b c : Bool) (s : State) : (setCc34 b c s).panel = s.panel := rfl
@[simp] theorem setCc34_halts (b c : Bool) (s : State) : (setCc34 b c s).halts = s.halts := rfl
@[simp] theorem setCc34_stopPending (b c : Bool) (s : State) : (setCc34 b c s).stopPending = s.stopPending := rfl
@[simp] theorem setCc34_memFault (b c : Bool) (s : State) : (setCc34 b c s).memFault = s.memFault := rfl
@[simp] theorem setCc34_overTemp (b c : Bool) (s : State) : (setCc34 b c s).overTemp = s.overTemp := rfl
@[simp] theorem setCc34_unavailable (b c : Bool) (s : State) : (setCc34 b c s).unavailable = s.unavailable := rfl
@[simp] theorem setCc34_alarm (b c : Bool) (s : State) : (setCc34 b c s).alarm = s.alarm := rfl
@[simp] theorem setCc34_pcf (b c : Bool) (s : State) : (setCc34 b c s).pcf = s.pcf := rfl
@[simp] theorem setCc34_io (b c : Bool) (s : State) : (setCc34 b c s).io = s.io := rfl
@[simp] theorem setCc34_elements (b c : Bool) (s : State) : (setCc34 b c s).elements = s.elements := rfl
@[simp] theorem setCc34_hazard (b c : Bool) (s : State) : (setCc34 b c s).hazard = s.hazard := rfl
@[simp] theorem setCc34_midway (b c : Bool) (s : State) : (setCc34 b c s).midway = s.midway := rfl
@[simp] theorem setCc34_flagged (b c : Bool) (s : State) : (setCc34 b c s).flagged = s.flagged := rfl
@[simp] theorem setCc34_draws (b c : Bool) (s : State) : (setCc34 b c s).draws = s.draws := rfl
@[simp] theorem setCc34_inputs (b c : Bool) (s : State) : (setCc34 b c s).inputs = s.inputs := rfl
@[simp] theorem setCc34_psd_cc1 (b c : Bool) (s : State) : (setCc34 b c s).psd.cc1 = s.psd.cc1 := rfl
@[simp] theorem setCc34_psd_cc2 (b c : Bool) (s : State) : (setCc34 b c s).psd.cc2 = s.psd.cc2 := rfl
@[simp] theorem setCc34_psd_cc3 (b c : Bool) (s : State) : (setCc34 b c s).psd.cc3 = b := rfl
@[simp] theorem setCc34_psd_cc4 (b c : Bool) (s : State) : (setCc34 b c s).psd.cc4 = c := rfl
@[simp] theorem setCc34_psd_fs (b c : Bool) (s : State) : (setCc34 b c s).psd.fs = s.psd.fs := rfl
@[simp] theorem setCc34_psd_fz (b c : Bool) (s : State) : (setCc34 b c s).psd.fz = s.psd.fz := rfl
@[simp] theorem setCc34_psd_fn (b c : Bool) (s : State) : (setCc34 b c s).psd.fn = s.psd.fn := rfl
@[simp] theorem setCc34_psd_ms (b c : Bool) (s : State) : (setCc34 b c s).psd.ms = s.psd.ms := rfl
@[simp] theorem setCc34_psd_mm (b c : Bool) (s : State) : (setCc34 b c s).psd.mm = s.psd.mm := rfl
@[simp] theorem setCc34_psd_dm (b c : Bool) (s : State) : (setCc34 b c s).psd.dm = s.psd.dm := rfl
@[simp] theorem setCc34_psd_am (b c : Bool) (s : State) : (setCc34 b c s).psd.am = s.psd.am := rfl
@[simp] theorem setCc34_psd_ia (b c : Bool) (s : State) : (setCc34 b c s).psd.ia = s.psd.ia := rfl
@[simp] theorem setCc34_psd_wk (b c : Bool) (s : State) : (setCc34 b c s).psd.wk = s.psd.wk := rfl
@[simp] theorem setCc34_psd_ci (b c : Bool) (s : State) : (setCc34 b c s).psd.ci = s.psd.ci := rfl
@[simp] theorem setCc34_psd_ii (b c : Bool) (s : State) : (setCc34 b c s).psd.ii = s.psd.ii := rfl
@[simp] theorem setCc34_psd_ei (b c : Bool) (s : State) : (setCc34 b c s).psd.ei = s.psd.ei := rfl
@[simp] theorem setCc34_psd_rp (b c : Bool) (s : State) : (setCc34 b c s).psd.rp = s.psd.rp := rfl

/-! ### `setFloatMode` -/

@[simp] theorem setFloatMode_cfg (s : State) (f : BitVec 3) : (setFloatMode s f).cfg = s.cfg := rfl
@[simp] theorem setFloatMode_regs (s : State) (f : BitVec 3) : (setFloatMode s f).regs = s.regs := rfl
@[simp] theorem setFloatMode_map (s : State) (f : BitVec 3) : (setFloatMode s f).map = s.map := rfl
@[simp] theorem setFloatMode_acc (s : State) (f : BitVec 3) : (setFloatMode s f).acc = s.acc := rfl
@[simp] theorem setFloatMode_lock (s : State) (f : BitVec 3) : (setFloatMode s f).lock = s.lock := rfl
@[simp] theorem setFloatMode_mem (s : State) (f : BitVec 3) : (setFloatMode s f).mem = s.mem := rfl
@[simp] theorem setFloatMode_levels (s : State) (f : BitVec 3) : (setFloatMode s f).levels = s.levels := rfl
@[simp] theorem setFloatMode_entry (s : State) (f : BitVec 3) : (setFloatMode s f).entry = s.entry := rfl
@[simp] theorem setFloatMode_watchdog (s : State) (f : BitVec 3) : (setFloatMode s f).watchdog = s.watchdog := rfl
@[simp] theorem setFloatMode_ir (s : State) (f : BitVec 3) : (setFloatMode s f).ir = s.ir := rfl
@[simp] theorem setFloatMode_started (s : State) (f : BitVec 3) : (setFloatMode s f).started = s.started := rfl
@[simp] theorem setFloatMode_irAt (s : State) (f : BitVec 3) : (setFloatMode s f).irAt = s.irAt := rfl
@[simp] theorem setFloatMode_panel (s : State) (f : BitVec 3) : (setFloatMode s f).panel = s.panel := rfl
@[simp] theorem setFloatMode_halts (s : State) (f : BitVec 3) : (setFloatMode s f).halts = s.halts := rfl
@[simp] theorem setFloatMode_stopPending (s : State) (f : BitVec 3) : (setFloatMode s f).stopPending = s.stopPending := rfl
@[simp] theorem setFloatMode_memFault (s : State) (f : BitVec 3) : (setFloatMode s f).memFault = s.memFault := rfl
@[simp] theorem setFloatMode_overTemp (s : State) (f : BitVec 3) : (setFloatMode s f).overTemp = s.overTemp := rfl
@[simp] theorem setFloatMode_unavailable (s : State) (f : BitVec 3) : (setFloatMode s f).unavailable = s.unavailable := rfl
@[simp] theorem setFloatMode_alarm (s : State) (f : BitVec 3) : (setFloatMode s f).alarm = s.alarm := rfl
@[simp] theorem setFloatMode_pcf (s : State) (f : BitVec 3) : (setFloatMode s f).pcf = s.pcf := rfl
@[simp] theorem setFloatMode_io (s : State) (f : BitVec 3) : (setFloatMode s f).io = s.io := rfl
@[simp] theorem setFloatMode_elements (s : State) (f : BitVec 3) : (setFloatMode s f).elements = s.elements := rfl
@[simp] theorem setFloatMode_hazard (s : State) (f : BitVec 3) : (setFloatMode s f).hazard = s.hazard := rfl
@[simp] theorem setFloatMode_midway (s : State) (f : BitVec 3) : (setFloatMode s f).midway = s.midway := rfl
@[simp] theorem setFloatMode_flagged (s : State) (f : BitVec 3) : (setFloatMode s f).flagged = s.flagged := rfl
@[simp] theorem setFloatMode_draws (s : State) (f : BitVec 3) : (setFloatMode s f).draws = s.draws := rfl
@[simp] theorem setFloatMode_inputs (s : State) (f : BitVec 3) : (setFloatMode s f).inputs = s.inputs := rfl
@[simp] theorem setFloatMode_psd_cc1 (s : State) (f : BitVec 3) : (setFloatMode s f).psd.cc1 = s.psd.cc1 := rfl
@[simp] theorem setFloatMode_psd_cc2 (s : State) (f : BitVec 3) : (setFloatMode s f).psd.cc2 = s.psd.cc2 := rfl
@[simp] theorem setFloatMode_psd_cc3 (s : State) (f : BitVec 3) : (setFloatMode s f).psd.cc3 = s.psd.cc3 := rfl
@[simp] theorem setFloatMode_psd_cc4 (s : State) (f : BitVec 3) : (setFloatMode s f).psd.cc4 = s.psd.cc4 := rfl
@[simp] theorem setFloatMode_psd_fs (s : State) (f : BitVec 3) : (setFloatMode s f).psd.fs = f.getMsbD 0 := rfl
@[simp] theorem setFloatMode_psd_fz (s : State) (f : BitVec 3) : (setFloatMode s f).psd.fz = f.getMsbD 1 := rfl
@[simp] theorem setFloatMode_psd_fn (s : State) (f : BitVec 3) : (setFloatMode s f).psd.fn = f.getMsbD 2 := rfl
@[simp] theorem setFloatMode_psd_ms (s : State) (f : BitVec 3) : (setFloatMode s f).psd.ms = s.psd.ms := rfl
@[simp] theorem setFloatMode_psd_mm (s : State) (f : BitVec 3) : (setFloatMode s f).psd.mm = s.psd.mm := rfl
@[simp] theorem setFloatMode_psd_dm (s : State) (f : BitVec 3) : (setFloatMode s f).psd.dm = s.psd.dm := rfl
@[simp] theorem setFloatMode_psd_am (s : State) (f : BitVec 3) : (setFloatMode s f).psd.am = s.psd.am := rfl
@[simp] theorem setFloatMode_psd_ia (s : State) (f : BitVec 3) : (setFloatMode s f).psd.ia = s.psd.ia := rfl
@[simp] theorem setFloatMode_psd_wk (s : State) (f : BitVec 3) : (setFloatMode s f).psd.wk = s.psd.wk := rfl
@[simp] theorem setFloatMode_psd_ci (s : State) (f : BitVec 3) : (setFloatMode s f).psd.ci = s.psd.ci := rfl
@[simp] theorem setFloatMode_psd_ii (s : State) (f : BitVec 3) : (setFloatMode s f).psd.ii = s.psd.ii := rfl
@[simp] theorem setFloatMode_psd_ei (s : State) (f : BitVec 3) : (setFloatMode s f).psd.ei = s.psd.ei := rfl
@[simp] theorem setFloatMode_psd_rp (s : State) (f : BitVec 3) : (setFloatMode s f).psd.rp = s.psd.rp := rfl

/-! ### `setIa` -/

@[simp] theorem setIa_cfg (s : State) (a : WordAddr) : (setIa s a).cfg = s.cfg := rfl
@[simp] theorem setIa_regs (s : State) (a : WordAddr) : (setIa s a).regs = s.regs := rfl
@[simp] theorem setIa_map (s : State) (a : WordAddr) : (setIa s a).map = s.map := rfl
@[simp] theorem setIa_acc (s : State) (a : WordAddr) : (setIa s a).acc = s.acc := rfl
@[simp] theorem setIa_lock (s : State) (a : WordAddr) : (setIa s a).lock = s.lock := rfl
@[simp] theorem setIa_mem (s : State) (a : WordAddr) : (setIa s a).mem = s.mem := rfl
@[simp] theorem setIa_levels (s : State) (a : WordAddr) : (setIa s a).levels = s.levels := rfl
@[simp] theorem setIa_entry (s : State) (a : WordAddr) : (setIa s a).entry = s.entry := rfl
@[simp] theorem setIa_watchdog (s : State) (a : WordAddr) : (setIa s a).watchdog = s.watchdog := rfl
@[simp] theorem setIa_ir (s : State) (a : WordAddr) : (setIa s a).ir = s.ir := rfl
@[simp] theorem setIa_started (s : State) (a : WordAddr) : (setIa s a).started = s.started := rfl
@[simp] theorem setIa_irAt (s : State) (a : WordAddr) : (setIa s a).irAt = s.irAt := rfl
@[simp] theorem setIa_panel (s : State) (a : WordAddr) : (setIa s a).panel = s.panel := rfl
@[simp] theorem setIa_halts (s : State) (a : WordAddr) : (setIa s a).halts = s.halts := rfl
@[simp] theorem setIa_stopPending (s : State) (a : WordAddr) : (setIa s a).stopPending = s.stopPending := rfl
@[simp] theorem setIa_memFault (s : State) (a : WordAddr) : (setIa s a).memFault = s.memFault := rfl
@[simp] theorem setIa_overTemp (s : State) (a : WordAddr) : (setIa s a).overTemp = s.overTemp := rfl
@[simp] theorem setIa_unavailable (s : State) (a : WordAddr) : (setIa s a).unavailable = s.unavailable := rfl
@[simp] theorem setIa_alarm (s : State) (a : WordAddr) : (setIa s a).alarm = s.alarm := rfl
@[simp] theorem setIa_pcf (s : State) (a : WordAddr) : (setIa s a).pcf = s.pcf := rfl
@[simp] theorem setIa_io (s : State) (a : WordAddr) : (setIa s a).io = s.io := rfl
@[simp] theorem setIa_elements (s : State) (a : WordAddr) : (setIa s a).elements = s.elements := rfl
@[simp] theorem setIa_hazard (s : State) (a : WordAddr) : (setIa s a).hazard = s.hazard := rfl
@[simp] theorem setIa_midway (s : State) (a : WordAddr) : (setIa s a).midway = s.midway := rfl
@[simp] theorem setIa_flagged (s : State) (a : WordAddr) : (setIa s a).flagged = s.flagged := rfl
@[simp] theorem setIa_draws (s : State) (a : WordAddr) : (setIa s a).draws = s.draws := rfl
@[simp] theorem setIa_inputs (s : State) (a : WordAddr) : (setIa s a).inputs = s.inputs := rfl
@[simp] theorem setIa_psd_cc1 (s : State) (a : WordAddr) : (setIa s a).psd.cc1 = s.psd.cc1 := rfl
@[simp] theorem setIa_psd_cc2 (s : State) (a : WordAddr) : (setIa s a).psd.cc2 = s.psd.cc2 := rfl
@[simp] theorem setIa_psd_cc3 (s : State) (a : WordAddr) : (setIa s a).psd.cc3 = s.psd.cc3 := rfl
@[simp] theorem setIa_psd_cc4 (s : State) (a : WordAddr) : (setIa s a).psd.cc4 = s.psd.cc4 := rfl
@[simp] theorem setIa_psd_fs (s : State) (a : WordAddr) : (setIa s a).psd.fs = s.psd.fs := rfl
@[simp] theorem setIa_psd_fz (s : State) (a : WordAddr) : (setIa s a).psd.fz = s.psd.fz := rfl
@[simp] theorem setIa_psd_fn (s : State) (a : WordAddr) : (setIa s a).psd.fn = s.psd.fn := rfl
@[simp] theorem setIa_psd_ms (s : State) (a : WordAddr) : (setIa s a).psd.ms = s.psd.ms := rfl
@[simp] theorem setIa_psd_mm (s : State) (a : WordAddr) : (setIa s a).psd.mm = s.psd.mm := rfl
@[simp] theorem setIa_psd_dm (s : State) (a : WordAddr) : (setIa s a).psd.dm = s.psd.dm := rfl
@[simp] theorem setIa_psd_am (s : State) (a : WordAddr) : (setIa s a).psd.am = s.psd.am := rfl
@[simp] theorem setIa_psd_ia (s : State) (a : WordAddr) : (setIa s a).psd.ia = a := rfl
@[simp] theorem setIa_psd_wk (s : State) (a : WordAddr) : (setIa s a).psd.wk = s.psd.wk := rfl
@[simp] theorem setIa_psd_ci (s : State) (a : WordAddr) : (setIa s a).psd.ci = s.psd.ci := rfl
@[simp] theorem setIa_psd_ii (s : State) (a : WordAddr) : (setIa s a).psd.ii = s.psd.ii := rfl
@[simp] theorem setIa_psd_ei (s : State) (a : WordAddr) : (setIa s a).psd.ei = s.psd.ei := rfl
@[simp] theorem setIa_psd_rp (s : State) (a : WordAddr) : (setIa s a).psd.rp = s.psd.rp := rfl

/-! ### `backUp` -/

@[simp] theorem backUp_cfg (s : State) : (backUp s).cfg = s.cfg := rfl
@[simp] theorem backUp_regs (s : State) : (backUp s).regs = s.regs := rfl
@[simp] theorem backUp_map (s : State) : (backUp s).map = s.map := rfl
@[simp] theorem backUp_acc (s : State) : (backUp s).acc = s.acc := rfl
@[simp] theorem backUp_lock (s : State) : (backUp s).lock = s.lock := rfl
@[simp] theorem backUp_mem (s : State) : (backUp s).mem = s.mem := rfl
@[simp] theorem backUp_levels (s : State) : (backUp s).levels = s.levels := rfl
@[simp] theorem backUp_entry (s : State) : (backUp s).entry = s.entry := rfl
@[simp] theorem backUp_watchdog (s : State) : (backUp s).watchdog = s.watchdog := rfl
@[simp] theorem backUp_ir (s : State) : (backUp s).ir = s.ir := rfl
@[simp] theorem backUp_started (s : State) : (backUp s).started = s.started := rfl
@[simp] theorem backUp_irAt (s : State) : (backUp s).irAt = s.irAt := rfl
@[simp] theorem backUp_panel (s : State) : (backUp s).panel = s.panel := rfl
@[simp] theorem backUp_halts (s : State) : (backUp s).halts = s.halts := rfl
@[simp] theorem backUp_stopPending (s : State) : (backUp s).stopPending = s.stopPending := rfl
@[simp] theorem backUp_memFault (s : State) : (backUp s).memFault = s.memFault := rfl
@[simp] theorem backUp_overTemp (s : State) : (backUp s).overTemp = s.overTemp := rfl
@[simp] theorem backUp_unavailable (s : State) : (backUp s).unavailable = s.unavailable := rfl
@[simp] theorem backUp_alarm (s : State) : (backUp s).alarm = s.alarm := rfl
@[simp] theorem backUp_pcf (s : State) : (backUp s).pcf = s.pcf := rfl
@[simp] theorem backUp_io (s : State) : (backUp s).io = s.io := rfl
@[simp] theorem backUp_elements (s : State) : (backUp s).elements = s.elements := rfl
@[simp] theorem backUp_hazard (s : State) : (backUp s).hazard = s.hazard := rfl
@[simp] theorem backUp_midway (s : State) : (backUp s).midway = s.midway := rfl
@[simp] theorem backUp_flagged (s : State) : (backUp s).flagged = s.flagged := rfl
@[simp] theorem backUp_draws (s : State) : (backUp s).draws = s.draws := rfl
@[simp] theorem backUp_inputs (s : State) : (backUp s).inputs = s.inputs := rfl
@[simp] theorem backUp_psd_cc1 (s : State) : (backUp s).psd.cc1 = s.psd.cc1 := rfl
@[simp] theorem backUp_psd_cc2 (s : State) : (backUp s).psd.cc2 = s.psd.cc2 := rfl
@[simp] theorem backUp_psd_cc3 (s : State) : (backUp s).psd.cc3 = s.psd.cc3 := rfl
@[simp] theorem backUp_psd_cc4 (s : State) : (backUp s).psd.cc4 = s.psd.cc4 := rfl
@[simp] theorem backUp_psd_fs (s : State) : (backUp s).psd.fs = s.psd.fs := rfl
@[simp] theorem backUp_psd_fz (s : State) : (backUp s).psd.fz = s.psd.fz := rfl
@[simp] theorem backUp_psd_fn (s : State) : (backUp s).psd.fn = s.psd.fn := rfl
@[simp] theorem backUp_psd_ms (s : State) : (backUp s).psd.ms = s.psd.ms := rfl
@[simp] theorem backUp_psd_mm (s : State) : (backUp s).psd.mm = s.psd.mm := rfl
@[simp] theorem backUp_psd_dm (s : State) : (backUp s).psd.dm = s.psd.dm := rfl
@[simp] theorem backUp_psd_am (s : State) : (backUp s).psd.am = s.psd.am := rfl
@[simp] theorem backUp_psd_ia (s : State) : (backUp s).psd.ia = backIa s := rfl
@[simp] theorem backUp_psd_wk (s : State) : (backUp s).psd.wk = s.psd.wk := rfl
@[simp] theorem backUp_psd_ci (s : State) : (backUp s).psd.ci = s.psd.ci := rfl
@[simp] theorem backUp_psd_ii (s : State) : (backUp s).psd.ii = s.psd.ii := rfl
@[simp] theorem backUp_psd_ei (s : State) : (backUp s).psd.ei = s.psd.ei := rfl
@[simp] theorem backUp_psd_rp (s : State) : (backUp s).psd.rp = s.psd.rp := rfl

/-! ### `draw` -/

@[simp] theorem draw_cfg (s : State) : ((draw s).2).cfg = s.cfg := rfl
@[simp] theorem draw_psd (s : State) : ((draw s).2).psd = s.psd := rfl
@[simp] theorem draw_regs (s : State) : ((draw s).2).regs = s.regs := rfl
@[simp] theorem draw_map (s : State) : ((draw s).2).map = s.map := rfl
@[simp] theorem draw_acc (s : State) : ((draw s).2).acc = s.acc := rfl
@[simp] theorem draw_lock (s : State) : ((draw s).2).lock = s.lock := rfl
@[simp] theorem draw_mem (s : State) : ((draw s).2).mem = s.mem := rfl
@[simp] theorem draw_levels (s : State) : ((draw s).2).levels = s.levels := rfl
@[simp] theorem draw_entry (s : State) : ((draw s).2).entry = s.entry := rfl
@[simp] theorem draw_watchdog (s : State) : ((draw s).2).watchdog = s.watchdog := rfl
@[simp] theorem draw_ir (s : State) : ((draw s).2).ir = s.ir := rfl
@[simp] theorem draw_started (s : State) : ((draw s).2).started = s.started := rfl
@[simp] theorem draw_irAt (s : State) : ((draw s).2).irAt = s.irAt := rfl
@[simp] theorem draw_panel (s : State) : ((draw s).2).panel = s.panel := rfl
@[simp] theorem draw_halts (s : State) : ((draw s).2).halts = s.halts := rfl
@[simp] theorem draw_stopPending (s : State) : ((draw s).2).stopPending = s.stopPending := rfl
@[simp] theorem draw_memFault (s : State) : ((draw s).2).memFault = s.memFault := rfl
@[simp] theorem draw_overTemp (s : State) : ((draw s).2).overTemp = s.overTemp := rfl
@[simp] theorem draw_unavailable (s : State) : ((draw s).2).unavailable = s.unavailable := rfl
@[simp] theorem draw_alarm (s : State) : ((draw s).2).alarm = s.alarm := rfl
@[simp] theorem draw_pcf (s : State) : ((draw s).2).pcf = s.pcf := rfl
@[simp] theorem draw_io (s : State) : ((draw s).2).io = s.io := rfl
@[simp] theorem draw_elements (s : State) : ((draw s).2).elements = s.elements := rfl
@[simp] theorem draw_hazard (s : State) : ((draw s).2).hazard = s.hazard := rfl
@[simp] theorem draw_midway (s : State) : ((draw s).2).midway = s.midway := rfl
@[simp] theorem draw_flagged (s : State) : ((draw s).2).flagged = s.flagged := rfl
@[simp] theorem draw_inputs (s : State) : ((draw s).2).inputs = s.inputs := rfl
@[simp] theorem draw_draws (s : State) : (draw s).2.draws = s.draws + 1 := rfl
@[simp] theorem draw_value (s : State) : (draw s).1 = Config.freeWord s.draws := rfl

/-! ### `setLevel` -/

@[simp] theorem setLevel_cfg (s : State) (k : Nat) (l : Level) : (setLevel s k l).cfg = s.cfg := rfl
@[simp] theorem setLevel_psd (s : State) (k : Nat) (l : Level) : (setLevel s k l).psd = s.psd := rfl
@[simp] theorem setLevel_regs (s : State) (k : Nat) (l : Level) : (setLevel s k l).regs = s.regs := rfl
@[simp] theorem setLevel_map (s : State) (k : Nat) (l : Level) : (setLevel s k l).map = s.map := rfl
@[simp] theorem setLevel_acc (s : State) (k : Nat) (l : Level) : (setLevel s k l).acc = s.acc := rfl
@[simp] theorem setLevel_lock (s : State) (k : Nat) (l : Level) : (setLevel s k l).lock = s.lock := rfl
@[simp] theorem setLevel_mem (s : State) (k : Nat) (l : Level) : (setLevel s k l).mem = s.mem := rfl
@[simp] theorem setLevel_entry (s : State) (k : Nat) (l : Level) : (setLevel s k l).entry = s.entry := rfl
@[simp] theorem setLevel_watchdog (s : State) (k : Nat) (l : Level) : (setLevel s k l).watchdog = s.watchdog := rfl
@[simp] theorem setLevel_ir (s : State) (k : Nat) (l : Level) : (setLevel s k l).ir = s.ir := rfl
@[simp] theorem setLevel_started (s : State) (k : Nat) (l : Level) : (setLevel s k l).started = s.started := rfl
@[simp] theorem setLevel_irAt (s : State) (k : Nat) (l : Level) : (setLevel s k l).irAt = s.irAt := rfl
@[simp] theorem setLevel_panel (s : State) (k : Nat) (l : Level) : (setLevel s k l).panel = s.panel := rfl
@[simp] theorem setLevel_halts (s : State) (k : Nat) (l : Level) : (setLevel s k l).halts = s.halts := rfl
@[simp] theorem setLevel_stopPending (s : State) (k : Nat) (l : Level) : (setLevel s k l).stopPending = s.stopPending := rfl
@[simp] theorem setLevel_memFault (s : State) (k : Nat) (l : Level) : (setLevel s k l).memFault = s.memFault := rfl
@[simp] theorem setLevel_overTemp (s : State) (k : Nat) (l : Level) : (setLevel s k l).overTemp = s.overTemp := rfl
@[simp] theorem setLevel_unavailable (s : State) (k : Nat) (l : Level) : (setLevel s k l).unavailable = s.unavailable := rfl
@[simp] theorem setLevel_alarm (s : State) (k : Nat) (l : Level) : (setLevel s k l).alarm = s.alarm := rfl
@[simp] theorem setLevel_pcf (s : State) (k : Nat) (l : Level) : (setLevel s k l).pcf = s.pcf := rfl
@[simp] theorem setLevel_io (s : State) (k : Nat) (l : Level) : (setLevel s k l).io = s.io := rfl
@[simp] theorem setLevel_elements (s : State) (k : Nat) (l : Level) : (setLevel s k l).elements = s.elements := rfl
@[simp] theorem setLevel_hazard (s : State) (k : Nat) (l : Level) : (setLevel s k l).hazard = s.hazard := rfl
@[simp] theorem setLevel_midway (s : State) (k : Nat) (l : Level) : (setLevel s k l).midway = s.midway := rfl
@[simp] theorem setLevel_flagged (s : State) (k : Nat) (l : Level) : (setLevel s k l).flagged = s.flagged := rfl
@[simp] theorem setLevel_draws (s : State) (k : Nat) (l : Level) : (setLevel s k l).draws = s.draws := rfl
@[simp] theorem setLevel_inputs (s : State) (k : Nat) (l : Level) : (setLevel s k l).inputs = s.inputs := rfl
@[simp] theorem setLevel_levels (s : State) (k : Nat) (l : Level) :
    (setLevel s k l).levels = s.levels.setIfInBounds k l := rfl

/-! ### `setReg` -/

@[simp] theorem setReg_cfg (s : State) (r : RegNum) (v : Word) : (setReg s r v).cfg = s.cfg := by
  unfold setReg; split <;> rfl
@[simp] theorem setReg_psd (s : State) (r : RegNum) (v : Word) : (setReg s r v).psd = s.psd := by
  unfold setReg; split <;> rfl
@[simp] theorem setReg_map (s : State) (r : RegNum) (v : Word) : (setReg s r v).map = s.map := by
  unfold setReg; split <;> rfl
@[simp] theorem setReg_acc (s : State) (r : RegNum) (v : Word) : (setReg s r v).acc = s.acc := by
  unfold setReg; split <;> rfl
@[simp] theorem setReg_lock (s : State) (r : RegNum) (v : Word) : (setReg s r v).lock = s.lock := by
  unfold setReg; split <;> rfl
@[simp] theorem setReg_mem (s : State) (r : RegNum) (v : Word) : (setReg s r v).mem = s.mem := by
  unfold setReg; split <;> rfl
@[simp] theorem setReg_levels (s : State) (r : RegNum) (v : Word) : (setReg s r v).levels = s.levels := by
  unfold setReg; split <;> rfl
@[simp] theorem setReg_entry (s : State) (r : RegNum) (v : Word) : (setReg s r v).entry = s.entry := by
  unfold setReg; split <;> rfl
@[simp] theorem setReg_watchdog (s : State) (r : RegNum) (v : Word) : (setReg s r v).watchdog = s.watchdog := by
  unfold setReg; split <;> rfl
@[simp] theorem setReg_ir (s : State) (r : RegNum) (v : Word) : (setReg s r v).ir = s.ir := by
  unfold setReg; split <;> rfl
@[simp] theorem setReg_started (s : State) (r : RegNum) (v : Word) : (setReg s r v).started = s.started := by
  unfold setReg; split <;> rfl
@[simp] theorem setReg_irAt (s : State) (r : RegNum) (v : Word) : (setReg s r v).irAt = s.irAt := by
  unfold setReg; split <;> rfl
@[simp] theorem setReg_panel (s : State) (r : RegNum) (v : Word) : (setReg s r v).panel = s.panel := by
  unfold setReg; split <;> rfl
@[simp] theorem setReg_halts (s : State) (r : RegNum) (v : Word) : (setReg s r v).halts = s.halts := by
  unfold setReg; split <;> rfl
@[simp] theorem setReg_stopPending (s : State) (r : RegNum) (v : Word) : (setReg s r v).stopPending = s.stopPending := by
  unfold setReg; split <;> rfl
@[simp] theorem setReg_memFault (s : State) (r : RegNum) (v : Word) : (setReg s r v).memFault = s.memFault := by
  unfold setReg; split <;> rfl
@[simp] theorem setReg_overTemp (s : State) (r : RegNum) (v : Word) : (setReg s r v).overTemp = s.overTemp := by
  unfold setReg; split <;> rfl
@[simp] theorem setReg_unavailable (s : State) (r : RegNum) (v : Word) : (setReg s r v).unavailable = s.unavailable := by
  unfold setReg; split <;> rfl
@[simp] theorem setReg_alarm (s : State) (r : RegNum) (v : Word) : (setReg s r v).alarm = s.alarm := by
  unfold setReg; split <;> rfl
@[simp] theorem setReg_pcf (s : State) (r : RegNum) (v : Word) : (setReg s r v).pcf = s.pcf := by
  unfold setReg; split <;> rfl
@[simp] theorem setReg_io (s : State) (r : RegNum) (v : Word) : (setReg s r v).io = s.io := by
  unfold setReg; split <;> rfl
@[simp] theorem setReg_elements (s : State) (r : RegNum) (v : Word) : (setReg s r v).elements = s.elements := by
  unfold setReg; split <;> rfl
@[simp] theorem setReg_hazard (s : State) (r : RegNum) (v : Word) : (setReg s r v).hazard = s.hazard := by
  unfold setReg; split <;> rfl
@[simp] theorem setReg_midway (s : State) (r : RegNum) (v : Word) : (setReg s r v).midway = s.midway := by
  unfold setReg; split <;> rfl
@[simp] theorem setReg_flagged (s : State) (r : RegNum) (v : Word) : (setReg s r v).flagged = s.flagged := by
  unfold setReg; split <;> rfl
@[simp] theorem setReg_draws (s : State) (r : RegNum) (v : Word) : (setReg s r v).draws = s.draws := by
  unfold setReg; split <;> rfl
@[simp] theorem setReg_inputs (s : State) (r : RegNum) (v : Word) : (setReg s r v).inputs = s.inputs := by
  unfold setReg; split <;> rfl

/-! ### `setPair` -/

@[simp] theorem setPair_cfg (s : State) (r : RegNum) (v : Double) : (setPair s r v).cfg = s.cfg := by
  simp [setPair]
@[simp] theorem setPair_psd (s : State) (r : RegNum) (v : Double) : (setPair s r v).psd = s.psd := by
  simp [setPair]
@[simp] theorem setPair_map (s : State) (r : RegNum) (v : Double) : (setPair s r v).map = s.map := by
  simp [setPair]
@[simp] theorem setPair_acc (s : State) (r : RegNum) (v : Double) : (setPair s r v).acc = s.acc := by
  simp [setPair]
@[simp] theorem setPair_lock (s : State) (r : RegNum) (v : Double) : (setPair s r v).lock = s.lock := by
  simp [setPair]
@[simp] theorem setPair_mem (s : State) (r : RegNum) (v : Double) : (setPair s r v).mem = s.mem := by
  simp [setPair]
@[simp] theorem setPair_levels (s : State) (r : RegNum) (v : Double) : (setPair s r v).levels = s.levels := by
  simp [setPair]
@[simp] theorem setPair_entry (s : State) (r : RegNum) (v : Double) : (setPair s r v).entry = s.entry := by
  simp [setPair]
@[simp] theorem setPair_watchdog (s : State) (r : RegNum) (v : Double) : (setPair s r v).watchdog = s.watchdog := by
  simp [setPair]
@[simp] theorem setPair_ir (s : State) (r : RegNum) (v : Double) : (setPair s r v).ir = s.ir := by
  simp [setPair]
@[simp] theorem setPair_started (s : State) (r : RegNum) (v : Double) : (setPair s r v).started = s.started := by
  simp [setPair]
@[simp] theorem setPair_irAt (s : State) (r : RegNum) (v : Double) : (setPair s r v).irAt = s.irAt := by
  simp [setPair]
@[simp] theorem setPair_panel (s : State) (r : RegNum) (v : Double) : (setPair s r v).panel = s.panel := by
  simp [setPair]
@[simp] theorem setPair_halts (s : State) (r : RegNum) (v : Double) : (setPair s r v).halts = s.halts := by
  simp [setPair]
@[simp] theorem setPair_stopPending (s : State) (r : RegNum) (v : Double) : (setPair s r v).stopPending = s.stopPending := by
  simp [setPair]
@[simp] theorem setPair_memFault (s : State) (r : RegNum) (v : Double) : (setPair s r v).memFault = s.memFault := by
  simp [setPair]
@[simp] theorem setPair_overTemp (s : State) (r : RegNum) (v : Double) : (setPair s r v).overTemp = s.overTemp := by
  simp [setPair]
@[simp] theorem setPair_unavailable (s : State) (r : RegNum) (v : Double) : (setPair s r v).unavailable = s.unavailable := by
  simp [setPair]
@[simp] theorem setPair_alarm (s : State) (r : RegNum) (v : Double) : (setPair s r v).alarm = s.alarm := by
  simp [setPair]
@[simp] theorem setPair_pcf (s : State) (r : RegNum) (v : Double) : (setPair s r v).pcf = s.pcf := by
  simp [setPair]
@[simp] theorem setPair_io (s : State) (r : RegNum) (v : Double) : (setPair s r v).io = s.io := by
  simp [setPair]
@[simp] theorem setPair_elements (s : State) (r : RegNum) (v : Double) : (setPair s r v).elements = s.elements := by
  simp [setPair]
@[simp] theorem setPair_hazard (s : State) (r : RegNum) (v : Double) : (setPair s r v).hazard = s.hazard := by
  simp [setPair]
@[simp] theorem setPair_midway (s : State) (r : RegNum) (v : Double) : (setPair s r v).midway = s.midway := by
  simp [setPair]
@[simp] theorem setPair_flagged (s : State) (r : RegNum) (v : Double) : (setPair s r v).flagged = s.flagged := by
  simp [setPair]
@[simp] theorem setPair_draws (s : State) (r : RegNum) (v : Double) : (setPair s r v).draws = s.draws := by
  simp [setPair]
@[simp] theorem setPair_inputs (s : State) (r : RegNum) (v : Double) : (setPair s r v).inputs = s.inputs := by
  simp [setPair]

/-! ### `locSetWord` and its halfword and byte forms -/

@[simp] theorem locSetWord_cfg (s : State) (l : Loc) (w : Word) : (locSetWord s l w).cfg = s.cfg := by
  cases l <;> simp [locSetWord]
@[simp] theorem locSetWord_psd (s : State) (l : Loc) (w : Word) : (locSetWord s l w).psd = s.psd := by
  cases l <;> simp [locSetWord]
@[simp] theorem locSetWord_map (s : State) (l : Loc) (w : Word) : (locSetWord s l w).map = s.map := by
  cases l <;> simp [locSetWord]
@[simp] theorem locSetWord_acc (s : State) (l : Loc) (w : Word) : (locSetWord s l w).acc = s.acc := by
  cases l <;> simp [locSetWord]
@[simp] theorem locSetWord_lock (s : State) (l : Loc) (w : Word) : (locSetWord s l w).lock = s.lock := by
  cases l <;> simp [locSetWord]
@[simp] theorem locSetWord_levels (s : State) (l : Loc) (w : Word) : (locSetWord s l w).levels = s.levels := by
  cases l <;> simp [locSetWord]
@[simp] theorem locSetWord_entry (s : State) (l : Loc) (w : Word) : (locSetWord s l w).entry = s.entry := by
  cases l <;> simp [locSetWord]
@[simp] theorem locSetWord_watchdog (s : State) (l : Loc) (w : Word) : (locSetWord s l w).watchdog = s.watchdog := by
  cases l <;> simp [locSetWord]
@[simp] theorem locSetWord_ir (s : State) (l : Loc) (w : Word) : (locSetWord s l w).ir = s.ir := by
  cases l <;> simp [locSetWord]
@[simp] theorem locSetWord_started (s : State) (l : Loc) (w : Word) : (locSetWord s l w).started = s.started := by
  cases l <;> simp [locSetWord]
@[simp] theorem locSetWord_irAt (s : State) (l : Loc) (w : Word) : (locSetWord s l w).irAt = s.irAt := by
  cases l <;> simp [locSetWord]
@[simp] theorem locSetWord_panel (s : State) (l : Loc) (w : Word) : (locSetWord s l w).panel = s.panel := by
  cases l <;> simp [locSetWord]
@[simp] theorem locSetWord_halts (s : State) (l : Loc) (w : Word) : (locSetWord s l w).halts = s.halts := by
  cases l <;> simp [locSetWord]
@[simp] theorem locSetWord_stopPending (s : State) (l : Loc) (w : Word) : (locSetWord s l w).stopPending = s.stopPending := by
  cases l <;> simp [locSetWord]
@[simp] theorem locSetWord_memFault (s : State) (l : Loc) (w : Word) : (locSetWord s l w).memFault = s.memFault := by
  cases l <;> simp [locSetWord]
@[simp] theorem locSetWord_overTemp (s : State) (l : Loc) (w : Word) : (locSetWord s l w).overTemp = s.overTemp := by
  cases l <;> simp [locSetWord]
@[simp] theorem locSetWord_unavailable (s : State) (l : Loc) (w : Word) : (locSetWord s l w).unavailable = s.unavailable := by
  cases l <;> simp [locSetWord]
@[simp] theorem locSetWord_alarm (s : State) (l : Loc) (w : Word) : (locSetWord s l w).alarm = s.alarm := by
  cases l <;> simp [locSetWord]
@[simp] theorem locSetWord_pcf (s : State) (l : Loc) (w : Word) : (locSetWord s l w).pcf = s.pcf := by
  cases l <;> simp [locSetWord]
@[simp] theorem locSetWord_io (s : State) (l : Loc) (w : Word) : (locSetWord s l w).io = s.io := by
  cases l <;> simp [locSetWord]
@[simp] theorem locSetWord_elements (s : State) (l : Loc) (w : Word) : (locSetWord s l w).elements = s.elements := by
  cases l <;> simp [locSetWord]
@[simp] theorem locSetWord_hazard (s : State) (l : Loc) (w : Word) : (locSetWord s l w).hazard = s.hazard := by
  cases l <;> simp [locSetWord]
@[simp] theorem locSetWord_midway (s : State) (l : Loc) (w : Word) : (locSetWord s l w).midway = s.midway := by
  cases l <;> simp [locSetWord]
@[simp] theorem locSetWord_flagged (s : State) (l : Loc) (w : Word) : (locSetWord s l w).flagged = s.flagged := by
  cases l <;> simp [locSetWord]
@[simp] theorem locSetWord_draws (s : State) (l : Loc) (w : Word) : (locSetWord s l w).draws = s.draws := by
  cases l <;> simp [locSetWord]
@[simp] theorem locSetWord_inputs (s : State) (l : Loc) (w : Word) : (locSetWord s l w).inputs = s.inputs := by
  cases l <;> simp [locSetWord]
@[simp] theorem locSetHalf_cfg (s : State) (l : Loc) (k : Bool) (h : Half) : (locSetHalf s l k h).cfg = s.cfg := by
  cases l <;> simp [locSetHalf]
@[simp] theorem locSetHalf_psd (s : State) (l : Loc) (k : Bool) (h : Half) : (locSetHalf s l k h).psd = s.psd := by
  cases l <;> simp [locSetHalf]
@[simp] theorem locSetHalf_map (s : State) (l : Loc) (k : Bool) (h : Half) : (locSetHalf s l k h).map = s.map := by
  cases l <;> simp [locSetHalf]
@[simp] theorem locSetHalf_acc (s : State) (l : Loc) (k : Bool) (h : Half) : (locSetHalf s l k h).acc = s.acc := by
  cases l <;> simp [locSetHalf]
@[simp] theorem locSetHalf_lock (s : State) (l : Loc) (k : Bool) (h : Half) : (locSetHalf s l k h).lock = s.lock := by
  cases l <;> simp [locSetHalf]
@[simp] theorem locSetHalf_levels (s : State) (l : Loc) (k : Bool) (h : Half) : (locSetHalf s l k h).levels = s.levels := by
  cases l <;> simp [locSetHalf]
@[simp] theorem locSetHalf_entry (s : State) (l : Loc) (k : Bool) (h : Half) : (locSetHalf s l k h).entry = s.entry := by
  cases l <;> simp [locSetHalf]
@[simp] theorem locSetHalf_watchdog (s : State) (l : Loc) (k : Bool) (h : Half) : (locSetHalf s l k h).watchdog = s.watchdog := by
  cases l <;> simp [locSetHalf]
@[simp] theorem locSetHalf_ir (s : State) (l : Loc) (k : Bool) (h : Half) : (locSetHalf s l k h).ir = s.ir := by
  cases l <;> simp [locSetHalf]
@[simp] theorem locSetHalf_started (s : State) (l : Loc) (k : Bool) (h : Half) : (locSetHalf s l k h).started = s.started := by
  cases l <;> simp [locSetHalf]
@[simp] theorem locSetHalf_irAt (s : State) (l : Loc) (k : Bool) (h : Half) : (locSetHalf s l k h).irAt = s.irAt := by
  cases l <;> simp [locSetHalf]
@[simp] theorem locSetHalf_panel (s : State) (l : Loc) (k : Bool) (h : Half) : (locSetHalf s l k h).panel = s.panel := by
  cases l <;> simp [locSetHalf]
@[simp] theorem locSetHalf_halts (s : State) (l : Loc) (k : Bool) (h : Half) : (locSetHalf s l k h).halts = s.halts := by
  cases l <;> simp [locSetHalf]
@[simp] theorem locSetHalf_stopPending (s : State) (l : Loc) (k : Bool) (h : Half) : (locSetHalf s l k h).stopPending = s.stopPending := by
  cases l <;> simp [locSetHalf]
@[simp] theorem locSetHalf_memFault (s : State) (l : Loc) (k : Bool) (h : Half) : (locSetHalf s l k h).memFault = s.memFault := by
  cases l <;> simp [locSetHalf]
@[simp] theorem locSetHalf_overTemp (s : State) (l : Loc) (k : Bool) (h : Half) : (locSetHalf s l k h).overTemp = s.overTemp := by
  cases l <;> simp [locSetHalf]
@[simp] theorem locSetHalf_unavailable (s : State) (l : Loc) (k : Bool) (h : Half) : (locSetHalf s l k h).unavailable = s.unavailable := by
  cases l <;> simp [locSetHalf]
@[simp] theorem locSetHalf_alarm (s : State) (l : Loc) (k : Bool) (h : Half) : (locSetHalf s l k h).alarm = s.alarm := by
  cases l <;> simp [locSetHalf]
@[simp] theorem locSetHalf_pcf (s : State) (l : Loc) (k : Bool) (h : Half) : (locSetHalf s l k h).pcf = s.pcf := by
  cases l <;> simp [locSetHalf]
@[simp] theorem locSetHalf_io (s : State) (l : Loc) (k : Bool) (h : Half) : (locSetHalf s l k h).io = s.io := by
  cases l <;> simp [locSetHalf]
@[simp] theorem locSetHalf_elements (s : State) (l : Loc) (k : Bool) (h : Half) : (locSetHalf s l k h).elements = s.elements := by
  cases l <;> simp [locSetHalf]
@[simp] theorem locSetHalf_hazard (s : State) (l : Loc) (k : Bool) (h : Half) : (locSetHalf s l k h).hazard = s.hazard := by
  cases l <;> simp [locSetHalf]
@[simp] theorem locSetHalf_midway (s : State) (l : Loc) (k : Bool) (h : Half) : (locSetHalf s l k h).midway = s.midway := by
  cases l <;> simp [locSetHalf]
@[simp] theorem locSetHalf_flagged (s : State) (l : Loc) (k : Bool) (h : Half) : (locSetHalf s l k h).flagged = s.flagged := by
  cases l <;> simp [locSetHalf]
@[simp] theorem locSetHalf_draws (s : State) (l : Loc) (k : Bool) (h : Half) : (locSetHalf s l k h).draws = s.draws := by
  cases l <;> simp [locSetHalf]
@[simp] theorem locSetHalf_inputs (s : State) (l : Loc) (k : Bool) (h : Half) : (locSetHalf s l k h).inputs = s.inputs := by
  cases l <;> simp [locSetHalf]
@[simp] theorem locSetByte_cfg (s : State) (l : Loc) (k : BitVec 2) (b : Byte) : (locSetByte s l k b).cfg = s.cfg := by
  cases l <;> simp [locSetByte]
@[simp] theorem locSetByte_psd (s : State) (l : Loc) (k : BitVec 2) (b : Byte) : (locSetByte s l k b).psd = s.psd := by
  cases l <;> simp [locSetByte]
@[simp] theorem locSetByte_map (s : State) (l : Loc) (k : BitVec 2) (b : Byte) : (locSetByte s l k b).map = s.map := by
  cases l <;> simp [locSetByte]
@[simp] theorem locSetByte_acc (s : State) (l : Loc) (k : BitVec 2) (b : Byte) : (locSetByte s l k b).acc = s.acc := by
  cases l <;> simp [locSetByte]
@[simp] theorem locSetByte_lock (s : State) (l : Loc) (k : BitVec 2) (b : Byte) : (locSetByte s l k b).lock = s.lock := by
  cases l <;> simp [locSetByte]
@[simp] theorem locSetByte_levels (s : State) (l : Loc) (k : BitVec 2) (b : Byte) : (locSetByte s l k b).levels = s.levels := by
  cases l <;> simp [locSetByte]
@[simp] theorem locSetByte_entry (s : State) (l : Loc) (k : BitVec 2) (b : Byte) : (locSetByte s l k b).entry = s.entry := by
  cases l <;> simp [locSetByte]
@[simp] theorem locSetByte_watchdog (s : State) (l : Loc) (k : BitVec 2) (b : Byte) : (locSetByte s l k b).watchdog = s.watchdog := by
  cases l <;> simp [locSetByte]
@[simp] theorem locSetByte_ir (s : State) (l : Loc) (k : BitVec 2) (b : Byte) : (locSetByte s l k b).ir = s.ir := by
  cases l <;> simp [locSetByte]
@[simp] theorem locSetByte_started (s : State) (l : Loc) (k : BitVec 2) (b : Byte) : (locSetByte s l k b).started = s.started := by
  cases l <;> simp [locSetByte]
@[simp] theorem locSetByte_irAt (s : State) (l : Loc) (k : BitVec 2) (b : Byte) : (locSetByte s l k b).irAt = s.irAt := by
  cases l <;> simp [locSetByte]
@[simp] theorem locSetByte_panel (s : State) (l : Loc) (k : BitVec 2) (b : Byte) : (locSetByte s l k b).panel = s.panel := by
  cases l <;> simp [locSetByte]
@[simp] theorem locSetByte_halts (s : State) (l : Loc) (k : BitVec 2) (b : Byte) : (locSetByte s l k b).halts = s.halts := by
  cases l <;> simp [locSetByte]
@[simp] theorem locSetByte_stopPending (s : State) (l : Loc) (k : BitVec 2) (b : Byte) : (locSetByte s l k b).stopPending = s.stopPending := by
  cases l <;> simp [locSetByte]
@[simp] theorem locSetByte_memFault (s : State) (l : Loc) (k : BitVec 2) (b : Byte) : (locSetByte s l k b).memFault = s.memFault := by
  cases l <;> simp [locSetByte]
@[simp] theorem locSetByte_overTemp (s : State) (l : Loc) (k : BitVec 2) (b : Byte) : (locSetByte s l k b).overTemp = s.overTemp := by
  cases l <;> simp [locSetByte]
@[simp] theorem locSetByte_unavailable (s : State) (l : Loc) (k : BitVec 2) (b : Byte) : (locSetByte s l k b).unavailable = s.unavailable := by
  cases l <;> simp [locSetByte]
@[simp] theorem locSetByte_alarm (s : State) (l : Loc) (k : BitVec 2) (b : Byte) : (locSetByte s l k b).alarm = s.alarm := by
  cases l <;> simp [locSetByte]
@[simp] theorem locSetByte_pcf (s : State) (l : Loc) (k : BitVec 2) (b : Byte) : (locSetByte s l k b).pcf = s.pcf := by
  cases l <;> simp [locSetByte]
@[simp] theorem locSetByte_io (s : State) (l : Loc) (k : BitVec 2) (b : Byte) : (locSetByte s l k b).io = s.io := by
  cases l <;> simp [locSetByte]
@[simp] theorem locSetByte_elements (s : State) (l : Loc) (k : BitVec 2) (b : Byte) : (locSetByte s l k b).elements = s.elements := by
  cases l <;> simp [locSetByte]
@[simp] theorem locSetByte_hazard (s : State) (l : Loc) (k : BitVec 2) (b : Byte) : (locSetByte s l k b).hazard = s.hazard := by
  cases l <;> simp [locSetByte]
@[simp] theorem locSetByte_midway (s : State) (l : Loc) (k : BitVec 2) (b : Byte) : (locSetByte s l k b).midway = s.midway := by
  cases l <;> simp [locSetByte]
@[simp] theorem locSetByte_flagged (s : State) (l : Loc) (k : BitVec 2) (b : Byte) : (locSetByte s l k b).flagged = s.flagged := by
  cases l <;> simp [locSetByte]
@[simp] theorem locSetByte_draws (s : State) (l : Loc) (k : BitVec 2) (b : Byte) : (locSetByte s l k b).draws = s.draws := by
  cases l <;> simp [locSetByte]
@[simp] theorem locSetByte_inputs (s : State) (l : Loc) (k : BitVec 2) (b : Byte) : (locSetByte s l k b).inputs = s.inputs := by
  cases l <;> simp [locSetByte]

/-! ### The condition code -/

@[simp] theorem ccBits_setCc (s : State) (c : BitVec 4) : ccBits (setCc s c).psd = c := by
  revert c; simp only [ccBits, setCc]; decide

theorem ccBits_setCc34 (b c : Bool) (s : State) :
    ccBits (setCc34 b c s).psd =
      BitVec.ofBool s.psd.cc1 ++ BitVec.ofBool s.psd.cc2 ++ BitVec.ofBool b ++ BitVec.ofBool c := rfl

theorem ccBits_setCc12 (b c : Bool) (s : State) :
    ccBits (setCc12 b c s).psd =
      BitVec.ofBool b ++ BitVec.ofBool c ++ BitVec.ofBool s.psd.cc3 ++ BitVec.ofBool s.psd.cc4 := rfl

theorem test34_eq {n : Nat} (v : BitVec n) (s : State) : test34 v s = setCc34 (v != 0 && !v.msb) v.msb s := rfl

theorem testNonzero_eq {n : Nat} (v : BitVec n) (s : State) : testNonzero v s = setCc34 (v != 0) false s := rfl

/-- Two states are equal when their condition codes differ only by what `setCc` writes. -/
theorem setCc_ccBits (s : State) : setCc s (ccBits s.psd) = s := by
  have h : ∀ a b c d : Bool,
      (BitVec.ofBool a ++ BitVec.ofBool b ++ BitVec.ofBool c ++ BitVec.ofBool d).getMsbD 0 = a ∧
      (BitVec.ofBool a ++ BitVec.ofBool b ++ BitVec.ofBool c ++ BitVec.ofBool d).getMsbD 1 = b ∧
      (BitVec.ofBool a ++ BitVec.ofBool b ++ BitVec.ofBool c ++ BitVec.ofBool d).getMsbD 2 = c ∧
      (BitVec.ofBool a ++ BitVec.ofBool b ++ BitVec.ofBool c ++ BitVec.ofBool d).getMsbD 3 = d := by decide
  obtain ⟨h0, h1, h2, h3⟩ := h s.psd.cc1 s.psd.cc2 s.psd.cc3 s.psd.cc4
  simp only [setCc, ccBits, h0, h1, h2, h3]

end Sys2Proof.Machine
end

