-- ==== Sys2Proof/Laws/Memory.lean ====
section
/-! SUPPORT. Core memory: reading after writing, and the canonical form that every write keeps. -/

namespace Sys2Proof.Machine

open Sys2Proof

/-! ### Reading after writing -/

theorem memByte_filter (m : List Host.Cell) (a b : Nat) :
    memByte (m.filter (fun c => c.1 != a)) b = if b = a then 0 else memByte m b := by
  induction m with
  | nil => simp [memByte]
  | cons c rest ih =>
    by_cases hc : c.1 = a
    · by_cases hb : b = a
      · subst hb; simpa [hc] using ih
      · have h : ¬ c.1 = b := fun h => hb (by rw [← h, hc])
        simp [hc, hb, ih, memByte]
        intro h2; exact absurd h2.symm hb
    · by_cases hb : b = a
      · subst hb; simp [hc, ih, memByte]
      · simp [hc, ih, memByte, hb]

theorem memByte_memInsert (m : List Host.Cell) (a b : Nat) (v : Byte) (h : ∀ c ∈ m, c.1 ≠ a) :
    memByte (memInsert m a v) b = if b = a then v else memByte m b := by
  induction m with
  | nil => simp [memInsert, memByte, eq_comm]
  | cons c rest ih =>
    have hc : c.1 ≠ a := h c (by simp)
    have hr := ih (fun d hd => h d (by simp [hd]))
    unfold memInsert
    split
    · by_cases hb : b = a
      · subst hb; simp [memByte, hc, hr]
      · simp [memByte, hr, hb]
    · by_cases hb : b = a
      · subst hb; simp [memByte]
      · simp [memByte, hb, Ne.symm hb]

/-- A byte read after a store: the byte stored, or what was there. -/
theorem memByte_memPut (m : List Host.Cell) (a b : Nat) (v : Byte) :
    memByte (memPut m a v) b = if b = a then v else memByte m b := by
  unfold memPut
  split
  · rename_i h; rw [memByte_filter, h]
  · rw [memByte_memInsert _ _ _ _ (by simp), memByte_filter]
    split <;> rfl

@[simp] theorem memByte_memPut_same (m : List Host.Cell) (a : Nat) (v : Byte) : memByte (memPut m a v) a = v := by
  simp [memByte_memPut]

theorem memByte_memPut_other (m : List Host.Cell) (a b : Nat) (v : Byte) (h : b ≠ a) :
    memByte (memPut m a v) b = memByte m b := by
  simp [memByte_memPut, h]

/-- Byte `k` of the word, 0 the most significant. -/
def wordByte (w : Word) (k : Nat) : Byte := fld w (8 * k) 8

/-- A byte read after a word has been stored: its byte of the word, or what was there. -/
theorem memByte_coreSetWord (m : List Host.Cell) (a : WordAddr) (w : Word) (b : Nat) :
    memByte (coreSetWord m a w) b = if b / 4 = a.toNat then wordByte w (b % 4) else memByte m b := by
  unfold coreSetWord
  simp only [memByte_memPut]
  by_cases h : b / 4 = a.toNat
  · have hb : b = 4 * a.toNat + b % 4 := by omega
    have h4 : b % 4 < 4 := Nat.mod_lt _ (by omega)
    simp only [h, if_true]
    generalize b % 4 = k at *
    subst hb
    have hk : k = 0 ∨ k = 1 ∨ k = 2 ∨ k = 3 := by omega
    rcases hk with rfl | rfl | rfl | rfl <;> simp [wordByte]
  · have h0 : b ≠ 4 * a.toNat := by omega
    have h1 : b ≠ 4 * a.toNat + 1 := by omega
    have h2 : b ≠ 4 * a.toNat + 2 := by omega
    have h3 : b ≠ 4 * a.toNat + 3 := by omega
    simp [h, h0, h1, h2, h3]

theorem word_of_bytes (w : Word) : fld w 0 8 ++ fld w 8 8 ++ fld w 16 8 ++ fld w 24 8 = w := by
  unfold fld
  apply BitVec.eq_of_getLsbD_eq
  intro i hi
  simp only [BitVec.getLsbD_append, BitVec.getLsbD_extractLsb']
  rcases Nat.lt_or_ge i 8 with h | h
  · simp [h]
  · rcases Nat.lt_or_ge i 16 with h2 | h2
    · have : ¬ i < 8 := by omega
      have h3 : i - 8 < 8 := by omega
      simp [this, h3, show 8 + (i - 8) = i by omega]
    · rcases Nat.lt_or_ge i 24 with h3 | h3
      · have a1 : ¬ i < 8 := by omega
        have a2 : ¬ i - 8 < 8 := by omega
        have a3 : i - 8 - 8 < 8 := by omega
        simp [a1, a2, a3, show 16 + (i - 8 - 8) = i by omega]
      · have a1 : ¬ i < 8 := by omega
        have a2 : ¬ i - 8 < 8 := by omega
        have a3 : ¬ i - 8 - 8 < 8 := by omega
        have a4 : i - 8 - 8 - 8 < 8 := by omega
        simp [a1, a2, a3, a4, show 24 + (i - 8 - 8 - 8) = i by omega]

/-- A word read after a word has been stored. -/
theorem coreWord_coreSetWord (m : List Host.Cell) (a b : WordAddr) (w : Word) :
    coreWord (coreSetWord m a w) b = if b = a then w else coreWord m b := by
  unfold coreWord
  simp only [memByte_coreSetWord]
  have e0 : 4 * b.toNat / 4 = b.toNat := by omega
  have e1 : (4 * b.toNat + 1) / 4 = b.toNat := by omega
  have e2 : (4 * b.toNat + 2) / 4 = b.toNat := by omega
  have e3 : (4 * b.toNat + 3) / 4 = b.toNat := by omega
  have m0 : 4 * b.toNat % 4 = 0 := by omega
  have m1 : (4 * b.toNat + 1) % 4 = 1 := by omega
  have m2 : (4 * b.toNat + 2) % 4 = 2 := by omega
  have m3 : (4 * b.toNat + 3) % 4 = 3 := by omega
  simp only [e0, e1, e2, e3, m0, m1, m2, m3]
  by_cases h : b = a
  · subst h; simp only [if_true]; exact word_of_bytes w
  · have hn : ¬ b.toNat = a.toNat := fun h2 => h (BitVec.eq_of_toNat_eq h2)
    simp [h, hn]

/-! ### The canonical form -/

theorem wf_iff (m : List Host.Cell) :
    Memory.wf m = true ↔ m.Pairwise (fun c d => c.1 < d.1) ∧ ∀ c ∈ m, c.2 ≠ 0 := by
  simp [Memory.wf]

theorem mem_memInsert (m : List Host.Cell) (a : Nat) (v : Byte) (c : Host.Cell) :
    c ∈ memInsert m a v ↔ c = (a, v) ∨ c ∈ m := by
  induction m with
  | nil => simp [memInsert]
  | cons d rest ih =>
    unfold memInsert
    split
    · simp only [List.mem_cons, ih]; tauto
    · simp only [List.mem_cons]

theorem pairwise_memInsert (m : List Host.Cell) (a : Nat) (v : Byte) (h : ∀ c ∈ m, c.1 ≠ a)
    (hp : m.Pairwise (fun c d => c.1 < d.1)) : (memInsert m a v).Pairwise (fun c d => c.1 < d.1) := by
  induction m with
  | nil => simp [memInsert]
  | cons d rest ih =>
    have hd : d.1 ≠ a := h d (by simp)
    rw [List.pairwise_cons] at hp
    unfold memInsert
    split
    · rename_i hlt
      rw [List.pairwise_cons]
      refine ⟨fun c hc => ?_, ih (fun c hc => h c (by simp [hc])) hp.2⟩
      rcases (mem_memInsert rest a v c).1 hc with rfl | hc
      · exact hlt
      · exact hp.1 c hc
    · rename_i hge
      have had : a < d.1 := by omega
      rw [List.pairwise_cons, List.pairwise_cons]
      refine ⟨fun c hc => ?_, hp⟩
      rcases List.mem_cons.1 hc with rfl | hc
      · exact had
      · exact Nat.lt_trans had (hp.1 c hc)

/-- A store keeps the canonical form. -/
theorem wf_memPut (m : List Host.Cell) (a : Nat) (v : Byte) (h : Memory.wf m = true) :
    Memory.wf (memPut m a v) = true := by
  rw [wf_iff] at h ⊢
  have hf : (m.filter (fun c => c.1 != a)).Pairwise (fun c d => c.1 < d.1) := h.1.filter _
  have hz : ∀ c ∈ m.filter (fun c => c.1 != a), c.2 ≠ 0 := fun c hc => h.2 c (List.mem_filter.1 hc).1
  unfold memPut
  split
  · exact ⟨hf, hz⟩
  · rename_i hv
    refine ⟨pairwise_memInsert _ _ _ (by simp) hf, fun c hc => ?_⟩
    rcases (mem_memInsert _ a v c).1 hc with rfl | hc
    · exact hv
    · exact hz c hc

/-- A word store keeps the canonical form. -/
theorem wf_coreSetWord (m : List Host.Cell) (a : WordAddr) (w : Word) (h : Memory.wf m = true) :
    Memory.wf (coreSetWord m a w) = true := by
  unfold coreSetWord
  exact wf_memPut _ _ _ (wf_memPut _ _ _ (wf_memPut _ _ _ (wf_memPut _ _ _ h)))

/-- The empty memory has the canonical form. -/
theorem wf_nil : Memory.wf [] = true := rfl

/-- Two memories in canonical form with the same bytes are equal: equal memories are equal data. -/
theorem memory_ext (m n : List Host.Cell) (hm : Memory.wf m = true) (hn : Memory.wf n = true)
    (h : ∀ a, memByte m a = memByte n a) : m = n := by
  rw [wf_iff] at hm hn
  have low : ∀ (l : List Host.Cell) (a : Nat), (∀ c ∈ l, a < c.1) → memByte l a = 0 := by
    intro l a hl
    induction l with
    | nil => rfl
    | cons c rest ih =>
      have h1 : ¬ c.1 = a := by have := hl c (by simp); omega
      simp [memByte, h1, ih (fun d hd => hl d (by simp [hd]))]
  induction m generalizing n with
  | nil =>
    cases n with
    | nil => rfl
    | cons d rest =>
      have h1 := h d.1
      simp [memByte] at h1
      exact absurd h1.symm (hn.2 d (by simp))
  | cons c rest ih =>
    cases n with
    | nil =>
      have h1 := h c.1
      simp [memByte] at h1
      exact absurd h1 (hm.2 c (by simp))
    | cons d rest' =>
      have pm := List.pairwise_cons.1 hm.1
      have pn := List.pairwise_cons.1 hn.1
      have hcd : c.1 = d.1 := by
        rcases Nat.lt_trichotomy c.1 d.1 with hlt | heq | hgt
        · have h1 := h c.1
          have h2 : memByte (d :: rest') c.1 = 0 := low _ _ (fun e he => by
            rcases List.mem_cons.1 he with rfl | he
            · exact hlt
            · exact Nat.lt_trans hlt (pn.1 e he))
          rw [h2] at h1
          simp [memByte] at h1
          exact absurd h1 (hm.2 c (by simp))
        · exact heq
        · have h1 := h d.1
          have h2 : memByte (c :: rest) d.1 = 0 := low _ _ (fun e he => by
            rcases List.mem_cons.1 he with rfl | he
            · exact hgt
            · exact Nat.lt_trans hgt (pm.1 e he))
          rw [h2] at h1
          simp [memByte] at h1
          exact absurd h1.symm (hn.2 d (by simp))
      have hv : c.2 = d.2 := by
        have h1 := h c.1
        simpa [memByte, hcd] using h1
      have hrest : rest = rest' := by
        apply ih _ ⟨pm.2, fun e he => hm.2 e (by simp [he])⟩ ⟨pn.2, fun e he => hn.2 e (by simp [he])⟩
        intro a
        by_cases ha : a = c.1
        · subst ha
          rw [low rest c.1 pm.1, low rest' c.1 (fun e he => by have := pn.1 e he; omega)]
        · have h1 := h a
          have h3 : ¬ c.1 = a := fun h => ha h.symm
          have h4 : ¬ d.1 = a := fun h => ha (by rw [hcd, h])
          simpa [memByte, h3, h4] using h1
      rw [show c = d from Prod.ext hcd hv, hrest]

end Sys2Proof.Machine
end

