-- ==== Sys2Proof/Laws/Registers.lean ====
section
/-! SUPPORT. The general registers: reading after writing, and what no other update changes. -/

namespace Sys2Proof.Machine

open Sys2Proof

@[simp] theorem blockInstalled_setReg (s : State) (r : RegNum) (v : Word) :
    blockInstalled (setReg s r v) = blockInstalled s := by
  simp [blockInstalled]

/-- A register's place in the file: sixteen times the block, plus its number. -/
theorem blockIndex_eq (b : BitVec 5) (k : RegNum) : (b ++ k).toNat = b.toNat * 16 + k.toNat := by
  rw [BitVec.toNat_append, ← Nat.shiftLeft_add_eq_or_of_lt k.isLt, Nat.shiftLeft_eq]

theorem blockIndex_ne (b : BitVec 5) (j k : RegNum) (h : j ≠ k) : (b ++ j).toNat ≠ (b ++ k).toNat := by
  rw [blockIndex_eq, blockIndex_eq]
  intro e
  exact h (BitVec.eq_of_toNat_eq (by omega))

/-- A register read after a write to a register: the value written, if the block is installed, or what was there. -/
theorem getReg_setReg (s : State) (r k : RegNum) (v : Word) :
    getReg (setReg s r v) k = if k = r ∧ blockInstalled s = true then v else getReg s k := by
  by_cases hb : blockInstalled s = true
  · have h1 : getReg (setReg s r v) k =
        (s.regs.set (s.psd.rp ++ r).toNat v (BitVec.isLt _))[(s.psd.rp ++ k).toNat]'(BitVec.isLt _) := by
      simp only [getReg, blockInstalled_setReg, hb, if_true]
      simp only [setReg, hb, if_true]
    rw [h1]
    by_cases hk : k = r
    · subst hk; simp [hb]
    · have hne := blockIndex_ne s.psd.rp r k (fun h => hk h.symm)
      rw [Vector.getElem_set_ne (h := hne)]
      simp [hk, getReg, hb]
  · have h1 : setReg s r v = s := by simp [setReg, hb]
    simp [h1, hb]

theorem getReg_setReg_same (s : State) (r : RegNum) (v : Word) (h : blockInstalled s = true) :
    getReg (setReg s r v) r = v := by
  simp [getReg_setReg, h]

theorem getReg_setReg_other (s : State) (r k : RegNum) (v : Word) (h : k ≠ r) :
    getReg (setReg s r v) k = getReg s k := by
  simp [getReg_setReg, h]

/-- A register depends on the register file, RP and the installation alone. -/
theorem getReg_congr {s t : State} (k : RegNum) (hr : t.regs = s.regs) (hp : t.psd.rp = s.psd.rp) (hc : t.cfg = s.cfg) :
    getReg t k = getReg s k := by
  have hb : blockInstalled t = blockInstalled s := by simp only [blockInstalled, hp, hc]
  unfold getReg
  rw [hb, hc]
  congr 1
  simp only [hr, hp]

theorem blockInstalled_congr {s t : State} (hp : t.psd.rp = s.psd.rp) (hc : t.cfg = s.cfg) :
    blockInstalled t = blockInstalled s := by
  simp only [blockInstalled, hp, hc]

/-- Registers of other blocks are not written. -/
theorem regs_setReg_other (s : State) (r : RegNum) (v : Word) (n : Fin 512) (h : n.val / 16 ≠ s.psd.rp.toNat) :
    (setReg s r v).regs[n] = s.regs[n] := by
  unfold setReg
  split
  · have hne : (s.psd.rp ++ r).toNat ≠ n.val := by
      intro e
      apply h
      rw [← e, blockIndex_eq]
      have := r.isLt
      omega
    exact Vector.getElem_set_ne (BitVec.isLt _) n.isLt hne
  · rfl

/-- A register update that a later update of another field does not see. -/
@[simp] theorem getReg_setCc (s : State) (c : BitVec 4) (k : RegNum) : getReg (setCc s c) k = getReg s k := rfl
@[simp] theorem getReg_setCc1 (b : Bool) (s : State) (k : RegNum) : getReg (setCc1 b s) k = getReg s k := rfl
@[simp] theorem getReg_setCc2 (b : Bool) (s : State) (k : RegNum) : getReg (setCc2 b s) k = getReg s k := rfl
@[simp] theorem getReg_setCc12 (b c : Bool) (s : State) (k : RegNum) : getReg (setCc12 b c s) k = getReg s k := rfl
@[simp] theorem getReg_setCc34 (b c : Bool) (s : State) (k : RegNum) : getReg (setCc34 b c s) k = getReg s k := rfl
@[simp] theorem getReg_setFloatMode (s : State) (f : BitVec 3) (k : RegNum) :
    getReg (setFloatMode s f) k = getReg s k := rfl
@[simp] theorem getReg_setIa (s : State) (a : WordAddr) (k : RegNum) : getReg (setIa s a) k = getReg s k := rfl
@[simp] theorem getReg_backUp (s : State) (k : RegNum) : getReg (backUp s) k = getReg s k := rfl
@[simp] theorem getReg_draw (s : State) (k : RegNum) : getReg (draw s).2 k = getReg s k := rfl
@[simp] theorem getReg_setLevel (s : State) (n : Nat) (l : Level) (k : RegNum) :
    getReg (setLevel s n l) k = getReg s k := rfl
@[simp] theorem blockInstalled_draw (s : State) : blockInstalled (draw s).2 = blockInstalled s := rfl

/-- The pair after it has been loaded: R has the high-order word, Ru1 the low-order one when it is another register. -/
theorem getReg_setPair (s : State) (r k : RegNum) (d : Double) :
    getReg (setPair s r d) k =
      if blockInstalled s = true then (if k = r then hiWord d else if k = ru1 r then loWord d else getReg s k)
      else getReg s k := by
  by_cases hb : blockInstalled s = true <;> by_cases h1 : k = r <;> by_cases h2 : k = ru1 r <;>
    simp [setPair, getReg_setReg, hb, h1, h2]

end Sys2Proof.Machine
end

