-- ==== Sys2Proof/Laws/Ops.lean ====
section
/-! SUPPORT. What each shared operation can do, said once: sequencing, locating, reading, storing, taking a trap. -/

namespace Sys2Proof.Machine

open Sys2Proof

/-! ### Sequencing -/

@[simp] theorem ok_bind {α β : Type} (a : α) (f : α → Except Stop β) : (Except.ok a >>= f) = f a := rfl
@[simp] theorem error_bind {α β : Type} (e : Stop) (f : α → Except Stop β) :
    ((Except.error e : Except Stop α) >>= f) = .error e := rfl

/-- A sequence that answers a value has gone through both its parts. -/
theorem bind_eq_ok {α β : Type} {x : Except Stop α} {f : α → Except Stop β} {b : β} :
    (x >>= f) = .ok b ↔ ∃ a, x = .ok a ∧ f a = .ok b := by
  cases x <;> simp

/-- A sequence that stops has stopped in one of its parts. -/
theorem bind_eq_error {α β : Type} {x : Except Stop α} {f : α → Except Stop β} {e : Stop} :
    (x >>= f) = .error e ↔ x = .error e ∨ ∃ a, x = .ok a ∧ f a = .error e := by
  cases x <;> simp

@[simp] theorem finish_ok (s : State) : finish (.ok s) = .next s := rfl
@[simp] theorem finish_trap (c : TrapCause) (s : State) : finish (.error (.trap c s)) = takeTrap c s := rfl
@[simp] theorem finish_fault (f : Fault) : finish (.error (.fault f)) = .fault f := rfl
@[simp] theorem finish_refuse (r : Refusal) : finish (.error (.refuse r)) = .refused r := rfl

/-- What a next state of a meaning comes from: its own, or the trap it raises. -/
theorem finish_eq_next {x : Except Stop State} {t : State} (h : finish x = .next t) :
    x = .ok t ∨ ∃ c u, x = .error (.trap c u) ∧ takeTrap c u = .next t := by
  match x, h with
  | .ok s, h => exact .inl (by simpa using h)
  | .error (.trap c u), h => exact .inr ⟨c, u, rfl, h⟩

@[simp] theorem requireMaster_master {s : State} (h : s.psd.ms = false) : requireMaster s = .ok () := by
  simp [requireMaster, h]
@[simp] theorem requireMaster_slave {s : State} (h : s.psd.ms = true) :
    requireMaster s = .error (.trap (.nonallowed 2) s) := by simp [requireMaster, h]
@[simp] theorem requireOption_true (s : State) : requireOption true s = .ok () := rfl
@[simp] theorem requireOption_false (s : State) : requireOption false s = .error (.trap .unimplemented s) := rfl
@[simp] theorem overflowTrap_false (s : State) : overflowTrap false s = .ok s := rfl
theorem overflowTrap_ok {b : Bool} {s : State} (h : b = true → s.psd.am = false) : overflowTrap b s = .ok s := by
  cases b <;> simp_all [overflowTrap]
theorem overflowTrap_trap {s : State} (h : s.psd.am = true) :
    overflowTrap true s = .error (.trap .overflow s) := by simp [overflowTrap, h]

/-! ### What locating a reference depends on -/

/-- The two states agree on all that translation and protection depend on. -/
structure SameMapping (s t : State) : Prop where
  cfg : t.cfg = s.cfg
  map : t.map = s.map
  acc : t.acc = s.acc
  lock : t.lock = s.lock
  ms : t.psd.ms = s.psd.ms
  mm : t.psd.mm = s.psd.mm
  wk : t.psd.wk = s.psd.wk

theorem SameMapping.refl (s : State) : SameMapping s s := ⟨rfl, rfl, rfl, rfl, rfl, rfl, rfl⟩
theorem SameMapping.symm {s t : State} (h : SameMapping s t) : SameMapping t s :=
  ⟨h.cfg.symm, h.map.symm, h.acc.symm, h.lock.symm, h.ms.symm, h.mm.symm, h.wk.symm⟩
theorem SameMapping.trans {s t u : State} (h : SameMapping s t) (k : SameMapping t u) : SameMapping s u :=
  ⟨k.cfg.trans h.cfg, k.map.trans h.map, k.acc.trans h.acc, k.lock.trans h.lock, k.ms.trans h.ms, k.mm.trans h.mm,
    k.wk.trans h.wk⟩

theorem sameMapping_setReg (s : State) (r : RegNum) (v : Word) : SameMapping s (setReg s r v) := by
  constructor <;> simp
theorem sameMapping_locSetWord (s : State) (l : Loc) (w : Word) : SameMapping s (locSetWord s l w) := by
  constructor <;> simp
theorem sameMapping_locSetHalf (s : State) (l : Loc) (k : Bool) (h : Half) : SameMapping s (locSetHalf s l k h) := by
  constructor <;> cases l <;> simp [locSetHalf]
theorem sameMapping_locSetByte (s : State) (l : Loc) (k : BitVec 2) (b : Byte) : SameMapping s (locSetByte s l k b) := by
  constructor <;> cases l <;> simp [locSetByte]

theorem programPath_congr {s t : State} (h : SameMapping s t) : programPath t = programPath s := by
  simp [programPath, h.cfg, h.mm]

theorem actualOf_congr {s t : State} (h : SameMapping s t) (p : Path) (va : WordAddr) :
    actualOf p va t = actualOf p va s := by
  unfold actualOf
  split
  · simp only [h.map]
  · rfl

theorem violations_congr {s t : State} (h : SameMapping s t) (p : Path) (k : Access) (va : WordAddr) :
    violations p k va t = violations p k va s := by
  unfold violations installedAddr protectionDenied
  simp only [actualOf_congr h, h.cfg, h.acc, h.lock, h.ms, h.wk]

/-- Where a reference goes does not depend on registers, memory, the condition code or IA. -/
theorem locate_congr {s t : State} (h : SameMapping s t) (p : Path) (k : Access) (va : WordAddr) (l : Loc) :
    locate p k va t = .ok l ↔ locate p k va s = .ok l := by
  unfold locate
  rw [violations_congr h, actualOf_congr h]
  split
  · rfl
  · split <;> simp

/-- An address below 16 is a general register (20_memory R72). -/
theorem locate_register (p : Path) (k : Access) (va : WordAddr) (s : State) (h : va.toNat < 16) :
    locate p k va s = .ok (.reg (va.setWidth 4)) := by
  simp [locate, h]

/-- An address of 16 or more is core memory, at its actual address, when no condition forbids it. -/
theorem locate_core (p : Path) (k : Access) (va : WordAddr) (s : State) (h : 16 ≤ va.toNat)
    (hv : violations p k va s = 0) : locate p k va s = .ok (.core (actualOf p va s)) := by
  simp [locate, Nat.not_lt.mpr h, hv]

/-- What locating answers. -/
theorem locate_eq_ok {p : Path} {k : Access} {va : WordAddr} {s : State} {l : Loc} (h : locate p k va s = .ok l) :
    (va.toNat < 16 ∧ l = .reg (va.setWidth 4)) ∨
    (16 ≤ va.toNat ∧ violations p k va s = 0 ∧ l = .core (actualOf p va s)) := by
  unfold locate at h
  split at h
  · rename_i h1; exact .inl ⟨h1, by simpa using h.symm⟩
  · rename_i h1
    split at h
    · rename_i h2; exact .inr ⟨by omega, h2, by simpa using h.symm⟩
    · simp at h

/-- Locating stops with the trap to X'40' in the same state, or not at all. -/
theorem locate_eq_error {p : Path} {k : Access} {va : WordAddr} {s : State} {e : Stop} (h : locate p k va s = .error e) :
    e = .trap (.nonallowed (violations p k va s)) s ∧ 16 ≤ va.toNat ∧ violations p k va s ≠ 0 := by
  unfold locate at h
  split at h
  · simp at h
  · rename_i h1
    split at h
    · simp at h
    · rename_i h2; exact ⟨by simpa using h.symm, by omega, h2⟩

theorem or_eq_zero_left {n : Nat} {a b : BitVec n} (h : a ||| b = 0) : a = 0 := by
  apply BitVec.eq_of_getLsbD_eq
  intro i hi
  have := congrArg (fun x => x.getLsbD i) h
  simp at this
  simp [this.1]

theorem or_eq_zero_right {n : Nat} {a b : BitVec n} (h : a ||| b = 0) : b = 0 :=
  or_eq_zero_left (by rw [BitVec.or_comm]; exact h)

/-- A place that can be written can be read as an operand (20_memory R76). -/
theorem locate_operand_of_write {p : Path} {va : WordAddr} {s : State} {l : Loc}
    (h : locate p .write va s = .ok l) : locate p .operand va s = .ok l := by
  rcases locate_eq_ok h with ⟨h1, rfl⟩ | ⟨h1, h2, rfl⟩
  · exact locate_register p _ va s h1
  · apply locate_core p _ va s h1
    unfold violations at h2 ⊢
    have h3 := or_eq_zero_left h2
    have h4 := or_eq_zero_right h2
    rw [h3]
    have h5 : protectionDenied p .write va s = false := by
      cases hd : protectionDenied p .write va s
      · rfl
      · simp [hd] at h4
    have h6 : protectionDenied p .operand va s = false := by
      cases hp : p.checked
      · simp [protectionDenied, hp]
      · simp only [protectionDenied, hp, accDenied, Bool.true_and, Bool.or_eq_false_iff] at h5 ⊢
        refine ⟨?_, by simp⟩
        cases hm : p.mapped <;> cases hs : s.psd.ms <;> simp_all
    simp [h6]

/-! ### Reading and storing -/

theorem readVia_ok {p : Path} {k : Access} {va : WordAddr} {s : State} {l : Loc} (h : locate p k va s = .ok l) :
    readVia p k va s = .ok (locWord s l) := by
  simp [readVia, h]

theorem writeVia_ok {p : Path} {va : WordAddr} {w : Word} {s : State} {l : Loc} (h : locate p .write va s = .ok l) :
    writeVia p va w s = .ok (locSetWord s l w) := by
  simp [writeVia, h]

theorem readVia_eq_ok {p : Path} {k : Access} {va : WordAddr} {s : State} {w : Word} (h : readVia p k va s = .ok w) :
    ∃ l, locate p k va s = .ok l ∧ w = locWord s l := by
  rw [readVia, bind_eq_ok] at h
  obtain ⟨l, hl, hw⟩ := h
  exact ⟨l, hl, by simpa using hw.symm⟩

theorem writeVia_eq_ok {p : Path} {va : WordAddr} {w : Word} {s t : State} (h : writeVia p va w s = .ok t) :
    ∃ l, locate p .write va s = .ok l ∧ t = locSetWord s l w := by
  rw [writeVia, bind_eq_ok] at h
  obtain ⟨l, hl, hw⟩ := h
  exact ⟨l, hl, by simpa using hw.symm⟩

theorem readWord_ok {va : WordAddr} {s : State} {l : Loc} (h : locate (programPath s) .operand va s = .ok l) :
    readWord s va = .ok (locWord s l) := readVia_ok h

theorem readWord_eq_ok {va : WordAddr} {s : State} {w : Word} (h : readWord s va = .ok w) :
    ∃ l, locate (programPath s) .operand va s = .ok l ∧ w = locWord s l := readVia_eq_ok h

theorem writeWord_ok {va : WordAddr} {w : Word} {s : State} {l : Loc} (h : locate (programPath s) .write va s = .ok l) :
    writeWord s va w = .ok (locSetWord s l w) := writeVia_ok h

theorem writeWord_eq_ok {va : WordAddr} {w : Word} {s t : State} (h : writeWord s va w = .ok t) :
    ∃ l, locate (programPath s) .write va s = .ok l ∧ t = locSetWord s l w := writeVia_eq_ok h

theorem writeByte_ok {a : ByteAddr} {b : Byte} {s : State} {l : Loc}
    (h : locate (programPath s) .write (fld a 0 17) s = .ok l) :
    writeByte s a b = .ok (locSetByte s l (fld a 17 2) b) := by
  simp [writeByte, h]

theorem writeByte_eq_ok {a : ByteAddr} {b : Byte} {s t : State} (h : writeByte s a b = .ok t) :
    ∃ l, locate (programPath s) .write (fld a 0 17) s = .ok l ∧ t = locSetByte s l (fld a 17 2) b := by
  rw [writeByte, bind_eq_ok] at h
  obtain ⟨l, hl, hw⟩ := h
  exact ⟨l, hl, by simpa using hw.symm⟩

theorem writeHalf_ok {a : BitVec 18} {h : Half} {s : State} {l : Loc}
    (hl : locate (programPath s) .write (fld a 0 17) s = .ok l) :
    writeHalf s a h = .ok (locSetHalf s l (a.getLsbD 0) h) := by
  simp [writeHalf, hl]

theorem readByte_ok {a : ByteAddr} {s : State} {w : Word} (h : readWord s (fld a 0 17) = .ok w) :
    readByte s a = .ok (byteOf w (fld a 17 2)) := by
  simp [readByte, h]

theorem readHalf_ok {a : BitVec 18} {s : State} {w : Word} (h : readWord s (fld a 0 17) = .ok w) :
    readHalf s a = .ok (halfOf w (a.getLsbD 0)) := by
  simp [readHalf, h]

theorem readDouble_eq_ok {da : BitVec 16} {s : State} {d : Double} (h : readDouble s da = .ok d) :
    ∃ hi lo, readWord s (da ++ 0#1) = .ok hi ∧ readWord s (da ++ 1#1) = .ok lo ∧ d = hi ++ lo := by
  rw [readDouble, bind_eq_ok] at h
  obtain ⟨hi, h1, h⟩ := h
  rw [bind_eq_ok] at h
  obtain ⟨lo, h2, h⟩ := h
  exact ⟨hi, lo, h1, h2, by simpa using h.symm⟩

/-- What an operand form answers: its address and what is read there. -/
theorem operandWord_eq_ok {m : MemRef} {s : State} {w : Word} :
    operandWord m s = .ok w ↔ ∃ a, eaWord m s = .ok a ∧ readWord s a = .ok w := bind_eq_ok
theorem operandByte_eq_ok {m : MemRef} {s : State} {b : Byte} :
    operandByte m s = .ok b ↔ ∃ a, eaByte m s = .ok a ∧ readByte s a = .ok b := bind_eq_ok
theorem operandHalf_eq_ok {m : MemRef} {s : State} {h : Half} :
    operandHalf m s = .ok h ↔ ∃ a, eaHalf m s = .ok a ∧ readHalf s a = .ok h := bind_eq_ok
theorem operandDouble_eq_ok {m : MemRef} {s : State} {d : Double} :
    operandDouble m s = .ok d ↔ ∃ a, eaDouble m s = .ok a ∧ readDouble s a = .ok d := bind_eq_ok

/-! ### A location after a store -/

@[simp] theorem blockInstalled_locSetWord (s : State) (l : Loc) (w : Word) :
    blockInstalled (locSetWord s l w) = blockInstalled s := by
  cases l
  · simp [locSetWord]
  · rfl
@[simp] theorem blockInstalled_locSetByte (s : State) (l : Loc) (k : BitVec 2) (b : Byte) :
    blockInstalled (locSetByte s l k b) = blockInstalled s := by
  cases l
  · simp [locSetByte]
  · rfl
@[simp] theorem blockInstalled_locSetHalf (s : State) (l : Loc) (k : Bool) (h : Half) :
    blockInstalled (locSetHalf s l k h) = blockInstalled s := by
  cases l
  · simp [locSetHalf]
  · rfl

/-- The registers after a store of a word in a location. -/
theorem getReg_locSetWord (s : State) (l : Loc) (w : Word) (k : RegNum) :
    getReg (locSetWord s l w) k = if l = .reg k ∧ blockInstalled s = true then w else getReg s k := by
  cases l with
  | reg r =>
    simp only [locSetWord, getReg_setReg, Loc.reg.injEq]
    by_cases h : k = r
    · subst h; simp
    · simp [h, Ne.symm h]
  | core a =>
    simp only [reduceCtorEq, false_and, if_false]
    exact getReg_congr k rfl rfl rfl

/-- The bytes of memory after a store of a word in a location. -/
theorem memByte_locSetWord (s : State) (l : Loc) (w : Word) (b : Nat) :
    memByte (locSetWord s l w).mem b =
      match l with
      | .reg _ => memByte s.mem b
      | .core a => if b / 4 = a.toNat then wordByte w (b % 4) else memByte s.mem b := by
  cases l with
  | reg r => simp [locSetWord]
  | core a => simp [locSetWord, memByte_coreSetWord]

/-- The words of memory after a store of a word in a location. -/
theorem coreWord_locSetWord (s : State) (l : Loc) (w : Word) (b : WordAddr) :
    coreWord (locSetWord s l w).mem b = if l = .core b then w else coreWord s.mem b := by
  cases l with
  | reg r => simp [locSetWord]
  | core a => simp [locSetWord, coreWord_coreSetWord, eq_comm]

/-- A location read after a store. -/
theorem locWord_locSetWord (s : State) (l k : Loc) (w : Word) :
    locWord (locSetWord s l w) k =
      if k = l ∧ (blockInstalled s = true ∨ ∃ a, k = .core a) then w else locWord s k := by
  cases k with
  | reg r =>
    simp only [locWord, getReg_locSetWord]
    by_cases h : l = .reg r
    · subst h; simp
    · simp [h, Ne.symm h]
  | core a =>
    simp only [locWord, coreWord_locSetWord]
    by_cases h : l = .core a
    · subst h; simp
    · simp [h, Ne.symm h]

/-! ### Every store keeps the form of the memory -/

theorem wf_locSetWord (s : State) (l : Loc) (w : Word) (h : Memory.wf s.mem = true) :
    Memory.wf (locSetWord s l w).mem = true := by
  cases l with
  | reg r => simpa [locSetWord] using h
  | core a => exact wf_coreSetWord _ _ _ h

theorem wf_locSetByte (s : State) (l : Loc) (k : BitVec 2) (b : Byte) (h : Memory.wf s.mem = true) :
    Memory.wf (locSetByte s l k b).mem = true := by
  cases l with
  | reg r => simpa [locSetByte] using h
  | core a => exact wf_memPut _ _ _ h

theorem wf_locSetHalf (s : State) (l : Loc) (k : Bool) (v : Half) (h : Memory.wf s.mem = true) :
    Memory.wf (locSetHalf s l k v).mem = true := by
  cases l with
  | reg r => simpa [locSetHalf] using h
  | core a => exact wf_memPut _ _ _ (wf_memPut _ _ _ h)

theorem wf_writeWord {s t : State} {va : WordAddr} {w : Word} (h : writeWord s va w = .ok t)
    (hm : Memory.wf s.mem = true) : Memory.wf t.mem = true := by
  obtain ⟨l, _, rfl⟩ := writeWord_eq_ok h
  exact wf_locSetWord _ _ _ hm

theorem wf_writeByte {s t : State} {a : ByteAddr} {b : Byte} (h : writeByte s a b = .ok t)
    (hm : Memory.wf s.mem = true) : Memory.wf t.mem = true := by
  obtain ⟨l, _, rfl⟩ := writeByte_eq_ok h
  exact wf_locSetByte _ _ _ _ hm

theorem wf_writeHalf {s t : State} {a : BitVec 18} {v : Half} (h : writeHalf s a v = .ok t)
    (hm : Memory.wf s.mem = true) : Memory.wf t.mem = true := by
  rw [writeHalf, bind_eq_ok] at h
  obtain ⟨l, _, h⟩ := h
  cases h
  exact wf_locSetHalf _ _ _ _ hm

/-- The bootstrap that LOAD stores leaves the form of the memory. -/
theorem wf_storeBootstrap (s : State) (h : Memory.wf s.mem = true) : Memory.wf (storeBootstrap s).mem = true := by
  have aux : ∀ (ws : List (WordAddr × Word)) (m : List Host.Cell), Memory.wf m = true →
      Memory.wf (ws.foldl (fun m aw => if unavailableLoc s (.core aw.1) then m else coreSetWord m aw.1 aw.2) m) =
        true := by
    intro ws
    induction ws with
    | nil => exact fun m hm => hm
    | cons w rest ih =>
      intro m hm
      rw [List.foldl_cons]
      apply ih
      split
      · exact hm
      · exact wf_coreSetWord m w.1 w.2 hm
  exact aux _ _ h
theorem wf_reset : Memory.wf State.reset.mem = true := rfl

/-! ### Noting references for the ADDR STOP switch -/

/-- With ADDR STOP off nothing is noted. -/
theorem noteReferences_off (refs : State → List Reference) {s : State} (h : s.panel.addrStop = false) :
    noteReferences refs s = s := by
  simp [noteReferences, Panel.stops, h]

/-- All that noting references can do. -/
theorem noteReferences_spec (refs : State → List Reference) (s : State) :
    ∃ b, noteReferences refs s = { s with stopPending := b } ∧ (s.panel.addrStop = false → b = s.stopPending) ∧
      (s.stopPending = true → b = true) := by
  by_cases h : (s.panel.stops && s.panel.compute == .run) = true
  · refine ⟨_, if_pos h, fun ho => ?_, fun hp => by simp [hp]⟩
    simp [Panel.stops, ho] at h
  · exact ⟨s.stopPending, if_neg h, fun _ => rfl, id⟩

/-! ### Taking a trap -/

/-- The trap sequence when the location holds an XPSD that reaches its words. -/
theorem enterTrap_ok {c : TrapCause} {s t : State} (hop : opField (coreWord s.mem (trapLocation c)) = 0x0F)
    (h : exchangePsd (rField (coreWord s.mem (trapLocation c))) (memRefOf (coreWord s.mem (trapLocation c)))
      (noteReferences (trapReferences c (coreWord s.mem (trapLocation c))) (trapState c s)) = .ok t) :
    enterTrap c s =
      .ok { trapModify c ((rField (coreWord s.mem (trapLocation c))).getMsbD 1) t with entry := none } := by
  simp [enterTrap, hop, h]

/-- A trap whose sequence succeeds is a next state. -/
theorem takeTrap_ok {c : TrapCause} {s t : State} (h : enterTrap c (backUp s) = .ok t) : takeTrap c s = .next t := by
  simp [takeTrap, takeTrapAt, h]

/-- A next state of a trap comes from the first entry, or from the second when the first one's XPSD itself traps. -/
theorem takeTrapAt_eq_next {c : TrapCause} {s t : State} (h : takeTrapAt c s = .next t) :
    enterTrap c s = .ok t ∨ ∃ c2 s2, enterTrap c s = .error (.trap c2 s2) ∧ enterTrap c2 s2 = .ok t := by
  unfold takeTrapAt at h
  split at h
  · rename_i u hu; left; rw [hu]; simpa using h
  · simp at h
  · simp at h
  · rename_i c2 s2 h1
    split at h
    · rename_i u hu; right; exact ⟨c2, s2, h1, by rw [hu]; simpa using h⟩
    · simp at h
    · simp at h
    · simp at h

/-- XPSD when its words can be reached: two words are stored, the PSD is replaced. -/
theorem exchangePsd_ok {r : BitVec 4} {m : MemRef} {s : State} {dra a : WordAddr} {p : Path} {l0 l1 l2 l3 : Loc}
    (hd : directVia ⟨(s.cfg.hasMap && s.psd.mm) && (r.getMsbD 2 || s.entry.isNone), s.entry.isNone⟩ m s = .ok dra)
    (hp : p = ⟨(s.cfg.hasMap && s.psd.mm) && r.getMsbD 2, s.entry.isNone⟩)
    (ha : a = addrDouble dra (indexOf m s) ++ 0#1) (hi : r.getMsbD 1 = true → incrementAllowed s.entry = true)
    (h0 : locate p .write a s = .ok l0) (h1 : locate p .write (a + 1) s = .ok l1)
    (h2 : locate p .operand (a + 2) s = .ok l2) (h3 : locate p .operand (a + 3) s = .ok l3) :
    exchangePsd r m s =
      let t := locSetWord (locSetWord s l0 (psw1 { s.psd with ia := storedIa s })) l1 (psw2 s.psd)
      .ok { t with psd := exchangedPsd s.psd (locWord t l2) (locWord t l3) (r.getMsbD 0) } := by
  have hn : (r.getMsbD 1 && !incrementAllowed s.entry) = false := by
    cases hr : r.getMsbD 1 <;> simp_all
  subst hp ha
  have e1 := sameMapping_locSetWord s l0 (psw1 { s.psd with ia := storedIa s })
  have e2 := e1.trans (sameMapping_locSetWord _ l1 (psw2 s.psd))
  simp only [exchangePsd, exchangePaths, hd, ok_bind, hn, Bool.false_eq_true, if_false, writeVia_ok h0,
    writeVia_ok ((locate_congr e1 _ _ _ _).2 h1), readVia_ok ((locate_congr e2 _ _ _ _).2 h2),
    readVia_ok ((locate_congr e2 _ _ _ _).2 h3)]

end Sys2Proof.Machine
end

