-- ==== Sys2Proof/Laws/Cycle.lean ====
section
/-! SUPPORT. What the ADDR STOP switch adds to a step, and that it adds nothing when it is off. -/

namespace Sys2Proof.Machine

open Sys2Proof

/-- Noting the register looked ahead changes that field alone. -/
theorem lookAhead_eq (w : Word) (s : State) : { lookAhead w s with hazard := s.hazard } = s := rfl

/-- The hazard after an instruction is the register that was looked ahead, if it is still so, and if it has been altered. -/
theorem hazardAfter_eq_some {w : Word} {before after : State} {n1 : RegNum} (h : hazardAfter w before after = some n1) :
    after.hazard = some n1 ∧ (alteredR w n1 before after = true ∨
      (before.midway = some before.psd.ia ∧ before.hazard = some n1)) := by
  simpa [hazardAfter, Option.filter_eq_some_iff] using h

/-- No hazard where nothing is looked ahead any more, as after a trap or an acknowledgement. -/
theorem hazardAfter_none {w : Word} {before after : State} (h : after.hazard = none) : hazardAfter w before after = none := by
  simp [hazardAfter, h]

theorem stopIfPending_off {s : State} (h : s.panel.addrStop = false) : stopIfPending s = s := by
  simp [stopIfPending, Panel.stops, h]

/-- What follows an instruction when ADDR STOP is off in the state it leaves. -/
theorem settle_next_off {s : State} (h : s.panel.addrStop = false) : settle (.next s) = .next s := by
  simp [settle, Panel.stops, h]

/-- A next state of `settle` is the one it is given, or one with the ADDRESS STOP halt condition. -/
theorem settle_eq_next {x : Host.Outcome State Fault Refusal} {t : State} (h : settle x = .next t) :
    x = .next t ∨ ∃ u, x = .next u ∧ u.panel.stops = true ∧ u.stopPending = true ∧
      (t = stopAtAddress (ioSync u) ∨
        ∃ k v, interruptNow (ioSync u) = some k ∧ acknowledge k (ioSync u) = .next v ∧ t = stopIfPending v) := by
  unfold settle at h
  split at h
  · rename_i u
    split at h
    · rename_i hc
      simp only [Bool.and_eq_true] at hc
      refine .inr ⟨u, rfl, hc.1.1.1, hc.1.2, ?_⟩
      split at h
      · rename_i k hk
        unfold acknowledgeAndStop onNext at h
        split at h
        · rename_i v hv
          exact .inr ⟨k, v, hk, hv, by cases h; rfl⟩
        · cases h
        · cases h
      · exact .inl (by cases h; rfl)
    · exact .inl h
  · cases h
  · cases h

/-- In a parity halt the CPU executes nothing. -/
theorem cpuStep_parity {s : State} (h : s.halts.parity = true) : cpuStep s = .next s := by
  simp [cpuStep, h]

/-- Outside a parity halt `stepEnds` changes nothing. -/
theorem stepEnds_off {s : State} (h : s.halts.parity = false) : stepEnds s = s := by
  simp [stepEnds, h]

/-- A step in a parity halt is over: COMPUTE is at IDLE. -/
theorem stepEnds_parity {s : State} (hc : s.panel.compute = .step) (hp : s.halts.parity = true) :
    (stepEnds s).panel.compute = .idle := by
  simp [stepEnds, hc, hp, moveToIdle, atIdle]

/-- Executing a word with ADDR STOP off. -/
theorem executeWord_off {w : Word} {before fetched : State} (h : (advance (lookAhead w fetched)).panel.addrStop = false) :
    executeWord w before fetched =
      settle (onNext (afterInstruction w before) (execWord w (advance (lookAhead w fetched)))) := by
  rw [executeWord, noteReferences_off _ h]

end Sys2Proof.Machine
end

