-- ==== Sys2Proof/Laws/Effects.lean ====
section
/-! SUPPORT. `Effect` step by step: from nothing changed, one update at a time. -/

namespace Sys2Proof.Safety

open Sys2Proof Machine

/-! ### The condition code as four bits -/

@[simp] theorem ccOf_getMsbD_0 (a b c d : Bool) : (ccOf a b c d).getMsbD 0 = a := by
  cases a <;> cases b <;> cases c <;> cases d <;> rfl
@[simp] theorem ccOf_getMsbD_1 (a b c d : Bool) : (ccOf a b c d).getMsbD 1 = b := by
  cases a <;> cases b <;> cases c <;> cases d <;> rfl
@[simp] theorem ccOf_getMsbD_2 (a b c d : Bool) : (ccOf a b c d).getMsbD 2 = c := by
  cases a <;> cases b <;> cases c <;> cases d <;> rfl
@[simp] theorem ccOf_getMsbD_3 (a b c d : Bool) : (ccOf a b c d).getMsbD 3 = d := by
  cases a <;> cases b <;> cases c <;> cases d <;> rfl

theorem ccBits_eq (p : Psd) : ccBits p = ccOf p.cc1 p.cc2 p.cc3 p.cc4 := rfl

theorem ccOf_of_bits (c : BitVec 4) : ccOf (c.getMsbD 0) (c.getMsbD 1) (c.getMsbD 2) (c.getMsbD 3) = c := by
  revert c; decide

@[simp] theorem ccBits_setCc (s : State) (c : BitVec 4) : ccBits (setCc s c).psd = c := by
  rw [ccBits_eq]; exact ccOf_of_bits c

/-! ### What `Effect` says of the rest -/

theorem Effect.rest {s t : State} {ia cc regs bytes} (h : Effect s t ia cc regs bytes) : SameRest s t := h.2.2.2.2
theorem Effect.cc_eq {s t : State} {ia cc regs bytes} (h : Effect s t ia cc regs bytes) : ccBits t.psd = cc := h.2.2.1
theorem Effect.ia_eq {s t : State} {ia cc regs bytes} (h : Effect s t ia cc regs bytes) : t.psd.ia = ia := h.2.2.2.1

theorem SameRest.cfg {s t : State} (h : SameRest s t) : t.cfg = s.cfg := by have := congrArg State.cfg h.2; exact this
theorem SameRest.rp {s t : State} (h : SameRest s t) : t.psd.rp = s.psd.rp := by
  have := congrArg (fun x => x.psd.rp) h.2; exact this
theorem SameRest.am {s t : State} (h : SameRest s t) : t.psd.am = s.psd.am := by
  have := congrArg (fun x => x.psd.am) h.2; exact this

theorem SameRest.blockInstalled {s t : State} (h : SameRest s t) : blockInstalled t = blockInstalled s :=
  blockInstalled_congr h.rp h.cfg

theorem SameRest.mapping {s t : State} (h : SameRest s t) : SameMapping s t where
  cfg := h.cfg
  map := by have := congrArg State.map h.2; exact this
  acc := by have := congrArg State.acc h.2; exact this
  lock := by have := congrArg State.lock h.2; exact this
  ms := by have := congrArg (fun x => x.psd.ms) h.2; exact this
  mm := by have := congrArg (fun x => x.psd.mm) h.2; exact this
  wk := by have := congrArg (fun x => x.psd.wk) h.2; exact this

theorem sameRest_refl (s : State) : SameRest s s := ⟨fun _ _ => rfl, rfl⟩

theorem sameRest_setReg {s t : State} (h : SameRest s t) (r : RegNum) (v : Word) : SameRest s (setReg t r v) := by
  refine ⟨fun n hn => ?_, ?_⟩
  · rw [regs_setReg_other t r v n (by rw [h.rp]; exact hn)]
    exact h.1 n hn
  · rw [← h.2]
    unfold setReg
    split <;> rfl

theorem sameRest_mem {s t : State} (h : SameRest s t) (m : List Host.Cell) : SameRest s { t with mem := m } :=
  ⟨h.1, h.2⟩

theorem sameRest_locSetWord {s t : State} (h : SameRest s t) (l : Loc) (w : Word) : SameRest s (locSetWord t l w) := by
  cases l with
  | reg r => exact sameRest_setReg h r w
  | core a => exact sameRest_mem h _
theorem sameRest_locSetByte {s t : State} (h : SameRest s t) (l : Loc) (k : BitVec 2) (b : Byte) :
    SameRest s (locSetByte t l k b) := by
  cases l with
  | reg r => exact sameRest_setReg h r _
  | core a => exact sameRest_mem h _
theorem sameRest_locSetHalf {s t : State} (h : SameRest s t) (l : Loc) (k : Bool) (v : Half) :
    SameRest s (locSetHalf t l k v) := by
  cases l with
  | reg r => exact sameRest_setReg h r _
  | core a => exact sameRest_mem h _

/-! ### One update at a time -/

/-- Nothing has changed. -/
theorem effect_refl (s : State) : Effect s s s.psd.ia (ccBits s.psd) noRegs noBytes :=
  ⟨fun _ => by simp [noRegs], fun _ => rfl, rfl, rfl, sameRest_refl s⟩

/-- The registers and bytes may be said in another way. -/
theorem Effect.as {s t : State} {ia ia' cc cc' regs regs' bytes bytes'} (h : Effect s t ia cc regs bytes) (hi : ia = ia')
    (hc : cc = cc') (hr : ∀ k, (regs k).getD (getReg s k) = (regs' k).getD (getReg s k))
    (hb : ∀ a, (bytes a).getD (memByte s.mem a) = (bytes' a).getD (memByte s.mem a)) : Effect s t ia' cc' regs' bytes' := by
  subst hi hc
  exact ⟨fun k => by rw [h.1 k, hr k], fun a => by rw [h.2.1 a, hb a], h.2.2⟩

theorem Effect.setReg {s t : State} {ia cc regs bytes} (h : Effect s t ia cc regs bytes) (r : RegNum) (v : Word) :
    Effect s (Machine.setReg t r v) ia cc (firstOf (oneReg r v) regs) bytes := by
  refine ⟨fun k => ?_, fun a => ?_, ?_, ?_, sameRest_setReg h.rest r v⟩
  · rw [getReg_setReg, h.1 k, h.rest.blockInstalled]
    by_cases hk : k = r <;> by_cases hb : Machine.blockInstalled s = true <;> simp [firstOf, oneReg, hk, hb]
  · simpa using h.2.1 a
  · simpa using h.cc_eq
  · simpa using h.ia_eq

/-- What a byte of a location's word becomes. -/
theorem memByte_locSetWord' (s : State) (l : Loc) (w : Word) (b : Nat) :
    memByte (locSetWord s l w).mem b = (locBytes l w b).getD (memByte s.mem b) := by
  rw [memByte_locSetWord]
  cases l with
  | reg r => simp [locBytes, noBytes]
  | core a =>
    simp only [locBytes, wordBytes]
    split
    · rename_i h
      have : wordByte w (b % 4) = fld w (8 * (b % 4)) 8 := by
        have hm : b % 4 < 4 := Nat.mod_lt _ (by decide)
        unfold wordByte
        interval_cases b % 4 <;> rfl
      simp [this]
    · rfl

theorem Effect.locSetWord {s t : State} {ia cc regs bytes} (h : Effect s t ia cc regs bytes) (l : Loc) (w : Word) :
    Effect s (Machine.locSetWord t l w) ia cc (firstOf (locRegs l w) regs) (firstOf (locBytes l w) bytes) := by
  refine ⟨fun k => ?_, fun a => ?_, ?_, ?_, sameRest_locSetWord h.rest l w⟩
  · rw [getReg_locSetWord, h.1 k, h.rest.blockInstalled]
    cases l with
    | reg r =>
      by_cases hk : k = r <;> by_cases hb : Machine.blockInstalled s = true <;>
        simp [firstOf, locRegs, oneReg, hk, hb, eq_comm]
    | core a => simp [firstOf, locRegs, noRegs]
  · rw [memByte_locSetWord', h.2.1 a]
    cases hl : locBytes l w a <;> simp [firstOf, hl]
  · simpa using h.cc_eq
  · simpa using h.ia_eq

theorem Effect.setCc {s t : State} {ia cc regs bytes} (h : Effect s t ia cc regs bytes) (c : BitVec 4) :
    Effect s (Machine.setCc t c) ia c regs bytes :=
  ⟨fun k => by rw [getReg_setCc]; exact h.1 k, h.2.1, ccBits_setCc t c, h.ia_eq, h.rest.1, h.rest.2⟩

theorem Effect.setCc12 {s t : State} {ia cc regs bytes} (h : Effect s t ia cc regs bytes) (a b : Bool) :
    Effect s (Machine.setCc12 a b t) ia (ccOf a b t.psd.cc3 t.psd.cc4) regs bytes :=
  ⟨fun k => by rw [getReg_setCc12]; exact h.1 k, h.2.1, rfl, h.ia_eq, h.rest.1, h.rest.2⟩

theorem Effect.setCc34 {s t : State} {ia cc regs bytes} (h : Effect s t ia cc regs bytes) (a b : Bool) :
    Effect s (Machine.setCc34 a b t) ia (ccOf t.psd.cc1 t.psd.cc2 a b) regs bytes :=
  ⟨fun k => by rw [getReg_setCc34]; exact h.1 k, h.2.1, rfl, h.ia_eq, h.rest.1, h.rest.2⟩

theorem Effect.setCc1 {s t : State} {ia cc regs bytes} (h : Effect s t ia cc regs bytes) (a : Bool) :
    Effect s (Machine.setCc1 a t) ia (ccOf a t.psd.cc2 t.psd.cc3 t.psd.cc4) regs bytes :=
  ⟨fun k => by rw [getReg_setCc1]; exact h.1 k, h.2.1, rfl, h.ia_eq, h.rest.1, h.rest.2⟩

theorem Effect.setCc2 {s t : State} {ia cc regs bytes} (h : Effect s t ia cc regs bytes) (a : Bool) :
    Effect s (Machine.setCc2 a t) ia (ccOf t.psd.cc1 a t.psd.cc3 t.psd.cc4) regs bytes :=
  ⟨fun k => by rw [getReg_setCc2]; exact h.1 k, h.2.1, rfl, h.ia_eq, h.rest.1, h.rest.2⟩

theorem Effect.setIa {s t : State} {ia cc regs bytes} (h : Effect s t ia cc regs bytes) (a : WordAddr) :
    Effect s (Machine.setIa t a) a cc regs bytes :=
  ⟨fun k => by rw [getReg_setIa]; exact h.1 k, h.2.1, h.cc_eq, rfl, h.rest.1, h.rest.2⟩

theorem Effect.backUp {s t : State} {ia cc regs bytes} (h : Effect s t ia cc regs bytes) :
    Effect s (Machine.backUp t) (backIa t) cc regs bytes :=
  ⟨fun k => by rw [getReg_backUp]; exact h.1 k, h.2.1, h.cc_eq, rfl, h.rest.1, h.rest.2⟩

/-- A free value drawn before the rest changes the count of free values alone. -/
theorem Effect.draw {s t : State} {ia cc regs bytes} (h : Effect { s with draws := t.draws } t ia cc regs bytes) :
    Effect { s with draws := (Machine.draw t).2.draws } (Machine.draw t).2 ia cc regs bytes := by
  refine ⟨fun k => ?_, h.2.1, h.cc_eq, h.ia_eq, h.rest.1, ?_⟩
  · rw [getReg_draw]; exact h.1 k
  · have := h.rest.2
    have e := congrArg (fun x : State => { x with draws := t.draws + 1 }) this
    exact e

end Sys2Proof.Safety
end

