-- ==== Sys2Proof/Laws/Flags.lean ====
section
/-! SUPPORT. The flag computations against signed and unsigned numbers. -/

namespace Sys2Proof.Safety

open Sys2Proof Machine

theorem msb_iff {n : Nat} (v : BitVec n) : v.msb = decide (v.toInt < 0) := BitVec.msb_eq_toInt

theorem positive_iff {n : Nat} (v : BitVec n) : (v != 0 && !v.msb) = decide (0 < v.toInt) := by
  rw [msb_iff]
  have h : v = 0 ↔ v.toInt = 0 := by
    constructor
    · rintro rfl; simp
    · intro h; exact BitVec.eq_of_toInt_eq (by simpa using h)
  by_cases h0 : v = 0
  · subst h0; simp
  · have h1 : v.toInt ≠ 0 := fun e => h0 (h.2 e)
    simp only [show (v != 0) = true from by simpa using h0, Bool.true_and]
    by_cases h2 : v.toInt < 0
    · simp [h2]; omega
    · simp [h2]; omega

/-- `test34` tells the sign. -/
theorem Effect.test34 {s t : State} {ia cc regs bytes} (h : Effect s t ia cc regs bytes) {n : Nat} (v : BitVec n) :
    Effect s (Machine.test34 v t) ia (ccSign t.psd.cc1 t.psd.cc2 v.toInt) regs bytes := by
  have := h.setCc34 (v != 0 && !v.msb) v.msb
  rw [positive_iff, msb_iff] at this
  unfold Machine.test34
  rw [positive_iff, msb_iff]
  exact this

/-- `testNonzero` tells the sign of an unsigned number. -/
theorem Effect.testNonzero {s t : State} {ia cc regs bytes} (h : Effect s t ia cc regs bytes) {n : Nat} (v : BitVec n) :
    Effect s (Machine.testNonzero v t) ia (ccSign t.psd.cc1 t.psd.cc2 v.toNat) regs bytes := by
  have := h.setCc34 (v != 0) false
  unfold Machine.testNonzero
  refine this.as rfl ?_ (fun _ => rfl) (fun _ => rfl)
  have e1 : (v != 0) = decide (0 < (v.toNat : Int)) := by
    by_cases h0 : v = 0
    · subst h0; simp
    · have : v.toNat ≠ 0 := fun e => h0 (BitVec.eq_of_toNat_eq (by simpa using e))
      simp only [show (v != 0) = true from by simpa using h0]
      symm; simp; omega
  have e2 : false = decide ((v.toNat : Int) < 0) := by symm; simp
  unfold ccSign
  rw [e1, ← e2]

end Sys2Proof.Safety
end

