-- ==== Sys2Proof/Laws/Exchange.lean ====
section
/-! SUPPORT. The words of an XPSD lie in different places, and what the exchange leaves. -/

namespace Sys2Proof.Safety

open Sys2Proof Machine

theorem append_low (q : BitVec 8) (d : BitVec 9) : (q ++ d).toNat = q.toNat * 512 + d.toNat := by
  rw [BitVec.toNat_append, ← Nat.shiftLeft_add_eq_or_of_lt d.isLt, Nat.shiftLeft_eq]

/-- Mapping keeps the place within a page: the low 9 bits of the address (20_memory R73). -/
theorem actualOf_low (p : Path) (va : WordAddr) (s : State) : (actualOf p va s).toNat % 512 = va.toNat % 512 := by
  unfold actualOf
  split
  · rw [append_low]
    have h : (fld va 8 9).toNat = va.toNat % 512 := by simp [toNat_fld]
    rw [h]
    omega
  · rfl

/-- Two references that reach one location differ by whole pages. -/
theorem locate_same {p q : Path} {j k : Access} {va vb : WordAddr} {s : State} {l : Loc}
    (ha : locate p j va s = .ok l) (hb : locate q k vb s = .ok l) : va.toNat % 512 = vb.toNat % 512 := by
  rcases locate_eq_ok ha with ⟨h1, rfl⟩ | ⟨h1, _, rfl⟩ <;> rcases locate_eq_ok hb with ⟨h2, h⟩ | ⟨h2, _, h⟩
  · have := congrArg (fun x : Loc => match x with | .reg r => r.toNat | .core _ => 0) h
    simp at this
    omega
  · cases h
  · cases h
  · have := congrArg (fun x : Loc => match x with | .core a => a.toNat % 512 | .reg _ => 0) h
    simp only [actualOf_low] at this
    exact this

/-- Words fewer than 512 apart are in different places. -/
theorem locate_ne {p q : Path} {j k : Access} {va : WordAddr} {s : State} {l l' : Loc} (i i' : Nat)
    (ha : locate p j (va + BitVec.ofNat 17 i) s = .ok l) (hb : locate q k (va + BitVec.ofNat 17 i') s = .ok l')
    (h : i % 512 ≠ i' % 512) : l ≠ l' := by
  rintro rfl
  have := locate_same ha hb
  simp only [BitVec.toNat_add, BitVec.toNat_ofNat] at this
  omega

theorem ccBits_loadPsw1 (p : Psd) (w : Word) : ccBits (loadPsw1 p w) = fld w 0 4 := by
  rw [← ccOf_of_bits (fld w 0 4)]
  simp only [getMsbD_fld w 0 4 _ (by omega)]
  simp [ccBits_eq, loadPsw1]

/-- The PSD that XPSD loads. -/
theorem newPsd_exchangedPsd (p : Psd) (hi lo : Word) (lp : Bool) : NewPsd p (exchangedPsd p hi lo lp) hi lo lp :=
  ⟨ccBits_loadPsw1 p hi, rfl, rfl, rfl, rfl, rfl, rfl, rfl, rfl, rfl, rfl, rfl, rfl, rfl⟩

theorem firstOf_getD {α β : Type} (a b : α → Option β) (k : α) (d : β) :
    ((firstOf a b) k).getD d = (a k).getD ((b k).getD d) := by
  unfold firstOf; cases a k <;> rfl

/-- Two words stored in two locations. -/
theorem effect_stored2 (s : State) (l0 l1 : Loc) (w0 w1 : Word) :
    Effect s (Machine.locSetWord (Machine.locSetWord s l0 w0) l1 w1) s.psd.ia (ccBits s.psd)
      (firstOf (locRegs l1 w1) (locRegs l0 w0)) (firstOf (locBytes l1 w1) (locBytes l0 w0)) :=
  (((effect_refl s).locSetWord l0 w0).locSetWord l1 w1).as rfl rfl
    (fun k => by simp [firstOf_getD, noRegs]) (fun a => by simp [firstOf_getD, noBytes])

/-- What XPSD leaves, `e` being the location it runs in. -/
theorem exchangePsd_spec {r : BitVec 4} {m : MemRef} {s : State} {l0 l1 l2 l3 : Loc} (hx : ExchangeAt s r m l0 l1 l2 l3)
    (hi : r.getMsbD 1 = true → incrementAllowed s.entry = true) :
    ∃ t, exchangePsd r m s = .ok t ∧ PsdStored s t (storedIa s) l0 l1 ∧ t.entry = s.entry ∧
      t.psd = exchangedPsd s.psd (locWord s l2) (locWord s l3) (r.getMsbD 0) := by
  obtain ⟨dra, hd, h0, h1, h2, h3⟩ := hx
  have e := effect_stored2 s l0 l1 (psw1 { s.psd with ia := storedIa s }) (psw2 s.psd)
  have n02 : l2 ≠ l0 := (locate_ne 0 2 (by simpa using h0) h2 (by decide)).symm
  have n03 : l3 ≠ l0 := (locate_ne 0 3 (by simpa using h0) h3 (by decide)).symm
  have n12 : l2 ≠ l1 := (locate_ne 1 2 h1 h2 (by decide)).symm
  have n13 : l3 ≠ l1 := (locate_ne 1 3 h1 h3 (by decide)).symm
  refine ⟨_, exchangePsd_ok hd rfl rfl hi h0 h1 h2 h3, ⟨?_, ?_, ?_, ?_⟩, ?_, ?_⟩
  · exact e.rest.1
  · intro k
    rw [← e.1 k]
    exact getReg_congr k rfl (by simp) rfl
  · intro a; exact e.2.1 a
  · simp
  · simp
  · simp [locWord_locSetWord, n02, n03, n12, n13]

end Sys2Proof.Safety
end

