-- ==== Sys2Proof/Tests/Slice0.lean ====
section
/-! SUPPORT. The model's own tests. Expected results are those of spec 95_test_vectors and of the examples inside the rules,
or worked by hand from the rule. -/

namespace Sys2Proof.Tests

open Sys2Proof Machine

set_option Elab.async false

/-! ### WellFormed -/

/-- WellFormed refuses index register 0 (30_encoding R121). -/
theorem test_illformed_index : Instr.wellFormed (.lw 1 ⟨false, some 0, 0x100⟩) = false := by decide

/-- An index register of 1 to 7, or none, is accepted. -/
theorem test_wellformed_index :
    Instr.wellFormed (.lw 1 ⟨false, some 7, 0x100⟩) = true ∧ Instr.wellFormed (.lw 1 ⟨true, none, 0x100⟩) = true := by decide

/-! ### Decoding: a word of each instruction written from the formats of 30_encoding R121 to R123 and the codes of R140.
In formats N: bit 0 = 1, R = 1010, X = 011, address X'12345'. In formats I and D: R = 1010, bits 12 to 31 X'81234'. -/

/-- Each word decodes to the instruction beside it, and the instruction encodes to the word. -/
def decodes (rows : List (Word × Instr)) : Bool :=
  rows.all (fun wi => decodeWord wi.1 == .ok wi.2 && encode wi.2 == wi.1)

theorem test_decode_load_store_analyze_1 :
    decodes
    [(0x02A81234, .lcfi 10 0x81234), (0x92A72345, .ld 10 ⟨true, some 3, 0x12345⟩),
     (0x95A72345, .std 10 ⟨true, some 3, 0x12345⟩), (0x9AA72345, .lcd 10 ⟨true, some 3, 0x12345⟩),
     (0x9BA72345, .lad 10 ⟨true, some 3, 0x12345⟩), (0x22A81234, .li 10 0x81234),
     (0xAAA72345, .lm 10 ⟨true, some 3, 0x12345⟩), (0xABA72345, .stm 10 ⟨true, some 3, 0x12345⟩),
     (0xB2A72345, .lw 10 ⟨true, some 3, 0x12345⟩), (0xB5A72345, .stw 10 ⟨true, some 3, 0x12345⟩),
     (0xBAA72345, .lcw 10 ⟨true, some 3, 0x12345⟩), (0xBBA72345, .law 10 ⟨true, some 3, 0x12345⟩)] = true := by
  decide +kernel
theorem test_decode_load_store_analyze_2 :
    decodes
    [(0xC4A72345, .anlz 10 ⟨true, some 3, 0x12345⟩), (0xC6A72345, .xw 10 ⟨true, some 3, 0x12345⟩),
     (0xC7A72345, .sts 10 ⟨true, some 3, 0x12345⟩), (0xCAA72345, .ls 10 ⟨true, some 3, 0x12345⟩),
     (0xD2A72345, .lh 10 ⟨true, some 3, 0x12345⟩), (0xD5A72345, .sth 10 ⟨true, some 3, 0x12345⟩),
     (0xDAA72345, .lch 10 ⟨true, some 3, 0x12345⟩), (0xDBA72345, .lah 10 ⟨true, some 3, 0x12345⟩),
     (0xEBA72345, .int 10 ⟨true, some 3, 0x12345⟩), (0xF0A72345, .lcf 10 ⟨true, some 3, 0x12345⟩),
     (0xF2A72345, .lb 10 ⟨true, some 3, 0x12345⟩), (0xF4A72345, .stcf 10 ⟨true, some 3, 0x12345⟩)] = true := by
  decide +kernel
theorem test_decode_load_store_analyze_3 :
    decodes
    [(0xF5A72345, .stb 10 ⟨true, some 3, 0x12345⟩)] = true := by
  decide +kernel
theorem test_decode_push_down_branch_call_1 :
    decodes
    [(0x84A72345, .cal1 10 ⟨true, some 3, 0x12345⟩), (0x85A72345, .cal2 10 ⟨true, some 3, 0x12345⟩),
     (0x86A72345, .cal3 10 ⟨true, some 3, 0x12345⟩), (0x87A72345, .cal4 10 ⟨true, some 3, 0x12345⟩),
     (0x88A72345, .plw 10 ⟨true, some 3, 0x12345⟩), (0x89A72345, .psw 10 ⟨true, some 3, 0x12345⟩),
     (0x8AA72345, .plm 10 ⟨true, some 3, 0x12345⟩), (0x8BA72345, .psm 10 ⟨true, some 3, 0x12345⟩),
     (0x93A72345, .msp 10 ⟨true, some 3, 0x12345⟩), (0xE4A72345, .bdr 10 ⟨true, some 3, 0x12345⟩),
     (0xE5A72345, .bir 10 ⟨true, some 3, 0x12345⟩), (0xE7A72345, .exu 10 ⟨true, some 3, 0x12345⟩)] = true := by
  decide +kernel
theorem test_decode_push_down_branch_call_2 :
    decodes
    [(0xE8A72345, .bcr 10 ⟨true, some 3, 0x12345⟩), (0xE9A72345, .bcs 10 ⟨true, some 3, 0x12345⟩),
     (0xEAA72345, .bal 10 ⟨true, some 3, 0x12345⟩)] = true := by
  decide +kernel
theorem test_decode_control :
    decodes
    [(0x8EA72345, .lpsd 10 ⟨true, some 3, 0x12345⟩), (0x8FA72345, .xpsd 10 ⟨true, some 3, 0x12345⟩),
     (0xAEA72345, .wait 10 ⟨true, some 3, 0x12345⟩), (0xAFA72345, .lrp 10 ⟨true, some 3, 0x12345⟩),
     (0xECA72345, .rd 10 ⟨true, some 3, 0x12345⟩), (0xEDA72345, .wd 10 ⟨true, some 3, 0x12345⟩),
     (0xEFA72345, .mmc true 10 3 0x12345)] = true := by
  decide +kernel
theorem test_decode_fixed_point_1 :
    decodes
    [(0x90A72345, .ad 10 ⟨true, some 3, 0x12345⟩), (0x98A72345, .sd 10 ⟨true, some 3, 0x12345⟩),
     (0x20A81234, .ai 10 0x81234), (0x23A81234, .mi 10 0x81234), (0xB0A72345, .aw 10 ⟨true, some 3, 0x12345⟩),
     (0xB3A72345, .mtw 10 ⟨true, some 3, 0x12345⟩), (0xB6A72345, .dw 10 ⟨true, some 3, 0x12345⟩),
     (0xB7A72345, .mw 10 ⟨true, some 3, 0x12345⟩), (0xB8A72345, .sw 10 ⟨true, some 3, 0x12345⟩),
     (0xD0A72345, .ah 10 ⟨true, some 3, 0x12345⟩), (0xD3A72345, .mth 10 ⟨true, some 3, 0x12345⟩),
     (0xD6A72345, .dh 10 ⟨true, some 3, 0x12345⟩)] = true := by
  decide +kernel
theorem test_decode_fixed_point_2 :
    decodes
    [(0xD7A72345, .mh 10 ⟨true, some 3, 0x12345⟩), (0xD8A72345, .sh 10 ⟨true, some 3, 0x12345⟩),
     (0xE6A72345, .awm 10 ⟨true, some 3, 0x12345⟩), (0xF3A72345, .mtb 10 ⟨true, some 3, 0x12345⟩)] = true := by
  decide +kernel
theorem test_decode_compare_logical :
    decodes
    [(0x91A72345, .cd 10 ⟨true, some 3, 0x12345⟩), (0x99A72345, .clm 10 ⟨true, some 3, 0x12345⟩),
     (0x21A81234, .ci 10 0x81234), (0xB1A72345, .cw 10 ⟨true, some 3, 0x12345⟩),
     (0xB9A72345, .clr 10 ⟨true, some 3, 0x12345⟩), (0xC5A72345, .cs 10 ⟨true, some 3, 0x12345⟩),
     (0xC8A72345, .eor 10 ⟨true, some 3, 0x12345⟩), (0xC9A72345, .or 10 ⟨true, some 3, 0x12345⟩),
     (0xCBA72345, .and 10 ⟨true, some 3, 0x12345⟩), (0xD1A72345, .ch 10 ⟨true, some 3, 0x12345⟩),
     (0xF1A72345, .cb 10 ⟨true, some 3, 0x12345⟩)] = true := by
  decide +kernel
theorem test_decode_floating_point :
    decodes
    [(0x9CA72345, .fsl 10 ⟨true, some 3, 0x12345⟩), (0x9DA72345, .fal 10 ⟨true, some 3, 0x12345⟩),
     (0x9EA72345, .fdl 10 ⟨true, some 3, 0x12345⟩), (0x9FA72345, .fml 10 ⟨true, some 3, 0x12345⟩),
     (0xBCA72345, .fss 10 ⟨true, some 3, 0x12345⟩), (0xBDA72345, .fas 10 ⟨true, some 3, 0x12345⟩),
     (0xBEA72345, .fds 10 ⟨true, some 3, 0x12345⟩), (0xBFA72345, .fms 10 ⟨true, some 3, 0x12345⟩)] = true := by
  decide +kernel
theorem test_decode_shift_conversion :
    decodes
    [(0xA4A72345, .sf 10 ⟨true, some 3, 0x12345⟩), (0xA5A72345, .s 10 ⟨true, some 3, 0x12345⟩),
     (0xA8A72345, .cvs 10 ⟨true, some 3, 0x12345⟩), (0xA9A72345, .cva 10 ⟨true, some 3, 0x12345⟩)] = true := by
  decide +kernel
theorem test_decode_byte_string :
    decodes
    [(0x40A81234, .ttbs 10 0x81234), (0x41A81234, .tbs 10 0x81234), (0x60A81234, .cbs 10 0x81234),
     (0x61A81234, .mbs 10 0x81234), (0x63A81234, .ebs 10 0x81234)] = true := by
  decide +kernel
theorem test_decode_input_output :
    decodes
    [(0xCCA72345, .sio 10 ⟨true, some 3, 0x12345⟩), (0xCDA72345, .tio 10 ⟨true, some 3, 0x12345⟩),
     (0xCEA72345, .tdv 10 ⟨true, some 3, 0x12345⟩), (0xCFA72345, .hio 10 ⟨true, some 3, 0x12345⟩),
     (0xEEA72345, .aio 10 ⟨true, some 3, 0x12345⟩)] = true := by
  decide +kernel
theorem test_decode_decimal :
    decodes
    [(0xF6A72345, .pack 10 ⟨true, some 3, 0x12345⟩), (0xF7A72345, .unpk 10 ⟨true, some 3, 0x12345⟩),
     (0xF8A72345, .ds 10 ⟨true, some 3, 0x12345⟩), (0xF9A72345, .da 10 ⟨true, some 3, 0x12345⟩),
     (0xFAA72345, .dd 10 ⟨true, some 3, 0x12345⟩), (0xFBA72345, .dm 10 ⟨true, some 3, 0x12345⟩),
     (0xFCA72345, .dsa 10 ⟨true, some 3, 0x12345⟩), (0xFDA72345, .dc 10 ⟨true, some 3, 0x12345⟩),
     (0xFEA72345, .dl 10 ⟨true, some 3, 0x12345⟩), (0xFFA72345, .dst 10 ⟨true, some 3, 0x12345⟩)] = true := by
  decide +kernel

/-- The three words of 30_encoding R124 and the vectors E1, E2 and E10. -/
theorem test_decode_examples :
    decodeWord 0x32500100 = .ok (.lw 5 ⟨false, none, 0x100⟩) ∧ decodeWord 0xB2540100 = .ok (.lw 5 ⟨true, some 2, 0x100⟩) ∧
    decodeWord 0xA2300005 = .error .indirectImmediate ∧ decodeWord 0x00000000 = .error .unassigned := by
  decide +kernel

/-- R140, vector E16: 106 of the 128 codes are assigned. -/
theorem test_decode_count :
    ((List.range 128).filter (fun k => (decodeWord (BitVec.ofNat 7 k ++ 0#24 |>.setWidth 32)).toOption.isSome)).length
      = 106 := by
  decide +kernel

/-! ### One instruction -/

/-- A state with this first PSD word, these registers and these words of memory. -/
def given (p : Word) (regs : List (RegNum × Word)) (words : List (WordAddr × Word)) : State :=
  regs.foldl (fun s rv => setReg s rv.1 rv.2)
    { State.reset with started := false, psd := loadPsw1 Psd.reset p, mem := words.foldl (fun m aw => coreSetWord m aw.1 aw.2) [] }

/-- The word, executed in `s` (IA already past it), ends with these registers, words and first PSD word. -/
def sees (s : State) (w : Word) (regs : List (RegNum × Word)) (words : List (WordAddr × Word)) (p : Word) : Bool :=
  match execWord w s with
  | .next t =>
    regs.all (fun rv => getReg t rv.1 == rv.2) && words.all (fun av => coreWord t.mem av.1 == av.2) && psw1 t.psd == p
  | .fault _ => false
  | .refused _ => false

theorem test_li_neg :
    sees (given 0x00000201 [] []) 0x223FFFFF [(3, 0xFFFFFFFF)] [] 0x10000201 = true := by
  decide +kernel
theorem test_lb :
    sees (given 0x00000201 [(2, 0x3)] [(0x100, 0x11223344)]) 0x72440100 [(4, 0x44)] [] 0x20000201 = true := by
  decide +kernel
theorem test_lh :
    sees (given 0x00000201 [] [(0x100, 0x8001FFFF)]) 0x52400100 [(4, 0xFFFF8001)] [] 0x10000201 = true := by
  decide +kernel
theorem test_lh_index :
    sees (given 0x00000201 [(2, 0x5)] [(0x102, 0x00017FFF)]) 0x52440100 [(4, 0x7FFF)] [] 0x20000201 = true := by
  decide +kernel
theorem test_lw_indirect :
    sees (given 0x00000201 [(2, 0x3)] [(0x100, 0x12340200), (0x203, 0x87654321)]) 0xB2540100 [(5, 0x87654321)] []
      0x10000201 = true := by
  decide +kernel
theorem test_ld_odd_address :
    sees (given 0x00000201 [] [(0x100, 0x01234567), (0x101, 0x89ABCDEF)]) 0x12600101 [(6, 0x01234567), (7,
      0x89ABCDEF)] [] 0x20000201 = true := by
  decide +kernel
theorem test_ld_odd :
    sees (given 0x00000201 [] [(0x100, 0x0), (0x101, 0x12345678)]) 0x12700100 [(7, 0x0)] [] 0x20000201 = true := by
  decide +kernel
theorem test_lch :
    sees (given 0x00000201 [] [(0x100, 0x00010000)]) 0x5A100100 [(1, 0xFFFFFFFF)] [] 0x10000201 = true := by
  decide +kernel
theorem test_lch_min :
    sees (given 0x00000201 [] [(0x100, 0x80000000)]) 0x5A100100 [(1, 0x8000)] [] 0x20000201 = true := by
  decide +kernel
theorem test_lah :
    sees (given 0x00000201 [] [(0x100, 0xFFFE0000)]) 0x5B100100 [(1, 0x2)] [] 0x20000201 = true := by
  decide +kernel
theorem test_lcw_min :
    sees (given 0x00000201 [] [(0x100, 0x80000000)]) 0x3A100100 [(1, 0x80000000)] [] 0x50000201 = true := by
  decide +kernel
theorem test_lcw_trap :
    sees (given 0x00100201 [] [(0x100, 0x80000000), (0x43, 0x0F000068), (0x6A, 0x600)]) 0x3A100100 [(1,
      0x80000000)] [(0x68, 0x50100200)] 0x00000600 = true := by
  decide +kernel
theorem test_law_min :
    sees (given 0x00000201 [] [(0x100, 0x80000000)]) 0x3B100100 [(1, 0x80000000)] [] 0x50000201 = true := by
  decide +kernel
theorem test_law_neg :
    sees (given 0xF0000201 [] [(0x100, 0xFFFFFFFE)]) 0x3B100100 [(1, 0x2)] [] 0xA0000201 = true := by
  decide +kernel
theorem test_lcd_min :
    sees (given 0x00000201 [] [(0x100, 0x80000000)]) 0x1A200100 [(2, 0x80000000), (3, 0x0)] [] 0x50000201 = true := by
  decide +kernel
theorem test_lcd_odd :
    sees (given 0x00000201 [] [(0x100, 0x01234567), (0x101, 0x89ABCDEF)]) 0x1A300100 [(3, 0xFEDCBA98)] []
      0x10000201 = true := by
  decide +kernel
theorem test_lad :
    sees (given 0x00000201 [] [(0x100, 0xFEDCBA98), (0x101, 0x76543210)]) 0x1B200100 [(2, 0x01234567), (3,
      0x89ABCDF0)] [] 0x20000201 = true := by
  decide +kernel
theorem test_ls_even :
    sees (given 0x00000201 [(3, 0xFF00FF00), (2, 0xAAAAAAAA)] [(0x100, 0x01234567)]) 0x4A200100 [(2, 0x01AA45AA)]
      [] 0x20000201 = true := by
  decide +kernel
theorem test_ls_odd :
    sees (given 0x00000201 [(3, 0xF0F0F0F0)] [(0x100, 0x89ABCDEF)]) 0x4A300100 [(3, 0x80A0C0E0)] [] 0x10000201 =
      true := by
  decide +kernel
theorem test_lm :
    sees (given 0x30000201 [] [(0x200, 0x1), (0x201, 0x2), (0x202, 0x3)]) 0x2AE00200 [(14, 0x1), (15, 0x2), (0,
      0x3)] [] 0x30000201 = true := by
  decide +kernel
theorem test_lm_all :
    sees (given 0x00000201 [] [(0x200, 0x1), (0x20F, 0x16)]) 0x2A000200 [(0, 0x1), (15, 0x16)] [] 0x00000201 = true
      := by
  decide +kernel
theorem test_lcfi_both :
    sees (given 0x00000201 [] []) 0x02300035 [] [] 0x35000201 = true := by
  decide +kernel
theorem test_lcfi_nop :
    sees (given 0x9A100201 [] []) 0x02000000 [] [] 0x92100201 = true := by
  decide +kernel
theorem test_lcf :
    sees (given 0x00000201 [] [(0x100, 0xA6000000)]) 0x70300100 [] [] 0xA6000201 = true := by
  decide +kernel
theorem test_xw :
    sees (given 0x00000201 [(7, 0x1)] [(0x100, 0x80000000)]) 0x46700100 [(7, 0x80000000)] [(0x100, 0x1)] 0x10000201
      = true := by
  decide +kernel
theorem test_stb :
    sees (given 0x00000201 [(1, 0x1), (4, 0x123456AB)] []) 0x75420100 [] [(0x100, 0x00AB0000)] 0x00000201 = true := by
  decide +kernel
theorem test_sth_fits :
    sees (given 0xF0000201 [(4, 0xFFFF8000)] []) 0x55400100 [] [(0x100, 0x80000000)] 0xB0000201 = true := by
  decide +kernel
theorem test_stw :
    sees (given 0x70000201 [(5, 0x12345678)] []) 0x35500100 [] [(0x100, 0x12345678)] 0x70000201 = true := by
  decide +kernel
theorem test_std_odd :
    sees (given 0x00000201 [(5, 0x89ABCDEF)] []) 0x15500100 [] [(0x100, 0x89ABCDEF), (0x101, 0x89ABCDEF)]
      0x00000201 = true := by
  decide +kernel
theorem test_std :
    sees (given 0x00000201 [(4, 0x01234567), (5, 0x89ABCDEF)] []) 0x15400101 [] [(0x100, 0x01234567), (0x101,
      0x89ABCDEF)] 0x00000201 = true := by
  decide +kernel
theorem test_sts_even :
    sees (given 0x00000201 [(4, 0x12345678), (5, 0xF0F0F0F0)] [(0x100, 0xFFFFFFFF)]) 0x47400100 [] [(0x100,
      0x1F3F5F7F)] 0x00000201 = true := by
  decide +kernel
theorem test_sts_odd :
    sees (given 0x00000201 [(5, 0x00FF00FF)] [(0x100, 0x12345678)]) 0x47500100 [] [(0x100, 0x12FF56FF)] 0x00000201
      = true := by
  decide +kernel
theorem test_stm :
    sees (given 0x20000201 [(14, 0xA), (15, 0xB), (0, 0xC)] [(0x202, 0x9)]) 0x2BE00200 [] [(0x200, 0xA), (0x201,
      0xB), (0x202, 0x9)] 0x20000201 = true := by
  decide +kernel
theorem test_stcf :
    sees (given 0xA6000201 [] [(0x100, 0x11223344)]) 0x74000100 [] [(0x100, 0xA6223344)] 0xA6000201 = true := by
  decide +kernel
theorem test_anlz_byte :
    sees (given 0xF0000201 [(2, 0x3)] [(0x100, 0x72440123)]) 0x44300100 [(3, 0x48F)] [] 0x00000201 = true := by
  decide +kernel
theorem test_anlz_ind :
    sees (given 0x00000201 [] [(0x100, 0xB2000200), (0x200, 0xFFFE0345)]) 0x44300100 [(3, 0x345)] [] 0xA0000201 =
      true := by
  decide +kernel
theorem test_int_even :
    sees (given 0x00000201 [] [(0x100, 0x12345678)]) 0x6B200100 [(2, 0x234), (3, 0x5678)] [] 0x10000201 = true := by
  decide +kernel
theorem test_int_odd :
    sees (given 0x00000201 [] [(0x100, 0x12345678)]) 0x6B300100 [(3, 0x5678)] [] 0x10000201 = true := by
  decide +kernel
theorem test_ai :
    sees (given 0x00000201 [(5, 0x2)] []) 0x205FFFFE [(5, 0x0)] [] 0x80000201 = true := by
  decide +kernel
theorem test_aw_over :
    sees (given 0x00000201 [(4, 0x7FFFFFFF)] [(0x100, 0x1)]) 0x30400100 [(4, 0x80000000)] [] 0x50000201 = true := by
  decide +kernel
theorem test_aw_trap :
    sees (given 0x00100201 [(4, 0x7FFFFFFF)] [(0x100, 0x1), (0x43, 0x0F000068)]) 0x30400100 [(4, 0x80000000)]
      [(0x68, 0x50100200)] 0x00000000 = true := by
  decide +kernel
theorem test_ah :
    sees (given 0x00000201 [(4, 0x1)] [(0x100, 0xFFFF0000)]) 0x50400100 [(4, 0x0)] [] 0x80000201 = true := by
  decide +kernel
theorem test_ad_over :
    sees (given 0x00000201 [(4, 0x7FFFFFFF), (5, 0xFFFFFFFF)] [(0x101, 0x1)]) 0x10400100 [(4, 0x80000000), (5,
      0x0)] [] 0x50000201 = true := by
  decide +kernel
theorem test_sw :
    sees (given 0x00000201 [(4, 0x5)] [(0x100, 0x3)]) 0x38400100 [(4, 0x2)] [] 0xA0000201 = true := by
  decide +kernel
theorem test_sw_neg :
    sees (given 0x00000201 [(4, 0x3)] [(0x100, 0x5)]) 0x38400100 [(4, 0xFFFFFFFE)] [] 0x10000201 = true := by
  decide +kernel
theorem test_sh :
    sees (given 0x00000201 [] [(0x100, 0x80000000)]) 0x58400100 [(4, 0x8000)] [] 0x20000201 = true := by
  decide +kernel
theorem test_sd :
    sees (given 0x00000201 [(4, 0x1)] [(0x101, 0x1)]) 0x18400100 [(4, 0x0), (5, 0xFFFFFFFF)] [] 0xA0000201 = true
      := by
  decide +kernel
theorem test_mi :
    sees (given 0x80000201 [(5, 0x10001000)] []) 0x23470000 [(4, 0x7000), (5, 0x70000000)] [] 0xE0000201 = true := by
  decide +kernel
theorem test_mi_odd :
    sees (given 0x00000201 [(5, 0x00030002)] []) 0x23501234 [(5, 0x369C2468)] [] 0x20000201 = true := by
  decide +kernel
theorem test_mh :
    sees (given 0xC0000201 [(4, 0x1234000A)] [(0x100, 0xFFFF0000)]) 0x57400100 [(4, 0x1234000A), (5, 0xFFFFFFF6)]
      [] 0xD0000201 = true := by
  decide +kernel
theorem test_mw :
    sees (given 0x00000201 [(5, 0x10000)] [(0x100, 0x10000)]) 0x37400100 [(4, 0x1), (5, 0x0)] [] 0x60000201 = true
      := by
  decide +kernel
theorem test_mw_odd :
    sees (given 0x80000201 [(5, 0xFFFFFFFF)] [(0x100, 0x3)]) 0x37500100 [(5, 0xFFFFFFFD)] [] 0x90000201 = true := by
  decide +kernel
theorem test_dh :
    sees (given 0x80000201 [(4, 0xFFFFFFF9)] [(0x100, 0x20000)]) 0x56400100 [(4, 0xFFFFFFFD)] [] 0x90000201 = true
      := by
  decide +kernel
theorem test_dh_zero :
    sees (given 0xB0000201 [(4, 0x7)] []) 0x56400100 [(4, 0x7)] [] 0xF0000201 = true := by
  decide +kernel
theorem test_dw :
    sees (given 0x00000201 [(4, 0xFFFFFFFF), (5, 0xFFFFFFF9)] [(0x100, 0x2)]) 0x36400100 [(4, 0xFFFFFFFF), (5,
      0xFFFFFFFD)] [] 0x10000201 = true := by
  decide +kernel
theorem test_dw_over :
    sees (given 0x00000201 [(4, 0x1)] [(0x100, 0x1)]) 0x36400100 [(4, 0x1), (5, 0x0)] [] 0x40000201 = true := by
  decide +kernel
theorem test_awm :
    sees (given 0x00000201 [(4, 0x1)] [(0x100, 0xFFFFFFFF)]) 0x66400100 [(4, 0x1)] [(0x100, 0x0)] 0x80000201 = true
      := by
  decide +kernel
theorem test_mtb :
    sees (given 0x00000201 [] [(0x100, 0x01000000)]) 0x73F00100 [] [(0x100, 0x0)] 0x80000201 = true := by
  decide +kernel
theorem test_mtb_test :
    sees (given 0x00000201 [] [(0x100, 0x80000000)]) 0x73000100 [] [(0x100, 0x80000000)] 0x20000201 = true := by
  decide +kernel
theorem test_mth :
    sees (given 0x00000201 [] [(0x100, 0x7FFF0000)]) 0x53100100 [] [(0x100, 0x80000000)] 0x50000201 = true := by
  decide +kernel
theorem test_mtw_test :
    sees (given 0x00000201 [] [(0x100, 0x80000000)]) 0x33000100 [] [(0x100, 0x80000000)] 0x10000201 = true := by
  decide +kernel
theorem test_mtw :
    sees (given 0x00000201 [] [(0x100, 0xFFFFFFFF)]) 0x33100100 [] [(0x100, 0x0)] 0x80000201 = true := by
  decide +kernel
theorem test_ci :
    sees (given 0x00000201 [] []) 0x214FFFFF [] [] 0x20000201 = true := by
  decide +kernel
theorem test_cb :
    sees (given 0x00000201 [(3, 0x3), (4, 0x80)] [(0x100, 0x7F)]) 0x71460100 [] [] 0x20000201 = true := by
  decide +kernel
theorem test_ch :
    sees (given 0x00000201 [(4, 0xFFFFFFFF)] [(0x100, 0xFFFF0000)]) 0x51400100 [] [] 0x40000201 = true := by
  decide +kernel
theorem test_cw :
    sees (given 0x00000201 [(4, 0x80000000)] [(0x100, 0x7FFFFFFF)]) 0x31400100 [] [] 0x10000201 = true := by
  decide +kernel
theorem test_cd :
    sees (given 0x00000201 [(5, 0x1)] [(0x100, 0xFFFFFFFF), (0x101, 0xFFFFFFFF)]) 0x11400100 [] [] 0x20000201 =
      true := by
  decide +kernel
theorem test_cs :
    sees (given 0xC0000201 [(4, 0x12345678), (5, 0xFF00)] [(0x100, 0xFFFF56FF)]) 0x45400100 [] [] 0xC0000201 = true
      := by
  decide +kernel
theorem test_clr :
    sees (given 0x00000201 [(4, 0xA), (5, 0x1)] [(0x100, 0x5)]) 0x39400100 [] [] 0x60000201 = true := by
  decide +kernel
theorem test_clm :
    sees (given 0x00000201 [(4, 0x5)] [(0x100, 0xA), (0x101, 0x1)]) 0x19400100 [] [] 0x90000201 = true := by
  decide +kernel
theorem test_or :
    sees (given 0x00000201 [(4, 0x0F0F0000)] [(0x100, 0x80000001)]) 0x49400100 [(4, 0x8F0F0001)] [] 0x10000201 =
      true := by
  decide +kernel
theorem test_eor :
    sees (given 0xF0000201 [(4, 0x12345678)] []) 0x48400004 [(4, 0x0)] [] 0xC0000201 = true := by
  decide +kernel
theorem test_and :
    sees (given 0x00000201 [(4, 0xFFFF0000)] [(0x100, 0x0FF00FF0)]) 0x4B400100 [(4, 0x0FF00000)] [] 0x20000201 =
      true := by
  decide +kernel
theorem test_s_circular_odd :
    sees (given 0x00000201 [(5, 0x12345678)] []) 0x25500308 [(5, 0x34567812)] [] 0x40000201 = true := by
  decide +kernel
theorem test_s_arithmetic :
    sees (given 0x00000201 [(4, 0xC0000001)] []) 0x25400402 [(4, 0x4)] [] 0x40000201 = true := by
  decide +kernel
theorem test_sf3 :
    sees (given 0x00000201 [(4, 0x01000100)] []) 0x24400006 [(4, 0x7F010000)] [] 0x60000201 = true := by
  decide +kernel
theorem test_sf10 :
    sees (given 0x00000201 [(4, 0x41000000), (5, 0x10)] []) 0x2440010C [(4, 0x35100000), (5, 0x0)] [] 0xA0000201 =
      true := by
  decide +kernel
theorem test_cva :
    sees (given 0x40000201 [(5, 0x25)] [(0x11A, 0x20), (0x11D, 0x4), (0x11F, 0x1)]) 0x29400100 [(4, 0x25)] []
      0x60000201 = true := by
  decide +kernel
theorem test_cvs :
    sees (given 0x00000201 [(4, 0x19)] [(0x118, 0x50), (0x119, 0x28), (0x11A, 0x14), (0x11B, 0xA), (0x11C, 0x8),
      (0x11D, 0x4), (0x11E, 0x2), (0x11F, 0x1), (0x100, 0x7FFFFFFF), (0x101, 0x7FFFFFFF), (0x102, 0x7FFFFFFF),
      (0x103, 0x7FFFFFFF), (0x104, 0x7FFFFFFF), (0x105, 0x7FFFFFFF), (0x106, 0x7FFFFFFF), (0x107, 0x7FFFFFFF),
      (0x108, 0x7FFFFFFF), (0x109, 0x7FFFFFFF), (0x10A, 0x7FFFFFFF), (0x10B, 0x7FFFFFFF), (0x10C, 0x7FFFFFFF),
      (0x10D, 0x7FFFFFFF), (0x10E, 0x7FFFFFFF), (0x10F, 0x7FFFFFFF), (0x110, 0x7FFFFFFF), (0x111, 0x7FFFFFFF),
      (0x112, 0x7FFFFFFF), (0x113, 0x7FFFFFFF), (0x114, 0x7FFFFFFF), (0x115, 0x7FFFFFFF), (0x116, 0x7FFFFFFF),
      (0x117, 0x7FFFFFFF)]) 0x28400100 [(4, 0x0), (5, 0x25)] [] 0x20000201 = true := by
  decide +kernel
theorem test_fas :
    sees (given 0x00000201 [(4, 0x41F00000)] [(0x100, 0x41100000)]) 0x3D400100 [(4, 0x42100000)] [] 0x20000201 =
      true := by
  decide +kernel
theorem test_fas_over :
    sees (given 0x00000201 [(4, 0x7FFFFFFF)] [(0x100, 0x7A100000), (0x44, 0x0F000068)]) 0x3D400100 [(4,
      0x7FFFFFFF)] [(0x68, 0x60000200)] 0x00000000 = true := by
  decide +kernel
theorem test_fss :
    sees (given 0x00000201 [(4, 0x41100000)] [(0x100, 0x40FFFFFF)]) 0x3C400100 [(4, 0x3B100000)] [] 0xA0000201 =
      true := by
  decide +kernel
theorem test_fss_under :
    sees (given 0x00000201 [(4, 0x00100001)] [(0x100, 0x00100000)]) 0x3C400100 [(4, 0x0)] [] 0xC0000201 = true := by
  decide +kernel
theorem test_fal :
    sees (given 0x00000201 [(4, 0x41100000)] [(0x100, 0x34100000), (0x101, 0x1)]) 0x1D400100 [(4, 0x41100000), (5,
      0x1)] [] 0x20000201 = true := by
  decide +kernel
theorem test_fsl :
    sees (given 0x00000201 [(4, 0x41100000)] [(0x100, 0x40100000)]) 0x1C400100 [(4, 0x40F00000), (5, 0x0)] []
      0x20000201 = true := by
  decide +kernel
theorem test_fms :
    sees (given 0x00000201 [(4, 0x41200000)] [(0x100, 0x41300000)]) 0x3F400100 [(4, 0x41600000), (5, 0x0)] []
      0x20000201 = true := by
  decide +kernel
theorem test_fms_neg :
    sees (given 0x00000201 [(4, 0xBEE00000)] [(0x100, 0xBED00000)]) 0x3F400100 [(4, 0x41600000), (5, 0x0)] []
      0x20000201 = true := by
  decide +kernel
theorem test_fml :
    sees (given 0x00000201 [(4, 0x41200000)] [(0x100, 0x41300000)]) 0x1F400100 [(4, 0x41600000), (5, 0x0)] []
      0x20000201 = true := by
  decide +kernel
theorem test_fds :
    sees (given 0x00000201 [(4, 0x43500000)] [(0x100, 0xBCB00000)]) 0x3E400100 [(4, 0xBEF00000)] [] 0x10000201 =
      true := by
  decide +kernel
theorem test_fds_zero :
    sees (given 0x00000201 [(4, 0x43500000)] [(0x44, 0x0F000068)]) 0x3E400100 [(4, 0x43500000)] [(0x68,
      0x40000200)] 0x00000000 = true := by
  decide +kernel
theorem test_fdl :
    sees (given 0x00000201 [(4, 0x41100000)] [(0x100, 0x41300000)]) 0x1E400100 [(4, 0x40555555), (5, 0x55555555)]
      [] 0x20000201 = true := by
  decide +kernel
theorem test_dl_trap :
    sees (given 0x30200201 [(15, 0x7)] [(0x100, 0x1A3C0000), (0x45, 0x0F000068)]) 0x7E200100 [(15, 0x7)] [(0x68,
      0xB0200200)] 0x00000000 = true := by
  decide +kernel
theorem test_dst :
    sees (given 0x30000201 [(15, 0x0001234F)] [(0x100, 0x11223344)]) 0x7F200100 [] [(0x100, 0x234C3344)] 0x70000201
      = true := by
  decide +kernel
theorem test_da :
    sees (given 0x00000201 [(15, 0x999C)] [(0x100, 0x001C0000)]) 0x79200100 [(15, 0x1000C)] [] 0x20000201 = true := by
  decide +kernel
theorem test_da_neg :
    sees (given 0x00000201 [(15, 0x123C)] [(0x100, 0x456D0000)]) 0x79200100 [(15, 0x333D)] [] 0x10000201 = true := by
  decide +kernel
theorem test_ds :
    sees (given 0x00000201 [(15, 0x5C)] [(0x100, 0x7C000000)]) 0x78100100 [(15, 0x2D)] [] 0x10000201 = true := by
  decide +kernel
theorem test_dm :
    sees (given 0x00000201 [(14, 0x12345678), (15, 0x9012345D)] [(0x100, 0x012C0000)]) 0x7B200100 [(13, 0x1), (14,
      0x48148146), (15, 0x8148140D)] [] 0x10000201 = true := by
  decide +kernel
theorem test_dd :
    sees (given 0x00000201 [(15, 0x1000C)] [(0x100, 0x007D0000)]) 0x7A200100 [(12, 0x0), (13, 0x6C), (14, 0x0),
      (15, 0x142D)] [] 0x10000201 = true := by
  decide +kernel
theorem test_dc :
    sees (given 0x00000201 [(15, 0xD)] [(0x100, 0x0C000000)]) 0x7D100100 [(15, 0xD)] [] 0x00000201 = true := by
  decide +kernel
theorem test_dsa_left :
    sees (given 0x00000201 [(15, 0x12345D)] []) 0x7C000003 [(14, 0x1), (15, 0x2345000D)] [] 0x10000201 = true := by
  decide +kernel
theorem test_dsa_right :
    sees (given 0x00000201 [(15, 0x0012345D)] []) 0x7C00FFFE [(15, 0x123D)] [] 0x10000201 = true := by
  decide +kernel
theorem test_pack :
    sees (given 0x00000201 [] [(0x100, 0xF0F1F2F3), (0x101, 0xF4F5F6F7), (0x102, 0xF8F9F000)]) 0x76600100 [(14,
      0x123), (15, 0x4567890C)] [] 0x20000201 = true := by
  decide +kernel
theorem test_pack3 :
    sees (given 0x00000201 [] [(0x140, 0xF1F2C300)]) 0x76200140 [(15, 0x123C)] [] 0x20000201 = true := by
  decide +kernel
theorem test_unpk :
    sees (given 0x20000201 [(13, 0x1), (14, 0x23456789), (15, 0x0123456D)] [(0x104, 0xFFFFFFFF)]) 0x77A00100 []
      [(0x100, 0xF0F0F0F1), (0x101, 0xF2F3F4F5), (0x102, 0xF6F7F8F9), (0x103, 0xF0F1F2F3), (0x104, 0xF4F5D6FF)]
      0x20000201 = true := by
  decide +kernel
theorem test_mbs :
    sees (given 0x00000201 [(2, 0x410), (3, 0x03000500)] [(0x100, 0x11223344)]) 0x612FFFF0 [(2, 0x411), (3,
      0x02000501)] [(0x140, 0x11000000)] 0x00000200 = true := by
  decide +kernel
theorem test_mbs_last :
    sees (given 0x00000201 [(2, 0x412), (3, 0x01000502)] [(0x100, 0x11223344)]) 0x612FFFF0 [(2, 0x413), (3, 0x503)]
      [(0x140, 0x3300)] 0x00000201 = true := by
  decide +kernel
theorem test_cbs :
    sees (given 0x00000201 [(2, 0x402), (3, 0x02000502)] [(0x100, 0x01028004), (0x140, 0x01027F04)]) 0x60200000
      [(2, 0x402), (3, 0x02000502)] [] 0x20000201 = true := by
  decide +kernel
theorem test_cbs_equal :
    sees (given 0x00000201 [(2, 0x403), (3, 0x01000503)] [(0x100, 0x01028004), (0x140, 0x01027F04)]) 0x60200000
      [(2, 0x404), (3, 0x504)] [] 0x00000201 = true := by
  decide +kernel
theorem test_tbs :
    sees (given 0x00000201 [(2, 0x800), (3, 0x01000501)] [(0x140, 0x00020000), (0x200, 0xFFFEFDFC)]) 0x41200000
      [(3, 0x502)] [(0x140, 0x00FD0000)] 0x00000201 = true := by
  decide +kernel
theorem test_ttbs_hit :
    sees (given 0x20000201 [(2, 0x0F000800), (3, 0x02000502)] [(0x140, 0x10203040), (0x20C, 0x00350000)])
      0x40200000 [(2, 0x0F000800), (3, 0x01000503)] [] 0x20000200 = true := by
  decide +kernel
theorem test_ttbs_hit2 :
    sees (given 0x20000201 [(2, 0x0F000800), (3, 0x02000502)] [(0x140, 0x10203040), (0x20C, 0x35000000)])
      0x40200000 [(2, 0x05000800), (3, 0x02000502)] [] 0x30000201 = true := by
  decide +kernel
theorem test_psw :
    sees (given 0xF0000201 [(4, 0xDEADBEEF)] [(0x200, 0x1000), (0x201, 0x30000)]) 0x09400200 [] [(0x1001,
      0xDEADBEEF), (0x200, 0x1001), (0x201, 0x20001)] 0x00000201 = true := by
  decide +kernel
theorem test_plw :
    sees (given 0xF0000201 [] [(0x200, 0x1001), (0x201, 0x20001), (0x1001, 0xDEADBEEF)]) 0x08500200 [(5,
      0xDEADBEEF)] [(0x200, 0x1000), (0x201, 0x30000)] 0x10000201 = true := by
  decide +kernel
theorem test_plw_abort :
    sees (given 0xF0000201 [(5, 0x3)] [(0x200, 0x1000), (0x201, 0x38000)]) 0x08500200 [(5, 0x3)] [(0x200, 0x1000),
      (0x201, 0x38000)] 0x30000201 = true := by
  decide +kernel
theorem test_psm :
    sees (given 0x30000201 [(6, 0x6), (7, 0x7), (8, 0x8)] [(0x200, 0x1000), (0x201, 0x30000)]) 0x0B600200 []
      [(0x1001, 0x6), (0x1002, 0x7), (0x1003, 0x8), (0x200, 0x1003), (0x201, 0x3)] 0x40000201 = true := by
  decide +kernel
theorem test_plm :
    sees (given 0x30000201 [] [(0x200, 0x1003), (0x201, 0x3), (0x1001, 0x6), (0x1002, 0x7), (0x1003, 0x8)])
      0x0A600200 [(6, 0x6), (7, 0x7), (8, 0x8)] [(0x200, 0x1000), (0x201, 0x30000)] 0x10000201 = true := by
  decide +kernel
theorem test_psm_trap :
    sees (given 0x40000201 [(6, 0x6)] [(0x200, 0x1000), (0x201, 0x30000), (0x42, 0x0F000068)]) 0x0B600200 []
      [(0x1001, 0x0), (0x201, 0x30000), (0x68, 0x40000200)] 0x00000000 = true := by
  decide +kernel
theorem test_msp :
    sees (given 0xF0000201 [(4, 0xFFFE)] [(0x200, 0x1003), (0x201, 0x3)]) 0x13400200 [] [(0x200, 0x1001), (0x201,
      0x20001)] 0x00000201 = true := by
  decide +kernel
theorem test_msp_abort :
    sees (given 0x00000201 [(4, 0x4)] [(0x200, 0x1000), (0x201, 0x80030000)]) 0x13400200 [] [(0x200, 0x1000),
      (0x201, 0x80030000)] 0x90000201 = true := by
  decide +kernel
theorem test_exu :
    sees (given 0x00000201 [] [(0x100, 0x22400005)]) 0x67000100 [(4, 0x5)] [] 0x20000201 = true := by
  decide +kernel
theorem test_exu_chain :
    sees (given 0x00000201 [] [(0x100, 0x67000101), (0x101, 0x6A500300)]) 0x67000100 [(5, 0x201)] [] 0x00000300 =
      true := by
  decide +kernel
theorem test_bcs_taken :
    sees (given 0x10000201 [] []) 0x69100200 [] [] 0x10000200 = true := by
  decide +kernel
theorem test_bcs_not :
    sees (given 0xE0000201 [] []) 0x69100300 [] [] 0xE0000201 = true := by
  decide +kernel
theorem test_bcr :
    sees (given 0x40000201 [] []) 0x68300300 [] [] 0x40000300 = true := by
  decide +kernel
theorem test_bir :
    sees (given 0x00000201 [(4, 0xFFFFFFFE)] []) 0x65400300 [(4, 0xFFFFFFFF)] [] 0x00000300 = true := by
  decide +kernel
theorem test_bir_zero :
    sees (given 0x00000201 [(4, 0xFFFFFFFF)] []) 0x65400300 [(4, 0x0)] [] 0x00000201 = true := by
  decide +kernel
theorem test_bdr :
    sees (given 0x00000201 [(4, 0x2)] []) 0x64400300 [(4, 0x1)] [] 0x00000300 = true := by
  decide +kernel
theorem test_bdr_neg :
    sees (given 0x00000201 [(4, 0x0)] []) 0x64400300 [(4, 0xFFFFFFFF)] [] 0x00000201 = true := by
  decide +kernel
theorem test_bal :
    sees (given 0x00000101 [] []) 0x6A500200 [(5, 0x101)] [] 0x00000200 = true := by
  decide +kernel
theorem test_cal2 :
    sees (given 0x80002001 [] [(0x49, 0x0F000070), (0x72, 0x40000800)]) 0x05700123 [] [(0x70, 0x80002000), (0x71,
      0x0)] 0x70000800 = true := by
  decide +kernel
theorem test_cal1 :
    sees (given 0x00800202 [] [(0x48, 0x0F400180), (0x182, 0x300)]) 0x04200000 [] [(0x180, 0x00800201)] 0x20000302
      = true := by
  decide +kernel
theorem test_cal3 :
    sees (given 0x00000201 [] [(0x4A, 0x0F000070), (0x72, 0x40000800)]) 0x06300000 [] [(0x70, 0x00000200)]
      0x70000800 = true := by
  decide +kernel
theorem test_cal4 :
    sees (given 0x00000201 [] [(0x4B, 0x0F400070), (0x72, 0x40000800)]) 0x07300000 [] [(0x70, 0x00000200)]
      0x70000803 = true := by
  decide +kernel
theorem test_lpsd :
    sees (given 0x00000201 [] [(0x100, 0x30000200)]) 0x0E000100 [] [] 0x30000200 = true := by
  decide +kernel
theorem test_lpsd_slave :
    sees (given 0x30801001 [] [(0x40, 0x0F400060), (0x62, 0x500)]) 0x0E000200 [] [(0x60, 0x30801000)] 0x20000502 =
      true := by
  decide +kernel
theorem test_xpsd :
    sees (given 0x20000051 [] [(0x102, 0x300), (0x103, 0x07000000)]) 0x0F000100 [] [(0x100, 0x20000051), (0x101,
      0x0)] 0x00000300 = true := by
  decide +kernel
theorem test_nonexistent_trap :
    sees (given 0x10000201 [] [(0x40, 0x0F400060), (0x62, 0x500)]) 0x00000000 [] [(0x60, 0x10000200)] 0x80000508 =
      true := by
  decide +kernel
theorem test_nonexistent_privileged_trap :
    sees (given 0x00801001 [] [(0x40, 0x0F400060), (0x62, 0x500)]) 0x0C000000 [] [(0x60, 0x00801000)] 0xA000050A =
      true := by
  decide +kernel
theorem test_mmc :
    sees (given 0x00000201 [(2, 0x400), (3, 0x02004000)] [(0x400, 0x01020304)]) 0x6F280000 [(2, 0x401), (3,
      0x01004800)] [] 0x00000200 = true := by
  decide +kernel
theorem test_mmc_last :
    sees (given 0x00000201 [(2, 0x401), (3, 0x01004800)] [(0x400, 0x01020304)]) 0x6F280000 [(2, 0x402), (3,
      0x00005000)] [] 0x00000201 = true := by
  decide +kernel
theorem test_wd_cc :
    sees (given 0xF0000201 [] []) 0x6D000037 [] [] 0x00000201 = true := by
  decide +kernel
theorem test_sio_none :
    sees (given 0x00000201 [(3, 0x9)] []) 0x4C300003 [(3, 0x9)] [] 0xC0000201 = true := by
  decide +kernel
theorem test_hio_none :
    sees (given 0x00000201 [(3, 0x9)] []) 0x4F300003 [(3, 0x9)] [] 0xC0000201 = true := by
  decide +kernel
theorem test_tio_none :
    sees (given 0x00000201 [(3, 0x9)] []) 0x4D300003 [(3, 0x9)] [] 0xC0000201 = true := by
  decide +kernel
theorem test_tdv_none :
    sees (given 0x00000201 [(3, 0x9)] []) 0x4E300003 [(3, 0x9)] [] 0xC0000201 = true := by
  decide +kernel
theorem test_aio_none :
    sees (given 0x30000201 [(6, 0x9)] []) 0x6E600000 [(6, 0x9)] [] 0xF0000201 = true := by
  decide +kernel
theorem test_sio_slave :
    sees (given 0x00801001 [] [(0x40, 0x0F400060), (0x62, 0x500)]) 0x4C000003 [] [(0x60, 0x00801000)] 0x20000502 =
      true := by
  decide +kernel
theorem test_li_indirect_nonexistent :
    sees (given 0x00000201 [(3, 0x9)] [(0x40, 0x0F400060), (0x62, 0x500)]) 0xA2300005 [(3, 0x9)] [(0x60,
      0x00000200)] 0x80000508 = true := by
  decide +kernel

/-- The outcome is a next state with this property. -/
def holds (o : Host.Outcome State Fault Refusal) (p : State → Bool) : Bool :=
  match o with
  | .next t => p t
  | .fault _ => false
  | .refused _ => false

/-- LRP (48_control R467's example). -/
theorem test_lrp :
    holds (execWord 0x2F000100 (given 0x201 [] [(0x100, 0xFFFFFE3F)])) (fun t => t.psd.rp == 3) = true := by
  decide +kernel

/-- WAIT (R475). -/
theorem test_wait : holds (execWord 0x2E000000 (given 0x201 [] [])) (fun t => t.halts.wait) = true := by
  decide +kernel

/-- EBS: the last step of M26, where the counter runs out. -/
theorem test_ebs_blank :
    holds (execWord 0x63600000
      (given 0x80000201 [(6, 0x5C000104), (7, 0x0100100B)] [(0x402, 0x000000D9)]))
      (fun t => coreWord t.mem 0x402 == 0x00000040 && getReg t 7 == 0x100C && ccBits t.psd == 8) = true := by
  decide +kernel

/-- EBS: a digit selector, significance already started, takes a digit of the packed field (R402). -/
theorem test_ebs_digit :
    holds (execWord 0x63600000
      (given 0x30000201 [(6, 0x5C000100), (7, 0x02001000)] [(0x40, 0x06543210), (0x400, 0x20200000)]))
      (fun t => coreWord t.mem 0x400 == 0xF0200000 && getReg t 7 == 0x01001001) = true := by
  decide +kernel

/-- RD of an absent element takes the watchdog trap and changes no register (vector T11); the condition codes are free. -/
theorem test_rd_absent :
    holds (execWord 0x6C402000 (given 0x201 [(4, 9)] [(0x46, 0x0F000068), (0x6A, 0x600)]))
      (fun t => getReg t 4 == 9) = true := by
  decide +kernel

/-- RD of the SENSE switches: vector CT10. -/
theorem test_rd_sense :
    holds (execWord 0x6C000000 { given 0x201 [] [] with panel := { Panel.reset with sense := 0xA } })
      (fun t => ccBits t.psd == 0xA) = true := by
  decide +kernel

/-- WD interrupt control: vector CT13. -/
theorem test_wd_arm :
    holds (execWord 0x6D401200 (given 0x201 [(4, 0x1000)] []))
      (fun t => level t 5 == ⟨.armed, true⟩ && level t 4 == ⟨.disarmed, false⟩) = true := by
  decide +kernel

/-- LPSD with clear and arm: vector CT3. -/
theorem test_lpsd_clear :
    holds (execWord 0x0E300190
      (setLevel (setLevel (given 0x201 [] []) 11 ⟨.active, true⟩) 12 ⟨.active, true⟩))
      (fun t => level t 11 == ⟨.armed, true⟩ && level t 12 == ⟨.active, true⟩) = true := by
  decide +kernel

/-- A card reader, ready and automatic. -/
def reader : Controller where
  iop := 0
  selector := false
  cond := 0
  opStatus := 0
  counter := 0
  active := false
  order := 0
  address := 0
  flags := 0
  count := 0x50
  countDone := false
  dataOut := 0
  serving := 0
  devices := [⟨3, false, 0, true, false, false, 0, false, 0x0010, false⟩]

/-- The CPU with the card reader attached. -/
def withReader (s : State) : State := { s with io := [reader] }

/-- TIO: vector IO4. -/
theorem test_tio_ready :
    holds (execWord 0x4D300003 (withReader (given 0x201 [] [])))
      (fun t => getReg t 3 == 0x10000050 && ccBits t.psd == 0) = true := by
  decide +kernel

/-- SIO accepted: the counter is loaded and the reader is busy (R503). -/
theorem test_sio_accepted :
    holds (execWord 0x4C000003 (withReader (given 0x201 [(0, 0x80)] [])))
      (fun t => ccBits t.psd == 0 && t.io.all (fun c => c.counter == 0x80 && c.cond == 3)) = true := by
  decide +kernel

/-- HIO clears a pending interrupt (R505). -/
theorem test_hio_clears :
    holds (execWord 0x4F000003 (ioEvent (.request 3) (withReader (given 0x201 [] []))))
      (fun t => ccBits t.psd == 0 && !ioRequest t) = true := by
  decide +kernel

/-- AIO: the form of vector IO7. -/
theorem test_aio :
    holds (execWord 0x6E600000 (ioEvent (.request 3) (withReader (given 0x201 [] []))))
      (fun t => getReg t 6 == 0x00100003 && ccBits t.psd == 0 && !ioRequest t) = true := by
  decide +kernel

/-- TDV: a ready device, its status byte 0 (R507). -/
theorem test_tdv :
    holds (execWord 0x4E700003 (withReader (given 0x30000201 [] [])))
      (fun t => getReg t 7 == 0x50 && ccBits t.psd == 3) = true := by
  decide +kernel

/-! ### The map, the locks and the traps -/

/-- A mapped state: page 1 is at X'20' (vectors MM1 to MM8). -/
def mapped (p : Word) (code lockCode : BitVec 2) : State :=
  let s := given p [(5, 7)] [(0x4034, 0x1234), (0x40, 0x0F400060), (0x62, 0x500)]
  { s with
    map := s.map.set 1 0x20, acc := s.acc.set 1 code, lock := s.lock.set 0x20 lockCode
    psd := { s.psd with wk := 1 } }

/-- Vector MM1. -/
theorem test_map : holds (execWord 0x32500234 (mapped 0x00400201 0 0)) (fun t => getReg t 5 == 0x1234) = true := by
  decide +kernel
/-- Vector MM2. -/
theorem test_access_code :
    holds (execWord 0x35500234 (mapped 0x00C00201 1 0))
      (fun t => t.psd.ia == 0x501 && t.psd.cc4 && coreWord t.mem 0x4034 == 0x1234) = true := by
  decide +kernel
/-- Vector MM7. -/
theorem test_lock :
    holds (execWord 0x35500234 (mapped 0x00400201 3 2))
      (fun t => t.psd.ia == 0x501 && t.psd.cc4 && coreWord t.mem 0x4034 == 0x1234) = true := by
  decide +kernel

/-! ### The cycle -/

/-- Vector I1: the counter 4 pulse. -/
theorem test_counter_pulse :
    holds (step (setLevel { given 0x60000300 [] [(0x55, 0x33F00100), (0x100, 2)] with inputs := [] } 5 ⟨.waiting, true⟩))
      (fun t => coreWord t.mem 0x100 == 1 && level t 5 == ⟨.armed, true⟩ && psw1 t.psd == 0x60000300) = true := by
  decide +kernel

/-- Vector I5: an XPSD in an interrupt location. -/
theorem test_interrupt_xpsd :
    holds (step (setLevel
        (given 0x80000345 [] [(0x60, 0x0F000190), (0x192, 0x400), (0x193, 0x01000000)]) 16 ⟨.waiting, true⟩))
      (fun t => coreWord t.mem 0x190 == 0x80000345 && (level t 16).state == .active && t.psd.ei && t.psd.ia == 0x400) =
      true := by
  decide +kernel

/-- Vector T14: the fetch from an address that does not exist. -/
theorem test_fetch_nonexistent :
    holds (step
        { given 0x20004000 [] [(0x40, 0x0F400060), (0x62, 0x500)] with
          cfg := { Installation.standard with memSize := 3 } })
      (fun t => coreWord t.mem 0x60 == 0x20004000 && psw1 t.psd == 0x40000504) = true := by
  decide +kernel

/-- Vector BR10: an instruction in a register. -/
theorem test_fetch_register :
    holds (step (given 0x5 [(5, 0x22400007)] [])) (fun t => getReg t 4 == 7 && t.psd.ia == 6) = true := by
  decide +kernel

/-- After reset the displayed no-operation runs and IA is X'26' (70_reset R655). -/
theorem test_reset_first_step : holds (step State.reset) (fun t => t.psd.ia == 0x26) = true := by
  decide +kernel

/-- An instruction placed by `withFetchWord` runs first. -/
theorem test_withFetchWord :
    holds (step (State.reset.withFetchWord 32 0x22400005)) (fun t => getReg t 4 == 5) = true := by
  decide +kernel

/-- Vector RS2: LOAD. -/
theorem test_load :
    holds (applyEvent (.panel .load)
        { State.reset with panel := { Panel.reset with compute := .idle, unitAddress := 3 } })
      (fun t => coreWord t.mem 0x25 == 3 && coreWord t.mem 0x22 == 0x020000A8 && coreWord t.mem 0x29 == 0x69C00028 &&
        coreWord t.mem 0x2A == 0) = true := by
  decide +kernel

/-- STH into register R itself: CC2 tests the register after the store (40_load_store_analyze R178). -/
theorem test_sth_self :
    sees (given 0x40000201 [(4, 0x00010000)] []) 0x55400004 [(4, 0)] [] 0x00000201 = true := by
  decide +kernel

/-- A stepped WAIT: COMPUTE comes to IDLE, which resets the WAIT halt (R475, 70_reset R661). -/
theorem test_wait_stepped :
    (let s := given 0x201 [] [(0x201, 0x2E000000)]
    holds (step { s with panel := { s.panel with compute := .step }, started := true, ir := 0x2E000000 })
      (fun t => !t.halts.wait && decide (t.panel.compute = .idle))) = true := by
  decide +kernel

/-- A stepped MBS of three bytes is executed whole over its steps, and then COMPUTE is at IDLE (R661, R595). -/
theorem test_mbs_stepped :
    (let s := given 0x201 [(6, 0x400), (7, 0x01000800)] [(0x100, 0xC1C2C3C4)]
    holds (step { s with panel := { s.panel with compute := .step }, started := true, ir := 0x61600000 })
      (fun t => coreWord t.mem 0x200 == 0xC1000000 && decide (t.panel.compute = .idle))) = true := by
  decide +kernel

/-- A parity error at HALT: the CPU halts and the module takes no STORE, another module does (60_exceptions R606). -/
theorem test_parity_halt :
    (let s := { given 0x201 [] [] with cfg := { Installation.standard with memSize := 7 }, ir := 5 }
    let h := parityError 0x8000 { s with panel := { s.panel with parityHalt := true }, unavailable := 0x80 }
    h.halts.parity && h.memFault == 0x20 && h.unavailable == 0xA0 && coreWord (storeAt 0x100 h).mem 0x100 == 0 &&
      coreWord (storeAt 0x4000 h).mem 0x4000 == 5) = true := by
  decide +kernel

/-- SIO to a device with a fault condition is not accepted (R503, R527). -/
theorem test_sio_fault :
    holds (execWord 0x4C000003 (ioEvent (.status 3 0 true true 0 false 0 false) (withReader (given 0x201 [(0, 0x80)] []))))
      (fun t => ccBits t.psd == 4 && t.io.all (fun c => c.cond == 0)) = true := by
  decide +kernel

/-- DD by a divisor of more than 15 digits, where it is no overflow: no flag of an overflow is set, no trap is taken (D23, U5). -/
theorem test_dd_long_divisor :
    (let s := given 0x00200201 [(15, 0x0000007C)] [(0x100, 0x10000000), (0x101, 0x00000000), (0x102, 0x0C000000)]
    holds (execWord 0x7A900100 { s with cfg := { s.cfg with ddLongDivisorOverflows := false } })
      (fun t => t.psd.ia == 0x201 && t.draws == 5)) = true := by
  decide +kernel

/-- Two stepped instructions in registers 5 and 6, the first of which alters register 6: the second word is free (70_reset R670). -/
theorem test_hazard_stepped :
    (let s := given 0x5 [(5, 0x22600007)] []
    holds (step { s with panel := { s.panel with compute := .step }, started := true, ir := 0x22600007, irAt := some 5 })
      (fun t => t.hazard == some 6 && t.irAt == some 6 && t.draws == 1)) = true := by
  decide +kernel

/-- ADDR STOP at the trap location X'48' of a CALL1: the XPSD is executed, then comes the halt (60_exceptions R621). -/
theorem test_stop_at_trap_location :
    (let s := given 0x201 [] [(0x201, 0x04000000), (0x48, 0x0F000060), (0x62, 0x500)]
    holds (step { s with panel := { s.panel with addrStop := true, selectAddress := 0x48 } })
      (fun t => t.halts.addrStop && t.psd.ia == 0x500 && coreWord t.mem 0x60 == 0x201)) = true := by
  decide +kernel

/-- INTERLEAVE SELECT tells whose indicator a parity error at an odd address lights (70_reset R665). -/
theorem test_interleave :
    (let s := { given 0x201 [] [] with cfg := { Installation.standard with interleave := .twoWay } }
    (parityError 0x101 s).memFault == 0x40 &&
      (parityError 0x101 { s with panel := { s.panel with interleaveDiagnostic := true } }).memFault == 0x80) = true := by
  decide +kernel

/-- A device that skips the next command of a chain: the doubleword after it is fetched (49_input_output R524). -/
theorem test_skip_command :
    (let s := { given 0x201 [] [(0x200, 0x02000800), (0x201, 0x20000001), (0x202, 0x08000100), (0x204, 0x01000900)] with
      io := [{ reader with
        cond := 3, active := true, countDone := true, counter := 0x100, flags := 0x20, serving := 3
        devices := reader.devices.map (fun d => { d with cond := 3 }) }] }
    (ioEvent (.channelEnd 3 false true .good) s).io.all
        (fun c => c.counter == 0x102 && c.order == 1 && c.address == 0x900) &&
      (ioEvent (.channelEnd 3 false false .good) s).io.all
        (fun c => c.counter == 0x100 && c.order == 2 && c.address == 0x800)) = true := by
  decide +kernel

/-- MMC with RP at a missing block that reads zeros: the count read after the word is 0, so that it ends (48_control R471). -/
theorem test_mmc_missing_block :
    (let s := given 0x201 [] []
    holds (execWord 0x6F280000 { s with cfg := { s.cfg with lastBlock := 0 }, psd := { s.psd with rp := 1 } })
      (fun t => t.psd.ia == 0x201)) = true := by
  decide +kernel

/-- In a data chain a doubleword with the order of Stop supplies address, flags and count (49_input_output R527). -/
theorem test_data_chain_stop :
    (let c := loadCommand 3 true 0x00000900 0x00000005 { reader with cond := 3, active := true, order := 2 }
    c.cond == 3 && c.active && c.order == 2 && c.address == 0x900 && c.count == 5) = true := by
  decide +kernel


/-- A decimal byte of EBS that is one digit (the address stays) stored as X'F1' into register 6, the R register, makes no hazard;
the right digit, after which the address advances, does (46_byte_string R402, 70_reset R670, D10). -/
theorem test_hazard_edit :
    (let s := given 0x5 [(5, 0x63600000), (6, 0x00000400), (7, 0x02000018)] [(0x100, 0x12000000)]
    let run (cc2 : Bool) := holds (step { s with regs := s.regs.set 6 0x20000400, psd := { s.psd with cc2 := cc2 } })
    run false (fun t => t.hazard == none && t.psd.ia == 5 && getReg t 6 == 0xF1000400) &&
      run true (fun t => t.hazard == some 6 && getReg t 6 == 0xF2000401)) = true := by
  decide +kernel

/-- An AI in register 5 that overflows into register 6 and traps: the XPSD is executed next, and IA = 6 after it draws no free
word (70_reset R670). -/
theorem test_hazard_trap :
    (let s := given 0x00100005 [(5, 0x20600001), (6, 0x7FFFFFFF)] [(0x43, 0x0F000060), (0x62, 6)]
    holds (step s) (fun t => t.hazard == none && t.psd.ia == 6 && getReg t 6 == 0x80000000 && coreWord t.mem 0x60 == 0x50100005)) = true := by
  decide +kernel

/-- STEP in a parity halt executes nothing and is back at IDLE, where SYS RESET/CLEAR ends the halt (60_exceptions R606, 70_reset
R661; log 32). -/
theorem test_step_in_parity_halt :
    (let s := { given 0x201 [] [] with ir := 0x22400005 }
    holds (step (setCompute .step { s with
        panel := { s.panel with compute := .idle }, halts := { s.halts with parity := true } }))
      (fun t => decide (t.draws = 0) && getReg t 4 == 0 && t.psd.ia == 0x201 && t.ir == 0x22400005 && t.halts.parity &&
        decide (t.panel.compute = .idle) &&
        holds (panelAction .sysReset t) (fun u => !u.halts.parity))) = true := by
  decide +kernel

/-- ADDR STOP at an address that is not installed: the halt comes before the fetch, and no trap (60_exceptions R621; log 33). -/
theorem test_stop_before_trapping_fetch :
    (let s := given 0x8000 [] []
    holds (step { s with
        cfg := { s.cfg with memSize := 0 }, panel := { s.panel with addrStop := true, selectAddress := 0x8000 } })
      (fun t => t.halts.addrStop && t.psd.ia == 0x8000)) = true := by
  decide +kernel

/-! ### The hypotheses of the statements can be met: one theorem per statement, clause by clause -/

open Safety

/-- An answer that is no stop has a value. -/
theorem ok_of_toBool {α : Type} {x : Except Stop α} (h : x.toBool = true) : ∃ a, x = .ok a := by
  cases x with
  | error e => simp [Except.toBool] at h
  | ok a => exact ⟨a, rfl⟩

/-- A direct, unindexed reference. -/
def at' (a : WordAddr) : MemRef := ⟨false, none, a⟩

theorem witness_DecodeEncode :
    Instr.wellFormed (.lw 15 ⟨true, some 7, 0x1FFFF⟩) = true ∧ Instr.wellFormed (.li 0 0xFFFFF) = true ∧
    Instr.wellFormed (.mbs 15 0) = true ∧ Instr.wellFormed (.mmc true 15 7 0x1FFFF) = true := by decide +kernel

theorem witness_DecodesExactly :
    decodeWord 0x00000000 = .error .unassigned ∧ decodeWord 0xE3000000 = .error .indirectImmediate ∧
    decodeWord 0x32500100 = .ok (.lw 5 (at' 0x100)) := by decide +kernel

theorem witness_StepRunsInstruction :
    (let s := given 0x201 [] [(0x201, 0x22400005)]
    s.inputs = [] ∧ ioRequest s = false ∧ s.panel.compute = .run ∧ s.halts = ⟨false, false, false⟩ ∧
    nextInterrupt s = none ∧ s.panel.addrStop = false ∧ s.started = false ∧ s.hazard = none ∧
    readInstr s s.psd.ia = .ok 0x22400005) ∧
    (let s := State.reset
    s.inputs = [] ∧ ioRequest s = false ∧ s.panel.compute = .run ∧ s.halts = ⟨false, false, false⟩ ∧
    nextInterrupt s = none ∧ s.panel.addrStop = false ∧ s.started = true ∧ s.ir = 0x02000000) ∧
    decodeWord 0x22400005 = .ok (.li 4 5) ∧ decodeWord 0x02000000 = .ok (.lcfi 0 0) := by decide +kernel

theorem witness_StepKeepsInvariant :
    (let s := given 0x201 [] [(0x201, 0x35500100)]
    Memory.wf s.mem = true ∧ s.entry = none ∧ (level s 0).enabled = true ∧ (level s 0).state ≠ .disarmed ∧
    (level s 1).enabled = true ∧ (level s 1).state ≠ .disarmed ∧ s.cfg.chainOk = true ∧ holds (step s) (fun _ => true) = true) := by
  decide +kernel

theorem witness_SlaveIsConfined :
    (given 0x00800201 [] []).psd.ms = true ∧
    holds (exec (.stw 5 (at' 0x100)) (given 0x00800201 [] [])) (fun _ => true) = true ∧
    holds (exec (.cal1 5 (at' 0)) (given 0x00800201 [] [(0x48, 0x0F000060)])) (fun _ => true) = true := by decide +kernel

theorem witness_EffectiveAddresses :
    readWord (given 0x201 [(7, 3)] [(0x1FFFF, 0xFFFFFFFF)]) (MemRef.mk true (some 7) 0x1FFFF).ra = .ok 0xFFFFFFFF := by
  decide +kernel

theorem witness_MemoryReads :
    (15 : WordAddr).toNat < 16 ∧ readWord (given 0x201 [(14, 1)] []) 14 = .ok 1 ∧ (14 : WordAddr) = (7 : BitVec 16) ++ 0#1 ∧
    readWord (given 0x201 [(14, 1)] []) ((7 : BitVec 16) ++ 1#1) = .ok 0 ∧
    readWord (given 0x201 [] []) 0x1FFFF = .ok 0 := by decide +kernel

/-- Block 31 is selected, four blocks are installed. -/
def missingBlock (p : Word) : State :=
  let s := given p [] []
  { s with cfg := { Installation.standard with lastBlock := 3 }, psd := { s.psd with rp := 31 } }

theorem witness_ReadAfterWrite :
    (writeWord (given 0x201 [] []) 16 7).toBool = true ∧ (writeWord (given 0x201 [] []) 15 7).toBool = true ∧
    blockInstalled (given 0x201 [] []) = true ∧ (writeWord (missingBlock 0x201) 15 7).toBool = true ∧
    blockInstalled (missingBlock 0x201) = false := by decide +kernel

/-- A state without write locks. -/
def noLocks (s : State) : State := { s with cfg := { s.cfg with hasLocks := false } }

theorem witness_AccessProtection : (16 : WordAddr).toNat ≥ 16 ∧ (0x1FFFF : WordAddr).toNat ≥ 16 := by decide +kernel

theorem witness_WriteLocks :
    (let s := mapped 0x201 0 2
    let l : BitVec 2 := s.lock[(fld (0x4000 : WordAddr) 0 8 : BitVec 8).toNat]'(BitVec.isLt _)
    s.cfg.hasLocks = true ∧ s.psd.mm = false ∧ (0x4000 : WordAddr).toNat < s.cfg.memWords ∧ l ≠ 0 ∧ s.psd.wk ≠ 0 ∧
      l ≠ s.psd.wk) ∧
    (let s := mapped 0x201 0 1
    (s.lock[(fld (0x41FF : WordAddr) 0 8 : BitVec 8).toNat]'(BitVec.isLt _)) = s.psd.wk) ∧
    (let s := mapped 0x201 0 0
    (s.lock[(fld (0x4000 : WordAddr) 0 8 : BitVec 8).toNat]'(BitVec.isLt _)) = 0) := by decide +kernel

/-- Half of memory is installed; page 1 has access code 3. -/
def halfMemory : State :=
  { mapped 0x00C00201 3 0 with
    cfg := { Installation.standard with memSize := 15 }
    map := (mapped 0x00C00201 3 0).map.set 2 0xFF }

/-- The operands of `Loads`, `Comparisons`, `Logic` and `LoadRegisterPointer` that cannot be read: nonexistent, or
unavailable to the slave program. -/
def unreadable (x : Except Stop α) : Bool :=
  match x with
  | .error (.trap (.nonallowed y) _) => y == 4 || y == 1
  | _ => false

theorem witness_unreadable :
    unreadable (operandByte (at' 0x400) halfMemory) = true ∧ unreadable (operandHalf (at' 0x400) halfMemory) = true ∧
    unreadable (operandWord (at' 0x400) halfMemory) = true ∧ unreadable (operandDouble (at' 0x400) halfMemory) = true ∧
    unreadable (operandWord (at' 0x200) halfMemory) = true ∧ unreadable (operandWord ⟨true, none, 0x400⟩ halfMemory) = true ∧
    unreadable (operandWord (at' 0x10000) { given 0x201 [] [] with cfg := halfMemory.cfg }) = true := by decide +kernel

/-- Words at the top of memory and in registers. -/
def edge : State := given 0x201 [(15, 0x7FFFFFFF), (14, 0x80000000)] [(0x1FFFE, 0x80000000), (0x1FFFF, 0x00008000)]

theorem witness_Loads :
    operandByte (at' 0x1FFFE) edge = .ok 0x80 ∧ operandHalf (at' 0x1FFFE) edge = .ok 0x8000 ∧
    operandWord (at' 0x1FFFE) edge = .ok 0x80000000 ∧ operandDouble (at' 0x1FFFE) edge = .ok 0x8000000000008000 ∧
    operandWord (at' 15) edge = .ok 0x7FFFFFFF ∧ fld (0xA23FFFFF : Word) 1 7 = (0x22 : BitVec 7) ∧
    (0xA23FFFFF : Word).getMsbD 0 = true := by decide +kernel

/-- `edge` with AM = 1. -/
def edgeTraps : State := { edge with psd := { edge.psd with am := true } }

theorem witness_ComplementAndAbsolute :
    operandWord (at' 14) edge = .ok 0x80000000 ∧ edge.psd.am = false ∧ operandWord (at' 14) edgeTraps = .ok 0x80000000 ∧
    operandWord (at' 15) edgeTraps = .ok 0x7FFFFFFF ∧ edgeTraps.psd.am = true ∧
    operandDouble (at' 0x100) (given 0x201 [] [(0x100, 0x80000000)]) = .ok 0x8000000000000000 ∧
    operandDouble (at' 0x100) (given 0x00100201 [] [(0x100, 0x80000000)]) = .ok 0x8000000000000000 ∧
    (given 0x00100201 [] []).psd.am = true ∧ operandDouble (at' 14) (given 0x00100201 [(15, 1)] []) = .ok 1 := by
  decide +kernel

theorem witness_SelectInterpretAnalyze :
    (let s := given 0x201 [(2, 0xFFFF0000), (3, 0x0F0F0F0F)] [(0x100, 0x12345678)]
    operandWord (at' 0x100) s = .ok 0x12345678 ∧
    (∀ k < 32, (0xF2F40608#32).getMsbD k =
      if (2 : RegNum).getLsbD 0 then (0x12345678#32).getMsbD k && (getReg s 2).getMsbD k
      else if (getReg s (ru1 2)).getMsbD k then (0x12345678#32).getMsbD k else (getReg s 2).getMsbD k) ∧
    (∀ k < 32, (0x02040608#32).getMsbD k =
      if (3 : RegNum).getLsbD 0 then (0x12345678#32).getMsbD k && (getReg s 3).getMsbD k
      else if (getReg s (ru1 3)).getMsbD k then (0x12345678#32).getMsbD k else (getReg s 3).getMsbD k)) := by
  decide +kernel

/-- ANLZ: words of the six addressing types: LI, MBS, LD, LW, LH, LB, and PLW and LM, which count as word. -/
theorem witness_SelectInterpretAnalyze_types :
    (let s := given 0x201 [] []
    fld (0x22000000 : Word) 3 5 < (4 : BitVec 5) ∧ fld (0x61000000 : Word) 3 5 < (4 : BitVec 5) ∧
    direct (memRefOf 0x12000100) s = .ok 0x100 ∧ ¬ fld (0x12000100 : Word) 3 5 < (16 : BitVec 5) ∧
    fld (0x12000100 : Word) 1 2 = (0 : BitVec 2) ∧ fld (0x32000100 : Word) 1 2 = (1 : BitVec 2) ∧
    fld (0x52000100 : Word) 1 2 = (2 : BitVec 2) ∧ ¬ fld (0x52000100 : Word) 3 5 < (16 : BitVec 5) ∧
    fld (0x72000100 : Word) 1 2 = (3 : BitVec 2) ∧ ¬ fld (0x72000100 : Word) 3 5 < (16 : BitVec 5) ∧
    fld (0x08000100 : Word) 1 2 = (0 : BitVec 2) ∧ ¬ fld (0x08000100 : Word) 3 5 < (8 : BitVec 5) ∧
    fld (0x04000100 : Word) 3 5 < (8 : BitVec 5) ∧ ¬ fld (0x04000100 : Word) 3 5 < (4 : BitVec 5)) := by
  decide +kernel

theorem witness_LoadConditions :
    operandByte (at' 0x1FFFE) edge = .ok 0x80 ∧ fld (0x823FFFFF : Word) 1 7 = (0x02 : BitVec 7) ∧
    (0x823FFFFF : Word).getMsbD 0 = true := by decide +kernel

theorem witness_Stores :
    eaByte (at' 0x1FFFE) edge = .ok 0x7FFF8 ∧ eaHalf (at' 0x1FFFE) edge = .ok 0x3FFFC ∧
    eaWord (at' 0x1FFFE) edge = .ok 0x1FFFE ∧ eaDouble (at' 0x1FFFE) edge = .ok 0xFFFF ∧
    locate (programPath edge) .write (fld (0x7FFF8 : ByteAddr) 0 17) edge = .ok (.core 0x1FFFE) ∧
    locate (programPath edge) .write (fld (0x3FFFC : BitVec 18) 0 17) edge = .ok (.core 0x1FFFE) ∧
    locate (programPath edge) .write ((0xFFFF : BitVec 16) ++ 0#1) edge = .ok (.core 0x1FFFE) ∧
    locate (programPath edge) .write ((0xFFFF : BitVec 16) ++ 1#1) edge = .ok (.core 0x1FFFF) ∧
    eaWord (at' 15) edge = .ok 15 ∧ readWord edge 15 = .ok 0x7FFFFFFF ∧
    locate (programPath edge) .write 15 edge = .ok (.reg 15) ∧ eaHalf (at' 15) edge = .ok 30 ∧
    locate (programPath edge) .write (fld (30 : BitVec 18) 0 17) edge = .ok (.reg 15) ∧
    (∀ k < 32, (0x7FFFFFFF#32).getMsbD k =
      if (15 : RegNum).getLsbD 0 then (getReg edge 15).getMsbD k || (0x7FFFFFFF#32).getMsbD k
      else if (getReg edge (ru1 15)).getMsbD k then (getReg edge 15).getMsbD k else (0x7FFFFFFF#32).getMsbD k) ∧
    (∀ k < 32, (0#32).getMsbD k =
      if (14 : RegNum).getLsbD 0 then (getReg edge 14).getMsbD k || (0x7FFFFFFF#32).getMsbD k
      else if (getReg edge (ru1 14)).getMsbD k then (getReg edge 14).getMsbD k else (0x7FFFFFFF#32).getMsbD k) := by
  decide +kernel

theorem witness_LoadStoreMultiple :
    eaWord (at' 12) edge = .ok 12 ∧ (16 : Nat) = (if (ccBits edge.psd).toNat = 0 then 16 else (ccBits edge.psd).toNat) ∧
    (∀ i < 16, ∃ l, locate (programPath edge) .operand ((12 : WordAddr) + BitVec.ofNat 17 i) edge = .ok l) ∧
    (∀ i < 16, ∃ l, locate (programPath edge) .write ((12 : WordAddr) + BitVec.ofNat 17 i) edge = .ok l) :=
  ⟨by decide +kernel, by decide +kernel, fun i h => ok_of_toBool (by revert i; decide +kernel),
    fun i h => ok_of_toBool (by revert i; decide +kernel)⟩

theorem witness_AddSubtract :
    edge.psd.am = false ∧ edgeTraps.psd.am = true ∧ operandHalf (at' 0x1FFFE) edge = .ok 0x8000 ∧
    operandHalf (at' 0x1FFFE) edgeTraps = .ok 0x8000 ∧ operandWord (at' 15) edge = .ok 0x7FFFFFFF ∧
    operandWord (at' 15) edgeTraps = .ok 0x7FFFFFFF ∧ operandWord (at' 14) edgeTraps = .ok 0x80000000 ∧
    (getReg edgeTraps 15 + 0x7FFFFFFF).toInt ≠ (getReg edgeTraps 15).toInt + (0x7FFFFFFF#32).toInt ∧
    (getReg edgeTraps 15 + 1).toInt ≠ (getReg edgeTraps 15).toInt + (1#32).toInt ∧
    (getReg edgeTraps 14 + (0x8000#16).signExtend 32).toInt ≠
      (getReg edgeTraps 14).toInt + ((0x8000#16).signExtend 32).toInt ∧
    (getReg edgeTraps 15 - (0x8000#16).signExtend 32).toInt ≠
      (getReg edgeTraps 15).toInt - ((0x8000#16).signExtend 32).toInt ∧
    (getReg edgeTraps 15 - 0x80000000).toInt ≠ (getReg edgeTraps 15).toInt - (0x80000000#32).toInt := by decide +kernel

theorem witness_AddSubtractDouble :
    operandDouble (at' 0x1FFFE) edge = .ok 0x8000000000008000 ∧ (14 : RegNum).getLsbD 0 = false ∧
    (15 : RegNum).getLsbD 0 = true ∧ edge.psd.am = false ∧ edgeTraps.psd.am = true ∧
    operandDouble (at' 0x1FFFE) edgeTraps = .ok 0x8000000000008000 ∧
    (getPair edgeTraps 14 + 0x8000000000008000).toInt ≠ (getPair edgeTraps 14).toInt + (0x8000000000008000#64).toInt ∧
    (let s := given 0x00100201 [(15, 1)] [(0x100, 0x80000000)]
    operandDouble (at' 0x100) s = .ok 0x8000000000000000 ∧ s.psd.am = true ∧
    (getPair s 14 - 0x8000000000000000).toInt ≠ (getPair s 14).toInt - (0x8000000000000000#64).toInt) := by decide +kernel

theorem witness_Multiply :
    operandWord (at' 0x1FFFE) edge = .ok 0x80000000 ∧ operandHalf (at' 0x1FFFE) edge = .ok 0x8000 := by decide +kernel

theorem witness_Divide :
    operandHalf (at' 0x1FFFF) edge = .ok 0 ∧ operandHalf (at' 0x1FFFE) edge = .ok 0x8000 ∧
    operandWord (at' 0x100) edge = .ok 0 ∧ operandWord (at' 15) edge = .ok 0x7FFFFFFF ∧ edge.psd.am = false ∧
    operandWord (at' 0x100) edgeTraps = .ok 0 ∧ edgeTraps.psd.am = true ∧
    ¬ ((0x8000#16).toInt = 0 ∨ (getReg edge 15).toInt.tdiv (0x8000#16).toInt < -2147483648 ∨
      2147483647 < (getReg edge 15).toInt.tdiv (0x8000#16).toInt) ∧
    ¬ ((0x7FFFFFFF#32).toInt = 0 ∨ (getReg edge 15).toInt.tdiv (0x7FFFFFFF#32).toInt < -2147483648 ∨
      2147483647 < (getReg edge 15).toInt.tdiv (0x7FFFFFFF#32).toInt) := by decide +kernel

/-- Quotients at the bounds: -2^31, which the parameter makes an overflow, 2^31 - 1 and 2^31. -/
theorem witness_Divide_bounds :
    (let s := given 0x201 [(4, 0x80000000), (5, 0x7FFFFFFF), (6, 0), (7, 0x80000000)]
      [(0x100, 1), (0x101, 0x0001FFFF), (0x102, 0xFFFFFFFF)]
    operandHalf ⟨false, some 1, 0x101⟩ s = .ok 1 ∧ operandWord (at' 0x100) s = .ok 1 ∧ operandWord (at' 0x102) s = .ok (-1) ∧
    (getReg s 4).toInt.tdiv (1#16).toInt = -2147483648 ∧ (getPair s 6).toInt.tdiv (-1#32).toInt = -2147483648 ∧
    2147483647 < (getReg s 4).toInt.tdiv (-1#16).toInt ∧ (getReg s 5).toInt.tdiv (1#32).toInt = 2147483647 ∧
    ({ Installation.standard with divMinqOverflows := true }).divMinqOverflows = true) := by decide +kernel

theorem witness_ModifyMemory :
    eaWord (at' 15) edge = .ok 15 ∧ readWord edge 15 = .ok 0x7FFFFFFF ∧ locate (programPath edge) .write 15 edge = .ok (.reg 15) ∧
    eaHalf (at' 0x1FFFE) edge = .ok 0x3FFFC ∧ readHalf edge 0x3FFFC = .ok 0x8000 ∧
    eaByte (at' 0x1FFFE) edge = .ok 0x7FFF8 ∧ readByte edge 0x7FFF8 = .ok 0x80 ∧
    locate (programPath edge) .write 0x1FFFE edge = .ok (.core 0x1FFFE) ∧ edge.psd.am = false ∧ edgeTraps.psd.am = true ∧
    (7 : RegNum) ≠ 0 ∧ (0xFFF8 : Half) = (8 : RegNum).signExtend 16 ∧ (0xF8 : Byte) = (8 : RegNum).signExtend 8 ∧
    readWord edgeTraps 15 = .ok 0x7FFFFFFF ∧
    (0x7FFFFFFF + (7 : RegNum).signExtend 32 : Word).toInt ≠ (0x7FFFFFFF#32).toInt + ((7 : RegNum).signExtend 32 : Word).toInt ∧
    (0x7FFFFFFF + getReg edgeTraps 15 : Word).toInt ≠ (0x7FFFFFFF#32).toInt + (getReg edgeTraps 15).toInt ∧
    readHalf edgeTraps 0x3FFFC = .ok 0x8000 ∧
    (0x8000 + (8 : RegNum).signExtend 16 : Half).toInt ≠ (0x8000#16).toInt + ((8 : RegNum).signExtend 16 : Half).toInt := by
  decide +kernel

theorem witness_OverflowTrap :
    edgeTraps.psd.am = true ∧ eaWord (at' 15) edgeTraps = .ok 15 ∧ readWord edgeTraps 15 = .ok 0x7FFFFFFF ∧
    readWord edgeTraps 14 = .ok 0x80000000 ∧ readWord edgeTraps 0x100 = .ok 0 ∧
    locate (programPath edgeTraps) .write 15 edgeTraps = .ok (.reg 15) ∧
    (getReg edgeTraps 15 + 0x7FFFFFFF).toInt ≠ (getReg edgeTraps 15).toInt + (0x7FFFFFFF#32).toInt ∧
    (getReg edgeTraps 15 + 1).toInt ≠ (getReg edgeTraps 15).toInt + (1#32).toInt ∧
    (getReg edgeTraps 15 - 0x80000000).toInt ≠ (getReg edgeTraps 15).toInt - (0x80000000#32).toInt := by decide +kernel

theorem witness_Comparisons :
    operandByte (at' 0x1FFFE) edge = .ok 0x80 ∧ operandHalf (at' 0x1FFFE) edge = .ok 0x8000 ∧
    operandWord (at' 0x1FFFE) edge = .ok 0x80000000 ∧ operandDouble (at' 0x1FFFE) edge = .ok 0x8000000000008000 ∧
    fld (0xA13FFFFF : Word) 1 7 = (0x21 : BitVec 7) ∧ (0xA13FFFFF : Word).getMsbD 0 = true := by decide +kernel

theorem witness_Logic :
    operandWord (at' 14) edge = .ok 0x80000000 ∧
    (∀ k < 32, (0xFFFFFFFF#32).getMsbD k = ((getReg edge 15).getMsbD k || (0x80000000#32).getMsbD k)) ∧
    (∀ k < 32, (0xFFFFFFFF#32).getMsbD k = ((getReg edge 15).getMsbD k ^^ (0x80000000#32).getMsbD k)) ∧
    (∀ k < 32, (0#32).getMsbD k = ((getReg edge 15).getMsbD k && (0x80000000#32).getMsbD k)) := by decide +kernel

theorem witness_ShiftLeft :
    (List.range 6).all (fun ty => match shiftFields (at' (BitVec.ofNat 17 (256 * ty + 63))) edge with
      | .ok (t, c) => t == BitVec.ofNat 3 ty && c == 63 && !c.msb
      | .error _ => false) = true := by decide +kernel

theorem witness_ShiftRight :
    (List.range 8).all (fun ty => match shiftFields (at' (BitVec.ofNat 17 (256 * ty + 64))) edge with
      | .ok (t, c) => t == BitVec.ofNat 3 ty && c == 64 && c.msb
      | .error _ => false) = true := by decide +kernel

/-- Shifts left and right of both formats, of a zero fraction and of fractions 0, 1 and 5 digits from normalized. -/
theorem witness_ShiftFloating :
    shiftFields (at' 1) edge = .ok (0, 1) ∧ shiftFields (at' 0x101) edge = .ok (1, 1) ∧ (1 : BitVec 7).msb = false ∧
    shiftFields (at' 0x40) edge = .ok (0, 64) ∧ shiftFields (at' 0x17F) edge = .ok (1, 127) ∧ (64 : BitVec 7).msb = true ∧
    (127 : BitVec 7).msb = true ∧ (0x41000000#32).toInt.natAbs % 2 ^ 24 = 0 ∧ (0x80000000#32).toInt.natAbs % 2 ^ 24 = 0 ∧
    (let fr : Nat := (0x41100000#32).toInt.natAbs % 2 ^ 24;
      2 ^ (24 - 4) ≤ fr * 16 ^ 0 ∧ fr * 16 ^ 0 < 2 ^ 24) ∧
    (let fr : Nat := (0xFEFEDCBB#32).toInt.natAbs % 2 ^ 24;
      2 ^ (24 - 4) ≤ fr * 16 ^ 1 ∧ fr * 16 ^ 1 < 2 ^ 24) ∧
    (let fr : Nat := (0x00000001#32).toInt.natAbs % 2 ^ 24;
      2 ^ (24 - 4) ≤ fr * 16 ^ 5 ∧ fr * 16 ^ 5 < 2 ^ 24) ∧
    (let fr : Nat := (0x4100000000000010#64).toInt.natAbs % 2 ^ 56;
      2 ^ (56 - 4) ≤ fr * 16 ^ 12 ∧ fr * 16 ^ 12 < 2 ^ 56) := by decide +kernel

theorem witness_Conversions :
    eaWord (at' 0x1FFE0) edge = .ok 0x1FFE0 ∧
    ∀ i < 32, readWord edge ((0x1FFE0 : WordAddr) + BitVec.ofNat 17 i) =
      .ok (if i = 30 then 0x80000000 else if i = 31 then 0x8000 else 0) := by decide +kernel

theorem witness_FloatShort :
    edge.cfg.hasFloat = true ∧ operandWord (at' 15) edge = .ok 0x7FFFFFFF ∧
    floatAdd 32 (floatMode edge.psd) 0x41100000 0x41100000 = .result 0x41200000 2 ∧
    floatAdd 32 (floatMode edge.psd) 0x7FFFFFFF 0x7FFFFFFF = .fault 6 ∧
    floatDiv 32 (floatMode edge.psd) 0x41100000 0x41100000 = .result 0x41100000 2 ∧
    floatDiv 32 (floatMode edge.psd) 0x41100000 0 = .fault 4 ∧
    floatMulTruncated 32 (floatMode edge.psd) 0x41100000 0x41100000 = .result 0x41100000 2 ∧
    floatMulTruncated 32 (floatMode edge.psd) 0x7FFFFFFF 0x7FFFFFFF = .fault 6 := by decide +kernel

theorem witness_FloatLong :
    edge.cfg.hasFloat = true ∧ operandDouble (at' 14) edge = .ok 0x800000007FFFFFFF ∧ (14 : RegNum).getLsbD 0 = false ∧
    (15 : RegNum).getLsbD 0 = true ∧
    floatAdd 64 (floatMode edge.psd) 0x4110000000000000 0x4110000000000000 = .result 0x4120000000000000 2 ∧
    floatDiv 64 (floatMode edge.psd) 0x4110000000000000 0 = .fault 4 ∧
    floatMulTruncated 64 (floatMode edge.psd) 0x4110000000000000 0x4110000000000000 = .result 0x4110000000000000 2 ∧
    floatMulShortLong (floatMode edge.psd) 0x41100000 0x41100000 = .result 0x4110000000000000 2 := by decide +kernel

theorem witness_FloatLaws :
    (0x41000000#32) ≠ 0 ∧ (0x41000000#32) ≠ BitVec.intMin 32 ∧ (unpackFloat 0x41000000#32).fr = 0 ∧
    (let x := unpackFloat 0x42100001#32
    let y := unpackFloat 0xBEF00000#32
    y.ch ≤ x.ch ∧ x.fr ≠ 0 ∧ y.fr ≠ 0 ∧ 16 ^ 11 ≤ x.fr * y.fr * 16 ^ 1 ∧ x.fr * y.fr * 16 ^ 1 < 16 ^ 12 ∧
    16 ^ (6 - 1) ≤ x.fr * 16 ^ 5 / (y.fr * 16 ^ 0) ∧ x.fr * 16 ^ 5 / (y.fr * 16 ^ 0) < 16 ^ 6) ∧
    (let x := unpackFloat 0x4210000000000001#64
    let y := unpackFloat 0xBEF0000000000000#64
    y.ch ≤ x.ch ∧ 16 ^ 27 ≤ x.fr * y.fr * 16 ^ 1 ∧ x.fr * y.fr * 16 ^ 1 < 16 ^ 28 ∧
    16 ^ (14 - 1) ≤ x.fr * 16 ^ 13 / (y.fr * 16 ^ 0) ∧ x.fr * 16 ^ 13 / (y.fr * 16 ^ 0) < 16 ^ 14) := by decide +kernel

/-- Sums with and without a carry: 0.5 + 0.5 (a carry for F's), 1 - 1, and one that has to be normalized by six digits. -/
theorem witness_FloatLaws_sums :
    (let f := (unpackFloat 0x41FFFFFF#32).fr * 16
    16 ^ 7 ≤ f + f ∧ (unpackFloat 0x41100000#32).fr * 16 + (unpackFloat 0x41100000#32).fr * 16 < 16 ^ 7 ∧
    16 ^ (6 + 1 - 1) ≤ 16 * 16 ^ 5 ∧ 16 * 16 ^ 5 < 16 ^ (6 + 1)) := by decide +kernel

theorem witness_PackedRoundTrip : 0 < 1 ∧ 9 < 10 ^ (2 * 1 - 1) ∧ 0 < 16 ∧ 10 ^ 31 - 1 < 10 ^ (2 * 16 - 1) := by decide

/-- DECA and operands: 5 at X'100', -9...9 (31 digits) at X'104', an illegal number at X'108'; DECA = `d`. -/
def decimalState (d : Word) : State :=
  given 0x201 [(14, d), (15, 0x0000007C)]
    [(0x100, 0x5C000000), (0x104, 0x99999999), (0x105, 0x99999999), (0x106, 0x99999999), (0x107, 0x9999999D),
      (0x108, 0x5E0A0000), (0x109, 0x01000000)]

theorem witness_DecimalArithmetic :
    (let s := decimalState 0
    s.cfg.hasDecimal = true ∧ s.psd.dm = false ∧ decimalOperand 1 (at' 0x100) s = .ok 0x5C ∧ legalPacked 0x5C 1 = true ∧
    legalPacked (getDeca s) 16 = true ∧ getDeca s < 16 ^ 16 ∧
    (valPacked (getDeca s) 16 + valPacked 0x5C 1).natAbs < 10 ^ 31 ∧
    (valPacked (getDeca s) 16 - valPacked 0x5C 1).natAbs < 10 ^ 31 ∧
    decimalOperand 0 (at' 0x104) s = .ok 0x9999999999999999999999999999999D ∧
    10 ^ 31 ≤ (valPacked (getDeca s) 16 - valPacked 0x9999999999999999999999999999999D 16).natAbs ∧
    decimalOperand 1 (at' 0x109) s = .ok 1 ∧ legalPacked 1 1 = false ∧ (given 0x00200201 [] []).psd.dm = true) := by
  decide +kernel

/-- DECA illegal, without any sign code (0), and with one but unprepared for DM: too long, or a sign code as a digit. -/
theorem witness_DecimalArithmetic_deca :
    (let z := given 0x201 [] [(0x100, 0x5C000000)]
    let l := given 0x201 [(13, 1), (15, 0x0000007C)] [(0x100, 0x5C000000)]
    let c := given 0x201 [(15, 0x000000CC)] [(0x100, 0x5C000000)]
    legalPacked (getDeca z) 16 = false ∧ (∀ k < 32, getDeca z / 16 ^ k % 16 ≤ 9) ∧
    16 ^ 16 ≤ getDeca l ∧ 10 ≤ getDeca l / 16 ^ 0 % 16 ∧ legalPacked (getDeca c) 16 = false ∧
    10 ≤ getDeca c / 16 ^ 1 % 16 ∧ decimalOperand 1 (at' 0x100) c = .ok 0x5C ∧
    8 < (if (0 : BitVec 4) = 0 then 16 else (0 : BitVec 4).toNat)) := by decide +kernel

/-- DECA = -9...9, so that DA overflows on the operand -9...9. -/
theorem witness_DecimalArithmetic_sum :
    (let s := given 0x201 [(12, 0x99999999), (13, 0x99999999), (14, 0x99999999), (15, 0x9999999D)] [(0x100, 0x1D000000)]
    decimalOperand 1 (at' 0x100) s = .ok 0x1D ∧ legalPacked (getDeca s) 16 = true ∧ s.psd.dm = false ∧
    10 ^ 31 ≤ (valPacked (getDeca s) 16 + valPacked 0x1D 1).natAbs) := by decide +kernel

theorem witness_DecimalDivideCompare :
    (let s := decimalState 0
    s.cfg.hasDecimal = true ∧ decimalOperand 1 (at' 0x100) s = .ok 0x5C ∧ legalPacked 0x5C 1 = true ∧
    legalPacked (getDeca s) 16 = true ∧ magPacked 0x5C 1 ≠ 0 ∧ magPacked (getDeca s) 16 / magPacked 0x5C 1 < 10 ^ 15 ∧
    magPacked 0x5C 1 < 10 ^ 15) := by decide +kernel

/-- DD: a zero divisor, the quotients 10^15 - 1 and 10^15, a divisor of 16 digits with either value of the parameter. -/
theorem witness_DecimalDivideCompare_bounds :
    (let s := given 0x201 [(13, 0x00000009), (14, 0x99999999), (15, 0x9999999C)] [(0x100, 0x0C1C0000)]
    let t := given 0x201 [(13, 0x00000010), (14, 0), (15, 0x0000000C)] [(0x100, 0x1C000000)]
    let u := given 0x201 [(15, 0x0000007C)] [(0x102, 0x00000001), (0x103, 0x0000000C), (0x101, 0)]
    let off (s : State) : State := { s with cfg := { s.cfg with ddLongDivisorOverflows := false } }
    decimalOperand 1 (at' 0x100) s = .ok 0x0C ∧ magPacked 0x0C 1 = 0 ∧ magPacked 0x1C 1 = 1 ∧
    legalPacked (getDeca t) 16 = true ∧ 10 ^ 15 ≤ magPacked (getDeca t) 16 / magPacked 0x1C 1 ∧
    decimalOperand 12 (at' 0x101) u = .ok 0x000000010000000C ∧ decimalOperand 12 (at' 0x101) (off u) = .ok 0x000000010000000C ∧
    8 < (12 : BitVec 4).toNat ∧ u.cfg.ddLongDivisorOverflows = true ∧ (off u).cfg.ddLongDivisorOverflows = false ∧
    magPacked 0x000000010000000C 12 < 10 ^ 15 ∧ 10 ^ 15 ≤ magPacked 0x0000000010000000000000000C 12) := by decide +kernel

theorem witness_DecimalMove :
    (let s := given 0x201 [(14, 0), (15, 0x0000007C)] [(0x100, 0xF5F6C700)]
    s.cfg.hasDecimal = true ∧ eaByte (at' 0x100) s = .ok 0x400 ∧ legalPacked (getDeca s) 16 = true ∧
    readBytes s 3 0x400 0 = .ok 0xF5F6C7 ∧ legalPacked (packZoned 3 0xF5F6C7 * 16 + 0xF5F6C7 / 16 % 16) 2 = true ∧
    legalPacked (getDeca s % 256 ^ 2) 2 = true ∧
    0 ≤ max (-31) (min 31 ((fld (0x4C : ByteAddr) 1 16 : BitVec 16).toInt)) ∧ eaByte (at' 0x13) s = .ok 0x4C ∧
    max (-31) (min 31 ((fld (0x3FFFC : ByteAddr) 1 16 : BitVec 16).toInt)) < 0 ∧ eaByte (at' 0xFFFF) s = .ok 0x3FFFC) ∧
    (let s := given 0x201 [(14, 0), (15, 0x0000007C)] [(0x100, 0xF5F6C700)]
    BytesWritable s 2 0x400 ∧ BytesWritable s 3 0x400 ∧ BytesWritable s 3 0xA) :=
  ⟨by decide +kernel, fun i h => ok_of_toBool (by revert i; decide +kernel),
    fun i h => ok_of_toBool (by revert i; decide +kernel), fun i h => ok_of_toBool (by revert i; decide +kernel)⟩

/-- What DST and UNPK store of DECA = 7, and operands that abort DSA, PACK, DST and UNPK. -/
theorem witness_DecimalMove_bytes :
    (let s := given 0x201 [(14, 0), (15, 0x0000007A)] []
    let d := getDeca s
    ([0x00, 0x7C] : List Byte).foldl (fun x b => x * 256 + b.toNat) 0 = d % 256 ^ 2 / 16 * 16 + 12 ∧
    (let bytes : List Byte := [0xF0, 0xF0, 0xC7]
    ∀ i (h : i < bytes.length),
      bytes[i].toNat = (if i = 2 * 2 - 2 then 12 else 15) * 16 + d / 16 ^ (2 * 2 - 1 - i) % 16)) ∧
    (let z := given 0x201 [] []
    legalPacked (getDeca z) 16 = false ∧ legalPacked (getDeca z % 256 ^ 2) 2 = false ∧
    readBytes z 3 0x400 0 = .ok 0 ∧ legalPacked (packZoned 3 0 * 16 + 0 / 16 % 16) 2 = false) := by decide +kernel

/-- Two strings: R = 6 gives the source X'400', register 7 the count and the destination X'800'. -/
def strings (count : Word) (x : Word) : State :=
  given 0x201 [(6, 0xFF000400), (7, (count <<< 24) ||| 0x800)] [(0x100, 0xC1C2C3C4), (0x200, x)]

theorem witness_MoveCompareByteString :
    (let c (s : State) : Byte := fld (getReg s (ru1 6)) 0 8
    let da (s : State) : ByteAddr := fld (getReg s (ru1 6)) 13 19
    c (strings 0 0) = 0 ∧ c (strings 1 0) = 1 ∧ c (strings 255 0xC1000000) = 255 ∧ da (strings 255 0) = 0x800 ∧
    fld (getReg (strings 1 0) 6) 13 19 + fld (0 : BitVec 20) 1 19 = (0x400 : ByteAddr) ∧
    readByte (strings 1 0) 0x400 = .ok 0xC1 ∧ readByte (strings 1 0) 0x800 = .ok 0 ∧
    readByte (strings 255 0xC1000000) 0x800 = .ok 0xC1 ∧
    locate (programPath (strings 1 0)) .write (fld (0x800 : ByteAddr) 0 17) (strings 1 0) = .ok (.core 0x200)) := by
  decide +kernel

theorem witness_TranslateByteString :
    (let s := strings 1 0x01000000
    (7 : RegNum).getLsbD 0 = true ∧ (6 : RegNum).getLsbD 0 = false ∧ fld (getReg (strings 0 0) (ru1 6)) 0 8 = (0 : Byte) ∧
    fld (getReg s (ru1 6)) 0 8 ≠ (0 : Byte) ∧ readByte s 0x800 = .ok 1 ∧
    readByte s (0x400 + BitVec.ofNat 19 (1 : Byte).toNat) = .ok 0xC2 ∧ (0xC2 : Byte) &&& fld (getReg s 6) 0 8 ≠ 0 ∧
    readByte s (0x400 + BitVec.ofNat 19 (9 : Byte).toNat) = .ok 0 ∧ (0 : Byte) &&& fld (getReg s 6) 0 8 = 0 ∧
    readByte (strings 1 0x09000000) 0x800 = .ok 9 ∧
    locate (programPath s) .write (fld (0x800 : ByteAddr) 0 17) s = .ok (.core 0x200)) := by decide +kernel

theorem witness_EditByteString :
    (let s := strings 1 0x40202223
    s.cfg.hasDecimal = true ∧ (6 : RegNum).getLsbD 0 = false ∧ (6 : RegNum) ≠ 0 ∧
    fld (getReg (strings 0 0) (ru1 6)) 0 8 = (0 : Byte) ∧ fld (getReg s (ru1 6)) 0 8 ≠ (0 : Byte) ∧
    readByte s 0x800 = .ok 0x40 ∧ s.psd.cc4 = false ∧ (given 0x10000201 [] []).psd.cc4 = true ∧
    readByte (strings 1 0x22000000) 0x800 = .ok 0x22 ∧ readByte (strings 1 0x20000000) 0x800 = .ok 0x20 ∧
    readByte (strings 1 0x20000000) (fld (getReg s 6) 13 19 + fld (0 : BitVec 20) 1 19) = .ok 0xC1 ∧
    (9 : BitVec 4) < fld (0xC1 : Byte) 0 4 ∧
    readByte (given 0x201 [] [(0x100, 0x1C000000)]) 0x400 = .ok 0x1C ∧ ¬ (9 : BitVec 4) < fld (0x1C : Byte) 0 4 ∧
    locate (programPath s) .write (fld (0x800 : ByteAddr) 0 17) s = .ok (.core 0x200)) := by decide +kernel

/-- EBS on a digit and on a digit with a sign after it: the hypotheses of the last clause, legal and illegal. -/
theorem witness_EditByteString_digit :
    (let s := given 0x201 [(6, 0x5C000400), (7, 0x01000800)] [(0x100, 0x1C000000), (0x200, 0x21000000)]
    readByte s 0x800 = .ok 0x21 ∧ readByte s (0x400 + fld (0 : BitVec 20) 1 19) = .ok 0x1C ∧ s.psd.cc2 = false ∧
    locate (programPath s) .write (fld (0x800 : ByteAddr) 0 17) s = .ok (.core 0x200) ∧
    ¬ ((9 : BitVec 4) < fld (0x1C : Byte) 0 4 ∨ (s.psd.cc2 = true ∧ (9 : BitVec 4) < fld (0x1C : Byte) 4 4)) ∧
    (given 0x40000201 [] []).psd.cc2 = true ∧ (9 : BitVec 4) < fld (0x1C : Byte) 4 4) := by decide +kernel

/-- A stack whose pointer doubleword is at X'100': top X'1FF', `space` and `words` in its second word; R = 3 holds 1. -/
def stack (cc : Word) (spaceWords : Word) : State :=
  given (cc ||| 0x201) [(3, 1)] [(0x100, 0x1FF), (0x101, spaceWords)]

theorem witness_PushPullWord :
    (let s := stack 0 0x00010001
    eaDouble (at' 0x100) s = .ok 0x80 ∧ readDouble s 0x80 = .ok 0x000001FF00010001 ∧
    locate (programPath s) .write ((0x80 : BitVec 16) ++ 0#1) s = .ok (.core 0x100) ∧
    locate (programPath s) .write ((0x80 : BitVec 16) ++ 1#1) s = .ok (.core 0x101) ∧
    (fld (0x000001FF00010001 : Double) 33 15 : BitVec 15) = 1 ∧ (fld (0x000001FF00010001 : Double) 49 15 : BitVec 15) = 1 ∧
    locate (programPath s) .write (0x1FF + 1) s = .ok (.core 0x200) ∧ readWord s 0x1FF = .ok 0 ∧
    (fld (getReg s 3) 16 16 : Half).toInt = 1) := by decide +kernel

theorem witness_PushPullMultiple :
    (let s := stack 0 0x00107FEF
    eaDouble (at' 0x100) s = .ok 0x80 ∧ readDouble s 0x80 = .ok 0x000001FF00107FEF ∧ ccBits s.psd = 0 ∧
    locate (programPath s) .write ((0x80 : BitVec 16) ++ 0#1) s = .ok (.core 0x100) ∧
    locate (programPath s) .write ((0x80 : BitVec 16) ++ 1#1) s = .ok (.core 0x101) ∧
    (fld (0x000001FF00107FEF : Double) 33 15 : BitVec 15).toNat = 16 ∧
    (fld (0x000001FF00107FEF : Double) 49 15 : BitVec 15).toNat + 16 = 32767) ∧
    (let s := stack 0 0x00107FEF
    (∀ i < 16, ∃ l, locate (programPath s) .write (0x1FF + 1 + BitVec.ofNat 17 i) s = .ok l) ∧
    (∀ i < 16, ∃ l, locate (programPath s) .operand (0x1FF - BitVec.ofNat 17 i) s = .ok l)) :=
  ⟨by decide +kernel, fun i h => ok_of_toBool (by revert i; decide +kernel),
    fun i h => ok_of_toBool (by revert i; decide +kernel)⟩

theorem witness_StackLimits :
    eaDouble (at' 0x100) (stack 0 0x00007FFF) = .ok 0x80 ∧ readDouble (stack 0 0x00007FFF) 0x80 = .ok 0x000001FF00007FFF ∧
    readDouble (stack 0 0x8000FFFF) 0x80 = .ok 0x000001FF8000FFFF ∧
    readDouble (stack 0 0xFFFF8000) 0x80 = .ok 0x000001FFFFFF8000 ∧
    (fld (getReg (stack 0 0) 3) 16 16 : Half).toInt = 1 := by decide +kernel

theorem witness_Branches :
    eaWord (at' 0x1FFFF) edge = .ok 0x1FFFF ∧ branchViolations 0x1FFFF true edge = 0 ∧
    branchViolations 0x1FFFF false edge = 0 ∧ branchViolations 15 true edge = 0 := by decide +kernel

/-- Targets that are nonexistent or unavailable, and branches that are not taken. -/
theorem witness_Branches_traps :
    eaWord (at' 0x200) halfMemory = .ok 0x200 ∧ branchViolations 0x200 true halfMemory = 1 ∧
    eaWord (at' 0x400) halfMemory = .ok 0x400 ∧ branchViolations 0x400 false halfMemory = 4 ∧
    (0 : BitVec 4) &&& ccBits halfMemory.psd = 0 ∧ (getReg halfMemory 15 - 1).toInt < 0 ∧
    0 < (getReg halfMemory 5 - 1).toInt ∧ ¬ (getReg halfMemory 5 + 1).toInt < 0 := by decide +kernel

theorem witness_Execute :
    (let s := given 0x201 [] [(0x100, 0x22400005), (0x101, 0x67000100), (0x102, 0)]
    eaWord (at' 0x100) s = .ok 0x100 ∧ readInstr s 0x100 = .ok 0x22400005 ∧ decodeWord 0x22400005 = .ok (.li 4 5) ∧
    readInstr s 0x101 = .ok 0x67000100 ∧ decodeWord 0x67000100 = .ok (.exu 0 (at' 0x100)) ∧
    readInstr s 0x102 = .ok 0 ∧ decodeWord 0 = .error .unassigned) := by decide +kernel

/-- The XPSD of a trap or interrupt location can reach its four words. -/
theorem witness_TrapEntry :
    (let s := given 0x20000201 [] [(0x40, 0x0F400060), (0x48, 0x0F400060), (0x43, 0x0F000060)]
    s.panel.addrStop = false ∧
    fld (coreWord s.mem 0x40) 1 7 = (0x0F : BitVec 7) ∧ (fld (coreWord s.mem 0x40) 8 4 : BitVec 4) = 4 ∧
    fld (coreWord s.mem 0x48) 1 7 = (0x0F : BitVec 7) ∧ (fld (coreWord s.mem 0x48) 8 4 : BitVec 4) = 4 ∧
    fld (coreWord s.mem 0x43) 1 7 = (0x0F : BitVec 7) ∧ (fld (coreWord s.mem 0x43) 8 4 : BitVec 4) = 0) ∧
    (∀ c ∈ [TrapCause.nonallowed 15, .call 0 15, .overflow],
      ExchangeAt { backUp (given 0x20000201 [] []) with entry := some (.trap c) } 4 (memRefOf 0x0F400060)
        (.core 0x60) (.core 0x61) (.core 0x62) (.core 0x63)) :=
  ⟨by decide +kernel, by
    intro c hc
    refine ⟨0x60, ?_⟩
    revert c
    decide +kernel⟩

theorem witness_TrapsAtDecoding :
    (given 0x00800201 [] []).psd.ms = true ∧
    ({ Installation.standard with hasFloat := false, hasDecimal := false }).hasFloat = false := by decide +kernel

theorem witness_LoadProgramStatus :
    (let s := setLevel (given 0x201 [] [(0x100, 0xFFFFFFFF), (0x101, 0xFFFFFFFF)]) 1 ⟨.active, true⟩
    s.psd.ms = false ∧ operandDouble (at' 0x100) s = .ok 0xFFFFFFFFFFFFFFFF ∧ highestActive s = some 1) := by
  decide +kernel

theorem witness_ExchangeProgramStatus :
    (given 0x201 [] []).psd.ms = false ∧ (given 0x201 [] []).entry = none ∧ (given 0x201 [] []).started = false ∧
    ExchangeAt (given 0x201 [] []) 8 (at' 0x1FFFC) (.core 0x1FFFC) (.core 0x1FFFD) (.core 0x1FFFE) (.core 0x1FFFF) ∧
    ExchangeAt (given 0x201 [] []) 4 (at' 14) (.reg 14) (.reg 15) (.core 16) (.core 17) :=
  ⟨by decide +kernel, by decide +kernel, by decide +kernel, ⟨0x1FFFC, by decide +kernel⟩, ⟨14, by decide +kernel⟩⟩

/-- Master mode with a block that is and one that is not installed; slave mode and an unreadable word are `halfMemory` and
`witness_unreadable`. -/
theorem witness_LoadRegisterPointer :
    (given 0x201 [] []).psd.ms = false ∧ operandWord (at' 0x100) (given 0x201 [] [(0x100, 0x1F0)]) = .ok 0x1F0 ∧
    ({ given 0x201 [] [] with cfg := halfMemory.cfg }).psd.ms = false ∧ halfMemory.psd.ms = true ∧
    ({ Installation.standard with lastBlock := 3 }).nBlocks ≤ (fld (0x1F0 : Word) 23 5 : BitVec 5).toNat := by
  decide +kernel

theorem witness_WaitHalts :
    eaWord (at' 0x100) edge = .ok 0x100 ∧ edge.psd.ms = false ∧
    (let t := { edge with halts := { edge.halts with wait := true } }
    t.halts.wait = true ∧ t.inputs = [] ∧ ioRequest t = false ∧ nextInterrupt t = none ∧ t.watchdog = 0) := by
  decide +kernel

theorem witness_MoveToMemoryControl :
    (let s := given 0x201 [(4, 0x100), (5, 0x0101FC00)] [(0x100, 0x20212223)]
    s.psd.ms = false ∧ s.cfg.mmcLayout = .standard ∧ (4 : RegNum).getLsbD 0 = false ∧
    (5 : RegNum).getLsbD 0 = true ∧ (fld (getReg s 4) 15 17 : WordAddr) = 0x100 ∧ readWord s 0x100 = .ok 0x20212223 ∧ s.cfg.hasMap = true ∧
    s.cfg.hasLocks = true ∧ (noLocks s).cfg.hasLocks = false ∧
    ({ Installation.standard with hasMap := false }).hasMap = false) := by decide +kernel

/-- Elements on the direct lines: at X'2FFF' one that answers RD, and WD with condition bits for the word 0 alone; at X'3000'
one that answers neither. -/
def withElement (s : State) : State :=
  { s with elements := [⟨0x2FFF, some (2, 0x55), some ⟨[(0, some 1)], none⟩, none⟩, ⟨0x3000, none, none, none⟩] }

theorem witness_ReadDirect :
    (let s := withElement edge
    let answer (e : BitVec 16) := (s.elements.find? (fun x => x.addr == e)).bind (fun x => x.read)
    s.psd.ms = false ∧ eaWord (at' 0x10) s = .ok 0x10 ∧ (0x10 : BitVec 16) = (0x10 : WordAddr).setWidth 16 ∧
    (0x10 : BitVec 16) = s.cfg.rdMemFaultAddr ∧ (0 : BitVec 16) = s.cfg.rdSenseAddr ∧ s.cfg.rdSenseAddr ≠ s.cfg.rdMemFaultAddr ∧
    (0xFFF : BitVec 16) ≠ s.cfg.rdMemFaultAddr ∧ (0xFFF : BitVec 16) ≠ s.cfg.rdSenseAddr ∧ (0xFFF : BitVec 16).toNat / 4096 = 0 ∧
    2 ≤ (0x2FFF : BitVec 16).toNat / 4096 ∧ answer 0x2FFF = some (2, 0x55) ∧ answer 0x3000 = none ∧ answer 0xFFFF = none ∧
    (0x1000 : BitVec 16).toNat / 4096 = 1 ∧ s.panel.watchdogOverride = false ∧
    ({ Panel.reset with watchdogOverride := true }).watchdogOverride = true) := by decide +kernel

theorem witness_WriteDirect :
    (let s := withElement edge
    let c := s.cfg
    let unnamed (e : BitVec 16) : Bool := decide (e.toNat < 4096 ∧ e.toNat / 8 ≠ 6 ∧ e.toNat / 8 ≠ 4)
    s.psd.ms = false ∧ eaWord (at' 0x37) s = .ok 0x37 ∧ (0x37 : BitVec 16).toNat / 8 = 6 ∧
    (0x20 : BitVec 16).toNat / 8 = 4 ∧ unnamed c.wdSetAlarmAddr = true ∧ unnamed c.wdResetAlarmAddr = true ∧
    unnamed c.wdTogglePcfAddr = true ∧ unnamed 0xFFF = true ∧ unnamed 0x38 = true ∧ unnamed 0x1F = true ∧
    c.wdResetAlarmAddr ≠ c.wdSetAlarmAddr ∧ c.wdTogglePcfAddr ≠ c.wdSetAlarmAddr ∧
    c.wdTogglePcfAddr ≠ c.wdResetAlarmAddr ∧ (0xFFF : BitVec 16) ≠ c.wdSetAlarmAddr ∧
    (0xFFF : BitVec 16) ≠ c.wdResetAlarmAddr ∧ (0xFFF : BitVec 16) ≠ c.wdTogglePcfAddr ∧
    8192 ≤ (0x2FFF : BitVec 16).toNat ∧ 8192 ≤ (0x2000 : BitVec 16).toNat ∧
    ((s.elements.find? (fun x => x.addr == 0x2FFF)).bind (fun x => x.write)).isSome = true ∧
    ((s.elements.find? (fun x => x.addr == 0x3000)).bind (fun x => x.write)).isSome = false ∧
    s.elements.find? (fun x => x.addr == 0x2000) = none) := by decide +kernel

theorem witness_InterruptControl :
    eaWord (at' 0x1200) edge = .ok 0x1200 ∧ (0x1200 : BitVec 16).toNat / 4096 = 1 ∧ (0x1FFF : BitVec 16).toNat / 4096 = 1 ∧
    fld (0x1200 : BitVec 16) 5 3 = (2 : BitVec 3) ∧ fld (0x1000 : BitVec 16) 5 3 = (0 : BitVec 3) ∧
    fld (0x1FFF : BitVec 16) 5 3 = (7 : BitVec 3) := by decide +kernel

theorem witness_InterruptEntry :
    (let s := setLevel (given 0x345 [] [(0x60, 0x0F000190)]) 16 ⟨.waiting, true⟩
    s.inputs = [] ∧ ioRequest s = false ∧ s.panel.compute = .run ∧ s.started = false ∧ s.halts.addrStop = false ∧
    s.halts.parity = false ∧ s.stopPending = false ∧ s.panel.addrStop = false ∧ s.entry = none ∧ nextInterrupt s = some 16 ∧
    fld (coreWord s.mem (BitVec.ofNat 17 (0x50 + 16))) 1 7 = (0x0F : BitVec 7) ∧
    (fld (coreWord s.mem (BitVec.ofNat 17 (0x50 + 16))) 8 4 : BitVec 4).getMsbD 1 = false) ∧
    (let s := setLevel (given 0x345 [] [(0x60, 0x0F000190)]) 16 ⟨.waiting, true⟩
    let u := setLevel { s with watchdog := 0, hazard := none, halts := { s.halts with wait := false } } 16
      { level s 16 with state := .active }
    ExchangeAt { u with entry := some (.interrupt 16) } 0 (memRefOf 0x0F000190) (.core 0x190) (.core 0x191) (.core 0x192)
      (.core 0x193)) :=
  ⟨by decide +kernel, ⟨0x190, by decide +kernel⟩⟩

theorem witness_InputOutput :
    (let s := withReader edge
    s.psd.ms = false ∧ eaWord (at' 3) s = .ok 3 ∧ (findDevice s.io 3).isSome = true ∧
    (∀ c ∈ s.io, ∀ d ∈ c.devices, d.addr ≠ (0x7FF : WordAddr).setWidth 11) ∧ eaWord (at' 0x7FF) s = .ok 0x7FF ∧
    (findDevice s.io 3).all (fun p => !selectorBusy s.io p.1 3 && p.2.cond == 0 && p.1.cond == 0 && !p.2.intPending && !p.2.fault) = true ∧
    (findDevice (ioEvent (.request 3) s).io 3).all (fun p => p.2.intPending) = true) := by decide +kernel

/-- A busy selector IOP: the statement's first alternative. -/
theorem witness_InputOutput_busy :
    (let a : Controller := { reader with selector := true }
    let b : Controller := { reader with selector := true, cond := 3, devices := [⟨4, false, 3, true, false, false, 0, false, 0, false⟩] }
    (findDevice [a, b] 3).all (fun p => selectorBusy [a, b] p.1 3) = true) := by decide +kernel

theorem witness_AcknowledgeIo :
    (let s := ioEvent (.request 3) (withReader edge)
    s.psd.ms = false ∧ eaWord (at' 0) s = .ok 0 ∧ fld (0 : WordAddr) 6 3 = (0 : BitVec 3) ∧
    (requestingDevice s.io).isSome = true ∧ requestingDevice (withReader edge).io = none ∧
    fld (0x100 : WordAddr) 6 3 ≠ (0 : BitVec 3)) := by decide +kernel

/-- MTW in the location X'55' of a count pulse, to X'100' (which reaches zero); MTH and MTB in that of level 16, X'60', with
register 2 as a location and with the R field 0. -/
theorem witness_SingleInstructionInterrupt :
    (let s (k : Nat) (w : Word) := setLevel (given 0x345 [] [(BitVec.ofNat 17 (0x50 + k), w), (0x100, 1)]) k ⟨.waiting, true⟩
    let a := s 5 0x33F00100
    let b := s 16 0x53800002
    let c := s 16 0x73000100
    let ok (s : State) (k : Nat) : Bool := decide (s.inputs = []) && !ioRequest s && decide (s.panel.compute = .run) &&
      !s.started && !s.halts.addrStop && !s.halts.parity && !s.stopPending &&
      !s.panel.addrStop && nextInterrupt s == some k
    ok a 5 = true ∧ ok b 16 = true ∧ ok c 16 = true ∧
    directVia ⟨false, false⟩ (memRefOf 0x33F00100) a = .ok 0x100 ∧ fld (0x33F00100 : Word) 1 7 = (0x33 : BitVec 7) ∧
    locate ⟨false, false⟩ .write (addrWord 0x100 (indexOf (memRefOf 0x33F00100) a)) a = .ok (.core 0x100) ∧
    locWord a (.core 0x100) + (fld (0x33F00100 : Word) 8 4 : BitVec 4).signExtend 32 = 0 ∧
    directVia ⟨false, false⟩ (memRefOf 0x53800002) b = .ok 2 ∧ fld (0x53800002 : Word) 1 7 = (0x53 : BitVec 7) ∧
    locate ⟨false, false⟩ .write (fld (addrHalf 2 (indexOf (memRefOf 0x53800002) b)) 0 17) b = .ok (.reg 2) ∧
    directVia ⟨false, false⟩ (memRefOf 0x73000100) c = .ok 0x100 ∧ fld (0x73000100 : Word) 1 7 = (0x73 : BitVec 7) ∧
    locate ⟨false, false⟩ .write (fld (addrByte 0x100 (indexOf (memRefOf 0x73000100) c)) 0 17) c = .ok (.core 0x100) ∧
    (fld (0x73000100 : Word) 8 4 : BitVec 4) = 0) := by decide +kernel

end Sys2Proof.Tests
end

section
/-! The invariant and the operations: `InvAt` is the invariant while a trap or interrupt location may be served, `Ends` carries
it through a meaning, `Keeps` through an outcome. Each operation of the model keeps `InvAt`, said once, in the order of the
model's files. -/

namespace Sys2Proof.Safety

open Sys2Proof Machine

variable {α β : Type} {e e' : Option Entry} {s t : State}

/-! ### The invariant inside a step -/

/-- The invariant with `e` as the location being served; between steps `e` is none. -/
structure InvAt (e : Option Entry) (s : State) : Prop where
  wf : Memory.wf s.mem = true
  entry_eq : s.entry = e
  power : ∀ k < 2, powerLevelOk (level s k)
  chain : s.cfg.chainOk = true

theorem inv_iff_invAt : Inv s ↔ InvAt none s := by
  constructor
  · rintro ⟨hwf, hentry, h0, h1, hchain⟩
    refine ⟨hwf, hentry, fun k hk => ?_, hchain⟩
    obtain rfl | rfl : k = 0 ∨ k = 1 := by omega
    · exact h0
    · exact h1
  · exact fun h => ⟨h.wf, h.entry_eq, h.power 0 (by omega), h.power 1 (by omega), h.chain⟩

/-- The invariant rests on four fields: an update that leaves them alone keeps it. -/
protected theorem InvAt.frame (h : InvAt e s) (hmem : t.mem = s.mem := by rfl) (hentry : t.entry = s.entry := by rfl)
    (hlevels : t.levels = s.levels := by rfl) (hcfg : t.cfg = s.cfg := by rfl) : InvAt e t where
  wf := hmem ▸ h.wf
  entry_eq := hentry.trans h.entry_eq
  power k hk := by simpa only [level, hlevels] using h.power k hk
  chain := hcfg ▸ h.chain

/-- A location begins or ends to be served. -/
protected theorem InvAt.withEntry {x : Option Entry} (h : InvAt e s) (hx : x = e' := by rfl) :
    InvAt e' { s with entry := x } :=
  ⟨h.wf, hx, h.power, h.chain⟩

/-- A new memory in canonical form. -/
protected theorem InvAt.withMem {m : List Host.Cell} (h : InvAt e s) (hm : Memory.wf m = true) :
    InvAt e { s with mem := m } :=
  ⟨hm, h.entry_eq, h.power, h.chain⟩

protected theorem InvAt.ite {c : Prop} [Decidable c] (hs : InvAt e s) (ht : InvAt e t) : InvAt e (if c then s else t) := by
  split
  · exact hs
  · exact ht

/-! ### Meanings and outcomes -/

/-- The answer is no trap, or a trap raised with nothing changed since `s`. -/
inductive TrapsIn (s : State) : Except Stop α → Prop
  | ok {a : α} : TrapsIn s (.ok a)
  | trap {c : TrapCause} : TrapsIn s (.error (.trap c s))
  | fault {f : Fault} : TrapsIn s (.error (.fault f))
  | refuse {r : Refusal} : TrapsIn s (.error (.refuse r))

/-- The answer is a value with `P`, or a trap raised in a state that has the invariant, or a stop. -/
inductive Ends (e : Option Entry) (P : α → Prop) : Except Stop α → Prop
  | ok {a : α} (h : P a) : Ends e P (.ok a)
  | trap {c : TrapCause} {t : State} (h : InvAt e t) : Ends e P (.error (.trap c t))
  | fault {f : Fault} : Ends e P (.error (.fault f))
  | refuse {r : Refusal} : Ends e P (.error (.refuse r))

/-- A next state, if there is one, has the invariant. -/
def Keeps (x : Host.Outcome State Fault Refusal) : Prop := ∀ t, x = .next t → InvAt none t

theorem TrapsIn.bind {x : Except Stop α} {f : α → Except Stop β} (hx : TrapsIn s x) (hf : ∀ a, TrapsIn s (f a)) :
    TrapsIn s (x >>= f) := by
  cases hx with
  | ok => exact hf _
  | trap => exact .trap
  | fault => exact .fault
  | refuse => exact .refuse

protected theorem TrapsIn.ite {c : Prop} [Decidable c] {x y : Except Stop α} (hx : TrapsIn s x) (hy : TrapsIn s y) :
    TrapsIn s (if c then x else y) := by
  split
  · exact hx
  · exact hy

/-- A meaning that begins with a computation that changes nothing. -/
theorem TrapsIn.andThen {P : β → Prop} {x : Except Stop α} {f : α → Except Stop β} (hx : TrapsIn s x) (h : InvAt e s)
    (hf : ∀ a, Ends e P (f a)) : Ends e P (x >>= f) := by
  cases hx with
  | ok => exact hf _
  | trap => exact .trap h
  | fault => exact .fault
  | refuse => exact .refuse

theorem Ends.bind {P : α → Prop} {Q : β → Prop} {x : Except Stop α} {f : α → Except Stop β} (hx : Ends e P x)
    (hf : ∀ a, P a → Ends e Q (f a)) : Ends e Q (x >>= f) := by
  cases hx with
  | ok h => exact hf _ h
  | trap h => exact .trap h
  | fault => exact .fault
  | refuse => exact .refuse

protected theorem Ends.ite {P : α → Prop} {c : Prop} [Decidable c] {x y : Except Stop α} (hx : Ends e P x)
    (hy : Ends e P y) : Ends e P (if c then x else y) := by
  split
  · exact hx
  · exact hy

theorem Keeps.next (h : InvAt none s) : Keeps (.next s) := by
  intro t ht
  cases ht
  exact h

theorem Keeps.fault {f : Fault} : Keeps (.fault f) := by
  intro t ht
  cases ht

theorem Keeps.refused {r : Refusal} : Keeps (.refused r) := by
  intro t ht
  cases ht

protected theorem Keeps.ite {c : Prop} [Decidable c] {x y : Host.Outcome State Fault Refusal} (hx : Keeps x)
    (hy : Keeps y) : Keeps (if c then x else y) := by
  split
  · exact hx
  · exact hy

/-! ### Registers, condition code, PSD -/

protected theorem InvAt.draw (h : InvAt e s) : InvAt e (draw s).2 := h.frame

protected theorem InvAt.setReg {r : RegNum} {v : Word} (h : InvAt e s) : InvAt e (setReg s r v) :=
  h.frame (setReg_mem s r v) (setReg_entry s r v) (setReg_levels s r v) (setReg_cfg s r v)

protected theorem InvAt.setPair {r : RegNum} {d : Double} (h : InvAt e s) : InvAt e (setPair s r d) := h.setReg.setReg

protected theorem InvAt.withPsd {p : Psd} (h : InvAt e s) : InvAt e { s with psd := p } := h.frame

protected theorem InvAt.setCc {c : BitVec 4} (h : InvAt e s) : InvAt e (setCc s c) := h.frame

protected theorem InvAt.setFloatMode {f : BitVec 3} (h : InvAt e s) : InvAt e (setFloatMode s f) := h.frame

protected theorem InvAt.setIa {a : WordAddr} (h : InvAt e s) : InvAt e (setIa s a) := h.frame

protected theorem InvAt.backUp (h : InvAt e s) : InvAt e (backUp s) := h.frame

/-! ### Core memory -/

protected theorem InvAt.locSetWord {l : Loc} {w : Word} (h : InvAt e s) : InvAt e (locSetWord s l w) :=
  (h.withMem (wf_locSetWord s l w h.wf)).frame rfl (locSetWord_entry s l w) (locSetWord_levels s l w) (locSetWord_cfg s l w)

protected theorem InvAt.locSetHalf {l : Loc} {k : Bool} {v : Half} (h : InvAt e s) : InvAt e (locSetHalf s l k v) :=
  (h.withMem (wf_locSetHalf s l k v h.wf)).frame rfl (locSetHalf_entry s l k v) (locSetHalf_levels s l k v)
    (locSetHalf_cfg s l k v)

protected theorem InvAt.locSetByte {l : Loc} {k : BitVec 2} {b : Byte} (h : InvAt e s) : InvAt e (locSetByte s l k b) :=
  (h.withMem (wf_locSetByte s l k b h.wf)).frame rfl (locSetByte_entry s l k b) (locSetByte_levels s l k b)
    (locSetByte_cfg s l k b)

theorem trapsIn_locate {p : Path} {k : Access} {va : WordAddr} : TrapsIn s (locate p k va s) := .ite .ok (.ite .ok .trap)

theorem trapsIn_readVia {p : Path} {k : Access} {va : WordAddr} : TrapsIn s (readVia p k va s) :=
  trapsIn_locate.bind fun _ => .ok

theorem trapsIn_readWord {va : WordAddr} : TrapsIn s (readWord s va) := trapsIn_readVia

theorem trapsIn_readInstr {va : WordAddr} : TrapsIn s (readInstr s va) := trapsIn_readVia

theorem trapsIn_readByte {a : ByteAddr} : TrapsIn s (readByte s a) := trapsIn_readWord.bind fun _ => .ok

theorem trapsIn_readHalf {a : BitVec 18} : TrapsIn s (readHalf s a) := trapsIn_readWord.bind fun _ => .ok

theorem trapsIn_readDouble {a : BitVec 16} : TrapsIn s (readDouble s a) :=
  trapsIn_readWord.bind fun _ => trapsIn_readWord.bind fun _ => .ok

theorem ends_writeVia {p : Path} {va : WordAddr} {w : Word} (h : InvAt e s) : Ends e (InvAt e) (writeVia p va w s) :=
  trapsIn_locate.andThen h fun _ => .ok h.locSetWord

theorem ends_writeWord {va : WordAddr} {w : Word} (h : InvAt e s) : Ends e (InvAt e) (writeWord s va w) := ends_writeVia h

theorem ends_writeByte {a : ByteAddr} {b : Byte} (h : InvAt e s) : Ends e (InvAt e) (writeByte s a b) :=
  trapsIn_locate.andThen h fun _ => .ok h.locSetByte

theorem ends_writeHalf {a : BitVec 18} {v : Half} (h : InvAt e s) : Ends e (InvAt e) (writeHalf s a v) :=
  trapsIn_locate.andThen h fun _ => .ok h.locSetHalf

theorem ends_writeDouble {a : BitVec 16} {hi lo : Word} (h : InvAt e s) : Ends e (InvAt e) (writeDouble s a hi lo) :=
  (ends_writeWord h).bind fun _ ht => ends_writeWord ht

protected theorem InvAt.noteReferences {refs : State → List Reference} (h : InvAt e s) : InvAt e (noteReferences refs s) := by
  obtain ⟨b, hb, -⟩ := noteReferences_spec refs s
  rw [hb]
  exact h.frame

/-! ### Effective addresses and operands -/

theorem trapsIn_directVia {p : Path} {m : MemRef} : TrapsIn s (directVia p m s) :=
  .ite (trapsIn_readVia.bind fun _ => .ok) .ok

theorem trapsIn_direct {m : MemRef} : TrapsIn s (direct m s) := trapsIn_directVia

theorem trapsIn_eaByte {m : MemRef} : TrapsIn s (eaByte m s) := trapsIn_direct.bind fun _ => .ok
theorem trapsIn_eaHalf {m : MemRef} : TrapsIn s (eaHalf m s) := trapsIn_direct.bind fun _ => .ok
theorem trapsIn_eaWord {m : MemRef} : TrapsIn s (eaWord m s) := trapsIn_direct.bind fun _ => .ok
theorem trapsIn_eaDouble {m : MemRef} : TrapsIn s (eaDouble m s) := trapsIn_direct.bind fun _ => .ok

theorem trapsIn_operandByte {m : MemRef} : TrapsIn s (operandByte m s) := trapsIn_eaByte.bind fun _ => trapsIn_readByte
theorem trapsIn_operandHalf {m : MemRef} : TrapsIn s (operandHalf m s) := trapsIn_eaHalf.bind fun _ => trapsIn_readHalf
theorem trapsIn_operandWord {m : MemRef} : TrapsIn s (operandWord m s) := trapsIn_eaWord.bind fun _ => trapsIn_readWord
theorem trapsIn_operandDouble {m : MemRef} : TrapsIn s (operandDouble m s) :=
  trapsIn_eaDouble.bind fun _ => trapsIn_readDouble

theorem trapsIn_shiftFields {m : MemRef} : TrapsIn s (shiftFields m s) := trapsIn_direct.bind fun _ => .ok
theorem trapsIn_ioAddress {m : MemRef} : TrapsIn s (ioAddress m s) := trapsIn_eaWord.bind fun _ => .ok
theorem trapsIn_elementAddress {m : MemRef} : TrapsIn s (elementAddress m s) := trapsIn_eaWord.bind fun _ => .ok

theorem trapsIn_requireMaster : TrapsIn s (requireMaster s) := .ite .trap .ok
theorem trapsIn_requireOption {b : Bool} : TrapsIn s (requireOption b s) := .ite .ok .trap

/-! ### Interrupt levels -/

theorem level_setLevel_self {k : Nat} {l : Level} (hk : k < 240) : level (setLevel s k l) k = l := by
  simp [level, hk]

theorem level_setLevel_ne {k j : Nat} {l : Level} (h : k ≠ j) : level (setLevel s k l) j = level s j := by
  unfold level
  split
  · simp [h]
  · rfl

/-- A level may be set to anything, a power level only to a state that is armed and enabled. -/
protected theorem InvAt.setLevel {k : Nat} {l : Level} (h : InvAt e s) (hl : k < 2 → powerLevelOk l) :
    InvAt e (setLevel s k l) := by
  refine ⟨h.wf, h.entry_eq, fun j hj => ?_, h.chain⟩
  by_cases hkj : k = j
  · subst hkj
    rw [level_setLevel_self (by omega)]
    exact hl hj
  · rw [level_setLevel_ne hkj]
    exact h.power j hj

/-- A level moves to a state other than disarmed and stays as enabled as it was. -/
protected theorem InvAt.setLevelState {k : Nat} {x : LevelState} (h : InvAt e s) (hx : k < 2 → x ≠ .disarmed) :
    InvAt e (setLevel s k { level s k with state := x }) :=
  h.setLevel fun hk => ⟨(h.power k hk).1, hx hk⟩

protected theorem InvAt.signal {k : Nat} (h : InvAt e s) : InvAt e (signal s k) :=
  .ite (h.setLevelState fun _ => by decide) h

theorem clearedState_power {k : Nat} {arm : Bool} (hk : k < 2) : clearedState k arm ≠ .disarmed := by
  simp [clearedState, hk]

protected theorem InvAt.clearHighest {arm : Bool} (h : InvAt e s) : InvAt e (clearHighest s arm) := by
  unfold clearHighest
  split
  · exact h.setLevelState clearedState_power
  · exact h

/-! ### Loading and exchanging the PSD; taking a trap -/

protected theorem InvAt.loadPsd {flags : BitVec 4} {ed : Double} (h : InvAt e s) : InvAt e (loadPsd flags ed s) :=
  .ite h.withPsd.clearHighest h.withPsd

theorem ends_exchangePsd {r : BitVec 4} {m : MemRef} (h : InvAt e s) : Ends e (InvAt e) (exchangePsd r m s) :=
  trapsIn_directVia.andThen h fun _ => .ite .refuse <|
    (ends_writeVia h).bind fun _ h1 => (ends_writeVia h1).bind fun _ h2 =>
      trapsIn_readVia.andThen h2 fun _ => trapsIn_readVia.andThen h2 fun _ => .ok h2.withPsd

protected theorem InvAt.orReasons {mask : BitVec 4} {ai : Bool} (h : InvAt e s) : InvAt e (orReasons mask ai s) :=
  .ite h.setCc.setIa h.setCc

protected theorem InvAt.trapModify {c : TrapCause} {ai : Bool} (h : InvAt e s) : InvAt e (trapModify c ai s) := by
  cases c with
  | nonallowed reasons => exact h.orReasons
  | call n r => exact h.orReasons
  | watchdog => exact h.draw.setCc
  | unimplemented | stackLimit | overflow | floatingFault | decimalFault => exact h

protected theorem InvAt.trapState {c : TrapCause} (h : InvAt e s) : InvAt (some (.trap c)) (trapState c s) :=
  have hs : InvAt (some (.trap c)) { s with entry := some (.trap c), hazard := none } := h.withEntry.frame
  .ite hs.draw.setCc hs

/-- The location of a trap is served in its sequence alone: a sequence that succeeds ends with none being served. -/
theorem ends_enterTrap {c : TrapCause} (h : InvAt e s) : Ends (some (.trap c)) (InvAt none) (enterTrap c s) :=
  .ite ((ends_exchangePsd h.trapState.noteReferences).bind fun _ ht => .ok ht.trapModify.withEntry) .refuse

theorem keeps_takeTrapAt {c : TrapCause} (h : InvAt e s) : Keeps (takeTrapAt c s) := by
  intro t ht
  obtain h1 | ⟨c2, s2, h1, h2⟩ := takeTrapAt_eq_next ht
  · cases h1 ▸ ends_enterTrap h with
    | ok hinv => exact hinv
  · cases h1 ▸ ends_enterTrap h with
    | trap hs2 =>
      cases h2 ▸ ends_enterTrap hs2 with
      | ok hinv => exact hinv

theorem keeps_takeTrap {c : TrapCause} (h : InvAt e s) : Keeps (takeTrap c s) := keeps_takeTrapAt h.backUp

theorem keeps_finish {x : Except Stop State} (hx : Ends none (InvAt none) x) : Keeps (finish x) := by
  cases hx with
  | ok h => exact .next h
  | trap h => exact keeps_takeTrap h
  | fault => exact .fault
  | refuse => exact .refused

theorem ends_overflowTrap {b : Bool} (h : InvAt e s) : Ends e (InvAt e) (overflowTrap b s) := .ite (.trap h) (.ok h)

/-! ### The condition-code computations: they write the PSD alone -/

protected theorem InvAt.setCc1 {b : Bool} (h : InvAt e s) : InvAt e (setCc1 b s) := h.frame
protected theorem InvAt.setCc2 {b : Bool} (h : InvAt e s) : InvAt e (setCc2 b s) := h.frame
protected theorem InvAt.setCc12 {b c : Bool} (h : InvAt e s) : InvAt e (setCc12 b c s) := h.frame
protected theorem InvAt.setCc34 {b c : Bool} (h : InvAt e s) : InvAt e (setCc34 b c s) := h.frame
protected theorem InvAt.test34 {n : Nat} {v : BitVec n} (h : InvAt e s) : InvAt e (test34 v s) := h.frame
protected theorem InvAt.testNonzero {n : Nat} {v : BitVec n} (h : InvAt e s) : InvAt e (testNonzero v s) := h.frame
protected theorem InvAt.addFlags {n : Nat} {a b : BitVec n} (h : InvAt e s) : InvAt e (addFlags a b s) := h.frame
protected theorem InvAt.subFlags {n : Nat} {a b : BitVec n} (h : InvAt e s) : InvAt e (subFlags a b s) := h.frame
protected theorem InvAt.complementFlags {n : Nat} {v : BitVec n} (h : InvAt e s) : InvAt e (complementFlags v s) := h.frame
protected theorem InvAt.absoluteFlags {n : Nat} {v : BitVec n} (h : InvAt e s) : InvAt e (absoluteFlags v s) :=
  .ite h.setCc2.setCc34 h.setCc2.setCc34
protected theorem InvAt.cmpSigned {n : Nat} {a b : BitVec n} (h : InvAt e s) : InvAt e (cmpSigned a b s) := h.frame
protected theorem InvAt.cmpUnsigned {n : Nat} {a b : BitVec n} (h : InvAt e s) : InvAt e (cmpUnsigned a b s) := h.frame
protected theorem InvAt.compareFlags {n : Nat} {a b : BitVec n} (h : InvAt e s) : InvAt e (compareFlags a b s) := h.frame
protected theorem InvAt.productFlags {p : Int} (h : InvAt e s) : InvAt e (productFlags p s) := h.frame
protected theorem InvAt.byteTestFlags {c : Bool} {v : Byte} (h : InvAt e s) : InvAt e (byteTestFlags c v s) := h.frame

end Sys2Proof.Safety
end

section
/-! The invariant and the instructions: each meaning keeps it, in the order of the model's files. -/

namespace Sys2Proof.Safety

open Sys2Proof Machine

variable {e : Option Entry} {s t : State} {r : RegNum} {m : MemRef}

/-! ### Branches and calls -/

theorem trapsIn_branchCheck {va : WordAddr} {taken : Bool} : TrapsIn s (branchCheck va taken s) := .ite .ok .trap

protected theorem InvAt.branchTo {va : WordAddr} {taken : Bool} (h : InvAt e s) : InvAt e (branchTo va taken s) :=
  .ite h.setIa h

theorem keeps_execBcs {r : BitVec 4} (h : InvAt none s) : Keeps (execBcs r m s) :=
  keeps_finish <| trapsIn_eaWord.andThen h fun _ => trapsIn_branchCheck.andThen h fun _ => .ok h.branchTo

theorem keeps_execBcr {r : BitVec 4} (h : InvAt none s) : Keeps (execBcr r m s) :=
  keeps_finish <| trapsIn_eaWord.andThen h fun _ => trapsIn_branchCheck.andThen h fun _ => .ok h.branchTo

theorem keeps_execBir (h : InvAt none s) : Keeps (execBir r m s) :=
  keeps_finish <| trapsIn_eaWord.andThen h fun _ => trapsIn_branchCheck.andThen h fun _ => .ok h.setReg.branchTo

theorem keeps_execBdr (h : InvAt none s) : Keeps (execBdr r m s) :=
  keeps_finish <| trapsIn_eaWord.andThen h fun _ => trapsIn_branchCheck.andThen h fun _ => .ok h.setReg.branchTo

theorem keeps_execBal (h : InvAt none s) : Keeps (execBal r m s) :=
  keeps_finish <| trapsIn_eaWord.andThen h fun _ =>
    trapsIn_branchCheck.andThen h.setReg fun _ => .ok h.setReg.branchTo

theorem keeps_execCal1 {r : BitVec 4} (h : InvAt none s) : Keeps (execCal1 r m s) := keeps_finish (.trap h)
theorem keeps_execCal2 {r : BitVec 4} (h : InvAt none s) : Keeps (execCal2 r m s) := keeps_finish (.trap h)
theorem keeps_execCal3 {r : BitVec 4} (h : InvAt none s) : Keeps (execCal3 r m s) := keeps_finish (.trap h)
theorem keeps_execCal4 {r : BitVec 4} (h : InvAt none s) : Keeps (execCal4 r m s) := keeps_finish (.trap h)

/-! ### Byte strings -/

protected theorem InvAt.setAddressField {a : ByteAddr} (h : InvAt e s) : InvAt e (setAddressField r a s) := h.setReg
protected theorem InvAt.setCountField {c : Byte} (h : InvAt e s) : InvAt e (setCountField r c s) := h.setReg
protected theorem InvAt.again {more : Bool} (h : InvAt e s) : InvAt e (again more s) := .ite h.backUp h

protected theorem InvAt.advanceString {sa da : ByteAddr} {c : Byte} (h : InvAt e s) :
    InvAt e (advanceString r sa da c s) :=
  (InvAt.ite h h.setAddressField).setAddressField.setCountField

theorem ends_stepMbs {d : BitVec 20} (h : InvAt e s) : Ends e (InvAt e) (stepMbs r d s) :=
  .ite (.ok h) <| trapsIn_readByte.andThen h fun _ => (ends_writeByte h).bind fun _ ht => .ok ht.advanceString.again

theorem ends_stepCbs {d : BitVec 20} (h : InvAt e s) : Ends e (InvAt e) (stepCbs r d s) :=
  .ite (.ok h) <| trapsIn_readByte.andThen h fun _ => trapsIn_readByte.andThen h fun _ =>
    .ite (.ok h.setCc34) (.ok h.setCc34.advanceString.again)

theorem trapsIn_translate {d : BitVec 20} {b : Byte} : TrapsIn s (translate r d b s) := trapsIn_readByte

theorem ends_stepTbs {d : BitVec 20} (h : InvAt e s) : Ends e (InvAt e) (stepTbs r d s) :=
  .ite .refuse <| .ite (.ok h) <| trapsIn_readByte.andThen h fun _ => trapsIn_translate.andThen h fun _ =>
    (ends_writeByte h).bind fun _ ht => .ok ht.setAddressField.setCountField.again

theorem ends_stepTtbs {d : BitVec 20} (h : InvAt e s) : Ends e (InvAt e) (stepTtbs r d s) :=
  have hmark {x : Byte} : InvAt e (if r = 0 then s else setCountField r x s) := .ite h h.setCountField
  .ite .refuse <| .ite (.ok h) <| trapsIn_readByte.andThen h fun _ => trapsIn_translate.andThen h fun _ =>
    .ite (.ok hmark.frame)
      (.ok (InvAt.ite h.setAddressField.setCountField.frame h.setAddressField.setCountField).again)

theorem keeps_execMbs {d : BitVec 20} (h : InvAt none s) : Keeps (execMbs r d s) := keeps_finish (ends_stepMbs h)
theorem keeps_execCbs {d : BitVec 20} (h : InvAt none s) : Keeps (execCbs r d s) := keeps_finish (ends_stepCbs h)
theorem keeps_execTbs {d : BitVec 20} (h : InvAt none s) : Keeps (execTbs r d s) := keeps_finish (ends_stepTbs h)
theorem keeps_execTtbs {d : BitVec 20} (h : InvAt none s) : Keeps (execTtbs r d s) := keeps_finish (ends_stepTtbs h)

protected theorem InvAt.editMark {mark : Nat} {da : ByteAddr} (h : InvAt e s) : InvAt e (editMark mark da s) :=
  .ite h h.draw.setReg

protected theorem InvAt.editNext {da : ByteAddr} {c : Byte} (h : InvAt e s) : InvAt e (editNext r da c s) :=
  h.setAddressField.setCountField.again

theorem ends_editDigit {d : BitVec 20} {p : Byte} {da : ByteAddr} {c : Byte} (h : InvAt e s) :
    Ends e (InvAt e) (editDigit r d p da c s) :=
  trapsIn_readByte.andThen h fun _ => .ite (.trap h) <| trapsIn_locate.andThen h fun _ =>
    .ok h.withPsd.setAddressField.editMark.locSetByte.editNext

theorem ends_editOther {da : ByteAddr} {c : Byte} (h : InvAt e s) : Ends e (InvAt e) (editOther r da c s) :=
  (Ends.ite (.ok h) (ends_writeByte h)).bind fun _ ht => .ok ht.editNext

theorem ends_editSeparator {da : ByteAddr} {c : Byte} (h : InvAt e s) : Ends e (InvAt e) (editSeparator r da c s) :=
  (ends_writeByte h).bind fun _ ht => .ok ht.withPsd.editNext

theorem ends_stepEbs {d : BitVec 20} (h : InvAt e s) : Ends e (InvAt e) (stepEbs r d s) :=
  trapsIn_requireOption.andThen h fun _ => .ite .refuse <| .ite (.ok h) <| trapsIn_readByte.andThen h fun _ =>
    .ite (ends_editDigit h) <| .ite (ends_editSeparator h) (ends_editOther h)

theorem keeps_execEbs {d : BitVec 20} (h : InvAt none s) : Keeps (execEbs r d s) := keeps_finish (ends_stepEbs h)

/-! ### Comparison and logical instructions -/

theorem keeps_execCi {v : BitVec 20} (h : InvAt none s) : Keeps (execCi r v s) := keeps_finish (.ok h.compareFlags)

theorem keeps_execCb (h : InvAt none s) : Keeps (execCb r m s) :=
  keeps_finish <| trapsIn_operandByte.andThen h fun _ => .ok h.setCc2.cmpUnsigned

theorem keeps_execCh (h : InvAt none s) : Keeps (execCh r m s) :=
  keeps_finish <| trapsIn_operandHalf.andThen h fun _ => .ok h.compareFlags

theorem keeps_execCw (h : InvAt none s) : Keeps (execCw r m s) :=
  keeps_finish <| trapsIn_operandWord.andThen h fun _ => .ok h.compareFlags

theorem keeps_execCd (h : InvAt none s) : Keeps (execCd r m s) :=
  keeps_finish <| trapsIn_operandDouble.andThen h fun _ => .ok h.cmpSigned

theorem keeps_execCs (h : InvAt none s) : Keeps (execCs r m s) :=
  keeps_finish <| trapsIn_operandWord.andThen h fun _ => .ok h.cmpUnsigned

theorem keeps_execClr (h : InvAt none s) : Keeps (execClr r m s) :=
  keeps_finish <| trapsIn_operandWord.andThen h fun _ => .ok h.cmpSigned.setCc12

theorem keeps_execClm (h : InvAt none s) : Keeps (execClm r m s) :=
  keeps_finish <| trapsIn_operandDouble.andThen h fun _ => .ok h.cmpSigned.setCc12

theorem keeps_execOr (h : InvAt none s) : Keeps (execOr r m s) :=
  keeps_finish <| trapsIn_operandWord.andThen h fun _ => .ok h.setReg.test34

theorem keeps_execEor (h : InvAt none s) : Keeps (execEor r m s) :=
  keeps_finish <| trapsIn_operandWord.andThen h fun _ => .ok h.setReg.test34

theorem keeps_execAnd (h : InvAt none s) : Keeps (execAnd r m s) :=
  keeps_finish <| trapsIn_operandWord.andThen h fun _ => .ok h.setReg.test34

/-! ### Control -/

theorem keeps_execLpsd {r : BitVec 4} (h : InvAt none s) : Keeps (execLpsd r m s) :=
  keeps_finish <| trapsIn_requireMaster.andThen h fun _ => trapsIn_operandDouble.andThen h fun _ => .ok h.loadPsd

theorem keeps_execXpsd {r : BitVec 4} (h : InvAt none s) : Keeps (execXpsd r m s) :=
  keeps_finish <| trapsIn_requireMaster.andThen h fun _ => ends_exchangePsd h

theorem keeps_execLrp {r : BitVec 4} (h : InvAt none s) : Keeps (execLrp r m s) :=
  keeps_finish <| trapsIn_requireMaster.andThen h fun _ => trapsIn_operandWord.andThen h fun _ => .ok h.withPsd

protected theorem InvAt.loadStorage {c : ControlStorage} {p : BitVec 8} {w : Word} (h : InvAt e s) :
    InvAt e (loadStorage c p w s) := by
  unfold loadStorage
  split <;> exact h.frame

protected theorem InvAt.freeStorage {c : ControlStorage} (h : InvAt e s) : InvAt e (freeStorage c s) := by
  unfold freeStorage
  split <;> exact h.frame

protected theorem InvAt.freePair (h : InvAt e s) : InvAt e (freePair r s) := h.draw.draw.setReg.setReg

theorem ends_moveControlWord {c : ControlStorage} (h : InvAt e s) : Ends e (InvAt e) (moveControlWord c r s) :=
  trapsIn_readWord.andThen h fun _ => .ok h.loadStorage.setReg.setReg.again

theorem ends_stepMmc {sel : BitVec 3} (h : InvAt e s) : Ends e (InvAt e) (stepMmc r sel s) := by
  refine trapsIn_requireMaster.andThen h fun _ => ?_
  split
  · exact .refuse
  · refine .ite (.ok h.freePair) ?_
    split
    · exact .ok h.freeStorage.freePair
    · exact .ite .refuse (ends_moveControlWord h)

theorem keeps_execMmc {ind : Bool} {sel : BitVec 3} {ra : WordAddr} (h : InvAt none s) : Keeps (execMmc ind r sel ra s) :=
  keeps_finish (ends_stepMmc h)

theorem keeps_execWait {r : BitVec 4} (h : InvAt none s) : Keeps (execWait r m s) :=
  keeps_finish <| trapsIn_requireMaster.andThen h fun _ => trapsIn_eaWord.andThen h fun _ => .ok h.frame

theorem ends_noElement (h : InvAt e s) : Ends e (InvAt e) (noElement s) := .ite .fault (.trap h)

protected theorem InvAt.readInternal {a : BitVec 16} (h : InvAt e s) : InvAt e (readInternal r a s) :=
  .ite h <| .ite (h.setReg (v := s.memFault.setWidth 32) (r := r)).frame <| .ite h h.draw.setReg

theorem keeps_execRd (h : InvAt none s) : Keeps (execRd r m s) := by
  refine keeps_finish <| trapsIn_requireMaster.andThen h fun _ => trapsIn_elementAddress.andThen h fun _ =>
    .ite (.ok h.setCc.readInternal) <| .ite (ends_noElement h) ?_
  split
  · exact ends_noElement h
  · exact .ok (.ite h.setCc34 h.setCc34.setReg)

/-- Interrupt control reaches no power level (48_control R486). -/
theorem selectedLevel_ge {g : BitVec 4} {k n : Nat} (h : selectedLevel g k = some n) : 2 ≤ n := by
  unfold selectedLevel at h
  split at h
  · cases h
    omega
  · split at h
    · cases h
      omega
    · cases h

protected theorem InvAt.controlOne {f : BitVec 3} {g : BitVec 4} {data : Word} {k : Nat} (h : InvAt e s) :
    InvAt e (controlOne f g data s k) := by
  unfold controlOne
  split
  · exact h
  · rename_i n hn
    have := selectedLevel_ge hn
    exact .ite (h.setLevel fun _ => by omega) h

protected theorem InvAt.foldControlOne {f : BitVec 3} {g : BitVec 4} {data : Word} (ks : List Nat) (h : InvAt e s) :
    InvAt e (ks.foldl (controlOne f g data) s) := by
  induction ks generalizing s with
  | nil => exact h
  | cons k rest ih => exact ih h.controlOne

theorem ends_controlInterrupts {a : BitVec 16} {data : Word} (h : InvAt e s) :
    Ends e (InvAt e) (controlInterrupts a data s) :=
  .ite .refuse (.ok (h.foldControlOne _))

protected theorem InvAt.writeInternal {a : BitVec 16} (h : InvAt e s) : InvAt e (writeInternal a s) :=
  .ite h.withPsd <| .ite h.withPsd <| .ite h.frame <| .ite h.frame <| .ite h.frame h.frame

protected theorem InvAt.writeElement {a : BitVec 16} {data : Word} (h : InvAt e s) : InvAt e (writeElement a data s) :=
  h.frame

theorem keeps_execWd (h : InvAt none s) : Keeps (execWd r m s) := by
  refine keeps_finish <| trapsIn_requireMaster.andThen h fun _ => trapsIn_elementAddress.andThen h fun _ =>
    .ite (.ok h.setCc.writeInternal) <| .ite (ends_controlInterrupts h) ?_
  split
  · exact ends_noElement h
  · exact .ok h.writeElement
  · exact .ok h.writeElement.setCc34

/-! ### Decimal -/

protected theorem InvAt.setDeca {v : Nat} (h : InvAt e s) : InvAt e (setDeca s v) := h.setReg.setReg.setReg.setReg

theorem trapsIn_readBytes {k : Nat} {a : ByteAddr} {acc : Nat} : TrapsIn s (readBytes s k a acc) := by
  induction k generalizing a acc with
  | zero => exact .ok
  | succ k ih => exact trapsIn_readByte.bind fun _ => ih

theorem trapsIn_decimalOperand {r : BitVec 4} : TrapsIn s (decimalOperand r m s) :=
  trapsIn_eaByte.bind fun _ => trapsIn_readBytes

theorem ends_decimalAbort {illegal : Bool} (h : InvAt e s) : Ends e (InvAt e) (decimalAbort illegal s) :=
  .ite (.trap h.setCc12) (.ok h.setCc12)

theorem ends_decimalIllegal (h : InvAt e s) : Ends e (InvAt e) (decimalIllegal s) := ends_decimalAbort h
theorem ends_decimalOverflow (h : InvAt e s) : Ends e (InvAt e) (decimalOverflow s) := ends_decimalAbort h

protected theorem InvAt.loadDeca {n : Nat} {neg cc2 : Bool} (h : InvAt e s) : InvAt e (loadDeca n neg cc2 s) :=
  h.setDeca.setCc12.setCc34

protected theorem InvAt.loadDecaInt {x : Int} (h : InvAt e s) : InvAt e (loadDecaInt x s) := h.loadDeca

protected theorem InvAt.freeDeca (h : InvAt e s) : InvAt e (freeDeca s) :=
  h.draw.draw.draw.draw.draw.setReg.setReg.setReg.setReg.setCc

theorem ends_storeBytes {bytes : List Byte} {a : ByteAddr} (h : InvAt e s) : Ends e (InvAt e) (storeBytes bytes a s) := by
  induction bytes generalizing a s with
  | nil => exact .ok h
  | cons b rest ih => exact (ends_writeByte h).bind fun _ ht => ih ht

protected theorem InvAt.storeSome {mask : Word} {i : Nat} {bytes : List Byte} {a : ByteAddr} (h : InvAt e s) :
    InvAt e (storeSome mask i bytes a s) := by
  induction bytes generalizing i a s with
  | nil => exact h
  | cons b rest ih =>
    refine ih (.ite ?_ h)
    cases hw : writeByte s a b with
    | ok u =>
      cases hw ▸ ends_writeByte (a := a) (b := b) h with
      | ok hu => exact hu
    | error _ => exact h

theorem ends_storeOperand {bytes : List Byte} {a : ByteAddr} (h : InvAt e s) :
    Ends e (InvAt e) (storeOperand bytes a s) := by
  have hx : Ends e (InvAt e) (storeBytes bytes a s) := ends_storeBytes h
  unfold storeOperand
  generalize storeBytes bytes a s = x at hx
  cases hx with
  | ok ht => exact .ok ht
  | trap => exact .trap h.draw.storeSome
  | fault => exact .fault
  | refuse => exact .refuse

theorem ends_decimalSum {x : Int} (h : InvAt e s) : Ends e (InvAt e) (decimalSum x s) :=
  .ite (ends_decimalOverflow h) (.ok h.loadDecaInt)

protected theorem InvAt.loadQuotient {a b : Nat} {aneg bneg : Bool} (h : InvAt e s) :
    InvAt e (loadQuotient a b aneg bneg s) :=
  h.setDeca.setCc12.setCc34

theorem keeps_execDl {r : BitVec 4} (h : InvAt none s) : Keeps (execDl r m s) :=
  keeps_finish <| trapsIn_requireOption.andThen h fun _ => trapsIn_decimalOperand.andThen h fun _ =>
    .ite (ends_decimalIllegal h) (.ok h.loadDeca)

theorem keeps_execDst {r : BitVec 4} (h : InvAt none s) : Keeps (execDst r m s) :=
  keeps_finish <| trapsIn_requireOption.andThen h fun _ => trapsIn_eaByte.andThen h fun _ =>
    .ite (ends_decimalIllegal h) <| (ends_storeOperand h).bind fun _ ht => .ok ht.setCc12

theorem keeps_execDa {r : BitVec 4} (h : InvAt none s) : Keeps (execDa r m s) :=
  keeps_finish <| trapsIn_requireOption.andThen h fun _ => trapsIn_decimalOperand.andThen h fun _ =>
    .ite (ends_decimalIllegal h) (ends_decimalSum h)

theorem keeps_execDs {r : BitVec 4} (h : InvAt none s) : Keeps (execDs r m s) :=
  keeps_finish <| trapsIn_requireOption.andThen h fun _ => trapsIn_decimalOperand.andThen h fun _ =>
    .ite (ends_decimalIllegal h) (ends_decimalSum h)

theorem keeps_execDm {r : BitVec 4} (h : InvAt none s) : Keeps (execDm r m s) :=
  keeps_finish <| trapsIn_requireOption.andThen h fun _ => trapsIn_decimalOperand.andThen h fun _ =>
    .ite (ends_decimalIllegal h) <| .ite (.ok h.freeDeca) (.ok h.loadDecaInt)

theorem keeps_execDd {r : BitVec 4} (h : InvAt none s) : Keeps (execDd r m s) :=
  keeps_finish <| trapsIn_requireOption.andThen h fun _ => trapsIn_decimalOperand.andThen h fun _ =>
    .ite (ends_decimalIllegal h) <| .ite (.ok h.freeDeca) <| .ite (ends_decimalOverflow h) <|
      .ite (.ok h.freeDeca) (.ok h.loadQuotient)

theorem keeps_execDc {r : BitVec 4} (h : InvAt none s) : Keeps (execDc r m s) :=
  keeps_finish <| trapsIn_requireOption.andThen h fun _ => trapsIn_decimalOperand.andThen h fun _ =>
    .ite (ends_decimalIllegal h) (.ok h.setCc12.setCc34)

theorem keeps_execDsa {r : BitVec 4} (h : InvAt none s) : Keeps (execDsa r m s) :=
  keeps_finish <| trapsIn_requireOption.andThen h fun _ => trapsIn_eaByte.andThen h fun _ =>
    .ite (ends_decimalIllegal h) <| .ite (.ok h.loadDeca) (.ok h.loadDeca)

theorem keeps_execPack {r : BitVec 4} (h : InvAt none s) : Keeps (execPack r m s) :=
  keeps_finish <| trapsIn_requireOption.andThen h fun _ => trapsIn_eaByte.andThen h fun _ =>
    trapsIn_readBytes.andThen h fun _ => .ite (ends_decimalIllegal h) (.ok h.loadDeca)

theorem keeps_execUnpk {r : BitVec 4} (h : InvAt none s) : Keeps (execUnpk r m s) :=
  keeps_finish <| trapsIn_requireOption.andThen h fun _ => trapsIn_eaByte.andThen h fun _ =>
    .ite (ends_decimalIllegal h) <| (ends_storeOperand h).bind fun _ ht => .ok ht.setCc12

/-! ### Fixed-point arithmetic -/

theorem ends_addToReg {v : Word} (h : InvAt e s) : Ends e (InvAt e) (addToReg r v s) :=
  ends_overflowTrap h.setReg.addFlags

theorem ends_subFromReg {v : Word} (h : InvAt e s) : Ends e (InvAt e) (subFromReg r v s) :=
  ends_overflowTrap h.setReg.subFlags

theorem ends_freeDouble (h : InvAt e s) : Ends e (InvAt e) (freeDouble r s) :=
  ends_overflowTrap h.draw.draw.setReg.setCc

protected theorem InvAt.loadProduct {p : Int} (h : InvAt e s) : InvAt e (loadProduct r p s) :=
  h.setReg.setReg.productFlags

theorem ends_divideAborted (h : InvAt e s) : Ends e (InvAt e) (divideAborted s) := ends_overflowTrap h.setCc2

theorem keeps_execAi {v : BitVec 20} (h : InvAt none s) : Keeps (execAi r v s) := keeps_finish (ends_addToReg h)

theorem keeps_execAh (h : InvAt none s) : Keeps (execAh r m s) :=
  keeps_finish <| trapsIn_operandHalf.andThen h fun _ => ends_addToReg h

theorem keeps_execAw (h : InvAt none s) : Keeps (execAw r m s) :=
  keeps_finish <| trapsIn_operandWord.andThen h fun _ => ends_addToReg h

theorem keeps_execAd (h : InvAt none s) : Keeps (execAd r m s) :=
  keeps_finish <| trapsIn_operandDouble.andThen h fun _ =>
    .ite (ends_freeDouble h) (ends_overflowTrap h.setPair.addFlags)

theorem keeps_execSh (h : InvAt none s) : Keeps (execSh r m s) :=
  keeps_finish <| trapsIn_operandHalf.andThen h fun _ => ends_subFromReg h

theorem keeps_execSw (h : InvAt none s) : Keeps (execSw r m s) :=
  keeps_finish <| trapsIn_operandWord.andThen h fun _ => ends_subFromReg h

theorem keeps_execSd (h : InvAt none s) : Keeps (execSd r m s) :=
  keeps_finish <| trapsIn_operandDouble.andThen h fun _ =>
    .ite (ends_freeDouble h) (ends_overflowTrap h.setPair.subFlags)

theorem keeps_execMi {v : BitVec 20} (h : InvAt none s) : Keeps (execMi r v s) := keeps_finish (.ok h.loadProduct)

theorem keeps_execMh (h : InvAt none s) : Keeps (execMh r m s) :=
  keeps_finish <| trapsIn_operandHalf.andThen h fun _ => .ok h.setReg.test34

theorem keeps_execMw (h : InvAt none s) : Keeps (execMw r m s) :=
  keeps_finish <| trapsIn_operandWord.andThen h fun _ => .ok h.loadProduct

theorem keeps_execDh (h : InvAt none s) : Keeps (execDh r m s) :=
  keeps_finish <| trapsIn_operandHalf.andThen h fun _ =>
    .ite (ends_divideAborted h) (.ok h.setReg.setCc2.test34)

theorem keeps_execDw (h : InvAt none s) : Keeps (execDw r m s) :=
  keeps_finish <| trapsIn_operandWord.andThen h fun _ =>
    .ite (ends_divideAborted h) (.ok (InvAt.ite h.setReg h.setReg.setReg).setCc2.test34)

theorem keeps_execAwm (h : InvAt none s) : Keeps (execAwm r m s) :=
  keeps_finish <| trapsIn_eaWord.andThen h fun _ => trapsIn_readWord.andThen h fun _ =>
    (ends_writeWord h).bind fun _ ht => ends_overflowTrap ht.addFlags

theorem keeps_execMtb {r : BitVec 4} (h : InvAt none s) : Keeps (execMtb r m s) :=
  keeps_finish <| trapsIn_eaByte.andThen h fun _ => trapsIn_readByte.andThen h fun _ =>
    .ite (.ok h.byteTestFlags) <| (ends_writeByte h).bind fun _ ht => .ok ht.byteTestFlags

theorem keeps_execMth {r : BitVec 4} (h : InvAt none s) : Keeps (execMth r m s) :=
  keeps_finish <| trapsIn_eaHalf.andThen h fun _ => trapsIn_readHalf.andThen h fun _ =>
    .ite (.ok h.setCc12.test34) <| (ends_writeHalf h).bind fun _ ht => ends_overflowTrap ht.addFlags

theorem keeps_execMtw {r : BitVec 4} (h : InvAt none s) : Keeps (execMtw r m s) :=
  keeps_finish <| trapsIn_eaWord.andThen h fun _ => trapsIn_readWord.andThen h fun _ =>
    .ite (.ok h.setCc12.test34) <| (ends_writeWord h).bind fun _ ht => ends_overflowTrap ht.addFlags

/-! ### Floating point -/

theorem ends_finishShort {x : FloatResult 32} (h : InvAt e s) : Ends e (InvAt e) (finishShort r x s) := by
  cases x with
  | fault cc => exact .trap h.setCc
  | result v cc => exact .ok h.setReg.setCc

theorem ends_finishLong {x : FloatResult 64} (h : InvAt e s) : Ends e (InvAt e) (finishLong r x s) := by
  cases x with
  | fault cc => exact .trap h.setCc
  | result v cc => exact .ok h.setReg.setReg.setCc

theorem ends_freeLong (h : InvAt e s) : Ends e (InvAt e) (freeLong r s) :=
  .ite (.trap h.draw.draw.draw.setReg.setCc) (.ok h.draw.draw.draw.setReg.setCc)

theorem keeps_execFas (h : InvAt none s) : Keeps (execFas r m s) :=
  keeps_finish <| trapsIn_requireOption.andThen h fun _ => trapsIn_operandWord.andThen h fun _ => ends_finishShort h

theorem keeps_execFal (h : InvAt none s) : Keeps (execFal r m s) :=
  keeps_finish <| trapsIn_requireOption.andThen h fun _ => trapsIn_operandDouble.andThen h fun _ =>
    .ite (ends_freeLong h) (ends_finishLong h)

theorem keeps_execFss (h : InvAt none s) : Keeps (execFss r m s) :=
  keeps_finish <| trapsIn_requireOption.andThen h fun _ => trapsIn_operandWord.andThen h fun _ => ends_finishShort h

theorem keeps_execFsl (h : InvAt none s) : Keeps (execFsl r m s) :=
  keeps_finish <| trapsIn_requireOption.andThen h fun _ => trapsIn_operandDouble.andThen h fun _ =>
    .ite (ends_freeLong h) (ends_finishLong h)

theorem keeps_execFms (h : InvAt none s) : Keeps (execFms r m s) :=
  keeps_finish <| trapsIn_requireOption.andThen h fun _ => trapsIn_operandWord.andThen h fun _ =>
    .ite (ends_finishShort h) (ends_finishLong h)

theorem keeps_execFml (h : InvAt none s) : Keeps (execFml r m s) :=
  keeps_finish <| trapsIn_requireOption.andThen h fun _ => trapsIn_operandDouble.andThen h fun _ =>
    .ite (ends_freeLong h) (ends_finishLong h)

theorem keeps_execFds (h : InvAt none s) : Keeps (execFds r m s) :=
  keeps_finish <| trapsIn_requireOption.andThen h fun _ => trapsIn_operandWord.andThen h fun _ => ends_finishShort h

theorem keeps_execFdl (h : InvAt none s) : Keeps (execFdl r m s) :=
  keeps_finish <| trapsIn_requireOption.andThen h fun _ => trapsIn_operandDouble.andThen h fun _ =>
    .ite (ends_freeLong h) (ends_finishLong h)

/-! ### Input and output -/

protected theorem InvAt.withIo {io : List Controller} (h : InvAt e s) : InvAt e { s with io := io } := h.frame

protected theorem InvAt.ioLoad {loads : Bool} {a : IoResponse} (h : InvAt e s) : InvAt e (ioLoad r loads a s) :=
  .ite h <| .ite h.setReg h.setReg.setReg

protected theorem InvAt.ioAnswer {a : IoResponse} (h : InvAt e s) : InvAt e (ioAnswer r a s) := h.setCc12.ioLoad

theorem keeps_execSio (h : InvAt none s) : Keeps (execSio r m s) :=
  keeps_finish <| trapsIn_requireMaster.andThen h fun _ => trapsIn_ioAddress.andThen h fun _ => .ok h.ioAnswer.withIo

theorem keeps_execHio (h : InvAt none s) : Keeps (execHio r m s) :=
  keeps_finish <| trapsIn_requireMaster.andThen h fun _ => trapsIn_ioAddress.andThen h fun _ =>
    .ok h.setCc12.ioLoad.draw.withIo

theorem keeps_execTio (h : InvAt none s) : Keeps (execTio r m s) :=
  keeps_finish <| trapsIn_requireMaster.andThen h fun _ => trapsIn_ioAddress.andThen h fun _ => .ok h.ioAnswer

theorem keeps_execTdv (h : InvAt none s) : Keeps (execTdv r m s) :=
  keeps_finish <| trapsIn_requireMaster.andThen h fun _ => trapsIn_ioAddress.andThen h fun _ => .ok h.ioAnswer

protected theorem InvAt.acknowledgeDevice (h : InvAt e s) : InvAt e (acknowledgeDevice r s) := by
  unfold acknowledgeDevice
  split
  · exact h.setCc12
  · exact (InvAt.ite h.setCc12 h.setCc12.setReg).withIo

protected theorem InvAt.acknowledgeSpecial (h : InvAt e s) : InvAt e (acknowledgeSpecial r s) :=
  (InvAt.ite h.draw.draw h.draw.draw.setReg).setCc12

theorem keeps_execAio (h : InvAt none s) : Keeps (execAio r m s) :=
  keeps_finish <| trapsIn_requireMaster.andThen h fun _ => trapsIn_ioAddress.andThen h fun _ =>
    .ok (.ite h.acknowledgeDevice h.acknowledgeSpecial)

/-! ### Load, store, analyze and interpret -/

theorem keeps_execLi {v : BitVec 20} (h : InvAt none s) : Keeps (execLi r v s) := keeps_finish (.ok h.setReg.test34)

theorem keeps_execLb (h : InvAt none s) : Keeps (execLb r m s) :=
  keeps_finish <| trapsIn_operandByte.andThen h fun _ => .ok h.setReg.testNonzero

theorem keeps_execLh (h : InvAt none s) : Keeps (execLh r m s) :=
  keeps_finish <| trapsIn_operandHalf.andThen h fun _ => .ok h.setReg.test34

theorem keeps_execLw (h : InvAt none s) : Keeps (execLw r m s) :=
  keeps_finish <| trapsIn_operandWord.andThen h fun _ => .ok h.setReg.test34

theorem keeps_execLd (h : InvAt none s) : Keeps (execLd r m s) :=
  keeps_finish <| trapsIn_operandDouble.andThen h fun _ => .ok h.setPair.test34

theorem keeps_execLch (h : InvAt none s) : Keeps (execLch r m s) :=
  keeps_finish <| trapsIn_operandHalf.andThen h fun _ => .ok h.setReg.test34

theorem keeps_execLah (h : InvAt none s) : Keeps (execLah r m s) :=
  keeps_finish <| trapsIn_operandHalf.andThen h fun _ => .ok h.setReg.testNonzero

theorem keeps_execLcw (h : InvAt none s) : Keeps (execLcw r m s) :=
  keeps_finish <| trapsIn_operandWord.andThen h fun _ => ends_overflowTrap h.setReg.complementFlags

theorem keeps_execLaw (h : InvAt none s) : Keeps (execLaw r m s) :=
  keeps_finish <| trapsIn_operandWord.andThen h fun _ => ends_overflowTrap h.setReg.absoluteFlags

theorem keeps_execLcd (h : InvAt none s) : Keeps (execLcd r m s) :=
  keeps_finish <| trapsIn_operandDouble.andThen h fun _ => ends_overflowTrap h.setPair.complementFlags

theorem keeps_execLad (h : InvAt none s) : Keeps (execLad r m s) :=
  keeps_finish <| trapsIn_operandDouble.andThen h fun _ => ends_overflowTrap h.setPair.absoluteFlags

theorem keeps_execLs (h : InvAt none s) : Keeps (execLs r m s) :=
  keeps_finish <| trapsIn_operandWord.andThen h fun _ => .ok h.setReg.test34

theorem ends_loadWords {n : Nat} {a : WordAddr} (h : InvAt e s) : Ends e (InvAt e) (loadWords n a r s) := by
  induction n generalizing a r s with
  | zero => exact .ok h
  | succ n ih => exact trapsIn_readWord.andThen h fun _ => ih h.setReg

theorem keeps_execLm (h : InvAt none s) : Keeps (execLm r m s) :=
  keeps_finish <| trapsIn_eaWord.andThen h fun _ => ends_loadWords h

/-- LCFI and LCF: CC and the floating mode, each loaded or left. -/
protected theorem InvAt.loadModes {b c : Bool} {cc : BitVec 4} {f : BitVec 3} (h : InvAt e s) :
    InvAt e (if b then setFloatMode (if c then setCc s cc else s) f else if c then setCc s cc else s) :=
  have hcc : InvAt e (if c then setCc s cc else s) := .ite h.setCc h
  .ite hcc.setFloatMode hcc

theorem keeps_execLcfi {v : BitVec 20} (h : InvAt none s) : Keeps (execLcfi r v s) := keeps_finish (.ok h.loadModes)

theorem keeps_execLcf (h : InvAt none s) : Keeps (execLcf r m s) :=
  keeps_finish <| trapsIn_operandByte.andThen h fun _ => .ok h.loadModes

theorem keeps_execXw (h : InvAt none s) : Keeps (execXw r m s) :=
  keeps_finish <| trapsIn_eaWord.andThen h fun _ => trapsIn_readWord.andThen h fun _ =>
    (ends_writeWord h).bind fun _ ht => .ok ht.setReg.test34

theorem keeps_execStb (h : InvAt none s) : Keeps (execStb r m s) :=
  keeps_finish <| trapsIn_eaByte.andThen h fun _ => ends_writeByte h

theorem keeps_execSth (h : InvAt none s) : Keeps (execSth r m s) :=
  keeps_finish <| trapsIn_eaHalf.andThen h fun _ => (ends_writeHalf h).bind fun _ ht => .ok ht.setCc2

theorem keeps_execStw (h : InvAt none s) : Keeps (execStw r m s) :=
  keeps_finish <| trapsIn_eaWord.andThen h fun _ => ends_writeWord h

theorem keeps_execStd (h : InvAt none s) : Keeps (execStd r m s) :=
  keeps_finish <| trapsIn_eaDouble.andThen h fun _ => ends_writeDouble h

theorem keeps_execSts (h : InvAt none s) : Keeps (execSts r m s) :=
  keeps_finish <| trapsIn_eaWord.andThen h fun _ => trapsIn_readWord.andThen h fun _ => ends_writeWord h

theorem ends_storeRegs {n : Nat} {a : WordAddr} (h : InvAt e s) : Ends e (InvAt e) (storeRegs n a r s) := by
  induction n generalizing a r s with
  | zero => exact .ok h
  | succ n ih => exact (ends_writeWord h).bind fun _ ht => ih ht

theorem keeps_execStm (h : InvAt none s) : Keeps (execStm r m s) :=
  keeps_finish <| trapsIn_eaWord.andThen h fun _ => ends_storeRegs h

theorem keeps_execStcf (h : InvAt none s) : Keeps (execStcf r m s) :=
  keeps_finish <| trapsIn_eaByte.andThen h fun _ => ends_writeByte h

protected theorem InvAt.analyzeFlags {k : AddressType} {ind : Bool} (h : InvAt e s) : InvAt e (analyzeFlags k ind s) := by
  cases k <;> exact h.setCc34.setCc12

theorem keeps_execAnlz (h : InvAt none s) : Keeps (execAnlz r m s) :=
  keeps_finish <| trapsIn_operandWord.andThen h fun _ => .ite (.ok h.analyzeFlags) <|
    trapsIn_direct.andThen h fun _ => .ok h.setReg.analyzeFlags

theorem keeps_execInt (h : InvAt none s) : Keeps (execInt r m s) :=
  keeps_finish <| trapsIn_operandWord.andThen h fun _ => .ok h.setReg.setReg.setCc

/-! ### Push-down -/

protected theorem InvAt.limitFlags {spd : Double} {delta : Int} (h : InvAt e s) : InvAt e (limitFlags spd delta s) := h.setCc

protected theorem InvAt.stackFlags {spd : Double} (h : InvAt e s) : InvAt e (stackFlags spd s) := h.setCc

/-- A push-down instruction keeps the invariant when what it does with the stack words does. -/
theorem ends_pushDown {delta : Int} {body : WordAddr → State → Except Stop State} (h : InvAt e s)
    (hbody : ∀ top, Ends e (InvAt e) (body top s)) : Ends e (InvAt e) (pushDown m delta body s) :=
  trapsIn_eaDouble.andThen h fun _ => trapsIn_readDouble.andThen h fun _ =>
    .ite (.trap h) <| .ite (.ok h.limitFlags) <| (hbody _).bind fun _ ht =>
      (ends_writeDouble ht).bind fun _ hu => .ok hu.stackFlags

theorem ends_pullWords {n : Nat} {a : WordAddr} (h : InvAt e s) : Ends e (InvAt e) (pullWords n a r s) := by
  induction n generalizing a r s with
  | zero => exact .ok h
  | succ n ih => exact trapsIn_readWord.andThen h fun _ => ih h.setReg

theorem keeps_execPlw (h : InvAt none s) : Keeps (execPlw r m s) :=
  keeps_finish <| ends_pushDown h fun _ => trapsIn_readWord.andThen h fun _ => .ok h.setReg

theorem keeps_execPsw (h : InvAt none s) : Keeps (execPsw r m s) :=
  keeps_finish <| ends_pushDown h fun _ => ends_writeWord h

theorem keeps_execPlm (h : InvAt none s) : Keeps (execPlm r m s) :=
  keeps_finish <| ends_pushDown h fun _ => ends_pullWords h

theorem keeps_execPsm (h : InvAt none s) : Keeps (execPsm r m s) :=
  keeps_finish <| ends_pushDown h fun _ => ends_storeRegs h

theorem keeps_execMsp (h : InvAt none s) : Keeps (execMsp r m s) :=
  keeps_finish <| ends_pushDown h fun _ => .ok h

/-! ### Shift and conversion -/

protected theorem InvAt.shiftSingle {kind : ShiftKind} {count : BitVec 7} (h : InvAt e s) :
    InvAt e (shiftSingle kind count r s) :=
  h.setReg.setCc12

protected theorem InvAt.loadLong {v : Double} (h : InvAt e s) : InvAt e (loadLong r v s) := .ite h.setReg h.setReg.setReg

protected theorem InvAt.shiftDouble {kind : ShiftKind} {count : BitVec 7} (h : InvAt e s) :
    InvAt e (shiftDouble kind count r s) :=
  h.loadLong.setCc12

protected theorem InvAt.shiftUndefined (h : InvAt e s) : InvAt e (shiftUndefined r s) :=
  h.draw.draw.draw.setReg.setReg.setCc12

theorem keeps_execS (h : InvAt none s) : Keeps (execS r m s) := by
  refine keeps_finish <| trapsIn_shiftFields.andThen h fun _ => .ok ?_
  split
  · exact h.shiftSingle
  · exact h.shiftDouble
  · exact h.shiftSingle
  · exact h.shiftDouble
  · exact h.shiftSingle
  · exact h.shiftDouble
  · exact h.shiftUndefined

theorem keeps_execSf (h : InvAt none s) : Keeps (execSf r m s) :=
  keeps_finish <| trapsIn_shiftFields.andThen h fun _ =>
    .ite (.ok h.loadLong.setCc12.test34) (.ok h.setReg.setCc12.test34)

theorem trapsIn_convertAdd {sel : Word} {k : Nat} {a : WordAddr} {sum : Word} {c : Bool} :
    TrapsIn s (convertAdd s sel k a sum c) := by
  induction k generalizing a sum c with
  | zero => exact .ok
  | succ k ih => exact .ite (trapsIn_readWord.bind fun _ => ih) ih

theorem trapsIn_convertSub {k : Nat} {a : WordAddr} {rem bits : Word} : TrapsIn s (convertSub s k a rem bits) := by
  induction k generalizing a rem bits with
  | zero => exact .ok
  | succ k ih => exact trapsIn_readWord.bind fun _ => .ite ih ih

theorem keeps_execCva (h : InvAt none s) : Keeps (execCva r m s) :=
  keeps_finish <| trapsIn_eaWord.andThen h fun _ => trapsIn_convertAdd.andThen h fun _ => .ok h.setReg.setCc1.test34

theorem keeps_execCvs (h : InvAt none s) : Keeps (execCvs r m s) :=
  keeps_finish <| trapsIn_eaWord.andThen h fun _ => trapsIn_convertSub.andThen h fun _ => .ok h.setReg.setReg.test34

end Sys2Proof.Safety
end

section
/-! The invariant and the step: dispatch and EXU, the input/output system, what happens between CPU steps, the cycle. -/

namespace Sys2Proof.Safety

open Sys2Proof Machine

variable {e : Option Entry} {s t : State} {r : RegNum} {m : MemRef}

/-! ### Dispatch and EXU -/

/-- The subject of EXU, every instruction but EXU itself. -/
theorem keeps_execSubject (i : Instr) (h : InvAt none s) : Keeps (execSubject i s) :=
  match i with
  | .lcfi _ _ => keeps_execLcfi h
  | .cal1 _ m => keeps_execCal1 (m := m) h
  | .cal2 _ m => keeps_execCal2 (m := m) h
  | .cal3 _ m => keeps_execCal3 (m := m) h
  | .cal4 _ m => keeps_execCal4 (m := m) h
  | .plw _ _ => keeps_execPlw h
  | .psw _ _ => keeps_execPsw h
  | .plm _ _ => keeps_execPlm h
  | .psm _ _ => keeps_execPsm h
  | .lpsd _ _ => keeps_execLpsd h
  | .xpsd _ _ => keeps_execXpsd h
  | .ad _ _ => keeps_execAd h
  | .cd _ _ => keeps_execCd h
  | .ld _ _ => keeps_execLd h
  | .msp _ _ => keeps_execMsp h
  | .std _ _ => keeps_execStd h
  | .sd _ _ => keeps_execSd h
  | .clm _ _ => keeps_execClm h
  | .lcd _ _ => keeps_execLcd h
  | .lad _ _ => keeps_execLad h
  | .fsl _ _ => keeps_execFsl h
  | .fal _ _ => keeps_execFal h
  | .fdl _ _ => keeps_execFdl h
  | .fml _ _ => keeps_execFml h
  | .ai _ _ => keeps_execAi h
  | .ci _ _ => keeps_execCi h
  | .li _ _ => keeps_execLi h
  | .mi _ _ => keeps_execMi h
  | .sf _ _ => keeps_execSf h
  | .s _ _ => keeps_execS h
  | .cvs _ _ => keeps_execCvs h
  | .cva _ _ => keeps_execCva h
  | .lm _ _ => keeps_execLm h
  | .stm _ _ => keeps_execStm h
  | .wait r _ => keeps_execWait (r := r) h
  | .lrp r _ => keeps_execLrp (r := r) h
  | .aw _ _ => keeps_execAw h
  | .cw _ _ => keeps_execCw h
  | .lw _ _ => keeps_execLw h
  | .mtw _ _ => keeps_execMtw h
  | .stw _ _ => keeps_execStw h
  | .dw _ _ => keeps_execDw h
  | .mw _ _ => keeps_execMw h
  | .sw _ _ => keeps_execSw h
  | .clr _ _ => keeps_execClr h
  | .lcw _ _ => keeps_execLcw h
  | .law _ _ => keeps_execLaw h
  | .fss _ _ => keeps_execFss h
  | .fas _ _ => keeps_execFas h
  | .fds _ _ => keeps_execFds h
  | .fms _ _ => keeps_execFms h
  | .ttbs _ _ => keeps_execTtbs h
  | .tbs _ _ => keeps_execTbs h
  | .anlz _ _ => keeps_execAnlz h
  | .cs _ _ => keeps_execCs h
  | .xw _ _ => keeps_execXw h
  | .sts _ _ => keeps_execSts h
  | .eor _ _ => keeps_execEor h
  | .or _ _ => keeps_execOr h
  | .ls _ _ => keeps_execLs h
  | .and _ _ => keeps_execAnd h
  | .sio _ _ => keeps_execSio h
  | .tio _ _ => keeps_execTio h
  | .tdv _ _ => keeps_execTdv h
  | .hio _ _ => keeps_execHio h
  | .ah _ _ => keeps_execAh h
  | .ch _ _ => keeps_execCh h
  | .lh _ _ => keeps_execLh h
  | .mth _ _ => keeps_execMth h
  | .sth _ _ => keeps_execSth h
  | .dh _ _ => keeps_execDh h
  | .mh _ _ => keeps_execMh h
  | .sh _ _ => keeps_execSh h
  | .lch _ _ => keeps_execLch h
  | .lah _ _ => keeps_execLah h
  | .cbs _ _ => keeps_execCbs h
  | .mbs _ _ => keeps_execMbs h
  | .ebs _ _ => keeps_execEbs h
  | .bdr _ _ => keeps_execBdr h
  | .bir _ _ => keeps_execBir h
  | .awm _ _ => keeps_execAwm h
  | .exu _ _ => .next h.backUp
  | .bcr _ _ => keeps_execBcr h
  | .bcs _ _ => keeps_execBcs h
  | .bal _ _ => keeps_execBal h
  | .int _ _ => keeps_execInt h
  | .rd _ _ => keeps_execRd h
  | .wd _ _ => keeps_execWd h
  | .aio _ _ => keeps_execAio h
  | .mmc ind _ _ ra => keeps_execMmc (ind := ind) (ra := ra) h
  | .lcf _ _ => keeps_execLcf h
  | .cb _ _ => keeps_execCb h
  | .lb _ _ => keeps_execLb h
  | .mtb _ _ => keeps_execMtb h
  | .stcf r _ => keeps_execStcf (r := r) h
  | .stb _ _ => keeps_execStb h
  | .pack _ _ => keeps_execPack h
  | .unpk _ _ => keeps_execUnpk h
  | .ds _ _ => keeps_execDs h
  | .da _ _ => keeps_execDa h
  | .dd _ _ => keeps_execDd h
  | .dm _ _ => keeps_execDm h
  | .dsa r _ => keeps_execDsa (r := r) h
  | .dc _ _ => keeps_execDc h
  | .dl _ _ => keeps_execDl h
  | .dst _ _ => keeps_execDst h

/-- An instruction that is no EXU is executed as the subject of one. -/
theorem exec_eq_execSubject {i : Instr} (hi : ∀ r m, i ≠ .exu r m) : exec i s = execSubject i s := by
  cases i
  case exu r m => exact absurd rfl (hi r m)
  all_goals rfl

theorem trapsIn_resolveSubject {n : Nat} : TrapsIn s (resolveSubject n m s) := by
  induction n generalizing m with
  | zero => exact .ok
  | succ n ih => exact trapsIn_eaWord.bind fun _ => trapsIn_readInstr.bind fun _ => .ite ih .ok

theorem keeps_nonexistent {w : Word} (h : InvAt none s) : Keeps (finish (nonexistent w s)) := keeps_finish (.trap h)

theorem keeps_execExu (h : InvAt none s) : Keeps (execExu r m s) := by
  have hx : TrapsIn s (resolveSubject chainLimit m s) := trapsIn_resolveSubject
  unfold execExu
  generalize resolveSubject chainLimit m s = x at hx
  cases hx with
  | @ok subject =>
    cases subject with
    | none => exact .next h.backUp
    | some w =>
      dsimp only
      split
      · exact keeps_execSubject _ h
      · exact keeps_nonexistent h
  | trap => exact keeps_finish (.trap h)
  | fault => exact keeps_finish .fault
  | refuse => exact keeps_finish .refuse

/-- Every instruction keeps the invariant. -/
theorem keeps_exec (i : Instr) (h : InvAt none s) : Keeps (exec i s) := by
  by_cases hi : ∃ r m, i = .exu r m
  · obtain ⟨r, m, rfl⟩ := hi
    exact keeps_execExu (r := r) h
  · rw [exec_eq_execSubject fun r m hrm => hi ⟨r, m, hrm⟩]
    exact keeps_execSubject i h

theorem keeps_execWord {w : Word} (h : InvAt none s) : Keeps (execWord w s) := by
  unfold execWord
  split
  · exact keeps_exec _ h
  · exact keeps_nonexistent h

/-! ### The input/output system -/

protected theorem InvAt.ioSync (h : InvAt e s) : InvAt e (ioSync s) := .ite h.signal h

/-- A byte of input is stored in the canonical form. -/
protected theorem InvAt.inputByte {a : BitVec 11} {b : Byte} {p : FetchParity} (h : InvAt e s) :
    InvAt e (inputByte a b p s) := by
  unfold inputByte
  split
  · exact h
  · exact .ite h <| .ite h.withIo <| .ite (h.withMem (wf_memPut _ _ _ h.wf)).withIo h.withIo

protected theorem InvAt.outputByte {a : BitVec 11} {p : FetchParity} (h : InvAt e s) : InvAt e (outputByte a p s) := by
  unfold outputByte
  split
  · exact h
  · exact .ite h <| .ite h.withIo h.withIo

protected theorem InvAt.ioEvent {ev : IoEvent} (h : InvAt e s) : InvAt e (ioEvent ev s) := by
  cases ev with
  | input => exact h.inputByte
  | output => exact h.outputByte
  | command | channelEnd | transmissionError | unusualEnd | request | status | controller => exact h.withIo

/-! ### The panel and the resets -/

protected theorem InvAt.withIr {w : Word} (h : InvAt e s) : InvAt e { s with ir := w } := h.frame
protected theorem InvAt.withIrAt {a : Option WordAddr} (h : InvAt e s) : InvAt e { s with irAt := a } := h.frame
protected theorem InvAt.withPanel {p : Panel} (h : InvAt e s) : InvAt e { s with panel := p } := h.frame

protected theorem InvAt.displayFree (h : InvAt e s) : InvAt e (displayFree s) := h.frame

protected theorem InvAt.displayAt {a : WordAddr} (h : InvAt e s) : InvAt e (displayAt a s) := by
  unfold displayAt
  split
  · exact (InvAt.ite h.displayFree h.withIr).withIrAt
  · exact h.displayFree.withIrAt

protected theorem InvAt.displayNext (h : InvAt e s) : InvAt e (displayNext s) := .ite h.displayFree.withIrAt h.displayAt

protected theorem InvAt.storeAt {a : WordAddr} (h : InvAt e s) : InvAt e (storeAt a s) := by
  unfold storeAt
  split
  · exact .ite h h.locSetWord
  · exact h

/-- The reset arms and enables the power levels and ends whatever was being served. -/
protected theorem InvAt.cpuReset (h : InvAt e s) : InvAt none (cpuReset s) := by
  have hpower : powerLevelOk ⟨.armed, true⟩ := ⟨rfl, by decide⟩
  refine ⟨h.wf, rfl, fun k hk => ?_, h.chain⟩
  obtain rfl | rfl : k = 0 ∨ k = 1 := by omega
  · exact hpower
  · exact hpower

protected theorem InvAt.sysReset (h : InvAt e s) : InvAt none (sysReset s) := h.cpuReset.frame

protected theorem InvAt.memoryClear (h : InvAt e s) : InvAt none (memoryClear s) := h.sysReset.withMem wf_nil

protected theorem InvAt.storeBootstrap (h : InvAt e s) : InvAt e (storeBootstrap s) := h.withMem (wf_storeBootstrap s h.wf)

protected theorem InvAt.atIdle (h : InvAt e s) : InvAt e (atIdle s) := h.frame

protected theorem InvAt.moveToIdle (h : InvAt e s) : InvAt e (moveToIdle s) := (InvAt.ite h h.displayNext).atIdle

protected theorem InvAt.stepEnds (h : InvAt e s) : InvAt e (stepEnds s) := .ite h.moveToIdle h

protected theorem InvAt.setCompute {c : Compute} (h : InvAt e s) : InvAt e (setCompute c s) := by
  cases c with
  | idle => exact h.moveToIdle
  | run => exact .ite h h.moveToIdle.frame
  | step => exact h.moveToIdle.frame.stepEnds

/-- A move of the key changes the panel and the pending stop alone, or is refused. -/
theorem keeps_setControlMode {k : ControlMode} (h : InvAt none s) : Keeps (setControlMode k s) := by
  unfold setControlMode
  split
  · exact .next h
  · exact .next h
  · exact .next h
  · exact .ite (.next h.frame) .refused
  · exact .ite (.next h.frame) .refused
  · exact .ite (.next h.frame) .refused
  · exact .ite (.next h.frame) .refused
  · exact .refused
  · exact .refused

protected theorem InvAt.idleAction {a : PanelAction} (h : InvAt none s) : InvAt none (idleAction a s) := by
  cases a with
  | insert1 | insert2 => exact h.withPsd.displayAt
  | store => exact h.storeAt
  | display => exact h.displayAt
  | dataClear | dataEnter => exact h.frame
  | increment => exact h.setIa
  | load => exact h.storeBootstrap
  | cpuReset => exact h.cpuReset
  | ioReset => exact h.withIo
  | sysReset => exact h.sysReset
  | memoryClear => exact h.memoryClear
  | compute | otherCompute | hold | addrStop | selectAddress | unitAddress | sense | consoleSense => exact h
  | parityMode | watchdogTimer | interleaveSelect | controlMode => exact h

theorem keeps_panelAction {a : PanelAction} (h : InvAt none s) : Keeps (panelAction a s) := by
  unfold panelAction
  split
  · exact .next h.withPanel
  · exact .next h.withPanel
  · exact keeps_setControlMode h
  · exact .next h.withPanel
  · refine .ite (.next h) ?_
    split
    · exact .next h.setCompute
    · exact .next h.withPanel
    · exact .next h.frame
    · exact .next h.withPanel
    · exact .next h.withPanel
    · exact .next h.withPanel
    · exact .next h.withPanel
    · exact .next h.withPanel
    · exact .next (.ite h.idleAction h)

/-! ### The other events -/

protected theorem InvAt.parityError {a : WordAddr} (h : InvAt e s) : InvAt e (parityError a s) := by
  have hm : Memory.wf (if installedAddr s a then coreSetWord s.mem a (draw s).1 else s.mem) = true := by
    split
    · exact wf_coreSetWord _ _ _ h.wf
    · exact h.wf
  exact .ite (h.withMem hm).frame.stepEnds (h.withMem hm).frame.signal

theorem keeps_applyEvent {ev : Event} (h : InvAt none s) : Keeps (applyEvent ev s) := by
  cases ev with
  | countPulse | powerOn | powerOff | interruptSwitch => exact .next h.signal
  | external => exact .next (.ite h h.signal)
  | parityError => exact .next h.parityError
  | overTemperature => exact .next (.ite h.frame h.frame)
  | io => exact .next h.ioEvent
  | element | removeElement => exact .next h.frame
  | panel => exact keeps_panelAction h

/-! ### Acknowledgement -/

theorem ends_modifyTestActual {op : BitVec 7} {r : BitVec 4} (h : InvAt e s) :
    Ends e (fun p => InvAt e p.1) (modifyTestActual op r m s) :=
  trapsIn_directVia.andThen h fun _ =>
    .ite (trapsIn_locate.andThen h fun _ => .ok (.ite h h.locSetByte)) <|
    .ite (trapsIn_locate.andThen h fun _ => .ok (.ite h h.locSetHalf)) <|
      trapsIn_locate.andThen h fun _ => .ok (.ite h h.locSetWord)

/-- An acknowledgement ends with no location being served, also where its XPSD traps. -/
theorem keeps_acknowledge {k : Nat} (h : InvAt none s) : Keeps (acknowledge k s) := by
  unfold acknowledge
  extract_lets w op halts lvl active served t
  have hactive : InvAt none active :=
    (h.frame : InvAt none { s with halts := { s.halts with wait := false }, hazard := none }).setLevelState
      (k := k) (x := .active) fun _ => by decide
  have hserved : InvAt (some (.interrupt k)) served := hactive.withEntry.noteReferences
  have ht : InvAt none t := hserved.withEntry hactive.entry_eq
  refine .ite ?_ (.ite ?_ .refused)
  · have hx := ends_exchangePsd (r := rField w) (m := memRefOf w) hserved
    generalize exchangePsd (rField w) (memRefOf w) served = x at hx
    cases hx with
    | ok hu => exact .next hu.withEntry
    | trap hu => exact keeps_takeTrapAt hu
    | fault => exact .fault
    | refuse => exact .refused
  · have hx := ends_modifyTestActual (op := op) (r := rField w) (m := memRefOf w) ht
    generalize modifyTestActual op (rField w) (memRefOf w) t = x at hx
    cases hx with
    | ok hu =>
      have hv := InvAt.setLevelState (k := k) (x := .armed) hu fun _ => by decide
      exact .next (.ite hv.signal hv)
    | trap | fault | refuse => exact .refused

/-! ### The cycle -/

theorem keeps_onNext {f : State → State} {x : Host.Outcome State Fault Refusal} (hx : Keeps x)
    (hf : ∀ u, InvAt none u → InvAt none (f u)) : Keeps (onNext f x) := by
  cases x with
  | next u => exact .next (hf u (hx u rfl))
  | fault => exact .fault
  | refused => exact .refused

theorem ends_fetch (h : InvAt none s) : Ends none (fun p => InvAt none p.2) (fetch s) :=
  .ite (.ok h) <| .ite (.ok h.displayFree) <| trapsIn_readInstr.andThen h fun _ => .ok h.withIr

protected theorem InvAt.advance (h : InvAt e s) : InvAt e (advance s) := .ite h h.setIa

protected theorem InvAt.lookAhead {w : Word} (h : InvAt e s) : InvAt e (lookAhead w s) := h.frame

protected theorem InvAt.stopAtAddress (h : InvAt e s) : InvAt e (stopAtAddress s) := h.displayNext.frame

protected theorem InvAt.stopIfPending (h : InvAt e s) : InvAt e (stopIfPending s) := .ite h.stopAtAddress h

protected theorem InvAt.afterInstruction {w : Word} {before : State} (h : InvAt e s) :
    InvAt e (afterInstruction w before s) :=
  .ite h.frame.displayNext.atIdle h.frame

theorem keeps_acknowledgeAndStop {k : Nat} (h : InvAt none s) : Keeps (acknowledgeAndStop k s) :=
  keeps_onNext (keeps_acknowledge h) fun _ => InvAt.stopIfPending

theorem keeps_settle {x : Host.Outcome State Fault Refusal} (hx : Keeps x) : Keeps (settle x) := by
  intro t ht
  obtain h | ⟨u, hu, -, -, rfl | ⟨k, v, -, hv, rfl⟩⟩ := settle_eq_next ht
  · exact hx t h
  · exact InvAt.stopAtAddress (InvAt.ioSync (hx u hu))
  · exact InvAt.stopIfPending (keeps_acknowledge (InvAt.ioSync (hx u hu)) v hv)

theorem keeps_executeWord {w : Word} {before : State} (h : InvAt none s) : Keeps (executeWord w before s) :=
  keeps_settle <| keeps_onNext (keeps_execWord h.lookAhead.advance.noteReferences) fun _ => InvAt.afterInstruction

theorem keeps_executeNext (h : InvAt none s) : Keeps (executeNext s) := by
  have hx := ends_fetch h
  unfold executeNext
  generalize fetch s = x at hx
  cases hx with
  | ok hp => exact keeps_executeWord hp
  | trap ht => exact keeps_settle <| keeps_onNext (keeps_takeTrapAt ht) fun _ => InvAt.afterInstruction
  | fault => exact .fault
  | refuse => exact .refused

theorem keeps_cpuStep (h : InvAt none s) : Keeps (cpuStep s) := by
  have ht : InvAt none { s with watchdog := 0 } := h.frame
  refine .ite (.next h) ?_
  extract_lets t
  split
  · exact keeps_acknowledgeAndStop ht
  · exact .ite (.next ht) <| .ite (.next ht.stopAtAddress) (keeps_executeNext ht)

theorem keeps_step (h : InvAt none s) : Keeps (step s) := by
  unfold step machineStep
  split
  · exact keeps_cpuStep h.ioSync
  · exact keeps_cpuStep (InvAt.ioSync h.frame)
  · exact keeps_applyEvent (InvAt.ioSync h.frame)

/-- Settles O5: every part of a step keeps the memory form, the power levels and the installation, and each location that a
step begins to serve is served to the end in it. -/
theorem stepKeepsInvariant : Obligations.StepKeepsInvariant :=
  fun _ t h hs => inv_iff_invAt.2 (keeps_step (inv_iff_invAt.1 h) t hs)

end Sys2Proof.Safety
end

section
/-! What a slave program cannot reach: `guarded` reads the protected components of a state, `Spares` says of a meaning that
it leaves them alone, also where it traps. Each operation of the model is said once to leave them alone, in the order of the
model's files. -/

namespace Sys2Proof.Safety

open Sys2Proof Machine

variable {α : Type} {s t : State}

/-! ### The protected components -/

/-- The components that only the privileged instructions, the operator and the environment change. -/
structure Guarded where
  map : Vector (BitVec 8) 256
  acc : Vector (BitVec 2) 256
  lock : Vector (BitVec 2) 256
  levels : Vector Level 240
  io : List Controller
  elements : List Element
  panel : Panel
  halts : Halts
  alarm : Bool
  pcf : Bool
  memFault : BitVec 8

/-- The protected components of a state. -/
def guarded (s : State) : Guarded where
  map := s.map
  acc := s.acc
  lock := s.lock
  levels := s.levels
  io := s.io
  elements := s.elements
  panel := s.panel
  halts := s.halts
  alarm := s.alarm
  pcf := s.pcf
  memFault := s.memFault

theorem guarded_eq_iff : guarded t = guarded s ↔
    t.map = s.map ∧ t.acc = s.acc ∧ t.lock = s.lock ∧ t.levels = s.levels ∧ t.io = s.io ∧ t.elements = s.elements ∧
    t.panel = s.panel ∧ t.halts = s.halts ∧ t.alarm = s.alarm ∧ t.pcf = s.pcf ∧ t.memFault = s.memFault := by
  simp only [guarded, Guarded.mk.injEq]

@[simp] theorem guarded_ite {c : Prop} [Decidable c] : guarded (if c then s else t) = if c then guarded s else guarded t :=
  apply_ite guarded c s t

/-! ### Registers, condition code, PSD -/

@[simp] theorem guarded_withDraws {n : Nat} : guarded { s with draws := n } = guarded s := rfl
@[simp] theorem guarded_withPsd {p : Psd} : guarded { s with psd := p } = guarded s := rfl

@[simp] theorem guarded_setReg {r : RegNum} {v : Word} : guarded (setReg s r v) = guarded s := by simp [guarded]
@[simp] theorem guarded_setPair {r : RegNum} {d : Double} : guarded (setPair s r d) = guarded s := by simp [setPair]
@[simp] theorem guarded_setCc {c : BitVec 4} : guarded (setCc s c) = guarded s := rfl
@[simp] theorem guarded_setFloatMode {f : BitVec 3} : guarded (setFloatMode s f) = guarded s := rfl
@[simp] theorem guarded_setIa {a : WordAddr} : guarded (setIa s a) = guarded s := rfl
@[simp] theorem guarded_backUp : guarded (backUp s) = guarded s := rfl

/-! ### Core memory -/

@[simp] theorem guarded_locSetWord {l : Loc} {w : Word} : guarded (locSetWord s l w) = guarded s := by simp [guarded]
@[simp] theorem guarded_locSetHalf {l : Loc} {k : Bool} {v : Half} : guarded (locSetHalf s l k v) = guarded s := by
  simp [guarded]
@[simp] theorem guarded_locSetByte {l : Loc} {k : BitVec 2} {b : Byte} : guarded (locSetByte s l k b) = guarded s := by
  simp [guarded]

@[simp] theorem guarded_noteReferences {refs : State → List Reference} : guarded (noteReferences refs s) = guarded s := by
  obtain ⟨b, hb, -⟩ := noteReferences_spec refs s
  rw [hb]
  rfl

/-! ### The condition-code computations: they write the PSD alone -/

@[simp] theorem guarded_setCc1 {b : Bool} : guarded (setCc1 b s) = guarded s := rfl
@[simp] theorem guarded_setCc2 {b : Bool} : guarded (setCc2 b s) = guarded s := rfl
@[simp] theorem guarded_setCc12 {b c : Bool} : guarded (setCc12 b c s) = guarded s := rfl
@[simp] theorem guarded_setCc34 {b c : Bool} : guarded (setCc34 b c s) = guarded s := rfl
@[simp] theorem guarded_test34 {n : Nat} {v : BitVec n} : guarded (test34 v s) = guarded s := rfl
@[simp] theorem guarded_testNonzero {n : Nat} {v : BitVec n} : guarded (testNonzero v s) = guarded s := rfl
@[simp] theorem guarded_addFlags {n : Nat} {a b : BitVec n} : guarded (addFlags a b s) = guarded s := rfl
@[simp] theorem guarded_subFlags {n : Nat} {a b : BitVec n} : guarded (subFlags a b s) = guarded s := rfl
@[simp] theorem guarded_complementFlags {n : Nat} {v : BitVec n} : guarded (complementFlags v s) = guarded s := rfl
@[simp] theorem guarded_absoluteFlags {n : Nat} {v : BitVec n} : guarded (absoluteFlags v s) = guarded s := by
  simp [absoluteFlags]
@[simp] theorem guarded_cmpSigned {n : Nat} {a b : BitVec n} : guarded (cmpSigned a b s) = guarded s := rfl
@[simp] theorem guarded_cmpUnsigned {n : Nat} {a b : BitVec n} : guarded (cmpUnsigned a b s) = guarded s := rfl
@[simp] theorem guarded_compareFlags {n : Nat} {a b : BitVec n} : guarded (compareFlags a b s) = guarded s := rfl
@[simp] theorem guarded_productFlags {p : Int} : guarded (productFlags p s) = guarded s := rfl
@[simp] theorem guarded_byteTestFlags {c : Bool} {v : Byte} : guarded (byteTestFlags c v s) = guarded s := rfl

/-! ### Meanings that spare the protected components -/

/-- The state the meaning answers, or raises a trap in, has the protected components of `s`. Where that state is made by
operations with an equation for `guarded`, the equations close the constructor's argument. -/
inductive Spares (s : State) : Except Stop State → Prop
  | ok {t : State} (h : guarded t = guarded s := by simp) : Spares s (.ok t)
  | trap {c : TrapCause} {t : State} (h : guarded t = guarded s := by simp) : Spares s (.error (.trap c t))
  | fault {f : Fault} : Spares s (.error (.fault f))
  | refuse {r : Refusal} : Spares s (.error (.refuse r))

/-- A next state, if there is one, has the protected components of `s`. -/
def SparesNext (s : State) (x : Host.Outcome State Fault Refusal) : Prop := ∀ t, x = .next t → guarded t = guarded s

theorem Spares.of_guarded {x : Except Stop State} (hx : Spares t x) (h : guarded t = guarded s := by simp) : Spares s x := by
  cases hx with
  | ok ht => exact .ok (ht.trans h)
  | trap ht => exact .trap (ht.trans h)
  | fault => exact .fault
  | refuse => exact .refuse

theorem Spares.bind {x : Except Stop State} {f : State → Except Stop State} (hx : Spares s x)
    (hf : ∀ t, Spares t (f t)) : Spares s (x >>= f) := by
  cases hx with
  | ok h => exact (hf _).of_guarded h
  | trap h => exact .trap h
  | fault => exact .fault
  | refuse => exact .refuse

protected theorem Spares.ite {c : Prop} [Decidable c] {x y : Except Stop State} (hx : Spares s x) (hy : Spares s y) :
    Spares s (if c then x else y) := by
  split
  · exact hx
  · exact hy

/-- A meaning that begins with a computation that changes nothing. -/
theorem TrapsIn.thenSpares {x : Except Stop α} {f : α → Except Stop State} (hx : TrapsIn s x)
    (hf : ∀ a, Spares s (f a)) : Spares s (x >>= f) := by
  cases hx with
  | ok => exact hf _
  | trap => exact .trap rfl
  | fault => exact .fault
  | refuse => exact .refuse

/-! ### Storing -/

theorem spares_writeVia {p : Path} {va : WordAddr} {w : Word} : Spares s (writeVia p va w s) :=
  trapsIn_locate.thenSpares fun _ => .ok

theorem spares_writeWord {va : WordAddr} {w : Word} : Spares s (writeWord s va w) := spares_writeVia

theorem spares_writeByte {a : ByteAddr} {b : Byte} : Spares s (writeByte s a b) :=
  trapsIn_locate.thenSpares fun _ => .ok

theorem spares_writeHalf {a : BitVec 18} {v : Half} : Spares s (writeHalf s a v) :=
  trapsIn_locate.thenSpares fun _ => .ok

theorem spares_writeDouble {a : BitVec 16} {hi lo : Word} : Spares s (writeDouble s a hi lo) :=
  spares_writeWord.bind fun _ => spares_writeWord

/-! ### Taking a trap -/

theorem spares_exchangePsd {r : BitVec 4} {m : MemRef} : Spares s (exchangePsd r m s) :=
  trapsIn_directVia.thenSpares fun _ => .ite .refuse <| spares_writeVia.bind fun _ => spares_writeVia.bind fun _ =>
    trapsIn_readVia.thenSpares fun _ => trapsIn_readVia.thenSpares fun _ => .ok rfl

@[simp] theorem guarded_orReasons {mask : BitVec 4} {ai : Bool} : guarded (orReasons mask ai s) = guarded s := by
  simp [orReasons]

@[simp] theorem guarded_trapModify {c : TrapCause} {ai : Bool} : guarded (trapModify c ai s) = guarded s := by
  cases c with
  | nonallowed reasons => exact guarded_orReasons
  | call n r => exact guarded_orReasons
  | watchdog | unimplemented | stackLimit | overflow | floatingFault | decimalFault => rfl

@[simp] theorem guarded_trapState {c : TrapCause} : guarded (trapState c s) = guarded s := by
  unfold trapState
  split
  · rfl
  · rfl

theorem spares_enterTrap {c : TrapCause} : Spares s (enterTrap c s) :=
  .ite (.bind (.of_guarded spares_exchangePsd) fun _ => .ok guarded_trapModify) .refuse

/-- Neither the trap nor, where its XPSD traps in turn, the second one reaches the protected components. -/
theorem sparesNext_takeTrap {c : TrapCause} (h : guarded t = guarded s := by simp) : SparesNext s (takeTrap c t) := by
  intro u hu
  obtain h1 | ⟨c2, s2, h1, h2⟩ := takeTrapAt_eq_next hu
  · cases h1 ▸ spares_enterTrap (s := backUp t) (c := c) with
    | ok h3 => exact h3.trans h
  · cases h1 ▸ spares_enterTrap (s := backUp t) (c := c) with
    | trap h3 =>
      cases h2 ▸ spares_enterTrap (s := s2) (c := c2) with
      | ok h4 => exact h4.trans (h3.trans h)

theorem sparesNext_finish {x : Except Stop State} (hx : Spares s x) : SparesNext s (finish x) := by
  intro u hu
  cases hx with
  | ok h => cases hu; exact h
  | trap h => exact sparesNext_takeTrap h u hu
  | fault => cases hu
  | refuse => cases hu

theorem spares_overflowTrap {b : Bool} (h : guarded t = guarded s := by simp) : Spares s (overflowTrap b t) :=
  .ite (.trap h) (.ok h)

/-- A privileged instruction of a slave program is never begun: it traps with nothing changed. -/
theorem sparesNext_privileged {f : Unit → Except Stop State} (hms : s.psd.ms = true) :
    SparesNext s (finish (requireMaster s >>= f)) := by
  rw [requireMaster_slave hms]
  exact sparesNext_finish (.trap rfl)

end Sys2Proof.Safety
end

section
/-! A slave program is confined: the parts that instructions are made of spare the protected components, in the order of the
model's files, and then so does every instruction. -/

namespace Sys2Proof.Safety

open Sys2Proof Machine

variable {s : State} {r : RegNum} {m : MemRef}

/-! ### Branches -/

@[simp] theorem guarded_branchTo {va : WordAddr} {taken : Bool} : guarded (branchTo va taken s) = guarded s := by
  simp [branchTo]

/-! ### Byte strings -/

@[simp] theorem guarded_setAddressField {a : ByteAddr} : guarded (setAddressField r a s) = guarded s := guarded_setReg
@[simp] theorem guarded_setCountField {c : Byte} : guarded (setCountField r c s) = guarded s := guarded_setReg
@[simp] theorem guarded_again {more : Bool} : guarded (again more s) = guarded s := by simp [again]
@[simp] theorem guarded_advanceString {sa da : ByteAddr} {c : Byte} : guarded (advanceString r sa da c s) = guarded s := by
  simp [advanceString]

theorem spares_stepMbs {d : BitVec 20} : Spares s (stepMbs r d s) :=
  .ite .ok <| trapsIn_readByte.thenSpares fun _ => spares_writeByte.bind fun _ => .ok

theorem spares_stepCbs {d : BitVec 20} : Spares s (stepCbs r d s) :=
  .ite .ok <| trapsIn_readByte.thenSpares fun _ => trapsIn_readByte.thenSpares fun _ => .ite .ok .ok

theorem spares_stepTbs {d : BitVec 20} : Spares s (stepTbs r d s) :=
  .ite .refuse <| .ite .ok <| trapsIn_readByte.thenSpares fun _ => trapsIn_translate.thenSpares fun _ =>
    spares_writeByte.bind fun _ => .ok

theorem spares_stepTtbs {d : BitVec 20} : Spares s (stepTtbs r d s) :=
  .ite .refuse <| .ite .ok <| trapsIn_readByte.thenSpares fun _ => trapsIn_translate.thenSpares fun _ =>
    .ite (.ok (guarded_withPsd.trans (by simp))) (.ok (by simp))

@[simp] theorem guarded_editMark {mark : Nat} {da : ByteAddr} : guarded (editMark mark da s) = guarded s := by
  simp [editMark, draw]

@[simp] theorem guarded_editNext {da : ByteAddr} {c : Byte} : guarded (editNext r da c s) = guarded s := by simp [editNext]

theorem spares_editDigit {d : BitVec 20} {p : Byte} {da : ByteAddr} {c : Byte} : Spares s (editDigit r d p da c s) :=
  trapsIn_readByte.thenSpares fun _ => .ite .trap <| trapsIn_locate.thenSpares fun _ => .ok

theorem spares_editOther {da : ByteAddr} {c : Byte} : Spares s (editOther r da c s) :=
  .bind (.ite .ok spares_writeByte) fun _ => .ok

theorem spares_editSeparator {da : ByteAddr} {c : Byte} : Spares s (editSeparator r da c s) :=
  spares_writeByte.bind fun _ => .ok

theorem spares_stepEbs {d : BitVec 20} : Spares s (stepEbs r d s) :=
  trapsIn_requireOption.thenSpares fun _ => .ite .refuse <| .ite .ok <| trapsIn_readByte.thenSpares fun _ =>
    .ite spares_editDigit <| .ite spares_editSeparator spares_editOther

/-! ### Decimal -/

@[simp] theorem guarded_setDeca {v : Nat} : guarded (setDeca s v) = guarded s := by simp [setDeca]
@[simp] theorem guarded_loadDeca {n : Nat} {neg cc2 : Bool} : guarded (loadDeca n neg cc2 s) = guarded s := by
  simp [loadDeca, decimalFlags]
@[simp] theorem guarded_loadDecaInt {x : Int} : guarded (loadDecaInt x s) = guarded s := guarded_loadDeca
@[simp] theorem guarded_freeDeca : guarded (freeDeca s) = guarded s := by simp [freeDeca, draw]
@[simp] theorem guarded_loadQuotient {a b : Nat} {aneg bneg : Bool} : guarded (loadQuotient a b aneg bneg s) = guarded s := by
  simp [loadQuotient]

theorem spares_decimalIllegal : Spares s (decimalIllegal s) := .ite .trap .ok
theorem spares_decimalOverflow : Spares s (decimalOverflow s) := .ite .trap .ok
theorem spares_decimalSum {x : Int} : Spares s (decimalSum x s) := .ite spares_decimalOverflow .ok

theorem spares_storeBytes {bytes : List Byte} {a : ByteAddr} : Spares s (storeBytes bytes a s) := by
  induction bytes generalizing a s with
  | nil => exact .ok
  | cons b rest ih => exact spares_writeByte.bind fun _ => ih

theorem guarded_storeSome {mask : Word} {i : Nat} {bytes : List Byte} {a : ByteAddr} :
    guarded (storeSome mask i bytes a s) = guarded s := by
  induction bytes generalizing i a s with
  | nil => rfl
  | cons b rest ih =>
    refine ih.trans ?_
    have hb : Spares s (writeByte s a b) := spares_writeByte
    generalize writeByte s a b = x at hb
    cases hb with
    | ok h => simp [h]
    | trap | fault | refuse => simp

/-- A store cut short by a trap has stored some of the bytes, nothing else. -/
theorem spares_storeOperand {bytes : List Byte} {a : ByteAddr} : Spares s (storeOperand bytes a s) := by
  have hx : Spares s (storeBytes bytes a s) := spares_storeBytes
  unfold storeOperand
  generalize storeBytes bytes a s = x at hx
  cases hx with
  | ok h => exact .ok h
  | trap => exact .trap guarded_storeSome
  | fault => exact .fault
  | refuse => exact .refuse

/-- A decimal instruction begins with the test for the option. -/
theorem sparesNext_decimal {f : Unit → Except Stop State} (hf : ∀ u, Spares s (f u)) :
    SparesNext s (finish (requireOption s.cfg.hasDecimal s >>= f)) :=
  sparesNext_finish (trapsIn_requireOption.thenSpares hf)

/-! ### Fixed-point and floating-point arithmetic -/

theorem spares_addToReg {v : Word} : Spares s (addToReg r v s) := spares_overflowTrap
theorem spares_subFromReg {v : Word} : Spares s (subFromReg r v s) := spares_overflowTrap
theorem spares_freeDouble : Spares s (freeDouble r s) := spares_overflowTrap (guarded_setCc.trans guarded_setReg)
theorem spares_divideAborted : Spares s (divideAborted s) := spares_overflowTrap

@[simp] theorem guarded_loadProduct {p : Int} : guarded (loadProduct r p s) = guarded s := by simp [loadProduct]

theorem spares_finishShort {x : FloatResult 32} : Spares s (finishShort r x s) := by
  cases x with
  | fault cc => exact .trap
  | result v cc => exact .ok

theorem spares_finishLong {x : FloatResult 64} : Spares s (finishLong r x s) := by
  cases x with
  | fault cc => exact .trap
  | result v cc => exact .ok

theorem spares_freeLong : Spares s (freeLong r s) := .ite (.trap guarded_setReg) (.ok guarded_setReg)

/-- A floating-point instruction that reads a word begins with the test for the option. -/
theorem sparesNext_floatWord {f : Word → Except Stop State} (hf : ∀ v, Spares s (f v)) :
    SparesNext s (finish (requireOption s.cfg.hasFloat s >>= fun _ => operandWord m s >>= f)) :=
  sparesNext_finish (trapsIn_requireOption.thenSpares fun _ => trapsIn_operandWord.thenSpares hf)

/-- A long floating-point instruction: free values for an odd R. -/
theorem sparesNext_floatLong {f : Double → FloatResult 64} :
    SparesNext s (finish (requireOption s.cfg.hasFloat s >>= fun _ => operandDouble m s >>= fun v =>
      if isOdd r then freeLong r s else finishLong r (f v) s)) :=
  sparesNext_finish (trapsIn_requireOption.thenSpares fun _ => trapsIn_operandDouble.thenSpares fun _ =>
    .ite spares_freeLong spares_finishLong)

/-! ### Words of the registers, push-down -/

theorem spares_loadWords {n : Nat} {a : WordAddr} : Spares s (loadWords n a r s) := by
  induction n generalizing a r s with
  | zero => exact .ok
  | succ n ih => exact trapsIn_readWord.thenSpares fun _ => ih.of_guarded

theorem spares_pullWords {n : Nat} {a : WordAddr} : Spares s (pullWords n a r s) := by
  induction n generalizing a r s with
  | zero => exact .ok
  | succ n ih => exact trapsIn_readWord.thenSpares fun _ => ih.of_guarded

theorem spares_storeRegs {n : Nat} {a : WordAddr} : Spares s (storeRegs n a r s) := by
  induction n generalizing a r s with
  | zero => exact .ok
  | succ n ih => exact spares_writeWord.bind fun _ => ih

@[simp] theorem guarded_analyzeFlags {k : AddressType} {ind : Bool} : guarded (analyzeFlags k ind s) = guarded s := by
  cases k <;> rfl

/-- A push-down instruction spares the protected components when what it does with the stack words does. -/
theorem spares_pushDown {delta : Int} {body : WordAddr → State → Except Stop State}
    (hbody : ∀ top, Spares s (body top s)) : Spares s (pushDown m delta body s) :=
  trapsIn_eaDouble.thenSpares fun _ => trapsIn_readDouble.thenSpares fun _ => .ite .trap <| .ite (.ok rfl) <|
    (hbody _).bind fun _ => spares_writeDouble.bind fun _ => .ok rfl

/-! ### Shift -/

@[simp] theorem guarded_loadLong {v : Double} : guarded (loadLong r v s) = guarded s := by simp [loadLong]

theorem guarded_shiftSingle {kind : ShiftKind} {count : BitVec 7} : guarded (shiftSingle kind count r s) = guarded s := by
  simp [shiftSingle]

theorem guarded_shiftDouble {kind : ShiftKind} {count : BitVec 7} : guarded (shiftDouble kind count r s) = guarded s := by
  simp [shiftDouble]

theorem guarded_shiftUndefined : guarded (shiftUndefined r s) = guarded s := by simp [shiftUndefined, draw]

theorem sparesNext_execS : SparesNext s (execS r m s) := by
  refine sparesNext_finish <| trapsIn_shiftFields.thenSpares fun _ => .ok ?_
  split
  · exact guarded_shiftSingle
  · exact guarded_shiftDouble
  · exact guarded_shiftSingle
  · exact guarded_shiftDouble
  · exact guarded_shiftSingle
  · exact guarded_shiftDouble
  · exact guarded_shiftUndefined

/-! ### Dispatch and EXU -/

/-- Each instruction of a slave program, EXU aside: a privileged one traps, any other is made of sparing parts. -/
theorem sparesNext_execSubject (i : Instr) (hms : s.psd.ms = true) : SparesNext s (execSubject i s) :=
  match i with
  | .lcfi _ _ => sparesNext_finish .ok
  | .cal1 _ _ => sparesNext_finish .trap
  | .cal2 _ _ => sparesNext_finish .trap
  | .cal3 _ _ => sparesNext_finish .trap
  | .cal4 _ _ => sparesNext_finish .trap
  | .plw _ _ => sparesNext_finish <| spares_pushDown fun _ => trapsIn_readWord.thenSpares fun _ => .ok
  | .psw _ _ => sparesNext_finish <| spares_pushDown fun _ => spares_writeWord
  | .plm _ _ => sparesNext_finish <| spares_pushDown fun _ => spares_pullWords
  | .psm _ _ => sparesNext_finish <| spares_pushDown fun _ => spares_storeRegs
  | .lpsd _ _ => sparesNext_privileged hms
  | .xpsd _ _ => sparesNext_privileged hms
  | .ad _ _ => sparesNext_finish <| trapsIn_operandDouble.thenSpares fun _ => .ite spares_freeDouble spares_overflowTrap
  | .cd _ _ => sparesNext_finish <| trapsIn_operandDouble.thenSpares fun _ => .ok
  | .ld _ _ => sparesNext_finish <| trapsIn_operandDouble.thenSpares fun _ => .ok
  | .msp _ _ => sparesNext_finish <| spares_pushDown fun _ => .ok
  | .std _ _ => sparesNext_finish <| trapsIn_eaDouble.thenSpares fun _ => spares_writeDouble
  | .sd _ _ => sparesNext_finish <| trapsIn_operandDouble.thenSpares fun _ => .ite spares_freeDouble spares_overflowTrap
  | .clm _ _ => sparesNext_finish <| trapsIn_operandDouble.thenSpares fun _ => .ok
  | .lcd _ _ => sparesNext_finish <| trapsIn_operandDouble.thenSpares fun _ => spares_overflowTrap
  | .lad _ _ => sparesNext_finish <| trapsIn_operandDouble.thenSpares fun _ => spares_overflowTrap
  | .fsl r _ => sparesNext_floatLong (r := r)
  | .fal r _ => sparesNext_floatLong (r := r)
  | .fdl r _ => sparesNext_floatLong (r := r)
  | .fml r _ => sparesNext_floatLong (r := r)
  | .ai _ _ => sparesNext_finish spares_addToReg
  | .ci _ _ => sparesNext_finish .ok
  | .li _ _ => sparesNext_finish .ok
  | .mi _ _ => sparesNext_finish .ok
  | .sf _ _ => sparesNext_finish <| trapsIn_shiftFields.thenSpares fun _ => .ite .ok .ok
  | .s _ _ => sparesNext_execS
  | .cvs _ _ => sparesNext_finish <| trapsIn_eaWord.thenSpares fun _ => trapsIn_convertSub.thenSpares fun _ => .ok
  | .cva _ _ => sparesNext_finish <| trapsIn_eaWord.thenSpares fun _ => trapsIn_convertAdd.thenSpares fun _ => .ok
  | .lm _ _ => sparesNext_finish <| trapsIn_eaWord.thenSpares fun _ => spares_loadWords
  | .stm _ _ => sparesNext_finish <| trapsIn_eaWord.thenSpares fun _ => spares_storeRegs
  | .wait _ _ => sparesNext_privileged hms
  | .lrp _ _ => sparesNext_privileged hms
  | .aw _ _ => sparesNext_finish <| trapsIn_operandWord.thenSpares fun _ => spares_addToReg
  | .cw _ _ => sparesNext_finish <| trapsIn_operandWord.thenSpares fun _ => .ok
  | .lw _ _ => sparesNext_finish <| trapsIn_operandWord.thenSpares fun _ => .ok
  | .mtw _ _ => sparesNext_finish <| trapsIn_eaWord.thenSpares fun _ => trapsIn_readWord.thenSpares fun _ =>
      .ite .ok <| spares_writeWord.bind fun _ => spares_overflowTrap
  | .stw _ _ => sparesNext_finish <| trapsIn_eaWord.thenSpares fun _ => spares_writeWord
  | .dw _ _ => sparesNext_finish <| trapsIn_operandWord.thenSpares fun _ => .ite spares_divideAborted .ok
  | .mw _ _ => sparesNext_finish <| trapsIn_operandWord.thenSpares fun _ => .ok
  | .sw _ _ => sparesNext_finish <| trapsIn_operandWord.thenSpares fun _ => spares_subFromReg
  | .clr _ _ => sparesNext_finish <| trapsIn_operandWord.thenSpares fun _ => .ok
  | .lcw _ _ => sparesNext_finish <| trapsIn_operandWord.thenSpares fun _ => spares_overflowTrap
  | .law _ _ => sparesNext_finish <| trapsIn_operandWord.thenSpares fun _ => spares_overflowTrap
  | .fss _ _ => sparesNext_floatWord fun _ => spares_finishShort
  | .fas _ _ => sparesNext_floatWord fun _ => spares_finishShort
  | .fds _ _ => sparesNext_floatWord fun _ => spares_finishShort
  | .fms _ _ => sparesNext_floatWord fun _ => .ite spares_finishShort spares_finishLong
  | .ttbs _ _ => sparesNext_finish spares_stepTtbs
  | .tbs _ _ => sparesNext_finish spares_stepTbs
  | .anlz _ _ => sparesNext_finish <| trapsIn_operandWord.thenSpares fun _ => .ite .ok <|
      trapsIn_direct.thenSpares fun _ => .ok
  | .cs _ _ => sparesNext_finish <| trapsIn_operandWord.thenSpares fun _ => .ok
  | .xw _ _ => sparesNext_finish <| trapsIn_eaWord.thenSpares fun _ => trapsIn_readWord.thenSpares fun _ =>
      spares_writeWord.bind fun _ => .ok
  | .sts _ _ => sparesNext_finish <| trapsIn_eaWord.thenSpares fun _ => trapsIn_readWord.thenSpares fun _ =>
      spares_writeWord
  | .eor _ _ => sparesNext_finish <| trapsIn_operandWord.thenSpares fun _ => .ok
  | .or _ _ => sparesNext_finish <| trapsIn_operandWord.thenSpares fun _ => .ok
  | .ls _ _ => sparesNext_finish <| trapsIn_operandWord.thenSpares fun _ => .ok
  | .and _ _ => sparesNext_finish <| trapsIn_operandWord.thenSpares fun _ => .ok
  | .sio _ _ => sparesNext_privileged hms
  | .tio _ _ => sparesNext_privileged hms
  | .tdv _ _ => sparesNext_privileged hms
  | .hio _ _ => sparesNext_privileged hms
  | .ah _ _ => sparesNext_finish <| trapsIn_operandHalf.thenSpares fun _ => spares_addToReg
  | .ch _ _ => sparesNext_finish <| trapsIn_operandHalf.thenSpares fun _ => .ok
  | .lh _ _ => sparesNext_finish <| trapsIn_operandHalf.thenSpares fun _ => .ok
  | .mth _ _ => sparesNext_finish <| trapsIn_eaHalf.thenSpares fun _ => trapsIn_readHalf.thenSpares fun _ =>
      .ite .ok <| spares_writeHalf.bind fun _ => spares_overflowTrap
  | .sth _ _ => sparesNext_finish <| trapsIn_eaHalf.thenSpares fun _ => spares_writeHalf.bind fun _ => .ok
  | .dh _ _ => sparesNext_finish <| trapsIn_operandHalf.thenSpares fun _ => .ite spares_divideAborted .ok
  | .mh _ _ => sparesNext_finish <| trapsIn_operandHalf.thenSpares fun _ => .ok
  | .sh _ _ => sparesNext_finish <| trapsIn_operandHalf.thenSpares fun _ => spares_subFromReg
  | .lch _ _ => sparesNext_finish <| trapsIn_operandHalf.thenSpares fun _ => .ok
  | .lah _ _ => sparesNext_finish <| trapsIn_operandHalf.thenSpares fun _ => .ok
  | .cbs _ _ => sparesNext_finish spares_stepCbs
  | .mbs _ _ => sparesNext_finish spares_stepMbs
  | .ebs _ _ => sparesNext_finish spares_stepEbs
  | .bdr _ _ => sparesNext_finish <| trapsIn_eaWord.thenSpares fun _ => trapsIn_branchCheck.thenSpares fun _ => .ok
  | .bir _ _ => sparesNext_finish <| trapsIn_eaWord.thenSpares fun _ => trapsIn_branchCheck.thenSpares fun _ => .ok
  | .awm _ _ => sparesNext_finish <| trapsIn_eaWord.thenSpares fun _ => trapsIn_readWord.thenSpares fun _ =>
      spares_writeWord.bind fun _ => spares_overflowTrap
  | .exu _ _ => sparesNext_finish (x := .ok (backUp s)) .ok
  | .bcr _ _ => sparesNext_finish <| trapsIn_eaWord.thenSpares fun _ => trapsIn_branchCheck.thenSpares fun _ => .ok
  | .bcs _ _ => sparesNext_finish <| trapsIn_eaWord.thenSpares fun _ => trapsIn_branchCheck.thenSpares fun _ => .ok
  | .bal _ _ => sparesNext_finish <| trapsIn_eaWord.thenSpares fun _ =>
      .of_guarded <| trapsIn_branchCheck.thenSpares fun _ => .ok
  | .int _ _ => sparesNext_finish <| trapsIn_operandWord.thenSpares fun _ => .ok
  | .rd _ _ => sparesNext_privileged hms
  | .wd _ _ => sparesNext_privileged hms
  | .aio _ _ => sparesNext_privileged hms
  | .mmc _ _ _ _ => sparesNext_privileged hms
  | .lcf _ _ => sparesNext_finish <| trapsIn_operandByte.thenSpares fun _ => .ok
  | .cb _ _ => sparesNext_finish <| trapsIn_operandByte.thenSpares fun _ => .ok
  | .lb _ _ => sparesNext_finish <| trapsIn_operandByte.thenSpares fun _ => .ok
  | .mtb _ _ => sparesNext_finish <| trapsIn_eaByte.thenSpares fun _ => trapsIn_readByte.thenSpares fun _ =>
      .ite .ok <| spares_writeByte.bind fun _ => .ok
  | .stcf _ _ => sparesNext_finish <| trapsIn_eaByte.thenSpares fun _ => spares_writeByte
  | .stb _ _ => sparesNext_finish <| trapsIn_eaByte.thenSpares fun _ => spares_writeByte
  | .pack _ _ => sparesNext_decimal fun _ => trapsIn_eaByte.thenSpares fun _ => trapsIn_readBytes.thenSpares fun _ =>
      .ite spares_decimalIllegal .ok
  | .unpk _ _ => sparesNext_decimal fun _ => trapsIn_eaByte.thenSpares fun _ => .ite spares_decimalIllegal <|
      spares_storeOperand.bind fun _ => .ok
  | .ds _ _ => sparesNext_decimal fun _ => trapsIn_decimalOperand.thenSpares fun _ =>
      .ite spares_decimalIllegal spares_decimalSum
  | .da _ _ => sparesNext_decimal fun _ => trapsIn_decimalOperand.thenSpares fun _ =>
      .ite spares_decimalIllegal spares_decimalSum
  | .dd _ _ => sparesNext_decimal fun _ => trapsIn_decimalOperand.thenSpares fun _ => .ite spares_decimalIllegal <|
      .ite .ok <| .ite spares_decimalOverflow <| .ite .ok .ok
  | .dm _ _ => sparesNext_decimal fun _ => trapsIn_decimalOperand.thenSpares fun _ => .ite spares_decimalIllegal <|
      .ite .ok .ok
  | .dsa _ _ => sparesNext_decimal fun _ => trapsIn_eaByte.thenSpares fun _ => .ite spares_decimalIllegal <|
      .ite .ok .ok
  | .dc _ _ => sparesNext_decimal fun _ => trapsIn_decimalOperand.thenSpares fun _ => .ite spares_decimalIllegal .ok
  | .dl _ _ => sparesNext_decimal fun _ => trapsIn_decimalOperand.thenSpares fun _ => .ite spares_decimalIllegal .ok
  | .dst _ _ => sparesNext_decimal fun _ => trapsIn_eaByte.thenSpares fun _ => .ite spares_decimalIllegal <|
      spares_storeOperand.bind fun _ => .ok

/-- EXU changes nothing until it reaches its subject. -/
theorem sparesNext_execExu (hms : s.psd.ms = true) : SparesNext s (execExu r m s) := by
  have hx : TrapsIn s (resolveSubject chainLimit m s) := trapsIn_resolveSubject
  unfold execExu
  generalize resolveSubject chainLimit m s = x at hx
  cases hx with
  | @ok subject =>
    cases subject with
    | none => exact sparesNext_finish (x := .ok (backUp s)) .ok
    | some w =>
      dsimp only
      split
      · exact sparesNext_execSubject _ hms
      · exact sparesNext_finish (.trap rfl)
  | trap => exact sparesNext_finish (.trap rfl)
  | fault => exact sparesNext_finish .fault
  | refuse => exact sparesNext_finish .refuse

theorem sparesNext_exec (i : Instr) (hms : s.psd.ms = true) : SparesNext s (exec i s) := by
  by_cases hi : ∃ r m, i = .exu r m
  · obtain ⟨r, m, rfl⟩ := hi
    exact sparesNext_execExu (r := r) hms
  · rw [exec_eq_execSubject fun r m hrm => hi ⟨r, m, hrm⟩]
    exact sparesNext_execSubject i hms

/-- Settles O8: in slave mode the privileged instructions trap with nothing changed, and the others, like the trap sequence
itself, write registers, core memory and the PSD. -/
theorem slaveIsConfined : Obligations.SlaveIsConfined :=
  fun i _ t hms ht => guarded_eq_iff.1 (sparesNext_exec i hms t ht)

end Sys2Proof.Safety
end

section
/-! The resets: the state after reset and CPU RESET/CLEAR. -/

namespace Sys2Proof.Resets

open Sys2Proof Machine Safety

/-- The levels after a reset: the power levels are armed and enabled, the others disarmed and disabled (10_state R51). -/
theorem getElem_resetAll {k : Nat} (hk : k < 240) :
    Level.resetAll[k] = if k < 2 then ⟨.armed, true⟩ else ⟨.disarmed, false⟩ := by
  obtain rfl | rfl | h2 : k = 0 ∨ k = 1 ∨ 2 ≤ k := by omega
  · rfl
  · rfl
  · simp [Level.resetAll, show ¬ k < 2 by omega, show ¬ 0 = k by omega, show ¬ 1 = k by omega]

theorem level_of_levels_eq_resetAll {s : State} (h : s.levels = Level.resetAll) {k : Nat} (hk : k < 240) :
    level s k = if k < 2 then ⟨.armed, true⟩ else ⟨.disarmed, false⟩ := by
  simp only [level, hk, dif_pos, h, getElem_resetAll]

/-- Settles O6: the memory is empty, no location is being served, the levels are those of a reset, and the standard
installation's chain is a permutation of the groups. -/
theorem resetInvariant : Obligations.ResetInvariant := by
  have hpower (k : Nat) (hk : k < 2) : powerLevelOk (level State.reset k) := by
    rw [level_of_levels_eq_resetAll rfl (by omega), if_pos hk]
    exact ⟨rfl, by decide⟩
  exact ⟨wf_reset, rfl, hpower 0 (by decide), hpower 1 (by decide), by decide⟩

/-- Settles O7: the images of the reset PSD are computed, the levels are those of a reset, the other components are not
written. -/
theorem cpuReset : Obligations.CpuReset := by
  intro s t
  have hpsw1 : psw1 Psd.reset = 0x00000025 := by decide
  have hpsw2 : psw2 Psd.reset = 0 := by decide
  exact ⟨hpsw1, hpsw2, rfl, rfl, fun _ hk => level_of_levels_eq_resetAll rfl hk, rfl, rfl, rfl, rfl, rfl⟩

end Sys2Proof.Resets
end

section
/-! References to memory: what reading gives, what a store leaves, what protection denies (20_memory R60 to R81). -/

namespace Sys2Proof.References

open Sys2Proof Machine

/-! ### Parts of words -/

theorem fld_append_left {m n : Nat} (x : BitVec m) (y : BitVec n) : fld (x ++ y) 0 m = x := by
  apply BitVec.eq_of_getLsbD_eq
  intro i hi
  rw [getLsbD_fld, BitVec.getLsbD_append, show m + n - (0 + m) + i = n + i by omega]
  simp [hi, BitVec.getLsbD_eq_getElem]

theorem fld_append_right {m n : Nat} (x : BitVec m) (y : BitVec n) : fld (x ++ y) m n = y := by
  apply BitVec.eq_of_getLsbD_eq
  intro i hi
  rw [getLsbD_fld, BitVec.getLsbD_append, Nat.sub_self, Nat.zero_add]
  simp [hi]

/-- A byte address is a word address and the number of a byte of that word (20_memory R62). -/
theorem readByte_append {s : State} {a : WordAddr} {w : Word} (h : readWord s a = .ok w) (k : BitVec 2) :
    readByte s (a ++ k) = .ok (byteOf w k) := by
  have hword : fld (a ++ k) 0 17 = a := fld_append_left a k
  have hbyte : fld (a ++ k) 17 2 = k := fld_append_right a k
  rw [readByte_ok (by rwa [hword]), hbyte]

/-- A halfword address is a word address and the number of a halfword of that word (20_memory R61). -/
theorem readHalf_append {s : State} {a : WordAddr} {w : Word} (h : readWord s a = .ok w) (k : BitVec 1) :
    readHalf s (a ++ k) = .ok (halfOf w (k.getLsbD 0)) := by
  have hword : fld (a ++ k) 0 17 = a := fld_append_left a k
  have hhalf : (a ++ k).getLsbD 0 = k.getLsbD 0 := by rw [BitVec.getLsbD_append, if_pos Nat.one_pos]
  rw [readHalf_ok (by rwa [hword]), hhalf]

theorem readDouble_ok {s : State} {d : BitVec 16} {hi lo : Word} (hhi : readWord s (d ++ 0#1) = .ok hi)
    (hlo : readWord s (d ++ 1#1) = .ok lo) : readDouble s d = .ok (hi ++ lo) := by
  simp [readDouble, hhi, hlo]

/-- Settles O10: an address below 16 is located in a register whatever the access, and a byte, a halfword or a doubleword
is read through the words at the address its leading bits form. -/
theorem memoryReads : Obligations.MemoryReads := by
  intro s a
  constructor
  · intro w ha
    have hreg (k : Access) : locate (programPath s) k a s = .ok (.reg (a.setWidth 4)) := locate_register _ k a s ha
    exact ⟨readWord_ok (hreg .operand), readVia_ok (hreg .instruction), writeWord_ok (hreg .write)⟩
  · intro w hw
    refine ⟨readByte_append hw 0, readByte_append hw 1, readByte_append hw 2, readByte_append hw 3,
      readHalf_append hw 0, readHalf_append hw 1, ?_⟩
    rintro d v rfl hv
    exact readDouble_ok hw hv

/-! ### Reading what was stored -/

/-- The place a word was stored in is the place where the program then reads at that address. -/
theorem readWord_locSetWord {s : State} {a : WordAddr} {l : Loc} (w : Word)
    (hl : locate (programPath s) .write a s = .ok l) :
    readWord (locSetWord s l w) a = .ok (locWord (locSetWord s l w) l) := by
  have hsame := sameMapping_locSetWord s l w
  apply readWord_ok
  rw [programPath_congr hsame, locate_congr hsame]
  exact locate_operand_of_write hl

/-- A store to a register of a missing block is discarded (U8). -/
theorem setReg_of_missing {s : State} (h : blockInstalled s = false) (r : RegNum) (w : Word) : setReg s r w = s := by
  simp [setReg, h]

/-- A register of a missing block reads as the installation says (10_state R13). -/
theorem getReg_of_missing {s : State} (h : blockInstalled s = false) (r : RegNum) :
    getReg s r = if s.cfg.missingOnes then 0xFFFFFFFF else 0 := by
  have hones : BitVec.allOnes 32 = 0xFFFFFFFF := rfl
  simp [getReg, h, hones]

/-- Settles O11: the store and the read locate the same place, a register or a word of core memory, and only a register of
a missing block does not take the word. -/
theorem readAfterWrite : Obligations.ReadAfterWrite := by
  intro s t a w h
  obtain ⟨l, hl, rfl⟩ := writeWord_eq_ok h
  have hread := readWord_locSetWord w hl
  obtain ⟨ha, rfl⟩ | ⟨ha, -, rfl⟩ := locate_eq_ok hl
  · refine ⟨fun hor => ?_, fun _ hmissing => ?_⟩
    · have hb : blockInstalled s = true := hor.resolve_left (Nat.not_le.2 ha)
      rw [hread, locWord_locSetWord, if_pos ⟨rfl, .inl hb⟩]
    · have hkept : locSetWord s (.reg (a.setWidth 4)) w = s := setReg_of_missing hmissing _ w
      rw [hkept] at hread ⊢
      exact ⟨rfl, hread.trans (congrArg _ (getReg_of_missing hmissing _))⟩
  · refine ⟨fun _ => ?_, fun hlow => absurd hlow (Nat.not_lt.2 ha)⟩
    rw [hread, locWord_locSetWord, if_pos ⟨rfl, .inr ⟨_, rfl⟩⟩]

/-! ### What protection denies -/

/-- No condition forbids a reference exactly when its actual address exists and no protection test denies it. -/
theorem violations_eq_zero_iff {p : Path} {k : Access} {va : WordAddr} {s : State} :
    violations p k va s = 0 ↔
      (actualOf p va s).toNat < s.cfg.memWords ∧ protectionDenied p k va s = false := by
  by_cases hi : (actualOf p va s).toNat < s.cfg.memWords <;> cases hd : protectionDenied p k va s <;>
    simp [violations, installedAddr, hi, hd]

/-- Locating an address of 16 or more (20_memory R80). -/
theorem locate_of_ge (p : Path) (k : Access) {va : WordAddr} (s : State) (h : 16 ≤ va.toNat) :
    locate p k va s =
      if (actualOf p va s).toNat < s.cfg.memWords ∧ protectionDenied p k va s = false then
        .ok (.core (actualOf p va s))
      else .error (.trap (.nonallowed (violations p k va s)) s) := by
  simp only [locate, Nat.not_lt.2 h, if_false, violations_eq_zero_iff]

/-- The codes 10 and 11 deny an instruction (20_memory R76). -/
theorem accDenied_instruction (code : BitVec 2) : accDenied code .instruction = (code == 2 || code == 3) := by
  revert code; decide

/-- The lock and the key agree when either is 00 or both are equal (20_memory R79). -/
theorem lockDenied_eq (lock key : BitVec 2) : lockDenied lock key = !(lock == 0 || key == 0 || key == lock) := by
  simp [lockDenied, bne, Bool.beq_comm (a := lock) (b := key)]

/-- Settles O12: the model's access code test and write lock test are the ones stated, and `locate` allows a reference
exactly when no condition holds. -/
theorem accessProtection : Obligations.AccessProtection := by
  intro s k a ha code actual lock byCode byLock denied
  have hactual : actualOf (programPath s) a s = actual := rfl
  have hdenied : protectionDenied (programPath s) k a s = denied := by
    have hcode : (s.cfg.hasMap && s.psd.mm && s.psd.ms && accDenied code k) = byCode := by
      cases k with
      | write => rfl
      | instruction => simp only [byCode, accDenied_instruction]
      | operand => rfl
    have hlock : (k == .write && s.cfg.hasLocks && lockDenied lock s.psd.wk) = byLock := by
      simp only [byLock, lockDenied_eq]
      cases k <;> rfl
    exact congrArg₂ or hcode hlock
  have hreason : violations (programPath s) k a s =
      (if actual.toNat < s.cfg.memWords then 0 else 4) ||| (if denied then 1 else 0) := by
    simp only [violations, installedAddr, hactual, hdenied, decide_eq_true_eq]
  rw [locate_of_ge _ _ _ ha, hactual, hdenied, hreason]

/-! ### The write locks without the map -/

section Unmapped

variable {s : State} {a : WordAddr}

/-- Without the map the actual address is the virtual one (20_memory R73). -/
theorem actualOf_unmapped (hmm : s.psd.mm = false) : actualOf (programPath s) a s = a := by
  simp [actualOf, programPath, hmm]

/-- Without the map only a store can be denied, by the lock of its page (20_memory R79). -/
theorem protectionDenied_unmapped (hmm : s.psd.mm = false) (k : Access) :
    protectionDenied (programPath s) k a s =
      (k == .write && s.cfg.hasLocks && lockDenied (s.lock[(fld a 0 8).toNat]'(BitVec.isLt _)) s.psd.wk) := by
  simp only [protectionDenied, actualOf_unmapped hmm]
  simp [programPath, hmm]

/-- A reference to an existing address that no test denies reaches the word there. -/
theorem locate_unmapped (hmm : s.psd.mm = false) (ha : 16 ≤ a.toNat) (hex : a.toNat < s.cfg.memWords) (k : Access) :
    locate (programPath s) k a s =
      if protectionDenied (programPath s) k a s then .error (.trap (.nonallowed 1) s) else .ok (.core a) := by
  rw [locate_of_ge _ _ _ ha, actualOf_unmapped hmm]
  cases hd : protectionDenied (programPath s) k a s
  · simp [hex]
  · simp [violations, installedAddr, actualOf_unmapped hmm, hex, hd]

end Unmapped

/-- Settles O13: without the map a store is located or trapped as the lock test says, and a read is always located. -/
theorem writeLocks : Obligations.WriteLocks := by
  intro s a w ha hlocks hmm hex lock
  have hlocate := locate_unmapped hmm ha hex
  have hwrite : protectionDenied (programPath s) .write a s = lockDenied lock s.psd.wk := by
    simp [protectionDenied_unmapped hmm, hlocks, lock]
  have hread : protectionDenied (programPath s) .operand a s = false := by
    simp [protectionDenied_unmapped hmm]
  refine ⟨fun hl hk hne => ?_, fun hallowed => ?_, ?_⟩
  · have hdenied : lockDenied lock s.psd.wk = true := by
      simp only [lockDenied, Bool.and_eq_true, bne_iff_ne]
      exact ⟨⟨hl, hk⟩, hne⟩
    have hstop : locate (programPath s) .write a s = .error (.trap (.nonallowed 1) s) := by
      rw [hlocate, hwrite, if_pos hdenied]
    simp [writeWord, writeVia, hstop]
  · have hfree : ¬ lockDenied lock s.psd.wk = true := by
      simp only [lockDenied_eq]
      obtain h | h | h := hallowed <;> simp [h]
    exact writeWord_ok (by rw [hlocate, hwrite, if_neg hfree])
  · exact readWord_ok (by rw [hlocate, hread]; rfl)

end Sys2Proof.References
end

section
/-! Words and instructions: the fields of a packed word, the tables of operation codes against the encoder, and so that
decoding and encoding undo each other (30_encoding R120 to R124, R140 to R142). -/

namespace Sys2Proof.Encoding

open Sys2Proof Machine References

/-! ### Fields of fields and fields side by side -/

/-- A field of the left one of two parts. -/
theorem fld_append_of_le {m n a k : Nat} (x : BitVec m) (y : BitVec n) (h : a + k ≤ m) :
    fld (x ++ y) a k = fld x a k := by
  apply BitVec.eq_of_getLsbD_eq
  intro i hi
  have hleft : ¬ m + n - (a + k) + i < n := by omega
  have hbit : m + n - (a + k) + i - n = m - (a + k) + i := by omega
  simp only [getLsbD_fld, BitVec.getLsbD_append, if_neg hleft, hbit]

/-- A field of the leading bits. -/
theorem fld_fld_zero {w a k n : Nat} (v : BitVec w) (hk : a + k ≤ n) (hn : n ≤ w) : fld (fld v 0 n) a k = fld v a k := by
  apply BitVec.eq_of_getLsbD_eq
  intro i hi
  have hin : n - (a + k) + i < n := by omega
  have hbit : w - (0 + n) + (n - (a + k) + i) = w - (a + k) + i := by omega
  simp only [getLsbD_fld, hin, hbit, decide_true, Bool.true_and]

/-- Two neighbouring fields are one. -/
theorem fld_append_fld {w : Nat} (v : BitVec w) (a m n : Nat) (h : a + m + n ≤ w) :
    fld v a m ++ fld v (a + m) n = fld v a (m + n) := by
  apply BitVec.eq_of_getLsbD_eq
  intro i hi
  simp only [BitVec.getLsbD_append, getLsbD_fld]
  by_cases hn : i < n
  · simp [hn, hi, show w - (a + m + n) = w - (a + (m + n)) by omega]
  · simp [hn, hi, show i - n < m by omega, show w - (a + m) + (i - n) = w - (a + (m + n)) + i by omega]

theorem fld_whole {w : Nat} (v : BitVec w) : fld v 0 w = v := by
  apply BitVec.eq_of_getLsbD_eq
  intro i hi
  simp only [getLsbD_fld, hi, decide_true, Bool.true_and, Nat.zero_add, Nat.sub_self]

theorem indBit_eq (w : Word) : indBit w = (fld w 0 1).getMsbD 0 := by
  simp [indBit, getMsbD_fld]

theorem ofBool_indBit (w : Word) : BitVec.ofBool (indBit w) = fld w 0 1 := by
  have hbit (b : BitVec 1) : BitVec.ofBool (b.getMsbD 0) = b := by revert b; decide
  rw [indBit_eq, hbit]

/-! ### Packing and the fields of a word -/

/-- The fields that all formats share. -/
theorem fields_of_leading {w : Word} {ind : Bool} {op : BitVec 7} {r : RegNum}
    (h : fld w 0 12 = BitVec.ofBool ind ++ op ++ r) :
    indBit w = ind ∧ opField w = op ∧ rField w = r := by
  have hfld (a k : Nat) (hk : a + k ≤ 12) : fld w a k = fld (BitVec.ofBool ind ++ op ++ r) a k := by
    rw [← h, fld_fld_zero w hk (by decide)]
  have hbit : fld w 0 1 = BitVec.ofBool ind :=
    calc fld w 0 1
      _ = fld (BitVec.ofBool ind ++ op ++ r) 0 1 := hfld 0 1 (by decide)
      _ = fld (BitVec.ofBool ind ++ op) 0 1 := fld_append_of_le _ _ (by decide)
      _ = BitVec.ofBool ind := fld_append_left _ _
  have hind : indBit w = ind := by
    rw [indBit_eq, hbit]
    cases ind <;> rfl
  have hop : opField w = op :=
    calc opField w
      _ = fld (BitVec.ofBool ind ++ op ++ r) 1 7 := hfld 1 7 (by decide)
      _ = fld (BitVec.ofBool ind ++ op) 1 7 := fld_append_of_le _ _ (by decide)
      _ = op := fld_append_right _ _
  exact ⟨hind, hop, (hfld 8 4 (by decide)).trans (fld_append_right _ _)⟩

/-- A word with an X field and a reference address has the fields it was packed from. -/
theorem fields_pack (ind : Bool) (op : BitVec 7) (r : RegNum) (x : BitVec 3) (ra : WordAddr) :
    let w : Word := BitVec.ofBool ind ++ op ++ r ++ x ++ ra
    indBit w = ind ∧ opField w = op ∧ rField w = r ∧ xField w = x ∧ raField w = ra := by
  intro w
  have hfld (a k : Nat) (hk : a + k ≤ 15) : fld w a k = fld (BitVec.ofBool ind ++ op ++ r ++ x) a k :=
    fld_append_of_le _ _ hk
  obtain ⟨hind, hop, hr⟩ := fields_of_leading ((hfld 0 12 (by decide)).trans (fld_append_left _ _))
  exact ⟨hind, hop, hr, (hfld 12 3 (by decide)).trans (fld_append_right _ _), fld_append_right _ _⟩

/-- So has one with an immediate operand or a displacement. -/
theorem fields_packI (op : BitVec 7) (r : RegNum) (v : BitVec 20) :
    indBit (packI op r v) = false ∧ opField (packI op r v) = op ∧ rField (packI op r v) = r ∧
      valueField (packI op r v) = v := by
  obtain ⟨hind, hop, hr⟩ := fields_of_leading (w := packI op r v) (ind := false) (fld_append_left _ _)
  exact ⟨hind, hop, hr, fld_append_right _ _⟩

/-- The address part comes back when its index register is none or one of 1 to 7. -/
theorem memRefOf_packN (op : BitVec 7) (r : RegNum) {m : MemRef} (hm : m.wellFormed = true) :
    memRefOf (packN op r m) = m := by
  obtain ⟨hind, -, -, hx, hra⟩ := fields_pack m.ind op r (m.x.getD 0) m.ra
  obtain ⟨ind, x, ra⟩ := m
  have hindex : (if x.getD 0 = 0 then none else some (x.getD 0)) = x := by
    cases x with
    | none => rfl
    | some k => exact if_neg (by simpa [MemRef.wellFormed] using hm)
  simp only [memRefOf, packN, hind, hx, hra, hindex]

theorem wellFormed_memRefOf (w : Word) : (memRefOf w).wellFormed = true := by
  by_cases hx : xField w = 0 <;> simp [MemRef.wellFormed, memRefOf, hx]

theorem getD_memRefOf_x (w : Word) : (memRefOf w).x.getD 0 = xField w := by
  by_cases hx : xField w = 0#3 <;> simp [memRefOf, hx]

/-- The operation code, the R field and bit 0 are the leading 12 bits. -/
theorem leading_of_fields (w : Word) : BitVec.ofBool (indBit w) ++ opField w ++ rField w = fld w 0 12 :=
  calc BitVec.ofBool (indBit w) ++ opField w ++ rField w
    _ = fld w 0 1 ++ fld w 1 7 ++ fld w 8 4 := by rw [ofBool_indBit]; rfl
    _ = fld w 0 8 ++ fld w 8 4 := congrArg (· ++ fld w 8 4) (fld_append_fld w 0 1 7 (by decide))
    _ = fld w 0 12 := fld_append_fld w 0 8 4 (by decide)

theorem pack_of_fields (w : Word) :
    BitVec.ofBool (indBit w) ++ opField w ++ rField w ++ xField w ++ raField w = w :=
  calc BitVec.ofBool (indBit w) ++ opField w ++ rField w ++ xField w ++ raField w
    _ = fld w 0 12 ++ fld w 12 3 ++ fld w 15 17 := by rw [leading_of_fields]; rfl
    _ = fld w 0 15 ++ fld w 15 17 := congrArg (· ++ fld w 15 17) (fld_append_fld w 0 12 3 (by decide))
    _ = fld w 0 32 := fld_append_fld w 0 15 17 (by decide)
    _ = w := fld_whole w

theorem packN_of_fields (w : Word) : packN (opField w) (rField w) (memRefOf w) = w := by
  rw [packN, getD_memRefOf_x]
  exact pack_of_fields w

theorem packI_of_fields {w : Word} (h : indBit w = false) : packI (opField w) (rField w) (valueField w) = w :=
  calc packI (opField w) (rField w) (valueField w)
    _ = BitVec.ofBool (indBit w) ++ opField w ++ rField w ++ valueField w := by rw [h]; rfl
    _ = fld w 0 12 ++ fld w 12 20 := by rw [leading_of_fields]; rfl
    _ = fld w 0 32 := fld_append_fld w 0 12 20 (by decide)
    _ = w := fld_whole w

/-! ### The tables of operation codes (R140, R142) -/

/-- The 22 operation codes that are not assigned (R141). -/
def unassignedCodes : List (BitVec 7) :=
  [0x00, 0x01, 0x03, 0x0C, 0x0D, 0x14, 0x16, 0x17, 0x26, 0x27, 0x2C, 0x2D, 0x34, 0x42, 0x43, 0x54,
    0x59, 0x5C, 0x5D, 0x5E, 0x5F, 0x62]

/-- The ten operation codes without an indirect form (R141). -/
def directOnlyCodes : List (BitVec 7) := [0x02, 0x20, 0x21, 0x22, 0x23, 0x40, 0x41, 0x60, 0x61, 0x63]

/-- A code of the second table is neither in the first one nor that of MMC. -/
theorem lookup_formatN_of_formatI {op : BitVec 7} {mk : RegNum → BitVec 20 → Instr} (h : formatI.lookup op = some mk) :
    op ≠ mmcCode ∧ formatN.lookup op = none := by
  have htables : ∀ code, (formatI.lookup code).isSome = true → code ≠ mmcCode ∧ formatN.lookup code = none := by
    decide +kernel
  exact htables op (by rw [h]; rfl)

/-- The tables leave out exactly the codes of the two lists. -/
theorem not_in_tables_iff (op : BitVec 7) (ind : Bool) :
    (op ≠ mmcCode ∧ formatN.lookup op = none ∧ (formatI.lookup op = none ∨ ind = true)) ↔
      op ∈ unassignedCodes ∨ (ind = true ∧ op ∈ directOnlyCodes) := by
  revert op ind
  decide +kernel

/-- The encoder packs the instruction of each row of the first table with the code of that row. -/
theorem encode_formatN : ∀ row ∈ formatN, (fun r m => encode (row.2 r m)) = packN row.1 :=
  List.map_inj_left.1 rfl

theorem wellFormed_formatN : ∀ row ∈ formatN, (fun r m => (row.2 r m).wellFormed) = fun _ m => m.wellFormed :=
  List.map_inj_left.1 rfl

/-- The encoder packs the instruction of each row of the second table with the code of that row. -/
theorem encode_formatI : ∀ row ∈ formatI, (fun r v => encode (row.2 r v)) = packI row.1 :=
  List.map_inj_left.1 rfl

theorem wellFormed_formatI : ∀ row ∈ formatI, (fun r v => (row.2 r v).wellFormed) = fun _ _ => true :=
  List.map_inj_left.1 rfl

/-- What a table gives for a code is one of its rows. -/
theorem mem_of_lookup_eq_some {α : Type} {table : List (BitVec 7 × α)} {op : BitVec 7} {mk : α}
    (h : table.lookup op = some mk) : (op, mk) ∈ table := by
  obtain ⟨before, after, rfl, -⟩ := List.lookup_eq_some_iff.1 h
  simp

/-- Every instruction but MMC stands in the row of its code. -/
theorem exists_row (i : Instr) :
    (∃ op mk r m, encode i = packN op r m ∧ i = mk r m ∧ formatN.lookup op = some mk) ∨
    (∃ op mk r v, encode i = packI op r v ∧ i = mk r v ∧ formatI.lookup op = some mk) ∨
    ∃ ind r sel ra, i = .mmc ind r sel ra := by
  cases i with
  | mmc ind r sel ra => exact .inr (.inr ⟨ind, r, sel, ra, rfl⟩)
  | lcfi r v | ai r v | ci r v | li r v | mi r v | ttbs r v | tbs r v | cbs r v | mbs r v | ebs r v =>
    exact .inr (.inl ⟨_, _, r, v, rfl, rfl, rfl⟩)
  | _ r m => exact .inl ⟨_, _, r, m, rfl, rfl, rfl⟩

/-! ### The decoder, format by format -/

section Decoder

variable {w : Word}

theorem decodeWord_mmc (h : opField w = mmcCode) :
    decodeWord w = .ok (.mmc (indBit w) (rField w) (xField w) (raField w)) := by
  rw [decodeWord, if_pos h]

theorem decodeWord_formatN {mk : RegNum → MemRef → Instr} (h : formatN.lookup (opField w) = some mk) :
    decodeWord w = .ok (mk (rField w) (memRefOf w)) := by
  have hmmc : opField w ≠ mmcCode := by
    intro hop
    rw [hop] at h
    cases h
  rw [decodeWord, if_neg hmmc, h]

theorem decodeWord_formatI {mk : RegNum → BitVec 20 → Instr} (h : formatI.lookup (opField w) = some mk) :
    decodeWord w = if indBit w then .error .indirectImmediate else .ok (mk (rField w) (valueField w)) := by
  obtain ⟨hmmc, hN⟩ := lookup_formatN_of_formatI h
  rw [decodeWord, if_neg hmmc, hN, h]

theorem decodeWord_unassigned (hmmc : opField w ≠ mmcCode) (hN : formatN.lookup (opField w) = none)
    (hI : formatI.lookup (opField w) = none) : decodeWord w = .error .unassigned := by
  rw [decodeWord, if_neg hmmc, hN, hI]

/-- Where the decoder finds the instruction of a word. -/
theorem decodeWord_eq_ok {i : Instr} (h : decodeWord w = .ok i) :
    (opField w = mmcCode ∧ i = .mmc (indBit w) (rField w) (xField w) (raField w)) ∨
    (∃ mk, formatN.lookup (opField w) = some mk ∧ i = mk (rField w) (memRefOf w)) ∨
    ∃ mk, formatI.lookup (opField w) = some mk ∧ indBit w = false ∧ i = mk (rField w) (valueField w) := by
  by_cases hmmc : opField w = mmcCode
  · rw [decodeWord_mmc hmmc] at h
    cases h
    exact .inl ⟨hmmc, rfl⟩
  · cases hN : formatN.lookup (opField w) with
    | some mk =>
      rw [decodeWord_formatN hN] at h
      cases h
      exact .inr (.inl ⟨mk, rfl, rfl⟩)
    | none =>
      cases hI : formatI.lookup (opField w) with
      | some mk =>
        rw [decodeWord_formatI hI] at h
        cases hind : indBit w with
        | false =>
          rw [hind] at h
          cases h
          exact .inr (.inr ⟨mk, rfl, rfl, rfl⟩)
        | true =>
          rw [hind] at h
          cases h
      | none =>
        rw [decodeWord_unassigned hmmc hN hI] at h
        cases h

/-- A word is no instruction when no table has its code, or only the second one and bit 0 is 1. -/
theorem exists_decodeWord_eq_error_iff :
    (∃ e, decodeWord w = .error e) ↔
      opField w ≠ mmcCode ∧ formatN.lookup (opField w) = none ∧ (formatI.lookup (opField w) = none ∨ indBit w = true) := by
  by_cases hmmc : opField w = mmcCode
  · simp [decodeWord_mmc hmmc, hmmc]
  · cases hN : formatN.lookup (opField w) with
    | some mk => simp [decodeWord_formatN hN]
    | none =>
      cases hI : formatI.lookup (opField w) with
      | some mk => cases hind : indBit w <;> simp [decodeWord_formatI hI, hind, hmmc]
      | none => simp [decodeWord_unassigned hmmc hN hI, hmmc]

end Decoder

/-! ### Decoding and encoding -/

/-- Settles O1: each instruction is packed with the code of its row, and the decoder finds that row again by the code and
unpacks the same fields. -/
theorem decodeEncode : Obligations.DecodeEncode := by
  intro i hi
  obtain ⟨op, mk, r, m, hw, rfl, hrow⟩ | ⟨op, mk, r, v, hw, rfl, hrow⟩ | ⟨ind, r, sel, ra, rfl⟩ := exists_row i
  · have hwf := congrFun₂ (wellFormed_formatN _ (mem_of_lookup_eq_some hrow)) r m
    obtain ⟨-, hop, hr, -⟩ := fields_pack m.ind op r (m.x.getD 0) m.ra
    have hm := memRefOf_packN op r (hwf.symm.trans hi)
    rw [hw, decodeWord_formatN (by rwa [packN, hop]), hm, packN, hr]
  · obtain ⟨hind, hop, hr, hv⟩ := fields_packI op r v
    rw [hw, decodeWord_formatI (by rwa [hop]), hind, hr, hv]
    rfl
  · obtain ⟨hind, hop, hr, hx, hra⟩ := fields_pack ind mmcCode r sel ra
    rw [encode, packM, decodeWord_mmc hop, hind, hr, hx, hra]

/-- The word an instruction was decoded from is its encoding. -/
theorem encode_of_decodeWord {w : Word} {i : Instr} (h : decodeWord w = .ok i) :
    i.wellFormed = true ∧ encode i = w := by
  obtain ⟨hop, rfl⟩ | ⟨mk, hrow, rfl⟩ | ⟨mk, hrow, hind, rfl⟩ := decodeWord_eq_ok h
  · refine ⟨rfl, ?_⟩
    rw [encode, packM, ← hop, pack_of_fields]
  · have hmem := mem_of_lookup_eq_some hrow
    have hw := congrFun₂ (encode_formatN _ hmem) (rField w) (memRefOf w)
    have hwf := congrFun₂ (wellFormed_formatN _ hmem) (rField w) (memRefOf w)
    exact ⟨hwf.trans (wellFormed_memRefOf w), hw.trans (packN_of_fields w)⟩
  · have hmem := mem_of_lookup_eq_some hrow
    have hw := congrFun₂ (encode_formatI _ hmem) (rField w) (valueField w)
    have hwf := congrFun₂ (wellFormed_formatI _ hmem) (rField w) (valueField w)
    exact ⟨hwf, hw.trans (packI_of_fields hind)⟩

/-! ### Words that are no instruction (R141) -/

theorem exists_decodeWord_eq_error_iff_mem {w : Word} :
    (∃ e, decodeWord w = .error e) ↔
      opField w ∈ unassignedCodes ∨ (indBit w = true ∧ opField w ∈ directOnlyCodes) :=
  exists_decodeWord_eq_error_iff.trans (not_in_tables_iff _ _)

/-- Such a word traps as nonexistent, in slave mode as privileged too if its code is one of four (R135). -/
theorem nonexistentReasons_eq {w : Word} (h : opField w ∈ unassignedCodes ∨ (indBit w = true ∧ opField w ∈ directOnlyCodes))
    (s : State) :
    nonexistentReasons w s =
      if s.psd.ms = true ∧ opField w ∈ ([0x0C, 0x0D, 0x2C, 0x2D] : List (BitVec 7)) then 10 else 8 := by
  have hcodes : ∀ op, op ∈ unassignedCodes ∨ op ∈ directOnlyCodes →
      (op &&& 0x1C = 0x0C ↔ op ∈ ([0x0C, 0x0D, 0x2C, 0x2D] : List (BitVec 7))) := by decide +kernel
  simp only [nonexistentReasons, Bool.and_eq_true, beq_iff_eq, hcodes _ (h.imp_right And.right)]
  split <;> rfl

/-- A word that does not decode is not executed but trapped (R141). -/
theorem execWord_of_error {w : Word} {e : DecodeError} (h : decodeWord w = .error e) (s : State) :
    execWord w s = takeTrap (.nonallowed (nonexistentReasons w s)) s := by
  rw [execWord, h]
  rfl

/-- Settles O2: the tables leave out exactly the listed codes, the trap of such a word has the listed reasons, and what the
decoder takes apart packs to the same word. -/
theorem decodesExactly : Obligations.DecodesExactly := by
  intro w
  refine ⟨exists_decodeWord_eq_error_iff_mem, fun e s he => ?_, fun i => encode_of_decodeWord⟩
  rw [execWord_of_error he, nonexistentReasons_eq (exists_decodeWord_eq_error_iff_mem.1 ⟨e, he⟩)]
  rfl

/-- A word is decoded by writing it as the encoding of its instruction. -/
theorem decodeWord_of_encode {w : Word} {i : Instr} (hi : i.wellFormed = true) (hw : encode i = w) :
    decodeWord w = .ok i :=
  hw ▸ decodeEncode i hi

/-- Settles O3: each word is the encoding of its instruction. -/
theorem decodeWords : Obligations.DecodeWords :=
  ⟨decodeWord_of_encode rfl rfl, decodeWord_of_encode rfl rfl, decodeWord_of_encode rfl rfl,
    decodeWord_of_encode rfl rfl, decodeWord_of_encode rfl rfl, decodeWord_of_encode rfl rfl,
    decodeWord_of_encode rfl rfl, decodeWord_of_encode rfl rfl⟩

/-! ### Traps at decoding (R135, R144) -/

/-- A meaning that begins with the test for master mode, in slave mode. -/
theorem finish_requireMaster {s : State} (hms : s.psd.ms = true) (f : Unit → Except Stop State) :
    finish (requireMaster s >>= f) = takeTrap (.nonallowed 2) s := by
  rw [requireMaster_slave hms, error_bind, finish_trap]

/-- A meaning that begins with the test for an option, where the option is absent. -/
theorem finish_requireOption {present : Bool} (h : present = false) (s : State) (f : Unit → Except Stop State) :
    finish (requireOption present s >>= f) = takeTrap .unimplemented s := by
  rw [h, requireOption_false, error_bind, finish_trap]

/-- Settles O48: the meaning of each listed instruction begins with its test, and nothing precedes it. -/
theorem trapsAtDecoding : Obligations.TrapsAtDecoding := by
  intro r m v ind sel ra s
  refine ⟨fun hms i hi => ?_, fun hfloat i hi => ?_, fun hdecimal i hi => ?_⟩
  · fin_cases hi <;> exact finish_requireMaster hms _
  · fin_cases hi <;> exact finish_requireOption hfloat s _
  · fin_cases hi <;> exact finish_requireOption hdecimal s _

/-! ### Effective addresses (R126 to R130) -/

section Addresses

variable (dra : WordAddr) (d : Word)

/-- A word address in units of bytes or halfwords. -/
theorem toNat_append_zero {w n : Nat} (x : BitVec w) : (x ++ 0#n).toNat = x.toNat * 2 ^ n := by
  simp [BitVec.toNat_append, Nat.shiftLeft_eq]

theorem toNat_addrByte : (addrByte dra d).toNat = (4 * dra.toNat + d.toNat) % 2 ^ 19 := by
  have hdra : (dra ++ 0#2).toNat = dra.toNat * 4 := toNat_append_zero dra
  rw [addrByte, BitVec.toNat_add, BitVec.toNat_setWidth, hdra]
  omega

theorem toNat_addrHalf : (addrHalf dra d).toNat = (2 * dra.toNat + d.toNat) % 2 ^ 18 := by
  have hdra : (dra ++ 0#1).toNat = dra.toNat * 2 := toNat_append_zero dra
  rw [addrHalf, BitVec.toNat_add, BitVec.toNat_setWidth, hdra]
  omega

theorem toNat_addrWord : (addrWord dra d).toNat = (dra.toNat + d.toNat) % 2 ^ 17 := by
  rw [addrWord, BitVec.toNat_add, BitVec.toNat_setWidth]
  omega

theorem toNat_addrDouble : (addrDouble dra d).toNat = (dra.toNat + 2 * d.toNat) % 2 ^ 17 / 2 := by
  rw [addrDouble, toNat_fld, BitVec.toNat_add, BitVec.toNat_shiftLeft, BitVec.toNat_setWidth, Nat.shiftLeft_eq]
  omega

variable {m : MemRef} {s : State}

theorem direct_of_direct (h : m.ind = false) : direct m s = .ok m.ra := by
  simp [direct, directVia, h]

theorem direct_of_indirect {w : Word} (h : m.ind = true) (hw : readWord s m.ra = .ok w) :
    direct m s = .ok (w.setWidth 17) := by
  have hlow : fld w 15 17 = w.setWidth 17 := by
    apply BitVec.eq_of_toNat_eq
    simp [toNat_fld]
  have hread : readVia (programPath s) .operand m.ra s = .ok w := hw
  simp [direct, directVia, h, hread, hlow]

theorem indexOf_some {k : BitVec 3} (h : m.x = some k) : indexOf m s = getReg s (k.setWidth 4) := by
  have hnum : ∀ x : BitVec 3, 0#1 ++ x = x.setWidth 4 := by decide
  simp [indexOf, h, hnum]

end Addresses

/-- Settles O9: each sum as a number, the direct address with and without indirection, the index register, and the four
address forms from the direct address. -/
theorem effectiveAddresses : Obligations.EffectiveAddresses := by
  refine ⟨fun dra d => ⟨toNat_addrByte dra d, toNat_addrHalf dra d, toNat_addrWord dra d, toNat_addrDouble dra d⟩, ?_⟩
  intro m s
  refine ⟨direct_of_direct, fun w => direct_of_indirect, fun k => indexOf_some, fun h => by simp [indexOf, h], ?_⟩
  intro dra h
  simp [eaByte, eaHalf, eaWord, eaDouble, h]

end Sys2Proof.Encoding
end

section
/-! Effects of several updates, and what the outcome of a meaning says of its instruction: `Completes`, `Arithmetic` and the
trap of an operand that cannot be read. -/

namespace Sys2Proof.Safety

open Sys2Proof Machine

variable {s t u : State} {ia ia' : WordAddr} {cc cc' : BitVec 4} {regs regs' : Regs} {bytes bytes' : Bytes}

/-! ### Effects one after another -/

@[simp] theorem firstOf_noRegs : firstOf regs noRegs = regs := by
  funext k
  simp [firstOf, noRegs]

@[simp] theorem firstOf_noBytes : firstOf bytes noBytes = bytes := by
  funext a
  simp [firstOf, noBytes]

theorem SameRest.trans (h : SameRest s t) (h' : SameRest t u) : SameRest s u := by
  refine ⟨fun n hn => (h'.1 n (h.rp ▸ hn)).trans (h.1 n hn), ?_⟩
  have hback := congrArg (fun x : State => { x with
    regs := s.regs, mem := s.mem
    psd := { x.psd with
      cc1 := s.psd.cc1, cc2 := s.psd.cc2, cc3 := s.psd.cc3, cc4 := s.psd.cc4, ia := s.psd.ia } }) h'.2
  exact hback.trans h.2

/-- Of two effects, the second one's writes stand over the first one's. -/
theorem Effect.trans (h : Effect s t ia cc regs bytes) (h' : Effect t u ia' cc' regs' bytes') :
    Effect s u ia' cc' (firstOf regs' regs) (firstOf bytes' bytes) := by
  refine ⟨fun k => ?_, fun a => ?_, h'.cc_eq, h'.ia_eq, h.rest.trans h'.rest⟩
  · rw [h'.1 k, h.1 k, h.rest.blockInstalled, firstOf_getD]
    split <;> rfl
  · rw [h'.2.1 a, h.2.1 a, firstOf_getD]

theorem Effect.getReg_unwritten (h : Effect s t ia cc regs bytes) {k : RegNum} (hk : regs k = none) :
    getReg t k = getReg s k := by
  rw [h.1 k, hk]
  exact ite_self _

/-- The registers written may be said with the values they then hold. -/
theorem Effect.ownValues {written : RegNum → Prop} [DecidablePred written] (h : Effect s t ia cc regs bytes)
    (hw : ∀ k, ¬ written k → regs k = none) :
    Effect s t ia cc (fun k => if written k then some (getReg t k) else none) bytes := by
  refine ⟨fun k => ?_, h.2⟩
  beta_reduce
  by_cases hb : blockInstalled s = true
  · by_cases hk : written k
    · simp [hb, hk]
    · simp [hb, hk, h.getReg_unwritten (hw k hk)]
  · rw [h.1 k, if_neg hb, if_neg hb]

/-! ### One store from the beginning -/

theorem effect_setReg (s : State) (r : RegNum) (v : Word) :
    Effect s (Machine.setReg s r v) s.psd.ia (ccBits s.psd) (oneReg r v) noBytes := by
  simpa using (effect_refl s).setReg r v

theorem effect_setPair (s : State) (r : RegNum) (d : Double) :
    Effect s (Machine.setPair s r d) s.psd.ia (ccBits s.psd) (pairRegs r d) noBytes :=
  (effect_setReg s (ru1 r) (loWord d)).setReg r (hiWord d)

theorem effect_locSetWord (s : State) (l : Loc) (w : Word) :
    Effect s (Machine.locSetWord s l w) s.psd.ia (ccBits s.psd) (locRegs l w) (locBytes l w) := by
  simpa using (effect_refl s).locSetWord l w

/-- A change of core memory alone. -/
theorem effect_mem {m : List Host.Cell} (h : ∀ a, memByte m a = (bytes a).getD (memByte s.mem a)) :
    Effect s { s with mem := m } s.psd.ia (ccBits s.psd) noRegs bytes := by
  refine ⟨fun k => ?_, h, rfl, rfl, sameRest_mem (sameRest_refl s) m⟩
  simp [noRegs, getReg_congr (s := s) (t := { s with mem := m }) k rfl rfl rfl]

theorem effect_locSetByte (s : State) (l : Loc) (k : BitVec 2) (b : Byte) :
    Effect s (Machine.locSetByte s l k b) s.psd.ia (ccBits s.psd) (locRegsByte s l k b) (locBytesByte l k b) := by
  cases l with
  | reg r => exact effect_setReg s r _
  | core a =>
    refine effect_mem fun n => ?_
    rw [memByte_memPut]
    by_cases hn : n = 4 * a.toNat + k.toNat <;> simp [locBytesByte, hn]

theorem effect_locSetHalf (s : State) (l : Loc) (k : Bool) (v : Half) :
    Effect s (Machine.locSetHalf s l k v) s.psd.ia (ccBits s.psd) (locRegsHalf s l k v) (locBytesHalf l k v) := by
  cases l with
  | reg r => exact effect_setReg s r _
  | core a =>
    refine effect_mem fun n => ?_
    simp only [memByte_memPut, locBytesHalf]
    generalize hb : 4 * a.toNat + (if k then 2 else 0) = b
    have hhalf : 2 * a.toNat + (if k then 1 else 0) = b / 2 ∧ b % 2 = 0 := by
      cases k <;> simp at hb ⊢ <;> omega
    obtain ⟨hhalf, heven⟩ := hhalf
    rw [hhalf]
    obtain rfl | rfl | hout : n = b ∨ n = b + 1 ∨ n / 2 ≠ b / 2 := by omega
    · simp [heven]
    · have hquot : (b + 1) / 2 = b / 2 := by omega
      have hrem : (b + 1) % 2 = 1 := by omega
      simp [hquot, hrem]
    · have h0 : n ≠ b := fun h => hout (by rw [h])
      have h1 : n ≠ b + 1 := fun h => hout (by omega)
      simp [h0, h1, hout]

/-! ### The flags of a complement and of an absolute value -/

theorem isMostNegative_iff {n : Nat} {v : BitVec n} : isMostNegative v = true ↔ v = BitVec.intMin n := by
  simp [isMostNegative]

theorem absolute_eq_abs {n : Nat} (v : BitVec n) : absolute v = v.abs := rfl

theorem toInt_absolute {n : Nat} {v : BitVec n} (h : v ≠ BitVec.intMin n) : (absolute v).toInt = v.toInt.natAbs := by
  rw [absolute_eq_abs, BitVec.toInt_abs_eq_natAbs, if_neg h]

theorem toNat_absolute {n : Nat} {v : BitVec n} (h : v ≠ BitVec.intMin n) : (absolute v).toNat = v.toInt.natAbs := by
  have hint := toInt_absolute h
  have hmsb : (absolute v).msb = false := by simp [msb_iff, hint]
  rw [BitVec.toInt_eq_toNat_of_msb hmsb] at hint
  exact_mod_cast hint

/-- The absolute value as a number, the most negative one included. -/
theorem absolute_eq_ofNat {n : Nat} (v : BitVec n) : absolute v = BitVec.ofNat n v.toInt.natAbs := by
  have hsign := msb_iff v
  rw [← BitVec.ofInt_natCast, absolute]
  cases h : v.msb
  · have hnat : (v.toInt.natAbs : Int) = v.toInt := Int.natAbs_of_nonneg (by simpa [h] using hsign)
    rw [hnat, BitVec.ofInt_toInt]
    rfl
  · have hneg : v.toInt < 0 := by simpa [h] using hsign
    rw [Int.ofNat_natAbs_of_nonpos (Int.le_of_lt hneg), BitVec.ofInt_neg, BitVec.ofInt_toInt]
    rfl

/-- The sign of a number is all that `ccSign` reads. -/
theorem ccSign_of_neg {a b : Bool} {x : Int} (h : x < 0) : ccSign a b x = ccSign a b (-1) := by
  have hpos : ¬ 0 < x := by omega
  simp [ccSign, h, hpos]

theorem toInt_intMin_neg {n : Nat} (hn : 0 < n) : (BitVec.intMin n).toInt < 0 := by
  rw [BitVec.toInt_intMin_of_pos hn]
  have : (0 : Int) < 2 ^ (n - 1) := by positivity
  omega

theorem Effect.complementFlags {n : Nat} (hn : 0 < n) (h : Effect s t ia cc regs bytes) (v : BitVec n) :
    Effect s (Machine.complementFlags v t) ia
      (ccSign t.psd.cc1 (v == BitVec.intMin n) (if v = BitVec.intMin n then -1 else -v.toInt)) regs bytes := by
  refine ((h.setCc2 (isMostNegative v)).test34 (-v)).as rfl ?_ (fun _ => rfl) (fun _ => rfl)
  by_cases hv : v = BitVec.intMin n
  · rw [if_pos hv, hv, BitVec.neg_intMin]
    exact ccSign_of_neg (toInt_intMin_neg hn)
  · rw [if_neg hv, BitVec.toInt_neg_of_ne_intMin hv]
    rfl

theorem Effect.absoluteFlags {n : Nat} (h : Effect s t ia cc regs bytes) (v : BitVec n) :
    Effect s (Machine.absoluteFlags v t) ia
      (ccSign t.psd.cc1 (v == BitVec.intMin n) (if v = BitVec.intMin n then -1 else v.toInt.natAbs)) regs bytes := by
  unfold Machine.absoluteFlags
  by_cases hv : v = BitVec.intMin n
  · rw [if_pos (isMostNegative_iff.2 hv), if_pos hv]
    exact ((h.setCc2 true).setCc34 false true).as rfl (by simp [ccSign, Machine.setCc2, hv]) (fun _ => rfl) (fun _ => rfl)
  · rw [if_neg (mt isMostNegative_iff.1 hv), if_neg hv]
    refine ((h.setCc2 false).testNonzero (absolute v)).as rfl ?_ (fun _ => rfl) (fun _ => rfl)
    have hcc2 : (v == BitVec.intMin n) = false := by simpa using hv
    rw [toNat_absolute hv, hcc2]
    rfl

/-! ### From the outcome of a meaning to its instruction -/

section Outcome

variable {α : Type} {i : Instr} {x : Except Stop α} {f : α → Except Stop State} {a : α}

/-- An instruction whose first part answers goes on with the rest. -/
theorem exec_of_ok (hexec : exec i s = finish (x >>= f)) (hx : x = .ok a) (hf : f a = .ok t) : exec i s = .next t := by
  rw [hexec, hx, ok_bind, hf, finish_ok]

theorem completes_of_ok (hexec : exec i s = finish (x >>= f)) (hx : x = .ok a) (hf : f a = .ok t)
    (ht : Effect s t ia cc regs bytes) : Completes i s ia cc regs bytes :=
  ⟨t, exec_of_ok hexec hx hf, ht⟩

/-- An instruction whose first part raises a trap takes it. -/
theorem exec_of_trap {c : TrapCause} (hexec : exec i s = finish (x >>= f)) (hx : x = .error (.trap c t)) :
    exec i s = takeTrap c t := by
  rw [hexec, hx, error_bind, finish_trap]

/-- An instruction that ends with the test for the overflow trap (41_fixed_point R212). -/
theorem arithmetic_of_overflowTrap {b : Bool} {bad : Prop} (hexec : exec i s = finish (x >>= f)) (hx : x = .ok a)
    (hf : f a = overflowTrap b t) (hb : b = true ↔ bad) (ht : Effect s t s.psd.ia cc regs bytes) :
    Arithmetic i s bad cc regs bytes := by
  have hend : exec i s = finish (overflowTrap b t) := by rw [hexec, hx, ok_bind, hf]
  have ham : t.psd.am = s.psd.am := ht.rest.am
  have hnext (h : b = true → t.psd.am = false) : Completes i s s.psd.ia cc regs bytes :=
    ⟨t, by rw [hend, overflowTrap_ok h, finish_ok], ht⟩
  refine ⟨fun hgood => hnext fun h => absurd (hb.1 h) hgood, fun hbad => ⟨fun hmasked => ?_, fun hunmasked => ?_⟩⟩
  · exact hnext fun _ => ham.trans hmasked
  · exact ⟨t, by rw [hend, hb.2 hbad, overflowTrap_trap (ham.trans hunmasked), finish_trap], ht⟩

end Outcome

end Sys2Proof.Safety
end

section
/-! Operands that cannot be read, and the loads (40_load_store_analyze R161 to R175). -/

namespace Sys2Proof.LoadStore

open Sys2Proof Machine Safety Encoding

variable {s : State} {m : MemRef}

/-! ### Operands that cannot be read -/

section Unreadable

variable {α β : Type} {x : Except Stop α}

/-- The answer, if it is a stop, is the trap to X'40' with nothing changed since `s`. -/
def StopsNonallowed (s : State) (x : Except Stop α) : Prop :=
  ∀ e, x = .error e → ∃ reasons, e = .trap (.nonallowed reasons) s

theorem StopsNonallowed.ok {a : α} : StopsNonallowed s (.ok a) := by
  intro e he
  cases he

theorem StopsNonallowed.bind {f : α → Except Stop β} (hx : StopsNonallowed s x) (hf : ∀ a, StopsNonallowed s (f a)) :
    StopsNonallowed s (x >>= f) := by
  intro e he
  obtain he | ⟨a, -, he⟩ := bind_eq_error.1 he
  · exact hx e he
  · exact hf a e he

theorem stopsNonallowed_readVia {p : Path} {k : Access} {va : WordAddr} : StopsNonallowed s (readVia p k va s) :=
  .bind (fun _ he => ⟨_, (locate_eq_error he).1⟩) fun _ => .ok

theorem stopsNonallowed_readWord {a : WordAddr} : StopsNonallowed s (readWord s a) := stopsNonallowed_readVia

theorem stopsNonallowed_direct : StopsNonallowed s (direct m s) := by
  unfold direct directVia
  split
  · exact .bind stopsNonallowed_readVia fun _ => .ok
  · exact .ok

theorem stopsNonallowed_operandByte : StopsNonallowed s (operandByte m s) :=
  .bind (.bind stopsNonallowed_direct fun _ => .ok) fun _ => .bind stopsNonallowed_readWord fun _ => .ok

theorem stopsNonallowed_operandHalf : StopsNonallowed s (operandHalf m s) :=
  .bind (.bind stopsNonallowed_direct fun _ => .ok) fun _ => .bind stopsNonallowed_readWord fun _ => .ok

theorem stopsNonallowed_operandWord : StopsNonallowed s (operandWord m s) :=
  .bind (.bind stopsNonallowed_direct fun _ => .ok) fun _ => stopsNonallowed_readWord

theorem stopsNonallowed_operandDouble : StopsNonallowed s (operandDouble m s) :=
  .bind (.bind stopsNonallowed_direct fun _ => .ok) fun _ =>
    .bind stopsNonallowed_readWord fun _ => .bind stopsNonallowed_readWord fun _ => .ok

/-- An instruction that begins with an operand takes the trap of the operand. -/
theorem StopsNonallowed.takesTrap {i : Instr} {f : α → Except Stop State} {e : Stop} (h : StopsNonallowed s x)
    (hexec : exec i s = finish (x >>= f)) (he : x = .error e) :
    ∃ reasons, e = .trap (.nonallowed reasons) s ∧ exec i s = takeTrap (.nonallowed reasons) s := by
  obtain ⟨reasons, rfl⟩ := h e he
  exact ⟨reasons, rfl, exec_of_trap hexec he⟩

end Unreadable

/-- A word with bit 0 set and a code that has no indirect form is trapped as nonexistent (30_encoding R141). -/
theorem execWord_of_indirect {w : Word} (hop : opField w ∈ directOnlyCodes) (hind : w.getMsbD 0 = true) (s : State) :
    execWord w s = takeTrap (.nonallowed 8) s := by
  have hcodes : ∀ op ∈ directOnlyCodes, op ∉ ([0x0C, 0x0D, 0x2C, 0x2D] : List (BitVec 7)) := by decide
  have hmem : opField w ∈ unassignedCodes ∨ (indBit w = true ∧ opField w ∈ directOnlyCodes) := .inr ⟨hind, hop⟩
  obtain ⟨e, he⟩ := exists_decodeWord_eq_error_iff_mem.2 hmem
  rw [execWord_of_error he, nonexistentReasons_eq hmem, if_neg fun h => hcodes _ hop h.2]

/-! ### Loads -/

/-- A register is loaded and its sign tested. -/
theorem effect_load (s : State) (r : RegNum) (v : Word) :
    Effect s (test34 v (setReg s r v)) s.psd.ia (ccSign s.psd.cc1 s.psd.cc2 v.toInt) (oneReg r v) noBytes := by
  simpa using (effect_setReg s r v).test34 v

/-- A register is loaded and the operand, a number that is not negative, tested. -/
theorem effect_loadUnsigned (s : State) (r : RegNum) (v : Word) {n : Nat} (b : BitVec n) :
    Effect s (testNonzero b (setReg s r v)) s.psd.ia (ccSign s.psd.cc1 s.psd.cc2 b.toNat) (oneReg r v) noBytes := by
  simpa using (effect_setReg s r v).testNonzero b

theorem effect_loadPair (s : State) (r : RegNum) (d : Double) :
    Effect s (test34 d (setPair s r d)) s.psd.ia (ccSign s.psd.cc1 s.psd.cc2 d.toInt) (pairRegs r d) noBytes := by
  simpa using (effect_setPair s r d).test34 d

theorem toInt_signExtend_half (v : Half) : (v.signExtend 32).toInt = v.toInt :=
  BitVec.toInt_signExtend_of_le (by decide)

/-- A halfword is never the most negative word. -/
theorem signExtend_half_ne_intMin (v : Half) : v.signExtend 32 ≠ BitVec.intMin 32 := by
  intro h
  have hint : (v.signExtend 32).toInt = -2 ^ 31 := by rw [h]; decide
  rw [toInt_signExtend_half] at hint
  have hle : -2 ^ 15 ≤ v.toInt := BitVec.le_toInt v
  omega

theorem completes_lch {r : RegNum} {v : Half} (hv : operandHalf m s = .ok v) :
    Completes (.lch r m) s s.psd.ia (ccSign s.psd.cc1 s.psd.cc2 (-v.toInt)) (oneReg r (BitVec.ofInt 32 (-v.toInt)))
      noBytes := by
  have hint : (-v.signExtend 32).toInt = -v.toInt := by
    rw [BitVec.toInt_neg_of_ne_intMin (signExtend_half_ne_intMin v), toInt_signExtend_half]
  rw [← hint, BitVec.ofInt_toInt]
  exact completes_of_ok rfl hv rfl (effect_load s r _)

theorem completes_lah {r : RegNum} {v : Half} (hv : operandHalf m s = .ok v) :
    Completes (.lah r m) s s.psd.ia (ccSign s.psd.cc1 s.psd.cc2 v.toInt.natAbs)
      (oneReg r (BitVec.ofNat 32 v.toInt.natAbs)) noBytes := by
  have hnat : (absolute (v.signExtend 32)).toNat = v.toInt.natAbs := by
    rw [toNat_absolute (signExtend_half_ne_intMin v), toInt_signExtend_half]
  rw [← hnat, BitVec.ofNat_toNat, BitVec.setWidth_eq]
  exact completes_of_ok rfl hv rfl (effect_loadUnsigned s r _ _)

/-- Settles O14: each load is its operand, which reads or traps with nothing changed, and then one store to R or the pair
with the test of the loaded value. -/
theorem loads : Obligations.Loads := by
  intro r m s p
  refine ⟨fun v => ?_, fun w hop hind => ?_, fun v hv => ?_, fun v hv => ?_, fun v hv => ?_, fun v hv => ?_,
    fun v hv => completes_lch hv, fun v hv => completes_lah hv, fun e he => ?_, fun e he => ?_, fun e he => ?_,
    fun e he => ?_⟩
  · have hint : (v.signExtend 32).toInt = v.toInt := BitVec.toInt_signExtend_of_le (by decide)
    rw [← hint]
    exact ⟨_, rfl, effect_load s r _⟩
  · have hmem : opField w ∈ directOnlyCodes := by rw [show opField w = 0x22 from hop]; decide
    exact execWord_of_indirect hmem hind s
  · exact completes_of_ok rfl hv rfl (effect_loadUnsigned s r _ v)
  · rw [← toInt_signExtend_half]
    exact completes_of_ok rfl hv rfl (effect_load s r _)
  · exact completes_of_ok rfl hv rfl (effect_load s r v)
  · exact completes_of_ok rfl hv rfl (effect_loadPair s r v)
  · exact stopsNonallowed_operandByte.takesTrap rfl he
  · obtain ⟨reasons, rfl⟩ := stopsNonallowed_operandHalf e he
    refine ⟨reasons, rfl, fun i hi => ?_⟩
    fin_cases hi <;> exact exec_of_trap rfl he
  · exact stopsNonallowed_operandWord.takesTrap rfl he
  · exact stopsNonallowed_operandDouble.takesTrap rfl he

/-! ### Complements and absolute values -/

/-- Settles O15: a store of the complement or the absolute value, its flags, and the test for the overflow trap, for words
and for doublewords. -/
theorem complementAndAbsolute : Obligations.ComplementAndAbsolute := by
  intro r m s p
  have hword : (0x80000000 : Word) = BitVec.intMin 32 := rfl
  have hdouble : (0x8000000000000000 : Double) = BitVec.intMin 64 := rfl
  refine ⟨fun v hv => ?_, fun v hv => ?_⟩
  · rw [hword, ← absolute_eq_ofNat]
    refine ⟨arithmetic_of_overflowTrap rfl hv rfl isMostNegative_iff ?_,
      arithmetic_of_overflowTrap rfl hv rfl isMostNegative_iff ?_⟩
    · simpa using (effect_setReg s r (-v)).complementFlags (by decide) v
    · simpa using (effect_setReg s r (absolute v)).absoluteFlags v
  · rw [hdouble, ← absolute_eq_ofNat]
    refine ⟨arithmetic_of_overflowTrap rfl hv rfl isMostNegative_iff ?_,
      arithmetic_of_overflowTrap rfl hv rfl isMostNegative_iff ?_⟩
    · simpa using (effect_setPair s r (-v)).complementFlags (by decide) v
    · simpa using (effect_setPair s r (absolute v)).absoluteFlags v

end Sys2Proof.LoadStore
end

section
/-! LS, INT, ANLZ, LCFI and LCF (40_load_store_analyze R172, R174, R175, R190, R191). -/

namespace Sys2Proof.LoadStore

open Sys2Proof Machine Safety

variable {s t : State} {m : MemRef}

/-! ### Selection by a mask -/

theorem getMsbD_select (mask new old : Word) {k : Nat} (hk : k < 32) :
    (select mask new old).getMsbD k = if mask.getMsbD k then new.getMsbD k else old.getMsbD k := by
  simp only [select, BitVec.getMsbD_or, BitVec.getMsbD_and, BitVec.getMsbD_not, hk, decide_true, Bool.true_and]
  cases mask.getMsbD k <;> simp

/-- The word of LS and STS, bit by bit: the mask in Ru1 selects, unless R is odd (R172, R181). -/
theorem eq_masked {r : RegNum} {mask new old odd x : Word}
    (hx : ∀ k < 32, x.getMsbD k = if r.getLsbD 0 then odd.getMsbD k
      else if mask.getMsbD k then new.getMsbD k else old.getMsbD k) :
    x = if isOdd r then odd else select mask new old := by
  apply BitVec.eq_of_getMsbD_eq
  intro k hk
  rw [hx k hk, isOdd]
  cases r.getLsbD 0
  · exact (getMsbD_select mask new old hk).symm
  · rfl

theorem effect_interpret (s : State) (r : RegNum) (left right : Word) (cc : BitVec 4) :
    Effect s (setCc (setReg (setReg s r left) (ru1 r) right) cc) s.psd.ia cc
      (firstOf (oneReg (ru1 r) right) (oneReg r left)) noBytes :=
  ((effect_setReg s r left).setReg (ru1 r) right).setCc cc

/-! ### The addressing types of ANLZ -/

theorem fld_fld {w a k b n : Nat} (v : BitVec w) (hk : a + k ≤ n) (hn : b + n ≤ w) :
    fld (fld v b n) a k = fld v (b + a) k := by
  apply BitVec.eq_of_getLsbD_eq
  intro i hi
  have hin : n - (a + k) + i < n := by omega
  have hbit : w - (b + n) + (n - (a + k) + i) = w - (b + a + k) + i := by omega
  simp only [getLsbD_fld, hin, hbit, decide_true, Bool.true_and]

/-- The addressing type by the column and the row of the code in the map of operation codes (30_encoding R145). -/
theorem addressType_eq (w : Word) :
    addressType (opField w) =
      if fld w 3 5 < (4 : BitVec 5) then (if fld w 1 2 < (2 : BitVec 2) then .immediateWord else .immediateByte)
      else if fld w 1 2 = (1 : BitVec 2) ∨ fld w 3 5 < (8 : BitVec 5) ∨
          (fld w 3 5 < (16 : BitVec 5) ∧ fld w 1 2 ≠ (0 : BitVec 2)) then .word
      else if fld w 1 2 = (0 : BitVec 2) then .double
      else if fld w 1 2 = (2 : BitVec 2) then .half else .byte := by
  have hcolumn : fld (opField w) 0 2 = fld w 1 2 := fld_fld w (by decide) (by decide)
  have hrow : fld (opField w) 2 5 = fld w 3 5 := fld_fld w (by decide) (by decide)
  rw [addressType, hcolumn, hrow]
  generalize (fld w 1 2 : BitVec 2) = column
  generalize (fld w 3 5 : BitVec 5) = row
  revert column row
  decide

/-- All four flags of ANLZ come from the type and the indirect bit. -/
theorem effect_analyzeFlags {ia : WordAddr} {cc : BitVec 4} {regs : Regs} {bytes : Bytes} (h : Effect s t ia cc regs bytes)
    (k : AddressType) (ind : Bool) :
    Effect s (analyzeFlags k ind t) ia (ccBits (analyzeFlags k ind s).psd) regs bytes := by
  cases k <;> exact (h.setCc34 _ _).setCc12 _ _

theorem completes_anlz_immediate {r : RegNum} {v : Word} {k : AddressType} (hv : operandWord m s = .ok v)
    (hk : addressType (opField v) = k) (htype : isImmediateType k = true) :
    Completes (.anlz r m) s s.psd.ia (ccBits (analyzeFlags k (v.getMsbD 0) s).psd) noRegs noBytes := by
  subst hk
  exact completes_of_ok rfl hv (if_pos htype) (effect_analyzeFlags (effect_refl s) _ _)

theorem completes_anlz_address {r : RegNum} {v : Word} {dra : WordAddr} {k : AddressType} (hv : operandWord m s = .ok v)
    (hdra : direct (memRefOf v) s = .ok dra) (hk : addressType (opField v) = k) (htype : isImmediateType k = false) :
    Completes (.anlz r m) s s.psd.ia (ccBits (analyzeFlags k (v.getMsbD 0) s).psd)
      (oneReg r (analyzedAddress k dra (indexOf (memRefOf v) s))) noBytes := by
  subst hk
  refine completes_of_ok rfl hv ?_ (effect_analyzeFlags (effect_setReg s r _) _ _)
  rw [if_neg (by simp [htype]), hdra]
  rfl

/-- Settles O16: LS loads the selected word, INT stores its two parts and CC, and ANLZ goes by the type of the code. -/
theorem selectInterpretAnalyze : Obligations.SelectInterpretAnalyze := by
  intro r m s v hv p
  refine ⟨fun x hx => ?_, ?_, fun himm => ?_, fun dra himm hdra => ?_⟩
  · simp only [← BitVec.getMsbD_and] at hx
    rw [eq_masked hx]
    exact completes_of_ok rfl hv rfl (effect_load s r _)
  · exact completes_of_ok rfl hv rfl (effect_interpret s r _ _ _)
  · have hrow : addressType (opField v) = if fld v 1 2 < (2 : BitVec 2) then .immediateWord else .immediateByte := by
      rw [addressType_eq, if_pos himm]
    by_cases hcolumn : fld v 1 2 < (2 : BitVec 2)
    · rw [decide_eq_true hcolumn]
      exact completes_anlz_immediate (k := .immediateWord) hv (by rw [hrow, if_pos hcolumn]) rfl
    · rw [decide_eq_false hcolumn]
      exact completes_anlz_immediate (k := .immediateByte) hv (by rw [hrow, if_neg hcolumn]) rfl
  · intro d half word
    have hrow : addressType (opField v) = if word then .word else if fld v 1 2 = (0 : BitVec 2) then .double
        else if fld v 1 2 = (2 : BitVec 2) then .half else .byte := by
      rw [addressType_eq, if_neg himm]
    refine ⟨fun hword => ?_, fun hword hcolumn => ?_, fun hword hcolumn => ?_, fun hword hcolumn => ?_⟩
    · exact completes_anlz_address (k := .word) hv hdra (by rw [hrow, if_pos hword]) rfl
    · exact completes_anlz_address (k := .double) hv hdra (by rw [hrow, if_neg hword, hcolumn]; rfl) rfl
    · exact completes_anlz_address (k := .half) hv hdra (by rw [hrow, if_neg hword, hcolumn]; rfl) rfl
    · exact completes_anlz_address (k := .byte) hv hdra (by rw [hrow, if_neg hword, hcolumn]; rfl) rfl

/-! ### Loading the condition code and the floating controls -/

/-- CC is loaded if bit 10 of the instruction is set, the floating controls if bit 11 is. -/
theorem loadModes_spec (s : State) (r cc : BitVec 4) (f : BitVec 3) :
    let t := if r.getMsbD 2 then setCc s cc else s
    let u := if r.getMsbD 3 then setFloatMode t f else t
    { u with psd := s.psd } = s ∧
      psw1 u.psd = psw1 { (if r.getLsbD 1 then (setCc s cc).psd else s.psd) with
        fs := if r.getLsbD 0 then f.getLsbD 2 else s.psd.fs
        fz := if r.getLsbD 0 then f.getLsbD 1 else s.psd.fz
        fn := if r.getLsbD 0 then f.getLsbD 0 else s.psd.fn } ∧
      psw2 u.psd = psw2 s.psd := by
  have hcc : r.getMsbD 2 = r.getLsbD 1 := rfl
  have hfloat : r.getMsbD 3 = r.getLsbD 0 := rfl
  rw [hcc, hfloat]
  cases r.getLsbD 1 <;> cases r.getLsbD 0 <;> exact ⟨rfl, rfl, rfl⟩

/-- Settles O17: both instructions load the modes, LCF from its operand. -/
theorem loadConditions : Obligations.LoadConditions := by
  intro r s
  refine ⟨fun v => ?_, fun w hop hind => ?_, fun m v hv => ?_, fun m e he => stopsNonallowed_operandByte.takesTrap rfl he⟩
  · have hmodes := loadModes_spec s r (fld v 12 4) (fld v 17 3)
    simp only [getLsbD_fld] at hmodes
    exact ⟨_, rfl, hmodes⟩
  · have hmem : opField w ∈ Encoding.directOnlyCodes := by rw [show opField w = 0x02 from hop]; decide
    exact execWord_of_indirect hmem hind s
  · have hmodes := loadModes_spec s r (fld v 0 4) (fld v 5 3)
    simp only [getLsbD_fld] at hmodes
    exact ⟨_, exec_of_ok rfl hv rfl, hmodes⟩

end Sys2Proof.LoadStore
end

section
/-! The stores (40_load_store_analyze R176 to R181, R183). -/

namespace Sys2Proof.LoadStore

open Sys2Proof Machine Safety

variable {s : State} {r : RegNum} {m : MemRef} {l : Loc}

/-! ### The stored parts and the test of STH -/

theorem fld_low {w n a : Nat} (v : BitVec w) (h : a + n = w) : fld v a n = v.setWidth n := by
  apply BitVec.eq_of_toNat_eq
  simp [toNat_fld, h]

/-- The leading byte of the PSD image: CC, an undefined bit, FS, FZ and FN (R183, D3). -/
theorem conditionByte_eq (p : Psd) : conditionByte p = ccBits p ++ ccOf false p.fs p.fz p.fn := by
  have hbyte : conditionByte p = ccBits p ++ 0#1 ++ BitVec.ofBool p.fs ++ BitVec.ofBool p.fz ++ BitVec.ofBool p.fn := by
    simp (disch := decide) only [conditionByte, psw1, Encoding.fld_append_of_le]
    exact Encoding.fld_whole _
  rw [hbyte]
  generalize ccBits p = cc
  generalize p.fs = fs
  generalize p.fz = fz
  generalize p.fn = fn
  revert cc fs fz fn
  decide

/-- The leading 17 bits are alike exactly when the word is a sign-extended halfword. -/
theorem exceedsHalf_eq (w : Word) : exceedsHalf w = decide (w.toInt < -32768 ∨ 32767 < w.toInt) := by
  have hzero : fld w 0 17 = (0#17) ↔ w.toNat < 2 ^ 15 := by
    rw [← BitVec.toNat_inj, toNat_fld]
    simp
    omega
  have hones : fld w 0 17 = BitVec.allOnes 17 ↔ 2 ^ 32 - 2 ^ 15 ≤ w.toNat := by
    rw [← BitVec.toNat_inj, toNat_fld]
    simp
    omega
  have hint := BitVec.toInt_eq_toNat_cond w
  have hlt := w.isLt
  rw [← Bool.not_inj_iff, exceedsHalf, Bool.not_not, ← decide_not, Bool.eq_iff_iff]
  simp only [Bool.or_eq_true, beq_iff_eq, decide_eq_true_eq, hzero, hones, hint]
  split <;> omega

/-! ### The instructions -/

theorem completes_stb {a : ByteAddr} (ha : eaByte m s = .ok a)
    (hl : locate (programPath s) .write (fld a 0 17) s = .ok l) :
    Completes (.stb r m) s s.psd.ia (ccBits s.psd) (locRegsByte s l (fld a 17 2) ((getReg s r).setWidth 8))
      (locBytesByte l (fld a 17 2) ((getReg s r).setWidth 8)) := by
  rw [← fld_low (a := 24) (getReg s r) rfl]
  exact completes_of_ok rfl ha (writeByte_ok hl) (effect_locSetByte s l _ _)

theorem completes_stcf {a : ByteAddr} (ha : eaByte m s = .ok a)
    (hl : locate (programPath s) .write (fld a 0 17) s = .ok l) :
    Completes (.stcf r m) s s.psd.ia (ccBits s.psd)
      (locRegsByte s l (fld a 17 2) (ccBits s.psd ++ ccOf false s.psd.fs s.psd.fz s.psd.fn))
      (locBytesByte l (fld a 17 2) (ccBits s.psd ++ ccOf false s.psd.fs s.psd.fz s.psd.fn)) := by
  rw [← conditionByte_eq]
  exact completes_of_ok rfl ha (writeByte_ok hl) (effect_locSetByte s l _ _)

theorem completes_sth {a : BitVec 18} (ha : eaHalf m s = .ok a)
    (hl : locate (programPath s) .write (fld a 0 17) s = .ok l) :
    let v := getReg s r
    let stored := locRegsHalf s l (a.getLsbD 0) (v.setWidth 16)
    let x : Word := if blockInstalled s then (stored r).getD v else v
    Completes (.sth r m) s s.psd.ia
      (ccOf s.psd.cc1 (decide (x.toInt < -32768 ∨ 32767 < x.toInt)) s.psd.cc3 s.psd.cc4)
      stored (locBytesHalf l (a.getLsbD 0) (v.setWidth 16)) := by
  intro v stored x
  have hstore := effect_locSetHalf s l (a.getLsbD 0) (v.setWidth 16)
  have hx : getReg (locSetHalf s l (a.getLsbD 0) (v.setWidth 16)) r = x := hstore.1 r
  have hend := hstore.setCc2 (exceedsHalf x)
  rw [locSetHalf_psd, exceedsHalf_eq] at hend
  have hpart : fld (getReg s r) 16 16 = v.setWidth 16 := fld_low _ rfl
  refine completes_of_ok rfl ha ?_ hend
  rw [hpart, writeHalf_ok hl, ok_bind, hx, exceedsHalf_eq]

theorem completes_stw {a : WordAddr} (ha : eaWord m s = .ok a) (hl : locate (programPath s) .write a s = .ok l) :
    Completes (.stw r m) s s.psd.ia (ccBits s.psd) (locRegs l (getReg s r)) (locBytes l (getReg s r)) :=
  completes_of_ok rfl ha (writeWord_ok hl) (effect_locSetWord s l _)

theorem completes_xw {a : WordAddr} {w : Word} (ha : eaWord m s = .ok a) (hw : readWord s a = .ok w)
    (hl : locate (programPath s) .write a s = .ok l) :
    Completes (.xw r m) s s.psd.ia (ccSign s.psd.cc1 s.psd.cc2 w.toInt)
      (firstOf (oneReg r w) (locRegs l (getReg s r))) (locBytes l (getReg s r)) := by
  refine completes_of_ok rfl ha ?_ (by simpa using ((effect_locSetWord s l (getReg s r)).setReg r w).test34 w)
  rw [hw, ok_bind, writeWord_ok hl]
  rfl

theorem completes_sts {a : WordAddr} {w x : Word} (ha : eaWord m s = .ok a) (hw : readWord s a = .ok w)
    (hl : locate (programPath s) .write a s = .ok l)
    (hx : x = if isOdd r then getReg s r ||| w else select (getReg s (ru1 r)) (getReg s r) w) :
    Completes (.sts r m) s s.psd.ia (ccBits s.psd) (locRegs l x) (locBytes l x) := by
  refine completes_of_ok rfl ha ?_ (effect_locSetWord s l x)
  rw [hw, ok_bind, ← hx, writeWord_ok hl]

/-- The two words of a doubleword, the second one located after the first store. -/
theorem writeDouble_ok {a : BitVec 16} {l0 l1 : Loc} (h0 : locate (programPath s) .write (a ++ 0#1) s = .ok l0)
    (h1 : locate (programPath s) .write (a ++ 1#1) s = .ok l1) (hi lo : Word) :
    writeDouble s a hi lo = .ok (locSetWord (locSetWord s l0 hi) l1 lo) := by
  have hsame := sameMapping_locSetWord s l0 hi
  rw [writeDouble, writeWord_ok h0, ok_bind]
  exact writeWord_ok (by rwa [programPath_congr hsame, locate_congr hsame])

theorem completes_std {a : BitVec 16} {l0 l1 : Loc} (ha : eaDouble m s = .ok a)
    (h0 : locate (programPath s) .write (a ++ 0#1) s = .ok l0) (h1 : locate (programPath s) .write (a ++ 1#1) s = .ok l1) :
    Completes (.std r m) s s.psd.ia (ccBits s.psd)
      (firstOf (locRegs l1 (getReg s (ru1 r))) (locRegs l0 (getReg s r)))
      (firstOf (locBytes l1 (getReg s (ru1 r))) (locBytes l0 (getReg s r))) :=
  completes_of_ok rfl ha (writeDouble_ok h0 h1 _ _) (effect_stored2 s l0 l1 _ _)

/-- Settles O18: each store is made where the effective address is located; STH then tests the word in R, XW loads R. -/
theorem stores : Obligations.Stores := by
  intro r m s p v
  refine ⟨fun a l ha hl => ⟨completes_stb ha hl, completes_stcf ha hl⟩, fun a l ha hl => completes_sth ha hl,
    fun a l ha hl => completes_stw ha hl, fun a l w ha hw hl => ⟨completes_xw ha hw hl, fun x hx => ?_⟩,
    fun a l0 l1 ha h0 h1 => completes_std ha h0 h1⟩
  simp only [← BitVec.getMsbD_or] at hx
  exact completes_sts ha hw hl (eq_masked hx)

end Sys2Proof.LoadStore
end

section
/-! LM and STM: words loaded and stored one after another (40_load_store_analyze R173, R182). -/

namespace Sys2Proof.LoadStore

open Sys2Proof Machine Safety

variable {s t u : State} {m : MemRef}

/-! ### Consecutive addresses and registers -/

theorem add_ofNat_succ {w : Nat} (x : BitVec w) (i : Nat) : x + BitVec.ofNat w (i + 1) = x + 1 + BitVec.ofNat w i := by
  rw [BitVec.add_assoc, Nat.add_comm, BitVec.ofNat_add]
  rfl

/-- The distance from `y` is one more than that from the place after `y`. -/
theorem toNat_sub_succ {w : Nat} {x y : BitVec w} (h : x ≠ y) : (x - y).toNat = (x - (y + 1)).toNat + 1 := by
  have hne : x - y ≠ 0 := fun h0 => h (BitVec.sub_eq_iff_eq_add.1 h0 |>.trans (BitVec.zero_add y))
  have hpos : 1 ≤ (x - y).toNat := Nat.pos_of_ne_zero fun h0 => hne (BitVec.eq_of_toNat_eq (by simpa using h0))
  have hlt := (x - y).isLt
  have hone : (1#w).toNat = 1 := by
    rw [BitVec.toNat_ofNat, Nat.mod_eq_of_lt (by omega)]
  have hle : 1#w ≤ x - y := by rw [BitVec.le_def, hone]; exact hpos
  have hsub : x - (y + 1) = (x - y) - 1#w := by
    simp only [BitVec.sub_eq_add_neg, BitVec.neg_add, BitVec.add_assoc, BitVec.ofNat_eq_ofNat]
  rw [hsub, BitVec.toNat_sub_of_le hle, hone, Nat.sub_add_cancel hpos]

/-- A reference reaches a register exactly at the register's own address (20_memory R72). -/
theorem locate_eq_reg_iff {p : Path} {k : Access} {va : WordAddr} {r : RegNum} :
    locate p k va s = .ok (.reg r) ↔ va = r.setWidth 17 := by
  constructor
  · intro h
    obtain ⟨hlow, hr⟩ | ⟨-, -, hr⟩ := locate_eq_ok h
    · cases hr
      apply BitVec.eq_of_toNat_eq
      simp
      omega
    · cases hr
  · rintro rfl
    rw [locate_register p k _ s (by simp; omega)]
    simp

/-- Translation and protection are the same after the first word, so the addresses after it are located as before. -/
theorem locate_after {k : Access} {a : WordAddr} (h : SameMapping s u) (i : Nat) (l : Loc) :
    locate (programPath u) k (a + 1 + BitVec.ofNat 17 i) u = .ok l ↔
      locate (programPath s) k (a + BitVec.ofNat 17 (i + 1)) s = .ok l := by
  rw [programPath_congr h, locate_congr h, add_ofNat_succ]

/-- The first one of at most 512 consecutive words is in another place than the words after it. -/
theorem locate_after_ne {k : Access} {a : WordAddr} {l : Loc} {i : Nat} (h : SameMapping s u) (hi : i < 511)
    (hl : locate (programPath s) k a s = .ok l) : locate (programPath u) k (a + 1 + BitVec.ofNat 17 i) u ≠ .ok l := by
  rw [Ne, locate_after h]
  exact fun hi' => locate_ne 0 (i + 1) (by simpa using hl) hi' (by omega) rfl

/-! ### Loading -/

/-- The word a location holds when word `i` of a load into the registers from `r` on is read, `t` being the end. -/
def loadedWord (s t : State) (r : RegNum) (i : Nat) : Loc → Word
  | .core b => coreWord s.mem b
  | .reg k => if (k - r).toNat < i then getReg t k else getReg s k

/-- Later words see the first one's register as it ends, since 16 words load no register twice. -/
theorem loadedWord_succ {r : RegNum} {i : Nat} {w : Word} (hi : i < 15) (hfinal : getReg t r = getReg (setReg s r w) r)
    (l : Loc) : loadedWord (setReg s r w) t (r + 1) i l = loadedWord s t r (i + 1) l := by
  cases l with
  | core b => simp [loadedWord]
  | reg k =>
    by_cases hk : k = r
    · have hlast : ¬ (r - (r + 1)).toNat < i := by bv_omega
      rw [hk, loadedWord, loadedWord, if_neg hlast, if_pos (by simp), hfinal]
    · have hdist := toNat_sub_succ hk
      rw [loadedWord, loadedWord, getReg_setReg_other s r k w hk, hdist]
      simp only [Nat.add_lt_add_iff_right]

/-- At most 16 words are loaded into different registers: each ends with the word its location held at its turn. -/
theorem loadWords_spec {n : Nat} {a : WordAddr} {r : RegNum} (hn : n ≤ 16)
    (hl : ∀ i < n, ∃ l, locate (programPath s) .operand (a + BitVec.ofNat 17 i) s = .ok l) :
    ∃ t, loadWords n a r s = .ok t ∧
      Effect s t s.psd.ia (ccBits s.psd) (fun k => if (k - r).toNat < n then some (getReg t k) else none) noBytes ∧
      (blockInstalled s = true → ∀ i < n, ∀ l, locate (programPath s) .operand (a + BitVec.ofNat 17 i) s = .ok l →
        getReg t (r + BitVec.ofNat 4 i) = loadedWord s t r i l) := by
  induction n generalizing a r s with
  | zero => exact ⟨s, rfl, effect_refl s, fun _ i hi => absurd hi (Nat.not_lt_zero i)⟩
  | succ n ih =>
    obtain ⟨l0, h0⟩ := hl 0 (Nat.succ_pos n)
    rw [BitVec.add_zero] at h0
    have hmap := sameMapping_setReg s r (locWord s l0)
    have hfirst := effect_setReg s r (locWord s l0)
    obtain ⟨t, ht, hrest, hwords⟩ := ih (a := a + 1) (r := r + 1) (s := setReg s r (locWord s l0)) (by omega)
      fun i hi => by
        obtain ⟨l, h⟩ := hl (i + 1) (by omega)
        exact ⟨l, (locate_after hmap i l).2 h⟩
    have hlast : ¬ (r - (r + 1)).toNat < n := by bv_omega
    have hfinal : getReg t r = getReg (setReg s r (locWord s l0)) r := hrest.getReg_unwritten (if_neg hlast)
    refine ⟨t, by rw [loadWords, readWord_ok h0, ok_bind, ht], ?_, fun hb i hi l h => ?_⟩
    · rw [hfirst.ia_eq, hfirst.cc_eq] at hrest
      refine (hfirst.trans hrest).ownValues fun k hk => ?_
      have hne : k ≠ r := by
        rintro rfl
        exact hk (by simp)
      rw [toNat_sub_succ hne, Nat.add_lt_add_iff_right] at hk
      rw [firstOf, if_neg hk, oneReg, if_neg hne]
      rfl
    · cases i with
      | zero =>
        rw [BitVec.add_zero, h0] at h
        cases h
        rw [BitVec.add_zero, hfinal, getReg_setReg_same s r _ hb]
        cases l0 <;> rfl
      | succ i =>
        rw [add_ofNat_succ, ← loadedWord_succ (by omega) hfinal]
        exact hwords (hfirst.rest.blockInstalled.trans hb) i (by omega) l ((locate_after hmap i l).2 h)

/-! ### Storing -/

/-- Word `i` of a store of the registers from `r` on at the addresses from `a` on, `t` being the end. -/
def storedWord (s t : State) (a : WordAddr) (r : RegNum) (i : Nat) : Word :=
  let k := r + BitVec.ofNat 4 i
  if (k.setWidth 17 - a).toNat < i then getReg t k else getReg s k

theorem storedWords_congr {n : Nat} {a : WordAddr} {val val' : Nat → Word} {except : Loc → Prop}
    (h : StoredWords s t n a val except) (hval : ∀ i < n, val i = val' i) : StoredWords s t n a val' except :=
  ⟨fun i hi l hl hx hb => (h.1 i hi l hl hx hb).trans (hval i hi), h.2⟩

/-- A place that none of the words is stored in. -/
theorem locWord_of_storedWords {n : Nat} {a : WordAddr} {val : Nat → Word} {except : Loc → Prop} {l : Loc}
    (h : StoredWords s t n a val except)
    (hl : ∀ i < n, locate (programPath s) .write (a + BitVec.ofNat 17 i) s ≠ .ok l) (hx : ¬ except l) :
    locWord t l = locWord s l := by
  obtain ⟨-, hbytes, hregs, -⟩ := h
  cases l with
  | reg k => exact hregs k hl hx
  | core b =>
    have hbyte (x : Nat) (hb : x / 4 = b.toNat) : memByte t.mem x = memByte s.mem x := by
      refine hbytes x (fun i hi b' hb' heq => ?_) fun b' hb' heq => ?_
      · exact hl i hi (by rw [hb', BitVec.eq_of_toNat_eq (heq.symm.trans hb)])
      · exact hx (by rwa [← BitVec.eq_of_toNat_eq (heq.symm.trans hb)])
    rw [locWord, locWord, coreWord, coreWord, hbyte _ (by omega), hbyte _ (by omega), hbyte _ (by omega),
      hbyte _ (by omega)]

/-- A word stored and then, after it, the words of the following addresses. -/
theorem storedWords_cons {n : Nat} {a : WordAddr} {l : Loc} {val : Nat → Word} {except : Loc → Prop}
    (hn : n < 512) (hl : locate (programPath s) .write a s = .ok l)
    (h : StoredWords (locSetWord s l (val 0)) t n (a + 1) (fun i => val (i + 1)) except) :
    StoredWords s t (n + 1) a val except := by
  have hmap := sameMapping_locSetWord s l (val 0)
  have hzero : locate (programPath s) .write (a + BitVec.ofNat 17 0) s = .ok l := by rwa [BitVec.add_zero]
  have hlast := locWord_of_storedWords h fun i hi => locate_after_ne hmap (by omega) hl
  obtain ⟨hwords, hbytes, hregs, hrest⟩ := h
  refine ⟨fun i hi l' hl' hx hb => ?_, fun x hx hexcept => ?_, fun k hk hexcept => ?_, ?_⟩
  · cases i with
    | zero =>
      obtain rfl : l = l' := Except.ok.inj (hzero.symm.trans hl')
      have htakes : blockInstalled s = true ∨ ∃ b, l = .core b := by
        cases l with
        | reg k => exact .inl (hb k rfl)
        | core b => exact .inr ⟨b, rfl⟩
      rw [hlast hx, locWord_locSetWord, if_pos ⟨rfl, htakes⟩]
    | succ i =>
      exact hwords i (by omega) l' ((locate_after hmap i l').2 hl') hx
        fun k hk => (blockInstalled_locSetWord s l _).trans (hb k hk)
  · have hlater := hbytes x (fun i hi b hb => hx (i + 1) (by omega) b ((locate_after hmap i _).1 hb)) hexcept
    rw [hlater, memByte_locSetWord]
    cases l with
    | reg k => rfl
    | core b => exact if_neg (hx 0 (by omega) b hzero)
  · have hne : l ≠ .reg k := by
      rintro rfl
      exact hk 0 (by omega) hzero
    have hlater := hregs k (fun i hi hi' => hk (i + 1) (by omega) ((locate_after hmap i _).1 hi')) hexcept
    rw [hlater, getReg_locSetWord, if_neg fun h => hne h.1]
  · exact (sameRest_locSetWord (sameRest_refl s) l _).trans hrest

/-- Later words see a register that the first word has replaced as it ends. -/
theorem storedWord_succ {a : WordAddr} {r : RegNum} {l : Loc} {i : Nat} {w : Word} (hi : i < 512)
    (hl : locate (programPath s) .write a s = .ok l) (hfinal : locWord t l = locWord (locSetWord s l w) l) :
    storedWord (locSetWord s l w) t (a + 1) (r + 1) i = storedWord s t a r (i + 1) := by
  simp only [storedWord, ← add_ofNat_succ]
  generalize r + BitVec.ofNat 4 (i + 1) = k
  by_cases hk : k.setWidth 17 = a
  · obtain rfl : l = .reg k := Except.ok.inj (hl.symm.trans (locate_eq_reg_iff.2 hk.symm))
    have hlast : ¬ (a - (a + 1)).toNat < i := by bv_omega
    rw [hk, if_neg hlast, if_pos (by simp)]
    exact hfinal.symm
  · have hne : l ≠ .reg k := by
      rintro rfl
      exact hk (locate_eq_reg_iff.1 hl).symm
    have hkept : getReg (locSetWord s l w) k = getReg s k := by rw [getReg_locSetWord, if_neg fun h => hne h.1]
    simp only [toNat_sub_succ hk, hkept, Nat.add_lt_add_iff_right]

/-- The registers from `r` on are stored in order, each as it is when its turn comes. -/
theorem storeRegs_spec {n : Nat} {a : WordAddr} {r : RegNum} (hn : n ≤ 512)
    (hl : ∀ i < n, ∃ l, locate (programPath s) .write (a + BitVec.ofNat 17 i) s = .ok l) :
    ∃ t, storeRegs n a r s = .ok t ∧ t.psd = s.psd ∧ StoredWords s t n a (storedWord s t a r) (fun _ => False) := by
  induction n generalizing a r s with
  | zero =>
    exact ⟨s, rfl, rfl, fun i hi => absurd hi (Nat.not_lt_zero i), fun _ _ _ => rfl, fun _ _ _ => rfl,
      sameRest_refl s⟩
  | succ n ih =>
    obtain ⟨l, h0⟩ := hl 0 (Nat.succ_pos n)
    rw [BitVec.add_zero] at h0
    have hmap := sameMapping_locSetWord s l (getReg s r)
    obtain ⟨t, ht, hpsd, hstored⟩ := ih (a := a + 1) (r := r + 1) (s := locSetWord s l (getReg s r)) (by omega)
      fun i hi => by
        obtain ⟨l', h⟩ := hl (i + 1) (by omega)
        exact ⟨l', (locate_after hmap i l').2 h⟩
    have hfinal := locWord_of_storedWords hstored (fun i hi => locate_after_ne hmap (by omega) h0) id
    have hfirst : storedWord s t a r 0 = getReg s r := by simp [storedWord]
    refine ⟨t, by rw [storeRegs, writeWord_ok h0, ok_bind, ht], hpsd.trans (locSetWord_psd s l _), ?_⟩
    apply storedWords_cons (by omega) h0
    rw [hfirst]
    exact storedWords_congr hstored fun i hi => storedWord_succ (by omega) h0 hfinal

theorem ccCount_le (p : Psd) : ccCount p ≤ 16 := by
  have hlt := (ccBits p).isLt
  unfold ccCount
  split <;> omega

/-- Settles O19: LM and STM are the loads and the stores of as many words as CC says. -/
theorem loadStoreMultiple : Obligations.LoadStoreMultiple := by
  intro r m s a n ha hcount
  have hn : n = ccCount s.psd := hcount
  subst hn
  have hle := ccCount_le s.psd
  refine ⟨fun hl => ?_, fun hl => ?_⟩
  · obtain ⟨t, ht, heffect, hwords⟩ := loadWords_spec (r := r) hle hl
    exact ⟨t, exec_of_ok rfl ha ht, heffect,
      fun hb i hi => ⟨fun b => hwords hb i hi (.core b), fun k => hwords hb i hi (.reg k)⟩⟩
  · obtain ⟨t, ht, hpsd, hstored⟩ := storeRegs_spec (r := r) (by omega) hl
    exact ⟨t, exec_of_ok rfl ha ht, by rw [hpsd], by rw [hpsd], hstored⟩

end Sys2Proof.LoadStore
end

section
/-! The flags and the overflow trap of fixed-point arithmetic (41_fixed_point R211, R212). -/

namespace Sys2Proof.Safety

open Sys2Proof Machine

variable {s t : State} {ia : WordAddr} {cc : BitVec 4} {regs : Regs} {bytes : Bytes} {n : Nat}

/-! ### Carry and overflow of sums and differences -/

/-- A number fits in `n` bits exactly when its residue of `n` bits is the number itself. -/
theorem overflows_eq_of_toInt {v : BitVec n} {x : Int} (hn : 0 < n) (hv : v.toInt = x.bmod (2 ^ n)) :
    overflows n x = decide (v.toInt ≠ x) := by
  have hfit : v.toInt = x ↔ -2 ^ (n - 1) ≤ x ∧ x < 2 ^ (n - 1) := by
    constructor
    · rintro rfl
      exact ⟨BitVec.le_toInt v, BitVec.toInt_lt⟩
    · rintro ⟨hlow, hhigh⟩
      rw [hv, ← BitVec.toInt_ofInt, BitVec.toInt_ofInt_eq_self hn hlow hhigh]
  rw [overflows, Bool.eq_iff_iff]
  simp only [Bool.or_eq_true, decide_eq_true_eq, ne_eq, hfit]
  omega

theorem addOverflows_eq (hn : 0 < n) (a b : BitVec n) :
    addOverflows a b = decide ((a + b).toInt ≠ a.toInt + b.toInt) :=
  overflows_eq_of_toInt hn (BitVec.toInt_add a b)

theorem subOverflows_eq (hn : 0 < n) (a b : BitVec n) :
    subOverflows a b = decide ((a - b).toInt ≠ a.toInt - b.toInt) :=
  overflows_eq_of_toInt hn BitVec.toInt_sub

/-- The carry of a + not b + 1 tells that nothing is borrowed (D15). -/
theorem subCarries_eq (a b : BitVec n) : subCarries a b = decide (b.toNat ≤ a.toNat) := by
  have hb := b.isLt
  rw [subCarries, BitVec.toNat_not, Bool.eq_iff_iff, decide_eq_true_eq, decide_eq_true_eq]
  omega

/-- The condition code of a sum. -/
def sumCc (a b : BitVec n) : BitVec 4 :=
  ccSign (decide (2 ^ n ≤ a.toNat + b.toNat)) (decide ((a + b).toInt ≠ a.toInt + b.toInt)) (a + b).toInt

/-- The condition code of a difference. -/
def differenceCc (a b : BitVec n) : BitVec 4 :=
  ccSign (decide (b.toNat ≤ a.toNat)) (decide ((a - b).toInt ≠ a.toInt - b.toInt)) (a - b).toInt

theorem sumCc_comm (a b : BitVec n) : sumCc a b = sumCc b a := by
  rw [sumCc, sumCc, BitVec.add_comm, Nat.add_comm, Int.add_comm]

theorem sumCc_of_overflow {a b : BitVec n} (h : (a + b).toInt ≠ a.toInt + b.toInt) :
    sumCc a b = ccSign (decide (2 ^ n ≤ a.toNat + b.toNat)) true (a + b).toInt := by
  rw [sumCc, decide_eq_true h]

theorem differenceCc_of_overflow {a b : BitVec n} (h : (a - b).toInt ≠ a.toInt - b.toInt) :
    differenceCc a b = ccSign (decide (b.toNat ≤ a.toNat)) true (a - b).toInt := by
  rw [differenceCc, decide_eq_true h]

theorem Effect.addFlags (hn : 0 < n) (h : Effect s t ia cc regs bytes) (a b : BitVec n) :
    Effect s (Machine.addFlags a b t) ia (sumCc a b) regs bytes := by
  rw [sumCc, ← addOverflows_eq hn]
  exact (h.setCc12 (addCarries a b) (addOverflows a b)).test34 (a + b)

theorem Effect.subFlags (hn : 0 < n) (h : Effect s t ia cc regs bytes) (a b : BitVec n) :
    Effect s (Machine.subFlags a b t) ia (differenceCc a b) regs bytes := by
  rw [differenceCc, ← subOverflows_eq hn, ← subCarries_eq]
  exact (h.setCc12 (subCarries a b) (subOverflows a b)).test34 (a - b)

theorem Effect.byteTestFlags (h : Effect s t ia cc regs bytes) (carry : Bool) (v : Byte) :
    Effect s (Machine.byteTestFlags carry v t) ia (ccSign carry false v.toNat) regs bytes :=
  (h.setCc12 carry false).testNonzero v

/-- An operand tested alone: CC1 and CC2 are reset. -/
theorem effect_test (s : State) (v : BitVec n) :
    Effect s (test34 v (setCc12 false false s)) s.psd.ia (ccSign false false v.toInt) noRegs noBytes :=
  ((effect_refl s).setCc12 false false).test34 v

/-! ### Sums and differences with the overflow trap -/

section Outcome

variable {α : Type} {i : Instr} {x : Except Stop α} {f : α → Except Stop State} {v : α} {a b : BitVec n} {bad : Prop}

/-- An instruction that ends with the flags of a sum and their trap. -/
theorem arithmetic_sum (hn : 0 < n) (hexec : exec i s = finish (x >>= f)) (hx : x = .ok v)
    (hf : f v = overflowTrap (addOverflows a b) (addFlags a b t)) (ht : Effect s t s.psd.ia cc regs bytes) :
    Arithmetic i s ((a + b).toInt ≠ a.toInt + b.toInt) (sumCc a b) regs bytes :=
  arithmetic_of_overflowTrap hexec hx hf (by rw [addOverflows_eq hn, decide_eq_true_iff]) (ht.addFlags hn a b)

/-- An instruction that ends with the flags of a difference and their trap. -/
theorem arithmetic_difference (hn : 0 < n) (hexec : exec i s = finish (x >>= f)) (hx : x = .ok v)
    (hf : f v = overflowTrap (subOverflows a b) (subFlags a b t)) (ht : Effect s t s.psd.ia cc regs bytes) :
    Arithmetic i s ((a - b).toInt ≠ a.toInt - b.toInt) (differenceCc a b) regs bytes :=
  arithmetic_of_overflowTrap hexec hx hf (by rw [subOverflows_eq hn, decide_eq_true_iff]) (ht.subFlags hn a b)

/-- With AM = 1 an overflow ends in the trap, its effect in place. -/
theorem Arithmetic.traps (h : Arithmetic i s bad cc regs bytes) (ham : s.psd.am = true) (hbad : bad) :
    ∃ t, exec i s = takeTrap .overflow t ∧ Effect s t s.psd.ia cc regs bytes :=
  (h.2 hbad).2 ham

end Outcome

end Sys2Proof.Safety
end

section
/-! Fixed-point addition and subtraction in registers (41_fixed_point R213 to R219). -/

namespace Sys2Proof.FixedPoint

open Sys2Proof Machine Safety

variable {s : State} {r : RegNum} {m : MemRef}

/-! ### Words -/

theorem arithmetic_ai (s : State) (r : RegNum) (v : BitVec 20) :
    Arithmetic (.ai r v) s ((getReg s r + v.signExtend 32).toInt ≠ (getReg s r).toInt + (v.signExtend 32).toInt)
      (sumCc (getReg s r) (v.signExtend 32)) (oneReg r (getReg s r + v.signExtend 32)) noBytes :=
  arithmetic_sum (x := .ok (immediate v)) (f := fun b => addToReg r b s) (by decide) rfl rfl rfl (effect_setReg s r _)

theorem arithmetic_ah {v : Half} (hv : operandHalf m s = .ok v) :
    Arithmetic (.ah r m) s ((getReg s r + v.signExtend 32).toInt ≠ (getReg s r).toInt + (v.signExtend 32).toInt)
      (sumCc (getReg s r) (v.signExtend 32)) (oneReg r (getReg s r + v.signExtend 32)) noBytes :=
  arithmetic_sum (by decide) rfl hv rfl (effect_setReg s r _)

theorem arithmetic_sh {v : Half} (hv : operandHalf m s = .ok v) :
    Arithmetic (.sh r m) s ((getReg s r - v.signExtend 32).toInt ≠ (getReg s r).toInt - (v.signExtend 32).toInt)
      (differenceCc (getReg s r) (v.signExtend 32)) (oneReg r (getReg s r - v.signExtend 32)) noBytes :=
  arithmetic_difference (by decide) rfl hv rfl (effect_setReg s r _)

theorem arithmetic_aw {b : Word} (hb : operandWord m s = .ok b) :
    Arithmetic (.aw r m) s ((getReg s r + b).toInt ≠ (getReg s r).toInt + b.toInt) (sumCc (getReg s r) b)
      (oneReg r (getReg s r + b)) noBytes :=
  arithmetic_sum (by decide) rfl hb rfl (effect_setReg s r _)

theorem arithmetic_sw {b : Word} (hb : operandWord m s = .ok b) :
    Arithmetic (.sw r m) s ((getReg s r - b).toInt ≠ (getReg s r).toInt - b.toInt) (differenceCc (getReg s r) b)
      (oneReg r (getReg s r - b)) noBytes :=
  arithmetic_difference (by decide) rfl hb rfl (effect_setReg s r _)

/-- Settles O20: each instruction is a store of the sum or the difference to R, its flags, and the overflow trap. -/
theorem addSubtract : Obligations.AddSubtract := by
  intro r m s
  exact ⟨fun v => arithmetic_ai s r v, fun v hv => ⟨arithmetic_ah hv, arithmetic_sh hv⟩,
    fun b hb => ⟨arithmetic_aw hb, arithmetic_sw hb⟩⟩

/-! ### Doublewords -/

/-- An odd R field: a free value in R, another one in CC, and the trap that the CC2 drawn calls for (U1). -/
theorem freeDouble_spec (r : RegNum) (s : State) :
    ∃ t v c, EffectDrawn s t s.psd.ia c (oneReg r v) noBytes ∧ freeDouble r s = overflowTrap (c.getMsbD 1) t := by
  refine ⟨_, (draw s).1, (draw (draw s).2).1.setWidth 4, ?_, rfl⟩
  rw [EffectDrawn, setCc_draws, setReg_draws]
  exact (effect_setReg (draw (draw s).2).2 r _).setCc _

/-- With an odd R field AD and SD read their operand and then draw their results. -/
theorem exec_odd_double {i : Instr} {b : Double} (hi : i = .ad r m ∨ i = .sd r m) (hb : operandDouble m s = .ok b)
    (hodd : isOdd r = true) : exec i s = finish (freeDouble r s) := by
  obtain rfl | rfl := hi <;> exact congrArg finish (by rw [hb, ok_bind, if_pos hodd])

/-- Settles O21: on an even pair as for words, with the pair in place of the register; with an odd R the free values. -/
theorem addSubtractDouble : Obligations.AddSubtractDouble := by
  intro r m s b hb a
  refine ⟨fun heven => ⟨?_, ?_⟩, fun hodd i hi => ?_⟩
  · exact arithmetic_sum (by decide) rfl hb (if_neg (Bool.eq_false_iff.1 heven)) (effect_setPair s r (a + b))
  · exact arithmetic_difference (by decide) rfl hb (if_neg (Bool.eq_false_iff.1 heven)) (effect_setPair s r (a - b))
  · obtain ⟨t, v, c, heffect, hfree⟩ := freeDouble_spec r s
    have hexec : exec i s = finish (overflowTrap (c.getMsbD 1) t) := by rw [exec_odd_double hi hb hodd, hfree]
    have ham : t.psd.am = s.psd.am := heffect.rest.am
    refine ⟨t, v, c, heffect, fun hquiet => ?_, fun hunmasked hcc2 => ?_⟩
    · have hmasked (h : c.getMsbD 1 = true) : t.psd.am = false :=
        ham.trans (hquiet.resolve_right (by simp [h]))
      rw [hexec, overflowTrap_ok hmasked, finish_ok]
    · rw [hexec, hcc2, overflowTrap_trap (ham.trans hunmasked), finish_trap]

end Sys2Proof.FixedPoint
end

section
/-! Fixed-point multiplication and division (41_fixed_point R220 to R225). -/

namespace Sys2Proof.FixedPoint

open Sys2Proof Machine Safety

variable {s t : State} {ia : WordAddr} {cc : BitVec 4} {regs : Regs} {bytes : Bytes} {r : RegNum} {m : MemRef}

/-! ### Products -/

theorem overflows_word (x : Int) : overflows 32 x = decide (x < -2147483648 ∨ 2147483647 < x) := by
  rw [overflows, Bool.eq_iff_iff]
  simp only [Bool.or_eq_true, decide_eq_true_eq]
  omega

theorem effect_productFlags (h : Effect s t ia cc regs bytes) (q : Int) :
    Effect s (productFlags q t) ia (ccSign t.psd.cc1 (decide (q < -2147483648 ∨ 2147483647 < q)) q) regs bytes := by
  rw [← overflows_word]
  exact (h.setCc2 (overflows 32 q)).setCc34 (decide (0 < q)) (decide (q < 0))

theorem effect_loadProduct (s : State) (r : RegNum) (q : Int) :
    Effect s (loadProduct r q s) s.psd.ia (ccSign s.psd.cc1 (decide (q < -2147483648 ∨ 2147483647 < q)) q)
      (pairRegsLow r (BitVec.ofInt 64 q)) noBytes := by
  have heffect := effect_productFlags ((effect_setReg s r (hiWord (BitVec.ofInt 64 q))).setReg (ru1 r)
    (loWord (BitVec.ofInt 64 q))) q
  rw [setReg_psd, setReg_psd] at heffect
  exact heffect

/-- The product of two halfwords fits in a word. -/
theorem toInt_ofInt_half_mul (x y : Half) : (BitVec.ofInt 32 (x.toInt * y.toInt)).toInt = x.toInt * y.toInt := by
  have hlow : -2 ^ 30 ≤ x.toInt * y.toInt := BitVec.le_toInt_mul_toInt
  have hhigh : x.toInt * y.toInt ≤ 2 ^ 30 := BitVec.toInt_mul_toInt_le
  exact BitVec.toInt_ofInt_eq_self (by decide) (by omega) (by omega)

theorem completes_mh {v : Half} (hv : operandHalf m s = .ok v) :
    let q := ((getReg s r).setWidth 16 : Half).toInt * v.toInt
    Completes (.mh r m) s s.psd.ia (ccSign s.psd.cc1 s.psd.cc2 q) (oneReg (ru1 r) (BitVec.ofInt 32 q)) noBytes := by
  intro q
  have hq : (BitVec.ofInt 32 q).toInt = q := toInt_ofInt_half_mul _ _
  have hright : fld (getReg s r) 16 16 = (getReg s r).setWidth 16 := LoadStore.fld_low _ rfl
  have heffect := LoadStore.effect_load s (ru1 r) (BitVec.ofInt 32 q)
  rw [hq] at heffect
  exact completes_of_ok rfl hv (by rw [hright]) heffect

/-- Settles O22: MI and MW load the 64-bit product with its flags, MH the product of halfwords, which fits in a word. -/
theorem multiply : Obligations.Multiply := by
  intro r m s p x outside
  refine ⟨?_, ?_, ?_⟩
  · rintro v q rfl
    have hv : (immediate v).toInt = v.toInt := BitVec.toInt_signExtend_of_le (by decide)
    rw [← hv]
    exact ⟨_, rfl, effect_loadProduct s r _⟩
  · rintro v q hv rfl
    exact completes_of_ok rfl hv rfl (effect_loadProduct s r _)
  · rintro v q hv rfl
    exact completes_mh hv

/-! ### Quotients -/

theorem divideOverflows_iff {c : Installation} {n d : Int} :
    divideOverflows c n d = true ↔ d = 0 ∨ n.tdiv d < -2147483648 ∨ 2147483647 < n.tdiv d ∨
      (c.divMinqOverflows = true ∧ n.tdiv d = -2147483648) := by
  simp [divideOverflows, overflows_word, or_assoc]

/-- A quotient that does not overflow fits in a word. -/
theorem toInt_ofInt_quotient {c : Installation} {n d : Int} (h : ¬ divideOverflows c n d = true) :
    (BitVec.ofInt 32 (n.tdiv d)).toInt = n.tdiv d := by
  rw [divideOverflows_iff] at h
  exact BitVec.toInt_ofInt_eq_self (by decide) (by omega) (by omega)

/-- The flags of a quotient after its store. -/
theorem effect_quotient {n d : Int} (hgood : ¬ divideOverflows s.cfg n d = true)
    (h : Effect s t s.psd.ia (ccBits s.psd) regs bytes) (hcc1 : t.psd.cc1 = s.psd.cc1) :
    Effect s (test34 (BitVec.ofInt 32 (n.tdiv d)) (setCc2 false t)) s.psd.ia (ccSign s.psd.cc1 false (n.tdiv d)) regs
      bytes := by
  have heffect := (h.setCc2 false).test34 (BitVec.ofInt 32 (n.tdiv d))
  rwa [toInt_ofInt_quotient hgood, setCc2_psd_cc1, setCc2_psd_cc2, hcc1] at heffect

/-- A division that cannot be done sets CC2, and with AM = 1 the trap is then taken. -/
theorem trapsAfter_divideAborted {α : Type} {i : Instr} {x : Except Stop α} {f : α → Except Stop State} {v : α}
    (hexec : exec i s = finish (x >>= f)) (hx : x = .ok v) (hf : f v = divideAborted s) :
    TrapsAfter s.psd.am .overflow i s (ccOf s.psd.cc1 true s.psd.cc3 s.psd.cc4) noRegs noBytes :=
  (arithmetic_of_overflowTrap (bad := True) hexec hx hf (by simp) ((effect_refl s).setCc2 true)).2 trivial

theorem ru1_of_isOdd {r : RegNum} (h : isOdd r = true) : ru1 r = r := by
  revert r
  decide

/-- The registers of DW: the remainder in R, and then the quotient in Ru1, which for an odd R is R itself. -/
theorem effect_divided (s : State) (r : RegNum) (q rem : Word) :
    Effect s (if isOdd r then setReg s r q else setReg (setReg s r rem) (ru1 r) q) s.psd.ia (ccBits s.psd)
      (firstOf (oneReg (ru1 r) q) (oneReg r rem)) noBytes := by
  split
  next hodd =>
    refine (effect_setReg s r q).as rfl rfl (fun k => ?_) (fun _ => rfl)
    rw [ru1_of_isOdd hodd, firstOf_getD]
    by_cases hk : k = r <;> simp [oneReg, hk]
  next => exact (effect_setReg s r rem).setReg (ru1 r) q

theorem completes_dh {v : Half} (hv : operandHalf m s = .ok v)
    (hgood : ¬ divideOverflows s.cfg (getReg s r).toInt v.toInt = true) :
    Completes (.dh r m) s s.psd.ia (ccSign s.psd.cc1 false ((getReg s r).toInt.tdiv v.toInt))
      (oneReg r (BitVec.ofInt 32 ((getReg s r).toInt.tdiv v.toInt))) noBytes :=
  completes_of_ok rfl hv (if_neg hgood) (effect_quotient hgood (effect_setReg s r _) (by simp))

/-- The dividend of DW: the pair, or for an odd R the register alone (R224). -/
def dividend (s : State) (r : RegNum) : Int := if isOdd r then (getReg s r).toInt else (getPair s r).toInt

theorem completes_dw {v : Word} (hv : operandWord m s = .ok v)
    (hgood : ¬ divideOverflows s.cfg (dividend s r) v.toInt = true) :
    Completes (.dw r m) s s.psd.ia (ccSign s.psd.cc1 false ((dividend s r).tdiv v.toInt))
      (firstOf (oneReg (ru1 r) (BitVec.ofInt 32 ((dividend s r).tdiv v.toInt)))
        (oneReg r (BitVec.ofInt 32 ((dividend s r).tmod v.toInt)))) noBytes :=
  completes_of_ok rfl hv (if_neg hgood) (effect_quotient hgood (effect_divided s r _ _) (by split <;> simp))

/-- Settles O23: a division either stores its quotient, which then fits, or sets CC2 alone. -/
theorem divide : Obligations.Divide := by
  intro r m s p bad aborts
  refine ⟨fun v hv => ⟨fun hgood => ?_, fun hbad => ?_⟩, fun v hv => ⟨fun hgood => ⟨?_, ?_⟩, fun hbad => ?_⟩⟩
  · exact completes_dh hv (mt divideOverflows_iff.1 hgood)
  · exact trapsAfter_divideAborted rfl hv (if_pos (divideOverflows_iff.2 hbad))
  · exact completes_dw hv (mt divideOverflows_iff.1 hgood)
  · exact (Int.mul_tdiv_add_tmod _ _).symm
  · exact trapsAfter_divideAborted rfl hv (if_pos (divideOverflows_iff.2 hbad))

end Sys2Proof.FixedPoint
end

section
/-! Fixed-point arithmetic in place (41_fixed_point R226 to R229), and the overflow trap (R212). -/

namespace Sys2Proof.FixedPoint

open Sys2Proof Machine Safety

variable {s : State} {r : RegNum} {m : MemRef} {l : Loc}

/-! ### Testing an operand: the R field is 0 -/

theorem completes_mtw_test {a : WordAddr} {v : Word} (ha : eaWord m s = .ok a) (hv : readWord s a = .ok v) (hr : r = 0) :
    Completes (.mtw r m) s s.psd.ia (ccSign false false v.toInt) noRegs noBytes :=
  completes_of_ok rfl ha (by rw [hv, ok_bind, if_pos hr]) (effect_test s v)

theorem completes_mth_test {a : BitVec 18} {v : Half} (ha : eaHalf m s = .ok a) (hv : readHalf s a = .ok v) (hr : r = 0) :
    Completes (.mth r m) s s.psd.ia (ccSign false false v.toInt) noRegs noBytes :=
  completes_of_ok rfl ha (by rw [hv, ok_bind, if_pos hr]) (effect_test s v)

theorem completes_mtb_test {a : ByteAddr} {v : Byte} (ha : eaByte m s = .ok a) (hv : readByte s a = .ok v) (hr : r = 0) :
    Completes (.mtb r m) s s.psd.ia (ccSign false false v.toNat) noRegs noBytes :=
  completes_of_ok rfl ha (by rw [hv, ok_bind, if_pos hr]) ((effect_refl s).byteTestFlags false v)

/-! ### Adding in place -/

theorem arithmetic_awm {a : WordAddr} {v : Word} (ha : eaWord m s = .ok a) (hv : readWord s a = .ok v)
    (hl : locate (programPath s) .write a s = .ok l) :
    Arithmetic (.awm r m) s ((v + getReg s r).toInt ≠ v.toInt + (getReg s r).toInt) (sumCc v (getReg s r))
      (locRegs l (v + getReg s r)) (locBytes l (v + getReg s r)) :=
  arithmetic_sum (by decide) rfl ha (by rw [hv, ok_bind, writeWord_ok hl, ok_bind]) (effect_locSetWord s l _)

theorem arithmetic_mtw {a : WordAddr} {v : Word} (ha : eaWord m s = .ok a) (hv : readWord s a = .ok v)
    (hl : locate (programPath s) .write a s = .ok l) (hr : r ≠ 0) :
    Arithmetic (.mtw r m) s ((v + r.signExtend 32).toInt ≠ v.toInt + (r.signExtend 32).toInt) (sumCc v (r.signExtend 32))
      (locRegs l (v + r.signExtend 32)) (locBytes l (v + r.signExtend 32)) :=
  arithmetic_sum (by decide) rfl ha (by simp only [hv, ok_bind, if_neg hr, modifyValue, writeWord_ok hl])
    (effect_locSetWord s l _)

theorem arithmetic_mth {a : BitVec 18} {v : Half} (ha : eaHalf m s = .ok a) (hv : readHalf s a = .ok v)
    (hl : locate (programPath s) .write (fld a 0 17) s = .ok l) (hr : r ≠ 0) :
    Arithmetic (.mth r m) s ((v + r.signExtend 16).toInt ≠ v.toInt + (r.signExtend 16).toInt) (sumCc v (r.signExtend 16))
      (locRegsHalf s l (a.getLsbD 0) (v + r.signExtend 16)) (locBytesHalf l (a.getLsbD 0) (v + r.signExtend 16)) :=
  arithmetic_sum (by decide) rfl ha (by simp only [hv, ok_bind, if_neg hr, modifyValue, writeHalf_ok hl])
    (effect_locSetHalf s l _ _)

theorem completes_mtb {a : ByteAddr} {v : Byte} (ha : eaByte m s = .ok a) (hv : readByte s a = .ok v)
    (hl : locate (programPath s) .write (fld a 0 17) s = .ok l) (hr : r ≠ 0) :
    Completes (.mtb r m) s s.psd.ia
      (ccSign (decide (2 ^ 8 ≤ v.toNat + (r.signExtend 8).toNat)) false (v + r.signExtend 8).toNat)
      (locRegsByte s l (fld a 17 2) (v + r.signExtend 8)) (locBytesByte l (fld a 17 2) (v + r.signExtend 8)) :=
  completes_of_ok rfl ha (by simp only [hv, ok_bind, if_neg hr, modifyValue, writeByte_ok hl])
    ((effect_locSetByte s l _ _).byteTestFlags (addCarries v (r.signExtend 8)) _)

/-- Settles O24: with R field 0 a test of the operand, otherwise a sum stored where the operand was read. -/
theorem modifyMemory : Obligations.ModifyMemory := by
  intro r m s p
  refine ⟨fun a l v ha hv => ⟨completes_mtw_test ha hv, fun hl => ⟨arithmetic_awm ha hv hl, arithmetic_mtw ha hv hl⟩⟩,
    fun a l v ha hv => ⟨completes_mth_test ha hv, ?_⟩, fun a l v ha hv => ⟨completes_mtb_test ha hv, ?_⟩⟩
  · rintro k hl hr rfl
    exact arithmetic_mth ha hv hl hr
  · rintro k hl hr rfl
    exact completes_mtb ha hv hl hr

/-! ### The overflow trap -/

/-- Settles O25: with AM = 1 the instructions of O15, O20, O23 and O24 trap when they overflow. -/
theorem overflowTrap : Obligations.OverflowTrap := by
  refine ⟨rfl, ?_⟩
  intro r m s ham p a traps sum
  refine ⟨?_, fun x b l hx hread => ?_⟩
  · rintro v b rfl hover
    have h := (arithmetic_ai s r v).traps ham hover
    rwa [sumCc_of_overflow hover] at h
  have hb : operandWord m s = .ok b := operandWord_eq_ok.2 ⟨x, hx, hread⟩
  refine ⟨fun hover => ⟨?_, fun hl => ?_⟩, fun hover => ?_, ?_, ?_⟩
  · have h := (arithmetic_aw hb).traps ham hover
    rwa [sumCc_of_overflow hover] at h
  · have h := arithmetic_awm (r := r) hx hread hl
    rw [BitVec.add_comm, Int.add_comm, sumCc_comm] at h
    have htraps := h.traps ham hover
    rwa [sumCc_of_overflow hover] at htraps
  · have h := (arithmetic_sw hb).traps ham hover
    rwa [differenceCc_of_overflow hover] at h
  · rintro rfl
    exact ((LoadStore.complementAndAbsolute r m s).1 _ hb).1.traps ham rfl
  · rintro rfl
    exact (((divide r m s).2 _ hb).2 (.inl rfl)).2 ham

end Sys2Proof.FixedPoint
end

section
/-! The comparison flags (42_compare_logical R250), and several instructions with one operand that cannot be read. -/

namespace Sys2Proof.Safety

open Sys2Proof Machine

variable {s t : State} {ia : WordAddr} {cc : BitVec 4} {regs : Regs} {bytes : Bytes} {n : Nat}

theorem Effect.cmpSigned (h : Effect s t ia cc regs bytes) (a b : BitVec n) :
    Effect s (Machine.cmpSigned a b t) ia
      (ccOf t.psd.cc1 t.psd.cc2 (decide (b.toInt < a.toInt)) (decide (a.toInt < b.toInt))) regs bytes :=
  h.setCc34 (b.slt a) (a.slt b)

theorem Effect.cmpUnsigned (h : Effect s t ia cc regs bytes) (a b : BitVec n) :
    Effect s (Machine.cmpUnsigned a b t) ia
      (ccOf t.psd.cc1 t.psd.cc2 (decide (b.toNat < a.toNat)) (decide (a.toNat < b.toNat))) regs bytes :=
  h.setCc34 (b.ult a) (a.ult b)

theorem Effect.compareFlags (h : Effect s t ia cc regs bytes) (a b : BitVec n) :
    Effect s (Machine.compareFlags a b t) ia
      (ccOf t.psd.cc1 (a &&& b != 0) (decide (b.toInt < a.toInt)) (decide (a.toInt < b.toInt))) regs bytes :=
  (h.setCc2 (a &&& b != 0)).cmpSigned a b

/-- Two signed comparisons: `a` with `b` in CC3 and CC4, then `c` with `d` in CC1 and CC2 (R257, R258). -/
theorem Effect.cmpSignedTwice (h : Effect s t ia cc regs bytes) (a b c d : BitVec n) :
    Effect s (Machine.setCc12 (d.slt c) (c.slt d) (Machine.cmpSigned a b t)) ia
      (ccOf (decide (d.toInt < c.toInt)) (decide (c.toInt < d.toInt)) (decide (b.toInt < a.toInt))
        (decide (a.toInt < b.toInt))) regs bytes :=
  (h.cmpSigned a b).setCc12 (d.slt c) (c.slt d)

end Sys2Proof.Safety

namespace Sys2Proof.LoadStore

open Sys2Proof Machine Safety

/-- Instructions that begin with one operand all take the trap of the operand. -/
theorem StopsNonallowed.allTakeTrap {α : Type} {s : State} {x : Except Stop α} {e : Stop} {is : List Instr}
    (h : StopsNonallowed s x) (hexec : ∀ i ∈ is, ∃ f, exec i s = finish (x >>= f)) (he : x = .error e) :
    ∃ reasons, e = .trap (.nonallowed reasons) s ∧ ∀ i ∈ is, exec i s = takeTrap (.nonallowed reasons) s := by
  obtain ⟨reasons, rfl⟩ := h e he
  refine ⟨reasons, rfl, fun i hi => ?_⟩
  obtain ⟨f, hf⟩ := hexec i hi
  exact exec_of_trap hf he

end Sys2Proof.LoadStore
end

section
/-! The comparison instructions (42_compare_logical R251 to R258). -/

namespace Sys2Proof.CompareLogical

open Sys2Proof Machine Safety LoadStore

variable {s : State} {r : RegNum} {m : MemRef}

/-- CC2 of a comparison, by the magnitudes. -/
theorem and_bne_zero {n : Nat} (a b : BitVec n) : (a &&& b != 0) = decide (a.toNat &&& b.toNat ≠ 0) := by
  have hzero : a &&& b = 0 ↔ a.toNat &&& b.toNat = 0 := by
    rw [← BitVec.toNat_inj, BitVec.toNat_and, BitVec.ofNat_eq_ofNat, BitVec.toNat_zero]
  rw [Bool.eq_iff_iff, bne_iff_ne, decide_eq_true_iff, ne_eq, ne_eq, hzero]

/-- Byte 3 of a word, the byte of R that CB compares (R252). -/
theorem toNat_lowByte (w : Word) : (fld w 24 8 : Byte).toNat = w.toNat % 256 := by
  rw [fld_low w rfl]
  exact BitVec.toNat_setWidth 8 w

theorem completes_ci (s : State) (r : RegNum) (v : BitVec 20) :
    Completes (.ci r v) s s.psd.ia
      (ccOf s.psd.cc1 (getReg s r &&& v.signExtend 32 != 0) (decide ((v.signExtend 32).toInt < (getReg s r).toInt))
        (decide ((getReg s r).toInt < (v.signExtend 32).toInt))) noRegs noBytes :=
  ⟨_, rfl, (effect_refl s).compareFlags _ _⟩

theorem completes_cb {v : Byte} (hv : operandByte m s = .ok v) :
    Completes (.cb r m) s s.psd.ia
      (ccOf s.psd.cc1 (decide ((getReg s r).toNat % 256 &&& v.toNat ≠ 0)) (decide (v.toNat < (getReg s r).toNat % 256))
        (decide ((getReg s r).toNat % 256 < v.toNat))) noRegs noBytes := by
  rw [← toNat_lowByte, ← and_bne_zero]
  exact completes_of_ok rfl hv rfl (((effect_refl s).setCc2 _).cmpUnsigned _ _)

theorem completes_ch {v : Half} (hv : operandHalf m s = .ok v) :
    Completes (.ch r m) s s.psd.ia
      (ccOf s.psd.cc1 (getReg s r &&& v.signExtend 32 != 0) (decide (v.toInt < (getReg s r).toInt))
        (decide ((getReg s r).toInt < v.toInt))) noRegs noBytes := by
  rw [← toInt_signExtend_half]
  exact completes_of_ok rfl hv rfl ((effect_refl s).compareFlags _ _)

/-- Settles O26: each comparison reads its operand, or traps with nothing changed, and then writes the flags of one or two
comparisons; a CI with bit 0 set is no instruction. -/
theorem comparisons : Obligations.Comparisons := by
  intro r m s p a u only
  refine ⟨?ci, ?ciIndirect, ?cb, ?ch, fun b hb => ⟨?cw, ?cs, ?clr⟩, ?double, fun e he => ?byteTrap, fun e he => ?halfTrap,
    fun e he => ?wordTrap, fun e he => ?doubleTrap⟩
  case ci =>
    rintro v b rfl
    exact completes_ci s r v
  case ciIndirect =>
    intro w hop hind
    have hmem : opField w ∈ Encoding.directOnlyCodes := by rw [show opField w = 0x21 from hop]; decide
    exact execWord_of_indirect hmem hind s
  case cb =>
    rintro v c hv rfl
    exact completes_cb hv
  case ch =>
    rintro v b hv rfl
    exact completes_ch hv
  case cw => exact completes_of_ok rfl hb rfl ((effect_refl s).compareFlags a b)
  case cs => exact completes_of_ok rfl hb rfl ((effect_refl s).cmpUnsigned (a &&& u) (b &&& u))
  case clr => exact completes_of_ok rfl hb rfl ((effect_refl s).cmpSignedTwice a b u b)
  case double =>
    rintro b h l hb rfl rfl
    exact ⟨completes_of_ok rfl hb rfl ((effect_refl s).cmpSigned (a ++ u) b),
      completes_of_ok rfl hb rfl ((effect_refl s).cmpSignedTwice a (hiWord b) a (loWord b))⟩
  case byteTrap => exact stopsNonallowed_operandByte.takesTrap rfl he
  case halfTrap => exact stopsNonallowed_operandHalf.takesTrap rfl he
  case wordTrap =>
    refine stopsNonallowed_operandWord.allTakeTrap (fun i hi => ?_) he
    fin_cases hi <;> exact ⟨_, rfl⟩
  case doubleTrap =>
    refine stopsNonallowed_operandDouble.allTakeTrap (fun i hi => ?_) he
    fin_cases hi <;> exact ⟨_, rfl⟩

end Sys2Proof.CompareLogical
end

section
/-! The logical instructions (42_compare_logical R260 to R263). -/

namespace Sys2Proof.CompareLogical

open Sys2Proof Machine Safety LoadStore

variable {s : State} {r : RegNum} {m : MemRef}

/-- A word is known by its bits: with those of the result, it is what the instruction loads to R and tests. -/
theorem completes_bitwise {i : Instr} {op : Word → Word → Word} {v x : Word} (hv : operandWord m s = .ok v)
    (hexec : exec i s =
      finish (operandWord m s >>= fun v => .ok (test34 (op (getReg s r) v) (setReg s r (op (getReg s r) v)))))
    (hx : ∀ k < 32, x.getMsbD k = (op (getReg s r) v).getMsbD k) :
    Completes i s s.psd.ia (ccSign s.psd.cc1 s.psd.cc2 x.toInt) (oneReg r x) noBytes := by
  obtain rfl : x = op (getReg s r) v := BitVec.eq_of_getMsbD_eq hx
  exact completes_of_ok hexec hv rfl (effect_load s r _)

/-- Settles O27: each instruction combines the bits of R and its operand, or traps with nothing changed. -/
theorem logic : Obligations.Logic := by
  intro r m s p a
  refine ⟨fun v x hv => ⟨fun hx => ?or, fun hx => ?eor, fun hx => ?and⟩, fun e he => ?trap⟩
  case or => exact completes_bitwise hv rfl fun k hk => (hx k hk).trans BitVec.getMsbD_or.symm
  case eor => exact completes_bitwise hv rfl fun k hk => (hx k hk).trans BitVec.getMsbD_xor.symm
  case and => exact completes_bitwise hv rfl fun k hk => (hx k hk).trans BitVec.getMsbD_and.symm
  case trap =>
    refine stopsNonallowed_operandWord.allTakeTrap (fun i hi => ?_) he
    fin_cases hi <;> exact ⟨_, rfl⟩

end Sys2Proof.CompareLogical
end

section
/-! The shifts of one place and a shift by a count (43_shift_conversion R280 to R288). -/

namespace Sys2Proof.ShiftConversion

open Sys2Proof Machine Safety

variable {n : Nat} {kind : ShiftKind} {count : BitVec 7} {v : BitVec n}

/-! ### One place -/

theorem repeatStep_eq_iterate {α : Type} (f : α → α) (k : Nat) (x : α) : repeatStep f k x = f^[k] x := by
  induction k generalizing x with
  | zero => rfl
  | succ k ih => exact ih (f x)

theorem repeatStep_succ {α : Type} (f : α → α) (k : Nat) (x : α) : repeatStep f (k + 1) x = f (repeatStep f k x) := by
  rw [repeatStep_eq_iterate, repeatStep_eq_iterate, Function.iterate_succ_apply']

/-- One more place to the left, with zeros: logical and arithmetic shifts are alike (R283, R284, R287, R288). -/
theorem shiftLeft_succ (hkind : kind ≠ .circular) (v : BitVec n) (j : Nat) (b1 b2 : Bool) :
    (shiftLeft1 kind ⟨v <<< j, b1, b2⟩).v = v <<< (j + 1) := by
  simp [shiftLeft1, hkind, BitVec.shiftLeft_add]

/-- What comes in at the right end of a circular shift: the last bit alone. -/
theorem getMsbD_lastBit (b : Bool) {i : Nat} (hi : i < n) :
    (if b = true then 1#n else 0).getMsbD i = (b && decide (i + 1 = n)) := by
  cases b
  · simp
  · have hlast : (i = n - 1) ↔ i + 1 = n := by omega
    simp [BitVec.getMsbD_one, hlast, Nat.zero_lt_of_lt hi]

/-- One more place to the left, circularly (R285, R286). -/
theorem rotateLeft_succ (v : BitVec n) (j : Nat) (b1 b2 : Bool) :
    (shiftLeft1 .circular ⟨v.rotateLeft j, b1, b2⟩).v = v.rotateLeft (j + 1) := by
  apply BitVec.eq_of_getMsbD_eq
  intro i hi
  have hcomm : j + 1 + i = j + (i + 1) := by omega
  simp only [shiftLeft1, true_and, BitVec.getMsbD_or, BitVec.getMsbD_shiftLeft, BitVec.msb_rotateLeft,
    BitVec.getMsbD_rotateLeft, hcomm]
  rw [BitVec.ofNat_eq_ofNat, getMsbD_lastBit _ hi]
  by_cases hlast : i + 1 = n
  · simp [hlast, hi]
  · have hnext : i + 1 < n := by omega
    simp [hlast, hnext, hi]

theorem rotateLeft_zero (v : BitVec n) : v.rotateLeft 0 = v := by
  apply BitVec.eq_of_getMsbD_eq
  intro i hi
  simp [BitVec.getMsbD_rotateLeft, hi, Nat.mod_eq_of_lt hi]

/-- What comes in at the left end: bit 0 alone. -/
theorem getLsbD_fill (b : Bool) (i : Nat) :
    (if b = true then BitVec.intMin n else 0).getLsbD i = (b && decide (i + 1 = n)) := by
  cases b <;> simp [BitVec.getLsbD_intMin]

/-- One more place to the right, with zeros (R283, R284). -/
theorem ushiftRight_succ (v : BitVec n) (j : Nat) :
    shiftRight1 .logical ⟨v >>> j, false, false⟩ = ⟨v >>> (j + 1), false, false⟩ := by
  simp [shiftRight1, BitVec.shiftRight_add]

/-- A bit after a circular shift to the right. -/
theorem getLsbD_rotateRight_mod (v : BitVec n) (j : Nat) {i : Nat} (hi : i < n) :
    (v.rotateRight j).getLsbD i = v.getLsbD ((j + i) % n) := by
  have hj : j % n < n := Nat.mod_lt j (by omega)
  rw [BitVec.getLsbD_rotateRight, ← Nat.mod_add_mod]
  generalize j % n = q at hj
  by_cases hwrap : i < n - q
  · have hin : (q + i) % n = q + i := Nat.mod_eq_of_lt (by omega)
    simp [hwrap, hin]
  · have hpast : (q + i) % n = i - (n - q) := by
      rw [Nat.mod_eq_sub_mod (by omega), Nat.mod_eq_of_lt (by omega)]
      omega
    simp [hwrap, hi, hpast]

theorem rotateRight_zero (v : BitVec n) : v.rotateRight 0 = v := by
  apply BitVec.eq_of_getLsbD_eq
  intro i hi
  rw [getLsbD_rotateRight_mod v 0 hi, Nat.zero_add, Nat.mod_eq_of_lt hi]

/-- One more place to the right, circularly (R285, R286). -/
theorem rotateRight_succ (v : BitVec n) (j : Nat) :
    shiftRight1 .circular ⟨v.rotateRight j, false, false⟩ = ⟨v.rotateRight (j + 1), false, false⟩ := by
  refine congrArg (fun x => (⟨x, false, false⟩ : Shifting n)) (BitVec.eq_of_getLsbD_eq fun i hi => ?_)
  have hcomm : j + 1 + i = j + (1 + i) := by omega
  rw [BitVec.getLsbD_or, BitVec.getLsbD_ushiftRight, getLsbD_fill, getLsbD_rotateRight_mod v (j + 1) hi,
    getLsbD_rotateRight_mod v j (Nat.zero_lt_of_lt hi), hcomm]
  by_cases hlast : i + 1 = n
  · rw [BitVec.getLsbD_of_ge _ (1 + i) (by omega), Nat.add_comm 1 i, hlast]
    simp
  · rw [getLsbD_rotateRight_mod v j (by omega)]
    simp [hlast]

/-- One more place to the right, with copies of the sign (R287, R288). -/
theorem sshiftRight_succ (v : BitVec n) (j : Nat) :
    shiftRight1 .arithmetic ⟨v.sshiftRight j, false, false⟩ = ⟨v.sshiftRight (j + 1), false, false⟩ := by
  refine congrArg (fun x => (⟨x, false, false⟩ : Shifting n)) (BitVec.eq_of_getLsbD_eq fun i hi => ?_)
  rw [BitVec.sshiftRight_add, BitVec.getLsbD_or, BitVec.getLsbD_ushiftRight, getLsbD_fill, BitVec.getLsbD_sshiftRight _ 1]
  by_cases hlast : i + 1 = n
  · rw [BitVec.getLsbD_of_ge _ (1 + i) (by omega), if_neg (by omega)]
    simp [hlast, hi]
  · rw [if_pos (by omega)]
    simp [hlast, hi]

/-! ### A shift by a count -/

/-- CC1 of a left shift: the parity of the first `c` bits that pass the left end. -/
def parity (bit : Nat → Bool) (c : Nat) : Bool := (List.range c).foldl (fun x j => x ^^ bit j) false

/-- CC2 of a left shift: one of the first `c` bits to come to the sign position differs from the bit before it. -/
def changes (bit : Nat → Bool) (c : Nat) : Bool := (List.range c).any (fun j => bit (j + 1) != bit j)

theorem parity_succ (bit : Nat → Bool) (c : Nat) : parity bit (c + 1) = (parity bit c != bit c) := by
  simp [parity, List.range_succ]

theorem changes_succ (bit : Nat → Bool) (c : Nat) : changes bit (c + 1) = (changes bit c || (bit (c + 1) != bit c)) := by
  simp [changes, List.range_succ]

/-- The values of a left shift place by place give its end and its flags. -/
theorem repeatStep_shiftLeft1 {value : Nat → BitVec n}
    (hstep : ∀ j b1 b2, (shiftLeft1 kind ⟨value j, b1, b2⟩).v = value (j + 1)) (c : Nat) :
    repeatStep (shiftLeft1 kind) c ⟨value 0, false, false⟩ =
      ⟨value c, parity (fun j => (value j).msb) c, changes (fun j => (value j).msb) c⟩ := by
  induction c with
  | zero => rfl
  | succ c ih =>
    rw [repeatStep_succ, ih, parity_succ, changes_succ, ← hstep c _ _]
    rfl

theorem repeatStep_shiftRight1 {value : Nat → BitVec n}
    (hstep : ∀ j, shiftRight1 kind ⟨value j, false, false⟩ = ⟨value (j + 1), false, false⟩) (c : Nat) :
    repeatStep (shiftRight1 kind) c ⟨value 0, false, false⟩ = ⟨value c, false, false⟩ := by
  induction c with
  | zero => rfl
  | succ c ih => rw [repeatStep_succ, ih, hstep]

/-- A count whose bit 25 is 0 is not negative. -/
theorem toInt_count_left (hcount : count.msb = false) : count.toInt = count.toNat := BitVec.toInt_eq_toNat_of_msb hcount

/-- A count whose bit 25 is 1 is negative. -/
theorem toInt_count_right (hcount : count.msb = true) : count.toInt = -(128 - count.toNat : Nat) := by
  have hlt := count.isLt
  rw [BitVec.toInt_eq_msb_cond, if_pos hcount]
  omega

theorem count_right_neg (hcount : count.msb = true) : ¬ 0 ≤ count.toInt := by
  have hlt := count.isLt
  rw [toInt_count_right hcount]
  omega

theorem count_right_magnitude (hcount : count.msb = true) : (-count.toInt).toNat = 128 - count.toNat := by
  rw [toInt_count_right hcount, Int.neg_neg, Int.toNat_natCast]

theorem shiftBy_left (hcount : count.msb = false) :
    shiftBy kind count v = repeatStep (shiftLeft1 kind) count.toNat ⟨v, false, false⟩ := by
  simp [shiftBy, toInt_count_left hcount]

theorem shiftBy_right (hcount : count.msb = true) :
    shiftBy kind count v = repeatStep (shiftRight1 kind) (128 - count.toNat) ⟨v, false, false⟩ := by
  rw [shiftBy, if_neg (count_right_neg hcount), count_right_magnitude hcount]

theorem shiftBy_shiftLeft (hkind : kind ≠ .circular) (hcount : count.msb = false) (v : BitVec n) :
    shiftBy kind count v =
      ⟨v <<< count.toNat, parity v.getMsbD count.toNat, changes v.getMsbD count.toNat⟩ := by
  have hend := repeatStep_shiftLeft1 (shiftLeft_succ hkind v) count.toNat
  simp only [BitVec.msb_shiftLeft, BitVec.shiftLeft_zero] at hend
  exact (shiftBy_left hcount).trans hend

theorem shiftBy_rotateLeft (hcount : count.msb = false) (v : BitVec n) :
    shiftBy .circular count v =
      ⟨v.rotateLeft count.toNat, parity (fun j => v.getMsbD (j % n)) count.toNat,
        changes (fun j => v.getMsbD (j % n)) count.toNat⟩ := by
  have hend := repeatStep_shiftLeft1 (rotateLeft_succ v) count.toNat
  simp only [BitVec.msb_rotateLeft, rotateLeft_zero] at hend
  exact (shiftBy_left hcount).trans hend

theorem shiftBy_ushiftRight (hcount : count.msb = true) (v : BitVec n) :
    shiftBy .logical count v = ⟨v >>> (128 - count.toNat), false, false⟩ := by
  have hend := repeatStep_shiftRight1 (ushiftRight_succ v) (128 - count.toNat)
  rw [BitVec.ushiftRight_zero] at hend
  exact (shiftBy_right hcount).trans hend

theorem shiftBy_rotateRight (hcount : count.msb = true) (v : BitVec n) :
    shiftBy .circular count v = ⟨v.rotateRight (128 - count.toNat), false, false⟩ := by
  have hend := repeatStep_shiftRight1 (rotateRight_succ v) (128 - count.toNat)
  rw [rotateRight_zero] at hend
  exact (shiftBy_right hcount).trans hend

theorem shiftBy_sshiftRight (hcount : count.msb = true) (v : BitVec n) :
    shiftBy .arithmetic count v = ⟨v.sshiftRight (128 - count.toNat), false, false⟩ := by
  have hend := repeatStep_shiftRight1 (sshiftRight_succ v) (128 - count.toNat)
  rw [BitVec.sshiftRight_zero] at hend
  exact (shiftBy_right hcount).trans hend

end Sys2Proof.ShiftConversion
end

section
/-! S, single and double, left and right (43_shift_conversion R280 to R289). -/

namespace Sys2Proof.ShiftConversion

open Sys2Proof Machine Safety

variable {s : State} {r : RegNum} {m : MemRef} {kind : ShiftKind} {count : BitVec 7} {b1 b2 : Bool}

/-- The registers of a long shift: an odd R receives the high half alone (R281, R294). -/
def longRegs (r : RegNum) (d : Double) : Regs := if r.getLsbD 0 then oneReg r (hiWord d) else pairRegs r d

theorem ru1_ne_of_even {r : RegNum} (h : isOdd r = false) : ru1 r ≠ r := by
  revert r
  decide

theorem effect_loadLong (s : State) (r : RegNum) (d : Double) :
    Effect s (loadLong r d s) s.psd.ia (ccBits s.psd) (longRegs r d) noBytes := by
  unfold loadLong longRegs
  cases hodd : isOdd r
  · have heven : r.getLsbD 0 = false := hodd
    refine ((effect_setReg s r (hiWord d)).setReg (ru1 r) (loWord d)).as rfl rfl (fun k => ?_) (fun _ => rfl)
    rw [if_neg (Bool.eq_false_iff.1 heven), pairRegs, firstOf_getD, firstOf_getD]
    by_cases hk : k = r
    · simp [hk, oneReg, (ru1_ne_of_even hodd).symm]
    · simp [hk, oneReg]
  · have hfield : r.getLsbD 0 = true := hodd
    rw [if_pos hfield]
    exact effect_setReg s r (hiWord d)

@[simp] theorem loadLong_psd (s : State) (r : RegNum) (d : Double) : (loadLong r d s).psd = s.psd := by
  unfold loadLong
  split <;> simp

theorem effect_shiftSingle {x : Word} (hshift : shiftBy kind count (getReg s r) = ⟨x, b1, b2⟩) :
    Effect s (shiftSingle kind count r s) s.psd.ia (ccOf b1 b2 s.psd.cc3 s.psd.cc4) (oneReg r x) noBytes := by
  rw [shiftSingle, hshift]
  simpa using (effect_setReg s r x).setCc12 b1 b2

theorem effect_shiftDouble {x : Double} (hshift : shiftBy kind count (getPair s r) = ⟨x, b1, b2⟩) :
    Effect s (shiftDouble kind count r s) s.psd.ia (ccOf b1 b2 s.psd.cc3 s.psd.cc4) (longRegs r x) noBytes := by
  rw [shiftDouble, hshift]
  simpa using (effect_loadLong s r x).setCc12 b1 b2

/-- Settles O28: after as many single places the value is the one shifted at once, and the bits that came to the sign
position are its bits in order. -/
theorem shiftLeft : Obligations.ShiftLeft := by
  intro r m s ty count hfields hcount p c a d parity changed regs
  refine ⟨?single, ?double, ?circular, ?circularDouble⟩
  case single =>
    rintro (rfl | rfl) <;>
      exact completes_of_ok rfl hfields rfl (effect_shiftSingle (shiftBy_shiftLeft (by decide) hcount a))
  case double =>
    rintro (rfl | rfl) <;>
      exact completes_of_ok rfl hfields rfl (effect_shiftDouble (shiftBy_shiftLeft (by decide) hcount d))
  case circular =>
    rintro rfl
    exact completes_of_ok rfl hfields rfl (effect_shiftSingle (shiftBy_rotateLeft hcount a))
  case circularDouble =>
    rintro rfl
    exact completes_of_ok rfl hfields rfl (effect_shiftDouble (shiftBy_rotateLeft hcount d))

/-- An undefined shift type: free values in R, Ru1, CC1 and CC2 (R289, U3). -/
theorem effectDrawn_shiftUndefined (s : State) (r : RegNum) :
    ∃ v w b1 b2, EffectDrawn s (shiftUndefined r s) s.psd.ia (ccOf b1 b2 s.psd.cc3 s.psd.cc4)
      (firstOf (oneReg (ru1 r) w) (oneReg r v)) noBytes := by
  refine ⟨(draw s).1, (draw (draw s).2).1, (draw (draw (draw s).2).2).1.getLsbD 0,
    (draw (draw (draw s).2).2).1.getLsbD 1, ?_⟩
  have hend := ((effect_setReg (draw (draw (draw s).2).2).2 r (draw s).1).setReg (ru1 r) (draw (draw s).2).1).setCc12
  simp only [setReg_psd] at hend
  rw [EffectDrawn, shiftUndefined, setCc12_draws, setReg_draws, setReg_draws]
  exact hend _ _

/-- Settles O29: as to the left, place by place; the undefined types end with values drawn. -/
theorem shiftRight : Obligations.ShiftRight := by
  intro r m s ty count hfields p c cc a d regs
  refine ⟨fun hcount => ⟨?logical, ?logicalDouble, ?circular, ?circularDouble, ?arithmetic, ?arithmeticDouble⟩,
    fun htype => ?undefined⟩
  case logical =>
    rintro rfl
    exact completes_of_ok rfl hfields rfl (effect_shiftSingle (shiftBy_ushiftRight hcount a))
  case logicalDouble =>
    rintro rfl
    exact completes_of_ok rfl hfields rfl (effect_shiftDouble (shiftBy_ushiftRight hcount d))
  case circular =>
    rintro rfl
    exact completes_of_ok rfl hfields rfl (effect_shiftSingle (shiftBy_rotateRight hcount a))
  case circularDouble =>
    rintro rfl
    exact completes_of_ok rfl hfields rfl (effect_shiftDouble (shiftBy_rotateRight hcount d))
  case arithmetic =>
    rintro rfl
    exact completes_of_ok rfl hfields rfl (effect_shiftSingle (shiftBy_sshiftRight hcount a))
  case arithmeticDouble =>
    rintro rfl
    exact completes_of_ok rfl hfields rfl (effect_shiftDouble (shiftBy_sshiftRight hcount d))
  case undefined =>
    obtain ⟨v, w, b1, b2, heffect⟩ := effectDrawn_shiftUndefined s r
    refine ⟨shiftUndefined r s, v, w, b1, b2, ?_, heffect⟩
    obtain rfl | rfl := htype <;> exact exec_of_ok rfl hfields rfl

end Sys2Proof.ShiftConversion
end

section
/-! Shifts of floating-point numbers by hexadecimal digits (43_shift_conversion R291 to R294). -/

namespace Sys2Proof.ShiftConversion

open Sys2Proof Machine Safety

variable {f : Nat} {count ch : BitVec 7} {fr : BitVec f}

/-! ### One digit -/

/-- `z` is the number of digits from the fraction to its normalized form. -/
def NormalizedBy (fr : BitVec f) (z : Nat) : Prop := 2 ^ (f - 4) ≤ fr.toNat * 16 ^ z ∧ fr.toNat * 16 ^ z < 2 ^ f

theorem two_pow_fraction (hf : 4 ≤ f) : 2 ^ f = 2 ^ (f - 4) * 16 := by
  rw [← Nat.pow_add (n := 4), Nat.sub_add_cancel hf]

theorem leadingDigit_eq (hf : 4 ≤ f) (fr : BitVec f) : leadingDigit fr = decide (2 ^ (f - 4) ≤ fr.toNat) := by
  have hlt : fr.toNat / 2 ^ (f - 4) < 2 ^ 4 := by
    rw [Nat.div_lt_iff_lt_mul (by positivity), ← Nat.pow_add, Nat.add_sub_cancel' hf]
    exact fr.isLt
  have hdigit : (fld fr 0 4 : BitVec 4).toNat = fr.toNat / 2 ^ (f - 4) := by
    rw [toNat_fld, Nat.zero_add, Nat.mod_eq_of_lt hlt]
  rw [leadingDigit, Bool.eq_iff_iff, bne_iff_ne, decide_eq_true_iff, ← BitVec.toNat_ne_iff_ne, hdigit,
    BitVec.ofNat_eq_ofNat, BitVec.toNat_zero, ← Nat.pos_iff_ne_zero, Nat.div_pos_iff]
  exact ⟨And.right, fun h => ⟨by positivity, h⟩⟩

/-- The first digit is 0 until the fraction is normalized. -/
theorem NormalizedBy.leadingDigit {z : Nat} (hf : 4 ≤ f) (h : NormalizedBy fr z) :
    Machine.leadingDigit fr = decide (z = 0) := by
  obtain ⟨hlow, hhigh⟩ := h
  rw [leadingDigit_eq hf, decide_eq_decide]
  constructor
  · intro hlead
    by_contra hz
    have hdigits : 16 ^ 1 ≤ 16 ^ z := Nat.pow_le_pow_right (by decide) (by omega)
    have hlarge := Nat.mul_le_mul hlead hdigits
    have hfraction := two_pow_fraction hf
    omega
  · rintro rfl
    simpa using hlow

/-- The digit that a fraction loses to the left is 0 when it was not normalized. -/
theorem NormalizedBy.toNat_digitLeft {z : Nat} (h : NormalizedBy fr (z + 1)) : (fr <<< 4).toNat = fr.toNat * 16 := by
  obtain ⟨-, hhigh⟩ := h
  have hle : fr.toNat * 16 ≤ fr.toNat * 16 ^ (z + 1) := Nat.mul_le_mul_left _ (Nat.le_self_pow (Nat.succ_ne_zero z) 16)
  rw [BitVec.toNat_shiftLeft, Nat.shiftLeft_eq, Nat.mod_eq_of_lt (Nat.lt_of_le_of_lt hle hhigh)]

theorem NormalizedBy.digitLeft {z : Nat} (h : NormalizedBy fr (z + 1)) : NormalizedBy (fr <<< 4) z := by
  rw [NormalizedBy, h.toNat_digitLeft, Nat.mul_assoc, ← Nat.pow_succ']
  exact h

theorem floatLeft_succ (k : Nat) (ch : BitVec 7) (fr : BitVec f) (b1 b2 : Bool) :
    floatLeft (k + 1) ⟨ch, fr, b1, b2⟩ =
      if leadingDigit (fr <<< 4) || ch - 1 == 127 then ⟨ch - 1, fr <<< 4, leadingDigit (fr <<< 4), ch - 1 == 127⟩
      else floatLeft k ⟨ch - 1, fr <<< 4, false, false⟩ := by
  rw [floatLeft]
  cases leadingDigit (fr <<< 4) <;> cases ch - 1 == 127 <;> rfl

theorem floatRight_succ (k : Nat) (ch : BitVec 7) (fr : BitVec f) (b1 b2 : Bool) :
    floatRight (k + 1) ⟨ch, fr, b1, b2⟩ =
      if ch + 1 == 0 then ⟨ch + 1, fr >>> 4, false, true⟩ else floatRight k ⟨ch + 1, fr >>> 4, false, false⟩ := by
  rw [floatRight]
  cases ch + 1 == 0 <;> rfl

/-! ### Several digits -/

/-- What `j` digits to the left make of a characteristic and a fraction. -/
def movedLeft (ch : BitVec 7) (fr : BitVec f) (j : Nat) (b1 b2 : Bool) : FloatShifting f :=
  ⟨BitVec.ofNat 7 (ch.toNat + 128 - j), BitVec.ofNat f (fr.toNat * 16 ^ j), b1, b2⟩

/-- What `j` digits to the right make of them. -/
def movedRight (ch : BitVec 7) (fr : BitVec f) (j : Nat) (b2 : Bool) : FloatShifting f :=
  ⟨BitVec.ofNat 7 (ch.toNat + j), BitVec.ofNat f (fr.toNat / 16 ^ j), false, b2⟩

theorem movedLeft_zero (ch : BitVec 7) (fr : BitVec f) (b1 b2 : Bool) : movedLeft ch fr 0 b1 b2 = ⟨ch, fr, b1, b2⟩ := by
  have hch : BitVec.ofNat 7 (ch.toNat + 128) = ch := by bv_omega
  simp [movedLeft, hch]

theorem movedRight_zero (ch : BitVec 7) (fr : BitVec f) (b2 : Bool) : movedRight ch fr 0 b2 = ⟨ch, fr, false, b2⟩ := by
  simp [movedRight]

/-- One digit and then `j` digits are `j + 1` digits. -/
theorem movedLeft_succ {j : Nat} (hdigit : (fr <<< 4).toNat = fr.toNat * 16) (hj : j ≤ ch.toNat) (b1 b2 : Bool) :
    movedLeft (ch - 1) (fr <<< 4) j b1 b2 = movedLeft ch fr (j + 1) b1 b2 := by
  have hch : BitVec.ofNat 7 ((ch - 1).toNat + 128 - j) = BitVec.ofNat 7 (ch.toNat + 128 - (j + 1)) := by bv_omega
  rw [movedLeft, movedLeft, hch, hdigit, Nat.mul_assoc, ← Nat.pow_succ']

theorem movedRight_succ (ch : BitVec 7) (fr : BitVec f) (j : Nat) (b2 : Bool) :
    movedRight (ch + 1) (fr >>> 4) j b2 = movedRight ch fr (j + 1) b2 := by
  have hch : BitVec.ofNat 7 ((ch + 1).toNat + j) = BitVec.ofNat 7 (ch.toNat + (j + 1)) := by bv_omega
  have hdigit : (fr >>> 4).toNat = fr.toNat / 16 := by rw [BitVec.toNat_ushiftRight, Nat.shiftRight_eq_div_pow]
  rw [movedRight, movedRight, hch, hdigit, Nat.div_div_eq_div_mul, ← Nat.pow_succ']

/-- A left shift within the count `k`, of a fraction that is normalized by `z` digits: it ends after `z` digits (CC1), when
the characteristic has passed 0 (CC2), or when the count is used up (R292). -/
def leftEnd (ch : BitVec 7) (fr : BitVec f) (k z : Nat) : FloatShifting f :=
  movedLeft ch fr (min k (min z (ch.toNat + 1))) (decide (z ≤ k ∧ z ≤ ch.toNat + 1))
    (decide (ch.toNat + 1 ≤ k ∧ ch.toNat + 1 ≤ z))

/-- A right shift within the count `k`: it ends when the characteristic has passed 127 (CC2) or the count is used up
(R293). -/
def rightEnd (ch : BitVec 7) (fr : BitVec f) (k : Nat) : FloatShifting f :=
  movedRight ch fr (min k (128 - ch.toNat)) (decide (128 - ch.toNat ≤ k))

theorem toNat_rightEnd_fr (ch : BitVec 7) (fr : BitVec f) (k : Nat) :
    (rightEnd ch fr k).fr.toNat = fr.toNat / 16 ^ min k (128 - ch.toNat) :=
  (BitVec.toNat_ofNat _ _).trans (Nat.mod_eq_of_lt (Nat.lt_of_le_of_lt (Nat.div_le_self _ _) fr.isLt))

theorem leftEnd_normalized (ch : BitVec 7) (fr : BitVec f) (k : Nat) : leftEnd ch fr k 0 = ⟨ch, fr, true, false⟩ := by
  simp [leftEnd, movedLeft_zero]

theorem floatLeft_eq (hf : 4 ≤ f) {k z : Nat} (h : NormalizedBy fr (z + 1)) :
    floatLeft k ⟨ch, fr, false, false⟩ = leftEnd ch fr k (z + 1) := by
  induction k generalizing ch fr z with
  | zero => simp [leftEnd, floatLeft, movedLeft_zero]
  | succ k ih =>
    have hwrap : (ch - 1 == 127) = decide (ch.toNat = 0) := by
      rw [Bool.eq_iff_iff, beq_iff_eq, decide_eq_true_iff]
      bv_omega
    rw [floatLeft_succ, h.digitLeft.leadingDigit hf, hwrap]
    split
    next hstop =>
      rw [Bool.or_eq_true, decide_eq_true_iff, decide_eq_true_iff] at hstop
      have hone : min (k + 1) (min (z + 1) (ch.toNat + 1)) = 0 + 1 := by omega
      have hnormal : (z + 1 ≤ k + 1 ∧ z + 1 ≤ ch.toNat + 1) ↔ z = 0 := by omega
      have hpassed : (ch.toNat + 1 ≤ k + 1 ∧ ch.toNat + 1 ≤ z + 1) ↔ ch.toNat = 0 := by omega
      simp only [leftEnd, hone, hnormal, hpassed]
      rw [← movedLeft_succ h.toNat_digitLeft (Nat.zero_le _), movedLeft_zero]
    next hgoes =>
      rw [Bool.or_eq_true, decide_eq_true_iff, decide_eq_true_iff, not_or] at hgoes
      obtain ⟨hmore, hch⟩ := hgoes
      obtain ⟨z, rfl⟩ := Nat.exists_eq_succ_of_ne_zero hmore
      have hchar : (ch - 1).toNat + 1 = ch.toNat := by bv_omega
      rw [ih h.digitLeft, leftEnd, hchar, movedLeft_succ h.toNat_digitLeft (by omega), leftEnd]
      simp only [Nat.succ_min_succ, Nat.add_le_add_iff_right, Nat.succ_eq_add_one]

theorem floatRight_eq (k : Nat) (ch : BitVec 7) (fr : BitVec f) :
    floatRight k ⟨ch, fr, false, false⟩ = rightEnd ch fr k := by
  have hlt := ch.isLt
  induction k generalizing ch fr with
  | zero =>
    have hnone : ¬ 128 - ch.toNat ≤ 0 := by omega
    simp only [floatRight, rightEnd, Nat.zero_min, movedRight_zero, hnone, decide_false]
  | succ k ih =>
    rw [floatRight_succ]
    split
    next hstop =>
      have hlast : 128 - ch.toNat = 1 := by
        rw [beq_iff_eq] at hstop
        bv_omega
      have hpassed : 1 ≤ k + 1 := by omega
      rw [rightEnd, hlast, Nat.min_eq_right hpassed, decide_eq_true hpassed, ← movedRight_succ, movedRight_zero]
    next hgoes =>
      have hchar : 128 - (ch + 1).toNat + 1 = 128 - ch.toNat := by
        rw [beq_iff_eq] at hgoes
        bv_omega
      rw [ih (ch + 1) (fr >>> 4) (BitVec.isLt _), rightEnd, movedRight_succ, rightEnd, ← hchar]
      simp only [Nat.succ_min_succ, Nat.add_le_add_iff_right]

/-! ### A shift by a count -/

theorem floatShift_zero (hcount : count.msb = false) (ch : BitVec 7) :
    floatShift count ch (0 : BitVec f) = ⟨0, 0, true, false⟩ := by
  simp [floatShift, toInt_count_left hcount]

theorem floatShift_left (hf : 4 ≤ f) (hcount : count.msb = false) (ch : BitVec 7) {z : Nat} (h : NormalizedBy fr z) :
    floatShift count ch fr = leftEnd ch fr count.toNat z := by
  have hfr : fr ≠ 0 := by
    rintro rfl
    simp [NormalizedBy] at h
  rw [floatShift, toInt_count_left hcount, if_pos (Int.natCast_nonneg _), if_neg hfr, Int.toNat_natCast,
    h.leadingDigit hf]
  cases z with
  | zero => exact (leftEnd_normalized ch fr _).symm
  | succ z => exact floatLeft_eq hf h

theorem floatShift_right (hcount : count.msb = true) (ch : BitVec 7) (fr : BitVec f) :
    floatShift count ch fr =
      let y := rightEnd ch fr (128 - count.toNat)
      if y.fr = 0 then { y with ch := 0 } else y := by
  rw [floatShift, if_neg (count_right_neg hcount), count_right_magnitude hcount, floatRight_eq]

end Sys2Proof.ShiftConversion
end

section
/-! SF: the characteristic and the fraction of a floating-point number, and the number shifted (43_shift_conversion R291 to
R294, 44_floating_point R301). -/

namespace Sys2Proof.ShiftConversion

open Sys2Proof Machine Safety

variable {n f : Nat} {count : BitVec 7} {v : BitVec n}

/-! ### The parts of a number -/

theorem toNat_absolute_natAbs (hn : 0 < n) (v : BitVec n) : (absolute v).toNat = v.toInt.natAbs := by
  have hlow := BitVec.le_toInt v
  have hhigh := BitVec.toInt_lt (x := v)
  have hpow : 2 ^ n = 2 ^ (n - 1) * 2 := by rw [← Nat.pow_succ, Nat.succ_eq_add_one, Nat.sub_add_cancel hn]
  have hpos : 0 < 2 ^ (n - 1) := by positivity
  have hcast : ((2 ^ (n - 1) : Nat) : Int) = 2 ^ (n - 1) := by simp
  rw [absolute_eq_ofNat, BitVec.toNat_ofNat, Nat.mod_eq_of_lt (by omega)]

/-- The characteristic of the magnitude. -/
theorem toNat_characteristic (hn : n = f + 8) (v : BitVec n) :
    (fld (absolute v) 1 7 : BitVec 7).toNat = v.toInt.natAbs / 2 ^ f % 128 := by
  subst hn
  rw [toNat_fld, toNat_absolute_natAbs (by omega)]
  rfl

/-- The fraction of the magnitude. -/
theorem toNat_fraction (hn : n = f + 8) (v : BitVec n) :
    (fld (absolute v) 8 f : BitVec f).toNat = v.toInt.natAbs % 2 ^ f := by
  have hlast : n - (8 + f) = 0 := by omega
  rw [toNat_fld, toNat_absolute_natAbs (by omega), hlast, Nat.pow_zero, Nat.div_one]

/-- A characteristic and a fraction side by side. -/
theorem packed_eq_ofNat (hn : n = f + 8) (ch : BitVec 7) (fr : BitVec f) :
    (ch.setWidth n <<< f) ||| fr.setWidth n = BitVec.ofNat n (ch.toNat * 2 ^ f + fr.toNat) := by
  subst hn
  have hpow : 2 ^ (f + 8) = 2 ^ f * 256 := Nat.pow_add 2 f 8
  have hch : ch.toNat * 2 ^ f ≤ 127 * 2 ^ f := Nat.mul_le_mul_right _ (by omega)
  have hfr := fr.isLt
  apply BitVec.eq_of_toNat_eq
  rw [BitVec.toNat_or, BitVec.toNat_shiftLeft, BitVec.toNat_setWidth_of_le (by omega),
    BitVec.toNat_setWidth_of_le (by omega), BitVec.toNat_ofNat, Nat.shiftLeft_eq, Nat.mod_eq_of_lt (by omega),
    Nat.mod_eq_of_lt (by omega), ← Nat.shiftLeft_eq, Nat.shiftLeft_add_eq_or_of_lt hfr]

/-- The magnitude `x` with the sign of `v`. -/
def withSign (v : BitVec n) (x : Nat) : BitVec n := if v.toInt < 0 then -BitVec.ofNat n x else BitVec.ofNat n x

/-- SF on a number is the shift of its parts. -/
theorem shiftFloating_eq (hn : n = f + 8) {y : FloatShifting f}
    (hy : floatShift count (fld (absolute v) 1 7) (fld (absolute v) 8 f) = y) :
    shiftFloating n f count v = ⟨withSign v (y.ch.toNat * 2 ^ f + y.fr.toNat), y.cc1, y.cc2⟩ := by
  rw [shiftFloating, hy, packed_eq_ofNat hn, msb_iff]
  simp only [withSign, decide_eq_true_eq]

/-! ### A number shifted -/

theorem shiftFloating_zero (hn : n = f + 8) (hcount : count.msb = false) (hzero : v.toInt.natAbs % 2 ^ f = 0) :
    shiftFloating n f count v = ⟨0, true, false⟩ := by
  have hfr : (fld (absolute v) 8 f : BitVec f) = 0 :=
    BitVec.eq_of_toNat_eq ((toNat_fraction hn v).trans (by simpa using hzero))
  have hend : floatShift count (fld (absolute v) 1 7) (fld (absolute v) 8 f : BitVec f) = ⟨0, 0, true, false⟩ := by
    rw [hfr]
    exact floatShift_zero hcount _
  rw [shiftFloating_eq hn hend]
  simp [withSign]

theorem shiftFloating_left (hn : n = f + 8) (hf : 4 ≤ f) (hcount : count.msb = false) {ch fr z : Nat}
    (hch : v.toInt.natAbs / 2 ^ f % 128 = ch) (hfr : v.toInt.natAbs % 2 ^ f = fr)
    (hlow : 2 ^ (f - 4) ≤ fr * 16 ^ z) (hhigh : fr * 16 ^ z < 2 ^ f) :
    let j := min count.toNat (min z (ch + 1))
    shiftFloating n f count v =
      ⟨withSign v ((ch + 128 - j) % 128 * 2 ^ f + fr * 16 ^ j), decide (z ≤ count.toNat ∧ z ≤ ch + 1),
        decide (ch + 1 ≤ count.toNat ∧ ch + 1 ≤ z)⟩ := by
  intro j
  rw [← toNat_characteristic hn] at hch
  rw [← toNat_fraction hn] at hfr
  subst hch hfr
  have hdigits : 16 ^ j ≤ 16 ^ z := Nat.pow_le_pow_right (by decide) (by omega)
  have hfits : (fld (absolute v) 8 f : BitVec f).toNat * 16 ^ j < 2 ^ f :=
    Nat.lt_of_le_of_lt (Nat.mul_le_mul_left _ hdigits) hhigh
  rw [shiftFloating_eq hn (floatShift_left hf hcount _ ⟨hlow, hhigh⟩), leftEnd, movedLeft, BitVec.toNat_ofNat,
    BitVec.toNat_ofNat, Nat.mod_eq_of_lt hfits]

theorem shiftFloating_right (hn : n = f + 8) (hcount : count.msb = true) {ch fr : Nat}
    (hch : v.toInt.natAbs / 2 ^ f % 128 = ch) (hfr : v.toInt.natAbs % 2 ^ f = fr) :
    let j := min (128 - count.toNat) (128 - ch)
    let y := fr / 16 ^ j
    shiftFloating n f count v =
      ⟨withSign v (if y = 0 then 0 else (ch + j) % 128 * 2 ^ f + y), false,
        decide (128 - ch ≤ 128 - count.toNat)⟩ := by
  intro j y
  rw [← toNat_characteristic hn] at hch
  rw [← toNat_fraction hn] at hfr
  subst hch hfr
  have hshift := floatShift_right hcount (fld (absolute v) 1 7) (fld (absolute v) 8 f : BitVec f)
  have hfraction : (rightEnd (fld (absolute v) 1 7) (fld (absolute v) 8 f : BitVec f) (128 - count.toNat)).fr.toNat = y :=
    toNat_rightEnd_fr _ _ _
  have hempty : (rightEnd (fld (absolute v) 1 7) (fld (absolute v) 8 f : BitVec f) (128 - count.toNat)).fr = 0 ↔
      y = 0 := by
    rw [← BitVec.toNat_inj, hfraction, BitVec.ofNat_eq_ofNat, BitVec.toNat_zero]
  by_cases hy : y = 0
  · rw [shiftFloating_eq hn (hshift.trans (if_pos (hempty.2 hy))), hfraction, if_pos hy, hy]
    simp [rightEnd, movedRight]
  · rw [shiftFloating_eq hn (hshift.trans (if_neg (mt hempty.1 hy))), hfraction, if_neg hy]
    rfl

theorem floatShifted_of_shiftFloating (hn : n = f + 8) (hf : 4 ≤ f) {done : BitVec n → Bool → Bool → Prop}
    (h : done (shiftFloating n f count v).v (shiftFloating n f count v).cc1 (shiftFloating n f count v).cc2) :
    FloatShifted f count v done := by
  refine ⟨fun hcount hzero => ?zero, fun z hcount hlow hhigh => ?left, fun hcount => ?right⟩
  case zero => rwa [shiftFloating_zero hn hcount hzero] at h
  case left => rwa [shiftFloating_left hn hf hcount rfl rfl hlow hhigh] at h
  case right => rwa [shiftFloating_right hn hcount rfl rfl] at h

/-! ### The instruction -/

variable {s : State} {r : RegNum} {m : MemRef} {ty : BitVec 3}

theorem completes_sf_short (hfields : shiftFields m s = .ok (ty, count)) (hshort : ty.getLsbD 0 = false) :
    let x := shiftFloating 32 24 count (getReg s r)
    Completes (.sf r m) s s.psd.ia (ccSign x.cc1 x.cc2 x.v.toInt) (oneReg r x.v) noBytes := by
  intro x
  exact completes_of_ok rfl hfields (if_neg (Bool.eq_false_iff.1 hshort)) (((effect_setReg s r x.v).setCc12 _ _).test34 x.v)

theorem completes_sf_long (hfields : shiftFields m s = .ok (ty, count)) (hlong : ty.getLsbD 0 = true) :
    let x := shiftFloating 64 56 count (getPair s r)
    Completes (.sf r m) s s.psd.ia (ccSign x.cc1 x.cc2 x.v.toInt) (longRegs r x.v) noBytes := by
  intro x
  exact completes_of_ok rfl hfields (if_pos hlong) (((effect_loadLong s r x.v).setCc12 _ _).test34 x.v)

/-- Settles O30: SF shifts the parts of the magnitude digit by digit, which ends where the statement's count `j` of digits
says, and loads the number with the test of its sign. -/
theorem shiftFloating : Obligations.ShiftFloating := by
  intro r m s ty count hfields
  exact ⟨fun hshort => floatShifted_of_shiftFloating rfl (by decide) (completes_sf_short hfields hshort),
    fun hlong => floatShifted_of_shiftFloating rfl (by decide) (completes_sf_long hfields hlong)⟩

end Sys2Proof.ShiftConversion
end

section
/-! CVA and CVS (43_shift_conversion R296, R297): the words of the table taken one after another. -/

namespace Sys2Proof.ShiftConversion

open Sys2Proof Machine Safety

variable {s : State} {r : RegNum} {m : MemRef} {a : WordAddr} {table : Nat → Word}

theorem add_ofNat_add_one {w : Nat} (x : BitVec w) (i : Nat) : x + BitVec.ofNat w i + 1 = x + BitVec.ofNat w (i + 1) := by
  rw [BitVec.ofNat_add, BitVec.add_assoc]
  rfl

/-- The bit that an iteration looks at or records, when `k` iterations follow it. -/
theorem getLsbD_eq_getMsbD {i k : Nat} (v : Word) (h : i + (k + 1) = 32) : v.getLsbD k = v.getMsbD i := by
  have hk : k = 32 - 1 - i := by omega
  rw [BitVec.getMsbD_eq_getLsbD, decide_eq_true (by omega), Bool.true_and, hk]

/-! ### Conversion by addition -/

/-- The exact sum of the selected words among the first `i` of the table. -/
def selectedSum (sel : Word) (table : Nat → Word) (i : Nat) : Nat :=
  ((List.range i).map (fun i => if sel.getMsbD i then (table i).toNat else 0)).sum

theorem selectedSum_succ (sel : Word) (table : Nat → Word) (i : Nat) :
    selectedSum sel table (i + 1) = selectedSum sel table i + if sel.getMsbD i then (table i).toNat else 0 := by
  simp [selectedSum, List.range_succ]

/-- A word added to a sum of which the residue is kept and noted whether it still fits: the same of the new sum. -/
theorem carry_addCarries (x : Nat) (w : Word) :
    (decide (2 ^ 32 ≤ x) || addCarries (BitVec.ofNat 32 x) w) = decide (2 ^ 32 ≤ x + w.toNat) := by
  rw [addCarries, BitVec.toNat_ofNat, Bool.eq_iff_iff]
  simp only [Bool.or_eq_true, decide_eq_true_eq]
  omega

/-- After `i` iterations CVA holds the residue of the exact sum so far, and whether that sum still fits. -/
theorem convertAdd_spec {sel : Word}
    (hread : ∀ i < 32, sel.getMsbD i = true → readWord s (a + BitVec.ofNat 17 i) = .ok (table i)) {i k : Nat}
    (hik : i + k = 32) :
    convertAdd s sel k (a + BitVec.ofNat 17 i) (BitVec.ofNat 32 (selectedSum sel table i))
        (decide (2 ^ 32 ≤ selectedSum sel table i)) =
      .ok (BitVec.ofNat 32 (selectedSum sel table 32), decide (2 ^ 32 ≤ selectedSum sel table 32)) := by
  induction k generalizing i with
  | zero =>
    obtain rfl : i = 32 := hik
    rfl
  | succ k ih =>
    have hrest := ih (i := i + 1) (by omega)
    rw [selectedSum_succ] at hrest
    rw [convertAdd, getLsbD_eq_getMsbD sel hik, add_ofNat_add_one]
    split
    next hbit =>
      rw [if_pos hbit, ← carry_addCarries, BitVec.ofNat_add (selectedSum sel table i), BitVec.ofNat_toNat,
        BitVec.setWidth_eq] at hrest
      rw [hread i (by omega) hbit, ok_bind]
      exact hrest
    next hbit =>
      rw [if_neg hbit, Nat.add_zero] at hrest
      exact hrest

theorem effect_converted (s : State) (r : RegNum) (v : Word) (c : Bool) :
    Effect s (test34 v (setCc1 c (setReg s r v))) s.psd.ia (ccSign c s.psd.cc2 v.toInt) (oneReg r v) noBytes := by
  simpa using ((effect_setReg s r v).setCc1 c).test34 v

theorem completes_cva (ha : eaWord m s = .ok a)
    (hread : ∀ i < 32, (getReg s (ru1 r)).getMsbD i = true → readWord s (a + BitVec.ofNat 17 i) = .ok (table i)) :
    let sum := selectedSum (getReg s (ru1 r)) table 32
    Completes (.cva r m) s s.psd.ia (ccSign (decide (2 ^ 32 ≤ sum)) s.psd.cc2 (BitVec.ofNat 32 sum).toInt)
      (oneReg r (BitVec.ofNat 32 sum)) noBytes := by
  intro sum
  have hsum : convertAdd s (getReg s (ru1 r)) 32 a 0 false = .ok (BitVec.ofNat 32 sum, decide (2 ^ 32 ≤ sum)) := by
    have hall := convertAdd_spec hread (Nat.zero_add 32)
    rwa [BitVec.add_zero] at hall
  refine completes_of_ok rfl ha ?_ (effect_converted s r _ _)
  rw [hsum, ok_bind]

/-! ### Conversion by subtraction -/

/-- What remains of `x` after the first `i` words of the table. -/
def remainder (table : Nat → Word) (x : Word) : Nat → Word
  | 0 => x
  | i + 1 => if (table i).ule (remainder table x i) then remainder table x i - table i else remainder table x i

/-- The record of the first `i` words of the table: a 1 for each that was subtracted. -/
def subtracted (table : Nat → Word) (x : Word) : Nat → Word
  | 0 => 0
  | i + 1 =>
    if (table i).ule (remainder table x i) then subtracted table x i ||| (1#32 <<< (31 - i)) else subtracted table x i

theorem toNat_remainder_succ (table : Nat → Word) (x : Word) (i : Nat) :
    (remainder table x (i + 1)).toNat =
      if (table i).toNat ≤ (remainder table x i).toNat then (remainder table x i).toNat - (table i).toNat
      else (remainder table x i).toNat := by
  simp only [remainder, BitVec.ule_eq_decide, decide_eq_true_eq]
  split
  next hle => exact BitVec.toNat_sub_of_le hle
  next => rfl

/-- Bit `j` of the record is set in iteration `j` and by no other one. -/
theorem getMsbD_subtracted (table : Nat → Word) (x : Word) {i j : Nat} (hi : i ≤ 32) (hj : j < 32) :
    (subtracted table x i).getMsbD j = (decide (j < i) && (table j).ule (remainder table x j)) := by
  induction i with
  | zero => simp [subtracted]
  | succ i ih =>
    have hbit : (1#32 <<< (31 - i)).getMsbD j = decide (j = i) := by
      rw [BitVec.getMsbD_shiftLeft, BitVec.getMsbD_one]
      simp
      omega
    have hor (b : Bool) : (if b then subtracted table x i ||| (1#32 <<< (31 - i)) else subtracted table x i).getMsbD j =
        ((subtracted table x i).getMsbD j || (b && decide (j = i))) := by
      cases b
      · simp
      · simp [hbit]
    rw [subtracted, hor, ih (by omega)]
    obtain hlt | rfl | hgt := Nat.lt_trichotomy j i
    · have hne : j ≠ i := by omega
      simp [hlt, hne, Nat.lt_succ_of_lt hlt]
    · simp
    · have hne : j ≠ i := by omega
      have hpast : ¬ j < i + 1 := by omega
      simp [hne, hpast, Nat.not_lt_of_gt hgt]

/-- After `i` iterations CVS holds the remainder and the record of the first `i` words. -/
theorem convertSub_spec (hread : ∀ i < 32, readWord s (a + BitVec.ofNat 17 i) = .ok (table i)) (x : Word) {i k : Nat}
    (hik : i + k = 32) :
    convertSub s k (a + BitVec.ofNat 17 i) (remainder table x i) (subtracted table x i) =
      .ok (remainder table x 32, subtracted table x 32) := by
  induction k generalizing i with
  | zero =>
    obtain rfl : i = 32 := hik
    rfl
  | succ k ih =>
    have hrest := ih (i := i + 1) (by omega)
    have hplace : 31 - i = k := by omega
    rw [remainder, subtracted, hplace] at hrest
    rw [convertSub, hread i (by omega), ok_bind, add_ofNat_add_one]
    split
    next hfits =>
      rw [if_pos hfits, if_pos hfits] at hrest
      exact hrest
    next hfits =>
      rw [if_neg hfits, if_neg hfits] at hrest
      exact hrest

theorem effect_recorded (s : State) (r : RegNum) (rem bits : Word) :
    Effect s (test34 bits (setReg (setReg s r rem) (ru1 r) bits)) s.psd.ia (ccSign s.psd.cc1 s.psd.cc2 bits.toInt)
      (firstOf (oneReg (ru1 r) bits) (oneReg r rem)) noBytes := by
  simpa using ((effect_setReg s r rem).setReg (ru1 r) bits).test34 bits

theorem completes_cvs (ha : eaWord m s = .ok a)
    (hread : ∀ i < 32, readWord s (a + BitVec.ofNat 17 i) = .ok (table i)) :
    let bits := subtracted table (getReg s r) 32
    Completes (.cvs r m) s s.psd.ia (ccSign s.psd.cc1 s.psd.cc2 bits.toInt)
      (firstOf (oneReg (ru1 r) bits) (oneReg r (remainder table (getReg s r) 32))) noBytes := by
  intro bits
  have hsub : convertSub s 32 a (getReg s r) 0 = .ok (remainder table (getReg s r) 32, bits) := by
    have hall := convertSub_spec hread (getReg s r) (Nat.zero_add 32)
    rwa [BitVec.add_zero] at hall
  refine completes_of_ok rfl ha ?_ (effect_recorded s r _ _)
  rw [hsub, ok_bind]

/-- Settles O31: CVA adds up the selected words, CVS subtracts the words that fit, word by word from the first. -/
theorem conversions : Obligations.Conversions := by
  intro r m s a table ha p
  refine ⟨fun hread => completes_cva ha hread, fun hread => ⟨fun i => (remainder table (getReg s r) i).toNat,
    subtracted table (getReg s r) 32, rfl, fun i hi => ⟨?_, ?_⟩, ?_⟩⟩
  · rw [getMsbD_subtracted table _ (Nat.le_refl 32) hi, decide_eq_true hi, Bool.true_and, BitVec.ule]
  · exact toNat_remainder_succ table (getReg s r) i
  · rw [BitVec.ofNat_toNat, BitVec.setWidth_eq]
    exact completes_cvs ha hread

end Sys2Proof.ShiftConversion
end

section
/-! The floating-point instructions: what a short or a long result does to the registers, the condition code and the trap
(44_floating_point R307, R312 to R315, R321 to R324). -/

namespace Sys2Proof.FloatingPoint

open Sys2Proof Machine Safety

variable {s : State} {r : RegNum} {m : MemRef} {i : Instr}

/-! ### The end of an instruction -/

/-- A result is loaded with its condition code; a fault sets the condition code alone and is taken as a trap (R307). -/
def Delivers {n : Nat} (i : Instr) (s : State) (regs : BitVec n → Regs) (x : FloatResult n) : Prop :=
  (∀ v cc, x = .result v cc → Completes i s s.psd.ia cc (regs v) noBytes) ∧
  (∀ cc, x = .fault cc → exec i s = takeTrap .floatingFault (setCc s cc))

theorem delivers_short {x : FloatResult 32} (h : exec i s = finish (finishShort r x s)) : Delivers i s (oneReg r) x := by
  constructor
  · rintro v cc rfl
    exact ⟨_, h, (effect_setReg s r v).setCc cc⟩
  · rintro cc rfl
    exact h

/-- Of an even pair R may be loaded before Ru1. -/
theorem effect_loadPair (heven : isOdd r = false) (s : State) (d : Double) :
    Effect s (setReg (setReg s r (hiWord d)) (ru1 r) (loWord d)) s.psd.ia (ccBits s.psd) (pairRegs r d) noBytes := by
  have hneither : ¬ r.getLsbD 0 = true := Bool.eq_false_iff.1 heven
  have hload := ShiftConversion.effect_loadLong s r d
  rwa [loadLong, ShiftConversion.longRegs, if_neg hneither, isOdd, if_neg hneither] at hload

theorem delivers_long {x : FloatResult 64} (heven : isOdd r = false) (h : exec i s = finish (finishLong r x s)) :
    Delivers i s (pairRegs r) x := by
  constructor
  · rintro v cc rfl
    exact ⟨_, h, (effect_loadPair heven s v).setCc cc⟩
  · rintro cc rfl
    exact h

/-- The state with the values drawn for R and CC by a long instruction with an odd R field. -/
def freeLongState (r : RegNum) (s : State) : State :=
  setCc (setReg (draw (draw (draw s).2).2).2 r (draw s).1) ((draw (draw s).2).1.setWidth 4)

theorem effectDrawn_freeLongState (r : RegNum) (s : State) :
    EffectDrawn s (freeLongState r s) s.psd.ia ((draw (draw s).2).1.setWidth 4) (oneReg r (draw s).1) noBytes := by
  rw [EffectDrawn, freeLongState, setCc_draws, setReg_draws]
  exact (effect_setReg (draw (draw (draw s).2).2).2 r _).setCc _

/-- A third value drawn tells whether the fault trap is taken (U4). -/
theorem freeLong_ends (r : RegNum) (s : State) :
    freeLong r s = .ok (freeLongState r s) ∨ freeLong r s = .error (.trap .floatingFault (freeLongState r s)) := by
  by_cases htrap : (draw (draw (draw s).2).2).1.getLsbD 0 = true
  · exact .inr (if_pos htrap)
  · exact .inl (if_neg htrap)

/-! ### The instructions -/

/-- With the option installed and an operand that can be read, an instruction goes on with its operand. -/
theorem exec_of_operand {α : Type} {x : Except Stop α} {f : α → Except Stop State} {b : α}
    (hexec : exec i s = finish (requireOption s.cfg.hasFloat s >>= fun _ => x >>= f)) (hoption : s.cfg.hasFloat = true)
    (hx : x = .ok b) {y : Except Stop State} (hy : f b = y) : exec i s = finish y := by
  rw [hexec, hoption, requireOption_true, ok_bind, hx, ok_bind, hy]

section LongInstructions

variable {b : Double} {x : FloatResult 64}

/-- A long instruction and what it computes from the pair and its operand. -/
def LongOperation (r : RegNum) (m : MemRef) (mode : FloatMode) (a b : Double) (i : Instr) (x : FloatResult 64) : Prop :=
  (i = .fal r m ∧ x = floatAdd 64 mode a b) ∨ (i = .fsl r m ∧ x = floatAdd 64 mode a (-b)) ∨
    (i = .fml r m ∧ x = floatMulTruncated 64 mode a b) ∨ (i = .fdl r m ∧ x = floatDiv 64 mode a b)

theorem exists_longOperation (mode : FloatMode) (a b : Double)
    (hi : i = .fal r m ∨ i = .fsl r m ∨ i = .fml r m ∨ i = .fdl r m) : ∃ x, LongOperation r m mode a b i x := by
  obtain h | h | h | h := hi
  · exact ⟨_, .inl ⟨h, rfl⟩⟩
  · exact ⟨_, .inr (.inl ⟨h, rfl⟩)⟩
  · exact ⟨_, .inr (.inr (.inl ⟨h, rfl⟩))⟩
  · exact ⟨_, .inr (.inr (.inr ⟨h, rfl⟩))⟩

theorem LongOperation.exec_eq (h : LongOperation r m (floatMode s.psd) (getPair s r) b i x)
    (hoption : s.cfg.hasFloat = true) (hb : operandDouble m s = .ok b) :
    exec i s = finish (if isOdd r then freeLong r s else finishLong r x s) := by
  obtain ⟨rfl, rfl⟩ | ⟨rfl, rfl⟩ | ⟨rfl, rfl⟩ | ⟨rfl, rfl⟩ := h <;> exact exec_of_operand rfl hoption hb rfl

theorem LongOperation.delivers (h : LongOperation r m (floatMode s.psd) (getPair s r) b i x) (heven : isOdd r = false)
    (hoption : s.cfg.hasFloat = true) (hb : operandDouble m s = .ok b) : Delivers i s (pairRegs r) x :=
  delivers_long heven (by rw [h.exec_eq hoption hb, if_neg (Bool.eq_false_iff.1 heven)])

theorem LongOperation.free (h : LongOperation r m (floatMode s.psd) (getPair s r) b i x) (hodd : isOdd r = true)
    (hoption : s.cfg.hasFloat = true) (hb : operandDouble m s = .ok b) :
    ∃ t v c, EffectDrawn s t s.psd.ia c (oneReg r v) noBytes ∧
      (exec i s = .next t ∨ exec i s = takeTrap .floatingFault t) := by
  have hexec : exec i s = finish (freeLong r s) := by rw [h.exec_eq hoption hb, if_pos hodd]
  refine ⟨freeLongState r s, _, _, effectDrawn_freeLongState r s, ?_⟩
  rw [hexec]
  exact (freeLong_ends r s).imp (congrArg finish) (congrArg finish)

end LongInstructions

/-- Settles O32: each short instruction ends with `finishShort` of what it computes from R and its operand. -/
theorem floatShort : Obligations.FloatShort := by
  rintro r m s b hoption hb mode a i x (⟨rfl, rfl⟩ | ⟨rfl, rfl⟩ | ⟨rfl, rfl⟩ | ⟨rfl, hodd, rfl⟩)
  · exact delivers_short (exec_of_operand rfl hoption hb rfl)
  · exact delivers_short (exec_of_operand rfl hoption hb rfl)
  · exact delivers_short (exec_of_operand rfl hoption hb rfl)
  · exact delivers_short (exec_of_operand rfl hoption hb (if_pos hodd))

/-- Settles O33: on an even pair the instructions end with `finishLong`; with an odd R the long ones draw their results. -/
theorem floatLong : Obligations.FloatLong := by
  intro r m s hoption mode a
  refine ⟨?even, fun b hb hodd i hi => ?odd⟩
  case even =>
    rintro i x (⟨b, hb, rfl, rfl⟩ | ⟨b, hb, hoperation⟩) heven
    · exact delivers_long heven (exec_of_operand rfl hoption hb (if_neg (Bool.eq_false_iff.1 heven)))
    · exact LongOperation.delivers hoperation heven hoption hb
  case odd =>
    obtain ⟨x, hoperation⟩ := exists_longOperation mode a b hi
    exact hoperation.free hodd hoption hb

end Sys2Proof.FloatingPoint
end

section
/-! Fractions and their hexadecimal digits: a number normalized to `w` digits, products and quotients of such numbers
(44_floating_point R301, R311, R320). -/

namespace Sys2Proof.FloatingPoint

open Sys2Proof Machine

variable {w f k z z' : Nat}

/-! ### Numbers of `w` digits -/

/-- The number has exactly `w` digits: its first digit is not zero. -/
def HasDigits (w f : Nat) : Prop := 16 ^ (w - 1) ≤ f ∧ f < 16 ^ w

theorem HasDigits.pos (h : HasDigits w f) : 0 < f := Nat.lt_of_lt_of_le (by positivity) h.1

/-- A digit too many for one that has `w` digits. -/
theorem HasDigits.le_mul (h : HasDigits w f) : 16 ^ w ≤ f * 16 := by
  obtain ⟨hlow, -⟩ := h
  calc 16 ^ w ≤ 16 ^ (w - 1 + 1) := Nat.pow_le_pow_right (by decide) (by omega)
    _ = 16 ^ (w - 1) * 16 := Nat.pow_succ ..
    _ ≤ f * 16 := Nat.mul_le_mul_right 16 hlow

/-- More shifts make too many digits, also in a quotient. -/
theorem HasDigits.shift_le {d : Nat} (h : HasDigits w (f * 16 ^ z / d)) (h' : HasDigits w (f * 16 ^ z' / d)) : z' ≤ z := by
  by_contra hmore
  have hpow : 16 * 16 ^ z ≤ 16 ^ z' := by
    rw [← Nat.pow_succ']
    exact Nat.pow_le_pow_right (by decide) (by omega)
  have hdividend : 16 * (f * 16 ^ z) ≤ f * 16 ^ z' := by
    rw [Nat.mul_left_comm]
    exact Nat.mul_le_mul_left f hpow
  have hquotient : 16 ^ w ≤ f * 16 ^ z' / d := by
    calc 16 ^ w ≤ 16 * (f * 16 ^ z / d) := by rw [Nat.mul_comm]; exact h.le_mul
      _ ≤ 16 * (f * 16 ^ z) / d := Nat.mul_div_le_mul_div_assoc ..
      _ ≤ f * 16 ^ z' / d := Nat.div_le_div_right hdividend
  exact absurd h'.2 (Nat.not_lt.2 hquotient)

/-- A number has `w` digits after one shift only. -/
theorem HasDigits.shift_unique (h : HasDigits w (f * 16 ^ z)) (h' : HasDigits w (f * 16 ^ z')) : z = z' := by
  rw [← Nat.div_one (f * _)] at h h'
  exact Nat.le_antisymm (h'.shift_le h) (h.shift_le h')

/-- A number that fits in `w` digits can be normalized. -/
theorem exists_hasDigits (hpos : 0 < f) (hfits : f < 16 ^ w) : ∃ z, HasDigits w (f * 16 ^ z) := by
  have hlog : Nat.log 16 f < w := Nat.log_lt_of_lt_pow (by omega) hfits
  have hlow : 16 ^ Nat.log 16 f ≤ f := Nat.pow_log_le_self 16 (by omega)
  have hhigh : f < 16 ^ (Nat.log 16 f + 1) := Nat.lt_pow_succ_log_self (by decide) f
  refine ⟨w - 1 - Nat.log 16 f, ?_, ?_⟩
  · calc 16 ^ (w - 1) = 16 ^ Nat.log 16 f * 16 ^ (w - 1 - Nat.log 16 f) := by rw [← Nat.pow_add]; congr 1; omega
      _ ≤ f * 16 ^ (w - 1 - Nat.log 16 f) := Nat.mul_le_mul_right _ hlow
  · calc f * 16 ^ (w - 1 - Nat.log 16 f) < 16 ^ (Nat.log 16 f + 1) * 16 ^ (w - 1 - Nat.log 16 f) :=
        Nat.mul_lt_mul_of_pos_right hhigh (by positivity)
      _ = 16 ^ w := by rw [← Nat.pow_add]; congr 1; omega

/-- Fewer than `w` shifts normalize to `w` digits. -/
theorem HasDigits.shift_lt (h : HasDigits w (f * 16 ^ z)) : z < w := by
  have hpos : 0 < f := Nat.pos_of_mul_pos_right h.pos
  exact (Nat.pow_lt_pow_iff_right (by decide)).1 (Nat.lt_of_le_of_lt (Nat.le_mul_of_pos_left _ hpos) h.2)

/-- The digit-by-digit normalization ends with the number of `w` digits and the count of the shifts. -/
theorem normalizeDigits_eq (hk : z ≤ k) (h : HasDigits w (f * 16 ^ z)) :
    normalizeDigits w k f = (f * 16 ^ z, z) := by
  induction k generalizing f z with
  | zero =>
    obtain rfl : z = 0 := by omega
    simp [normalizeDigits]
  | succ k ih =>
    cases z with
    | zero =>
      rw [Nat.pow_zero, Nat.mul_one] at h
      rw [normalizeDigits, if_neg (Nat.not_lt.2 h.1), Nat.pow_zero, Nat.mul_one]
    | succ z =>
      have hshift : f * 16 ^ (z + 1) = f * 16 * 16 ^ z := by rw [Nat.pow_succ', Nat.mul_assoc]
      have hsmall : f < 16 ^ (w - 1) := by
        by_contra hlarge
        have hdigits : HasDigits w (f * 16 ^ 0) := by
          refine ⟨by omega, Nat.lt_of_le_of_lt (Nat.mul_le_mul_left f ?_) h.2⟩
          exact Nat.pow_le_pow_right (by decide) (Nat.zero_le _)
        exact absurd (h.shift_unique hdigits) (Nat.succ_ne_zero z)
      rw [hshift] at h ⊢
      rw [normalizeDigits, if_pos hsmall, ih (by omega) h]

/-! ### Products and quotients -/

/-- A product of two numbers of `w` digits is one digit short at most. -/
theorem HasDigits.mul {g : Nat} (hw : 0 < w) (hf : HasDigits w f) (hg : HasDigits w g) :
    f * g < 16 ^ (2 * w - 1) ∧ HasDigits (2 * w) (f * g * 16) ∨
    ¬ f * g < 16 ^ (2 * w - 1) ∧ HasDigits (2 * w) (f * g) := by
  have hdouble : 16 ^ w * 16 ^ w = 16 ^ (2 * w) := by rw [← Nat.pow_add, Nat.two_mul]
  have hsixteen : 16 ^ (2 * w - 1) * 16 = 16 ^ (2 * w) := by rw [← Nat.pow_succ]; congr 1; omega
  have hhigh : f * g < 16 ^ (2 * w) := hdouble ▸ Nat.mul_lt_mul'' hf.2 hg.2
  have hlow : 16 ^ (2 * w) ≤ f * g * 16 * 16 := by
    calc 16 ^ (2 * w) = 16 ^ w * 16 ^ w := hdouble.symm
      _ ≤ f * 16 * (g * 16) := Nat.mul_le_mul hf.le_mul hg.le_mul
      _ = f * g * 16 * 16 := by ring
  by_cases hshort : f * g < 16 ^ (2 * w - 1)
  · exact .inl ⟨hshort, by omega, by omega⟩
  · exact .inr ⟨hshort, by omega, hhigh⟩

/-- The quotient of two numbers of `w` digits, with one digit more if it would be one short. -/
theorem HasDigits.div {g : Nat} (hw : 0 < w) (hf : HasDigits w f) (hg : HasDigits w g) :
    g ≤ f ∧ HasDigits w (f * 16 ^ (w - 1) / g) ∨ ¬ g ≤ f ∧ HasDigits w (f * 16 ^ w / g) := by
  have hsixteen : 16 ^ w = 16 * 16 ^ (w - 1) := by rw [← Nat.pow_succ']; congr 1; omega
  have hpos := hg.pos
  by_cases hle : g ≤ f
  · refine .inl ⟨hle, (Nat.le_div_iff_mul_le hpos).2 ?_, (Nat.div_lt_iff_lt_mul hpos).2 ?_⟩
    · calc 16 ^ (w - 1) * g ≤ 16 ^ (w - 1) * f := Nat.mul_le_mul_left _ hle
        _ = f * 16 ^ (w - 1) := Nat.mul_comm ..
    · calc f * 16 ^ (w - 1) < g * 16 * 16 ^ (w - 1) :=
            Nat.mul_lt_mul_of_pos_right (Nat.lt_of_lt_of_le hf.2 hg.le_mul) (by positivity)
        _ = 16 ^ w * g := by rw [hsixteen]; ring
  · refine .inr ⟨hle, (Nat.le_div_iff_mul_le hpos).2 ?_, (Nat.div_lt_iff_lt_mul hpos).2 ?_⟩
    · calc 16 ^ (w - 1) * g ≤ 16 ^ (w - 1) * (f * 16) :=
            Nat.mul_le_mul_left _ (Nat.le_trans (Nat.le_of_lt hg.2) hf.le_mul)
        _ = f * 16 ^ w := by rw [hsixteen]; ring
    · calc f * 16 ^ w < g * 16 ^ w := Nat.mul_lt_mul_of_pos_right (Nat.not_le.1 hle) (by positivity)
        _ = 16 ^ w * g := Nat.mul_comm ..

/-- Quotients of shifted numbers depend on the difference of the shifts, and only one difference gives `w` digits. -/
theorem quotient_unique {x y i j i' j' : Nat} (h : HasDigits w (x * 16 ^ i / (y * 16 ^ j)))
    (h' : HasDigits w (x * 16 ^ i' / (y * 16 ^ j'))) :
    i + j' = i' + j ∧ x * 16 ^ i / (y * 16 ^ j) = x * 16 ^ i' / (y * 16 ^ j') := by
  have hscale (i j l : Nat) : x * 16 ^ i / (y * 16 ^ j) = x * 16 ^ (i + l) / (y * 16 ^ (j + l)) := by
    rw [Nat.pow_add, Nat.pow_add, ← Nat.mul_assoc, ← Nat.mul_assoc, Nat.mul_div_mul_right _ _ (by positivity)]
  rw [hscale i j j'] at h ⊢
  rw [hscale i' j' j, Nat.add_comm j' j] at h' ⊢
  have hshifts : i + j' = i' + j := Nat.le_antisymm (h'.shift_le h) (h.shift_le h')
  exact ⟨hshifts, by rw [hshifts]⟩

end Sys2Proof.FloatingPoint
end

section
/-! What floating-point addition, multiplication and division compute (44_floating_point R301, R308, R311, R320 to R324). A
format of `n` bits has `digits` hexadecimal digits of fraction. -/

namespace Sys2Proof.FloatingPoint

open Sys2Proof Machine Safety

variable {n digits guard z : Nat} {mode : FloatMode}

/-! ### The parts of a number (R301) -/

theorem two_pow_fraction (hn : n = 4 * digits + 8) : 2 ^ (n - 8) = 16 ^ digits := by
  rw [hn, Nat.add_sub_cancel, Nat.pow_mul]

theorem unpackFloat_eq (hn : n = 4 * digits + 8) (v : BitVec n) :
    unpackFloat v =
      ⟨v.msb, (v.toInt.natAbs / 2 ^ (n - 8) % 128 : Nat), v.toInt.natAbs % 2 ^ (n - 8)⟩ := by
  rw [unpackFloat, ShiftConversion.toNat_characteristic (f := n - 8) (by omega),
    ShiftConversion.toNat_absolute_natAbs (by omega)]

theorem unpackFloat_fr_lt (hn : n = 4 * digits + 8) (v : BitVec n) : (unpackFloat v).fr < 16 ^ digits := by
  rw [unpackFloat_eq hn, ← two_pow_fraction hn]
  exact Nat.mod_lt _ (by positivity)

/-- The two's complement of a number has the other sign, unless it is zero or the most negative one. -/
theorem msb_neg {v : BitVec n} (hzero : v ≠ 0) (hleast : v ≠ BitVec.intMin n) : (-v).msb = !v.msb := by
  have hint : v.toInt ≠ 0 := fun h => hzero (BitVec.eq_of_toInt_eq (by simpa using h))
  rw [msb_iff, msb_iff, BitVec.toInt_neg_of_ne_intMin hleast, ← decide_not, decide_eq_decide]
  omega

theorem unpackFloat_neg (hn : n = 4 * digits + 8) {v : BitVec n} (hzero : v ≠ 0) (hleast : v ≠ BitVec.intMin n) :
    unpackFloat (-v) = { unpackFloat v with neg := !(unpackFloat v).neg } := by
  rw [unpackFloat_eq hn, unpackFloat_eq hn, msb_neg hzero hleast, BitVec.toInt_neg_of_ne_intMin hleast, Int.natAbs_neg]

/-! ### Addition (R311) -/

/-- The aligned sum before the carry step, the characteristic of `a` being the larger one. -/
def orderedSum (a b : Unpacked) (guard : Nat) : Int :=
  let f := a.fr * 16 ^ guard
  let g := b.fr * 16 ^ guard / 16 ^ (a.ch - b.ch).toNat
  (if a.neg then -(f : Int) else f) + (if b.neg then -(g : Int) else g)

/-- The carry step: a sum with a digit too many is shifted right. -/
def carried (w : Nat) (sum : Int) (c : Int) : Bool × Nat × Int :=
  if 16 ^ w ≤ sum.natAbs then (decide (sum < 0), sum.natAbs / 16, c + 1) else (decide (sum < 0), sum.natAbs, c)

theorem alignedSum_of_le {a b : Unpacked} {w : Nat} (h : b.ch ≤ a.ch) :
    alignedSum a b w guard = carried w (orderedSum a b guard) a.ch := by
  rw [alignedSum, if_pos h]
  rfl

theorem alignedSum_of_lt {a b : Unpacked} {w : Nat} (h : a.ch < b.ch) :
    alignedSum a b w guard = carried w (orderedSum b a guard) b.ch := by
  rw [alignedSum, if_neg (Int.not_le.2 h), orderedSum, Int.add_comm]
  rfl

/-- With equal characteristics neither fraction is shifted. -/
theorem orderedSum_comm {a b : Unpacked} (h : a.ch = b.ch) : orderedSum a b guard = orderedSum b a guard := by
  simp only [orderedSum, h, Int.sub_self, Int.toNat_zero, Nat.pow_zero, Nat.div_one]
  exact Int.add_comm ..

theorem alignedSum_comm (a b : Unpacked) (w : Nat) : alignedSum a b w guard = alignedSum b a w guard := by
  obtain h | h | h := Int.lt_trichotomy a.ch b.ch
  · rw [alignedSum_of_lt h, alignedSum_of_le (Int.le_of_lt h)]
  · rw [alignedSum_of_le (Int.le_of_eq h.symm), alignedSum_of_le (Int.le_of_eq h), orderedSum_comm h, h]
  · rw [alignedSum_of_le (Int.le_of_lt h), alignedSum_of_lt h]

theorem floatAdd_comm (mode : FloatMode) (a b : BitVec n) : floatAdd n mode a b = floatAdd n mode b a := by
  rw [floatAdd, alignedSum_comm, floatAdd]

/-- The ends of an addition, whatever its aligned sum is. -/
theorem floatSumEnds_floatAdd {a b : BitVec n} {neg : Bool} {m : Nat} {c : Int} (hdigits : (n - 8) / 4 = digits)
    (hguard : (if n = 32 then 1 else 0) = guard)
    (hsum : alignedSum (unpackFloat a) (unpackFloat b) (digits + guard) guard = (neg, m, c)) :
    FloatSumEnds n mode neg digits guard m c (floatAdd n mode a b) := by
  have hadd : floatAdd n mode a b =
      if mode.fn then addUnnormalized n neg (m / 16 ^ guard) c
      else if m = 0 then (if mode.fs then .fault 8 else .result 0 8)
      else
        let x := normalizeDigits (digits + guard) (digits + guard) m
        addNormalized n mode neg (x.1 / 16 ^ guard) (c - x.2) x.2 := by
    simp only [floatAdd, hdigits, hguard, hsum]
  refine ⟨fun hfn => ?unnormalized, fun hfn hm => ?zero, fun hfn k hlow hhigh => ?normalized⟩
  case unnormalized =>
    rw [hadd, if_pos hfn]
    rfl
  case zero => rw [hadd, if_neg (Bool.eq_false_iff.1 hfn), if_pos hm]
  case normalized =>
    have hnormal : HasDigits (digits + guard) (m * 16 ^ k) := ⟨hlow, hhigh⟩
    have hm : m ≠ 0 := Nat.ne_of_gt (Nat.pos_of_mul_pos_right hnormal.pos)
    rw [hadd, if_neg (Bool.eq_false_iff.1 hfn), if_neg hm, normalizeDigits_eq (Nat.le_of_lt hnormal.shift_lt) hnormal]
    rfl

/-- The ends of an addition of a number to one with no smaller characteristic, with and without a carry. -/
theorem floatSumEnds_of_le {a b : BitVec n} (hdigits : (n - 8) / 4 = digits)
    (hguard : (if n = 32 then 1 else 0) = guard) (hch : (unpackFloat b).ch ≤ (unpackFloat a).ch) :
    let sum := orderedSum (unpackFloat a) (unpackFloat b) guard
    (sum.natAbs < 16 ^ (digits + guard) →
      FloatSumEnds n mode (decide (sum < 0)) digits guard sum.natAbs (unpackFloat a).ch (floatAdd n mode a b)) ∧
    (16 ^ (digits + guard) ≤ sum.natAbs →
      FloatSumEnds n mode (decide (sum < 0)) digits guard (sum.natAbs / 16) ((unpackFloat a).ch + 1)
        (floatAdd n mode a b)) := by
  refine ⟨fun hfits => ?_, fun hcarry => ?_⟩
  · exact floatSumEnds_floatAdd hdigits hguard ((alignedSum_of_le hch).trans (if_neg (Nat.not_le.2 hfits)))
  · exact floatSumEnds_floatAdd hdigits hguard ((alignedSum_of_le hch).trans (if_pos hcarry))

/-! ### The end of a multiplication or a division (R320) -/

theorem floatFinish_eq (neg : Bool) (c : Int) (fr : Nat) : floatFinish n mode neg c fr = floatEnds n mode neg c fr := by
  unfold floatFinish floatEnds
  by_cases hsmall : c < 0
  · rw [if_pos hsmall, if_neg (Int.not_le.2 hsmall)]
    rfl
  · rw [if_neg hsmall, if_pos (Int.not_lt.1 hsmall)]
    rfl

theorem prenormalize_eq {a : Unpacked} (h : HasDigits digits (a.fr * 16 ^ z)) :
    prenormalize digits a = ⟨a.neg, a.ch - z, a.fr * 16 ^ z⟩ := by
  rw [prenormalize, normalizeDigits_eq (Nat.le_of_lt h.shift_lt) h]

/-! ### Multiplication (R321, R322) -/

/-- The two prenormalizations and the last shift are together the one normalization of the product. -/
theorem floatProduct_eq {a b : Unpacked} (hdigits : 0 < digits) (ha : a.fr < 16 ^ digits) (hb : b.fr < 16 ^ digits)
    (h : HasDigits (2 * digits) (a.fr * b.fr * 16 ^ z)) :
    floatProduct digits a b = ⟨a.neg != b.neg, a.ch + b.ch - 64 - z, a.fr * b.fr * 16 ^ z⟩ := by
  have hpos : 0 < a.fr * b.fr := Nat.pos_of_mul_pos_right h.pos
  obtain ⟨i, hi⟩ := exists_hasDigits (Nat.pos_of_mul_pos_right hpos) ha
  obtain ⟨j, hj⟩ := exists_hasDigits (Nat.pos_of_mul_pos_left hpos) hb
  have hshifts : a.fr * 16 ^ i * (b.fr * 16 ^ j) = a.fr * b.fr * 16 ^ (i + j) := by rw [Nat.pow_add]; ring
  have hmul := hi.mul hdigits hj
  rw [hshifts, Nat.mul_assoc _ _ 16, ← Nat.pow_succ] at hmul
  simp only [floatProduct, prenormalize_eq hi, prenormalize_eq hj, hshifts]
  obtain ⟨hshort, hnormal⟩ | ⟨hfull, hnormal⟩ := hmul
  · obtain rfl : z = i + j + 1 := h.shift_unique hnormal
    rw [if_pos hshort, Nat.mul_assoc _ _ 16, ← Nat.pow_succ]
    congr 1
    omega
  · obtain rfl : z = i + j := h.shift_unique hnormal
    rw [if_neg hfull]
    congr 1
    omega

theorem fractions_ne_zero {a b : Unpacked} {w : Nat} (h : HasDigits w (a.fr * b.fr * 16 ^ z)) :
    ¬ (a.fr = 0 ∨ b.fr = 0) := by
  have hpos : 0 < a.fr * b.fr := Nat.pos_of_mul_pos_right h.pos
  exact not_or.2 (Nat.mul_ne_zero_iff.1 (Nat.ne_of_gt hpos))

theorem floatMulTruncated_zero {a b : BitVec n} (h : (unpackFloat a).fr = 0 ∨ (unpackFloat b).fr = 0) :
    floatMulTruncated n mode a b = .result 0 0 :=
  if_pos h

theorem floatMulTruncated_eq (hn : n = 4 * digits + 8) (hdigits : 0 < digits) {a b : BitVec n} {x y : Unpacked}
    (hx : unpackFloat a = x) (hy : unpackFloat b = y) (h : HasDigits (2 * digits) (x.fr * y.fr * 16 ^ z)) :
    floatMulTruncated n mode a b =
      floatEnds n mode (x.neg != y.neg) (x.ch + y.ch - 64 - z) (x.fr * y.fr * 16 ^ z / 16 ^ digits) := by
  have hformat : (n - 8) / 4 = digits := by omega
  subst hx hy
  have hfactors := fractions_ne_zero h
  rw [floatMulTruncated, if_neg hfactors, hformat,
    floatProduct_eq hdigits (unpackFloat_fr_lt hn a) (unpackFloat_fr_lt hn b) h, floatFinish_eq]

theorem floatMulShortLong_zero {a b : Word} (h : (unpackFloat a).fr = 0 ∨ (unpackFloat b).fr = 0) :
    floatMulShortLong mode a b = .result 0 0 :=
  if_pos h

theorem floatMulShortLong_eq {a b : Word} {x y : Unpacked} (hx : unpackFloat a = x) (hy : unpackFloat b = y)
    (h : HasDigits 12 (x.fr * y.fr * 16 ^ z)) :
    floatMulShortLong mode a b =
      floatEnds 64 mode (x.neg != y.neg) (x.ch + y.ch - 64 - z) (x.fr * y.fr * 16 ^ z * 16 ^ 2) := by
  subst hx hy
  have hfactors := fractions_ne_zero h
  have hproduct := floatProduct_eq (digits := 6) (by decide) (unpackFloat_fr_lt (by decide) a)
    (unpackFloat_fr_lt (by decide) b) h
  rw [floatMulShortLong, if_neg hfactors, hproduct, floatFinish_eq]

/-! ### Division (R323, R324) -/

theorem floatDiv_by_zero {a b : BitVec n} (h : (unpackFloat b).fr = 0) : floatDiv n mode a b = .fault 4 := if_pos h

theorem floatDiv_of_zero {a b : BitVec n} (hb : (unpackFloat b).fr ≠ 0) (ha : (unpackFloat a).fr = 0) :
    floatDiv n mode a b = .result 0 0 :=
  (if_neg hb).trans (if_pos ha)

/-- Whatever shifts give a quotient of as many digits as the format, the quotient is the one that the prenormalized numbers
give. -/
theorem floatDiv_eq (hn : n = 4 * digits + 8) (hdigits : 0 < digits) {a b : BitVec n} {x y : Unpacked}
    (hx : unpackFloat a = x) (hy : unpackFloat b = y) (hb : y.fr ≠ 0) {i j : Nat}
    (h : HasDigits digits (x.fr * 16 ^ i / (y.fr * 16 ^ j))) :
    floatDiv n mode a b =
      floatEnds n mode (x.neg != y.neg) (x.ch - y.ch + 64 + digits + j - i) (x.fr * 16 ^ i / (y.fr * 16 ^ j)) := by
  have hformat : (n - 8) / 4 = digits := by omega
  have hfrx : x.fr < 16 ^ digits := hx ▸ unpackFloat_fr_lt hn a
  have hfry : y.fr < 16 ^ digits := hy ▸ unpackFloat_fr_lt hn b
  have ha : x.fr ≠ 0 := by
    intro hzero
    have hpos := h.pos
    simp [hzero] at hpos
  obtain ⟨k, hk⟩ := exists_hasDigits (Nat.pos_of_ne_zero ha) hfrx
  obtain ⟨l, hl⟩ := exists_hasDigits (Nat.pos_of_ne_zero hb) hfry
  have hdiv := hk.div hdigits hl
  simp only [floatDiv, hx, hy, hformat, if_neg ha, if_neg hb, prenormalize_eq hk, prenormalize_eq hl, floatFinish_eq]
  simp only [Nat.mul_assoc x.fr, ← Nat.pow_add] at hdiv ⊢
  obtain ⟨hle, hquotient⟩ | ⟨hlt, hquotient⟩ := hdiv
  · obtain ⟨hshifts, hsame⟩ := quotient_unique h hquotient
    rw [if_pos hle, hsame]
    congr 1
    omega
  · obtain ⟨hshifts, hsame⟩ := quotient_unique h hquotient
    rw [if_neg hlt, hsame]
    congr 1
    omega

/-! ### The laws of both formats -/

/-- Settles O34: the sum by its alignment and its ends, the product and the quotient by the uniqueness of the normalization. -/
theorem floatLaws : Obligations.FloatLaws := by
  constructor
  · intro n hformat mode a b digits guard x y
    have hn : n = 4 * digits + 8 := by omega
    have hdigits : 0 < digits := by omega
    have hparts : x.neg = a.msb ∧ x.ch = a.toInt.natAbs / 2 ^ (n - 8) % 128 ∧ x.fr = a.toInt.natAbs % 2 ^ (n - 8) := by
      simp [x, unpackFloat_eq hn]
    exact ⟨hparts, unpackFloat_neg hn, floatAdd_comm mode a b, floatSumEnds_of_le rfl rfl, floatMulTruncated_zero,
      fun z hlow hhigh => floatMulTruncated_eq hn hdigits rfl rfl ⟨hlow, hhigh⟩, floatDiv_by_zero, floatDiv_of_zero,
      fun i j q hb hq hlow hhigh => hq ▸ floatDiv_eq hn hdigits rfl rfl hb (hq ▸ ⟨hlow, hhigh⟩)⟩
  · intro mode a b x y
    exact ⟨floatMulShortLong_zero, fun z hlow hhigh => floatMulShortLong_eq rfl rfl ⟨hlow, hhigh⟩⟩

end Sys2Proof.FloatingPoint
end

section
/-! Packed decimal numbers: digits as nibbles and back, legality, and the generated form (45_decimal R341). -/

namespace Sys2Proof.Decimal

open Sys2Proof Machine

variable {k m n p q : Nat}

/-! ### Digits and nibbles -/

/-- The `k` low-order nibbles of `q` are decimal digits. -/
def AllDigits (k q : Nat) : Prop := ∀ i < k, q / 16 ^ i % 16 ≤ 9

theorem allDigits_succ : AllDigits (k + 1) q ↔ q % 16 ≤ 9 ∧ AllDigits k (q / 16) := by
  simp only [AllDigits, Nat.forall_lt_succ_left, Nat.pow_zero, Nat.div_one, Nat.pow_succ', Nat.div_div_eq_div_mul]

theorem allDigits_toDigits (k m : Nat) : AllDigits k (toDigits k m) := by
  induction k generalizing m with
  | zero => exact fun i hi => absurd hi (Nat.not_lt_zero i)
  | succ k ih =>
    have hdigit : m % 10 ≤ 9 := by omega
    have hlow : toDigits (k + 1) m % 16 = m % 10 := by rw [toDigits]; omega
    have hhigh : toDigits (k + 1) m / 16 = toDigits k (m / 10) := by rw [toDigits]; omega
    rw [allDigits_succ, hlow, hhigh]
    exact ⟨hdigit, ih (m / 10)⟩

theorem toDigits_lt (k m : Nat) : toDigits k m < 16 ^ k := by
  induction k generalizing m with
  | zero => exact Nat.one_pos
  | succ k ih =>
    have hhigh := ih (m / 10)
    rw [toDigits, Nat.pow_succ]
    omega

theorem fromDigits_toDigits (k m : Nat) : fromDigits k (toDigits k m) = m % 10 ^ k := by
  induction k generalizing m with
  | zero => rw [fromDigits, Nat.pow_zero, Nat.mod_one]
  | succ k ih =>
    have hlow : toDigits (k + 1) m % 16 = m % 10 := by rw [toDigits]; omega
    have hhigh : toDigits (k + 1) m / 16 = toDigits k (m / 10) := by rw [toDigits]; omega
    rw [fromDigits, hlow, hhigh, ih, Nat.pow_succ', Nat.mod_mul]
    omega

theorem AllDigits.toDigits_fromDigits (h : AllDigits k q) : toDigits k (fromDigits k q) = q % 16 ^ k := by
  induction k generalizing q with
  | zero => rw [toDigits, Nat.pow_zero, Nat.mod_one]
  | succ k ih =>
    obtain ⟨hlow, hhigh⟩ := allDigits_succ.1 h
    have hdigit : fromDigits (k + 1) q % 10 = q % 16 := by rw [fromDigits]; omega
    have hrest : fromDigits (k + 1) q / 10 = fromDigits k (q / 16) := by rw [fromDigits]; omega
    rw [toDigits, hdigit, hrest, ih hhigh, Nat.pow_succ', Nat.mod_mul]
    omega

theorem AllDigits.fromDigits_lt (h : AllDigits k q) : fromDigits k q < 10 ^ k := by
  induction k generalizing q with
  | zero => exact Nat.one_pos
  | succ k ih =>
    obtain ⟨hlow, hhigh⟩ := allDigits_succ.1 h
    have hrest := ih hhigh
    rw [fromDigits, Nat.pow_succ]
    omega

/-- A byte holds two nibbles. -/
theorem pow_bytes (hn : 0 < n) : 256 ^ n = 16 ^ (2 * n - 1) * 16 := by
  have htwo : 2 * n - 1 + 1 = 2 * n := by omega
  rw [← Nat.pow_add_one, htwo, Nat.pow_mul]

/-! ### Legal numbers -/

/-- Counted from the low-order end, nibble 0 is the sign code and the others are digits. -/
theorem legalPacked_iff (hn : 0 < n) : legalPacked p n = true ↔ AllDigits (2 * n - 1) (p / 16) ∧ 10 ≤ p % 16 := by
  have hdigits : (∀ i < 2 * n - 1, p / 16 ^ (2 * n - 1 - i) % 16 ≤ 9) ↔ AllDigits (2 * n - 1) (p / 16) := by
    have hnibble (i : Nat) : p / 16 / 16 ^ i = p / 16 ^ (i + 1) := by
      rw [Nat.div_div_eq_div_mul, Nat.pow_succ']
    simp only [AllDigits, hnibble]
    constructor
    · intro h i hi
      have hplace : 2 * n - 1 - (2 * n - 1 - 1 - i) = i + 1 := by omega
      exact hplace ▸ h (2 * n - 1 - 1 - i) (by omega)
    · intro h i hi
      have hplace : 2 * n - 1 - 1 - i + 1 = 2 * n - 1 - i := by omega
      exact hplace ▸ h (2 * n - 1 - 1 - i) (by omega)
  simp only [legalPacked, Bool.and_eq_true, List.all_eq_true, List.mem_range, decide_eq_true_eq]
  exact and_congr_left' hdigits

theorem sign_of_legalPacked (h : legalPacked p n = true) : 10 ≤ p % 16 := by
  simp only [legalPacked, Bool.and_eq_true, decide_eq_true_iff] at h
  exact h.2

theorem magPacked_lt (hn : 0 < n) (h : legalPacked p n = true) : magPacked p n < 10 ^ (2 * n - 1) :=
  ((legalPacked_iff hn).1 h).1.fromDigits_lt

theorem natAbs_valPacked (p n : Nat) : (valPacked p n).natAbs = magPacked p n := by
  unfold valPacked
  split <;> simp

/-- A legal number of at most `k` bytes has at most `2 * k - 1` digits. -/
theorem magPacked_lt_of_le (hn : 0 < n) (hle : n ≤ k) (h : legalPacked p n = true) : magPacked p n < 10 ^ (2 * k - 1) :=
  Nat.lt_of_lt_of_le (magPacked_lt hn h) (Nat.pow_le_pow_right (by decide) (by omega))

/-! ### The generated form -/

theorem mkPacked_mod (m : Nat) (neg : Bool) (n : Nat) : mkPacked m neg n % 16 = if neg then 13 else 12 := by
  cases neg <;> simp only [mkPacked, Bool.false_eq_true, if_true, if_false] <;> omega

theorem mkPacked_div (m : Nat) (neg : Bool) (n : Nat) : mkPacked m neg n / 16 = toDigits (2 * n - 1) m := by
  cases neg <;> simp only [mkPacked, Bool.false_eq_true, if_true, if_false] <;> omega

theorem negPacked_mkPacked (m : Nat) (neg : Bool) (n : Nat) : negPacked (mkPacked m neg n) = neg := by
  rw [negPacked, mkPacked_mod]
  cases neg <;> rfl

theorem mkPacked_lt (hn : 0 < n) (m : Nat) (neg : Bool) : mkPacked m neg n < 256 ^ n := by
  have hdigits := toDigits_lt (2 * n - 1) m
  have hbytes := pow_bytes hn
  have hlow := mkPacked_mod m neg n
  have hhigh := mkPacked_div m neg n
  omega

theorem legalPacked_mkPacked (hn : 0 < n) (m : Nat) (neg : Bool) : legalPacked (mkPacked m neg n) n = true := by
  rw [legalPacked_iff hn, mkPacked_div, mkPacked_mod]
  exact ⟨allDigits_toDigits _ m, by cases neg <;> decide⟩

theorem magPacked_mkPacked (hm : m < 10 ^ (2 * n - 1)) (neg : Bool) : magPacked (mkPacked m neg n) n = m := by
  rw [magPacked, mkPacked_div, fromDigits_toDigits, Nat.mod_eq_of_lt hm]

theorem valPacked_mkPacked (hm : m < 10 ^ (2 * n - 1)) (neg : Bool) :
    valPacked (mkPacked m neg n) n = if neg then -(m : Int) else m := by
  rw [valPacked, negPacked_mkPacked, magPacked_mkPacked hm]

/-- A legal number differs from its generated form in the sign code alone. -/
theorem mkPacked_magPacked (hn : 0 < n) (h : legalPacked p n = true) (hp : p < 256 ^ n) :
    mkPacked (magPacked p n) (negPacked p) n = p / 16 * 16 + if negPacked p then 13 else 12 := by
  have hdigits : p / 16 < 16 ^ (2 * n - 1) := by
    rwa [Nat.div_lt_iff_lt_mul (by decide), ← pow_bytes hn]
  rw [mkPacked, magPacked, ((legalPacked_iff hn).1 h).1.toDigits_fromDigits, Nat.mod_eq_of_lt hdigits]

/-- Settles O35: nibbles from digits are digits, and the digits from these nibbles are the number's. -/
theorem packedRoundTrip : Obligations.PackedRoundTrip := by
  intro n m neg hn hm
  exact ⟨legalPacked_mkPacked hn m neg, magPacked_mkPacked hm neg, negPacked_mkPacked m neg n, mkPacked_lt hn m neg,
    mkPacked_mod m neg n⟩

end Sys2Proof.Decimal
end

section
/-! The decimal accumulator and how a decimal instruction ends: checked and aborted, with DECA loaded, or with free values
(45_decimal R343 to R347). -/

namespace Sys2Proof.Decimal

open Sys2Proof Machine Safety

variable {s : State} {i : Instr} {m v : Nat} {neg : Bool}

/-! ### Signs -/

/-- The number with this sign and magnitude. -/
def signed (neg : Bool) (m : Nat) : Int := if neg then -(m : Int) else m

theorem valPacked_eq (p n : Nat) : valPacked p n = signed (negPacked p) (magPacked p n) := rfl

theorem natAbs_signed (neg : Bool) (m : Nat) : (signed neg m).natAbs = m := by
  cases neg <;> simp [signed]

theorem signed_pos (neg : Bool) (m : Nat) : decide (0 < signed neg m) = (m != 0 && !neg) := by
  cases neg <;> simp [signed, Nat.pos_iff_ne_zero, bne, beq_eq_decide]

theorem signed_neg (neg : Bool) (m : Nat) : decide (signed neg m < 0) = (m != 0 && neg) := by
  cases neg <;> simp [signed, Nat.pos_iff_ne_zero, bne, beq_eq_decide]

theorem ccSign_signed (a b neg : Bool) (m : Nat) :
    ccSign a b (signed neg m) = ccOf a b (m != 0 && !neg) (m != 0 && neg) := by
  rw [ccSign, signed_pos, signed_neg]

/-- An integer has its own sign, zero being positive. -/
theorem signed_natAbs (z : Int) : signed (decide (z < 0)) z.natAbs = z := by
  rw [signed]
  split
  next h => rw [decide_eq_true_iff] at h; omega
  next h => rw [decide_eq_true_iff] at h; omega

/-! ### The accumulator -/

theorem toNat_append {a b : Nat} (x : BitVec a) (y : BitVec b) : (x ++ y).toNat = x.toNat * 2 ^ b + y.toNat := by
  rw [BitVec.toNat_append, ← Nat.shiftLeft_add_eq_or_of_lt y.isLt, Nat.shiftLeft_eq]

theorem getDeca_lt (s : State) : getDeca s < 256 ^ 16 := BitVec.isLt _

theorem getDeca_setDeca (h : blockInstalled s = true) (hv : v < 256 ^ 16) : getDeca (setDeca s v) = v := by
  have hparts (b : BitVec 128) : (fld b 0 32 ++ fld b 32 32 ++ fld b 64 32 ++ fld b 96 32 : BitVec 128) = b :=
    calc (fld b 0 32 ++ fld b 32 32 ++ fld b 64 32 ++ fld b 96 32 : BitVec 128)
      _ = fld b 0 64 ++ fld b 64 32 ++ fld b 96 32 := by rw [Encoding.fld_append_fld b 0 32 32 (by decide)]
      _ = fld b 0 96 ++ fld b 96 32 := by rw [Encoding.fld_append_fld b 0 64 32 (by decide)]
      _ = b := by rw [Encoding.fld_append_fld b 0 96 32 (by decide)]; exact Encoding.fld_whole b
  simp only [getDeca, setDeca, getReg_setReg, blockInstalled_setReg, h, and_true, BitVec.reduceEq, reduceIte]
  rw [hparts, BitVec.toNat_ofNat]
  exact Nat.mod_eq_of_lt hv

theorem getDeca_setCc (s : State) (c1 c2 c3 c4 : Bool) : getDeca (setCc34 c3 c4 (setCc12 c1 c2 s)) = getDeca s := by
  simp only [getDeca, getReg_setCc34, getReg_setCc12]

/-- The high half of the accumulator is 0 exactly when its two registers are (R352). -/
theorem getDeca_lt_half_iff : getDeca s < 16 ^ 16 ↔ getReg s 12 = 0 ∧ getReg s 13 = 0 := by
  have h13 := (getReg s 13).isLt
  have h14 := (getReg s 14).isLt
  have h15 := (getReg s 15).isLt
  simp only [getDeca, toNat_append, ← BitVec.toNat_inj]
  simp
  omega

/-- Four registers written, those of the accumulator. -/
def decaRegs (a b c d : Word) : Regs := firstOf (oneReg 15 d) (firstOf (oneReg 14 c) (firstOf (oneReg 13 b) (oneReg 12 a)))

/-- Registers 12 to 15 with what they hold in `t`. -/
def ownDeca (t : State) : Regs := fun k => if 12 ≤ k.toNat then some (getReg t k) else none

theorem decaRegs_below {a b c d : Word} {r : RegNum} (h : ¬ 12 ≤ r.toNat) : decaRegs a b c d r = none := by
  have hne : r ≠ 12 ∧ r ≠ 13 ∧ r ≠ 14 ∧ r ≠ 15 := by bv_omega
  obtain ⟨h12, h13, h14, h15⟩ := hne
  simp only [decaRegs, firstOf, oneReg, if_neg h12, if_neg h13, if_neg h14, if_neg h15]
  rfl

theorem effect_decaRegs (s : State) (a b c d : Word) :
    Effect s (setReg (setReg (setReg (setReg s 12 a) 13 b) 14 c) 15 d) s.psd.ia (ccBits s.psd) (decaRegs a b c d) noBytes :=
  (((effect_setReg s 12 a).setReg 13 b).setReg 14 c).setReg 15 d

/-- The accumulator loaded and the whole condition code set. -/
theorem effect_loadDeca (s : State) (v : Nat) (c1 c2 c3 c4 : Bool) :
    let t := setCc34 c3 c4 (setCc12 c1 c2 (setDeca s v))
    Effect s t s.psd.ia (ccOf c1 c2 c3 c4) (ownDeca t) noBytes :=
  (((effect_decaRegs s _ _ _ _).setCc12 c1 c2).setCc34 c3 c4).ownValues fun _ => decaRegs_below

/-! ### The check and the abort (R345, R346) -/

theorem decimalAborted_of_exec {illegal : Bool} (hexec : exec i s = finish (decimalAbort illegal s)) :
    DecimalAborted i s illegal := by
  have heffect := (effect_refl s).setCc12 illegal (!illegal)
  refine ⟨fun hmasked => ⟨_, ?_, heffect⟩, fun hunmasked => ⟨_, ?_, heffect⟩⟩
  · rw [hexec, decimalAbort, setCc12_psd_dm, if_neg (Bool.eq_false_iff.1 hmasked), finish_ok]
  · rw [hexec, decimalAbort, setCc12_psd_dm, if_pos hunmasked, finish_trap]

/-- The instruction is aborted unless what it checks is legal, and then ends with `x`. -/
def Checked (i : Instr) (s : State) (legal : Bool) (x : Except Stop State) : Prop :=
  exec i s = finish (if !legal then decimalIllegal s else x)

section Checked

variable {legal : Bool} {x : Except Stop State}

theorem Checked.aborted (h : Checked i s legal x) (hl : legal = false) : DecimalAborted i s true :=
  decimalAborted_of_exec (h.trans (by rw [hl]; rfl))

theorem Checked.exec_eq (h : Checked i s legal x) (hl : legal = true) : exec i s = finish x :=
  h.trans (by rw [hl]; rfl)

/-- With the option installed, an instruction goes on from what it reads first, its operand or its address. -/
theorem checked_of_exec {α : Type} {y : Except Stop α} {f : α → Except Stop State} {b : α}
    (hexec : exec i s = finish (requireOption s.cfg.hasDecimal s >>= fun _ => y >>= f))
    (hoption : s.cfg.hasDecimal = true) (hy : y = .ok b)
    (hf : f b = if !legal then decimalIllegal s else x) : Checked i s legal x := by
  rw [Checked, hexec, hoption, requireOption_true, ok_bind, hy, ok_bind, hf]

end Checked

theorem hasSignCode_iff {p : Nat} : hasSignCode p = true ↔ ∃ j < 32, 10 ≤ p / 16 ^ j % 16 := by
  have hany : hasSignCode p = true ↔ ∃ j < 32, 10 ≤ p / 16 ^ (31 - j) % 16 := by
    simp only [hasSignCode, List.any_eq_true, List.mem_range, decide_eq_true_eq]
    rfl
  rw [hany]
  constructor
  · rintro ⟨j, -, hsign⟩
    exact ⟨31 - j, by omega, hsign⟩
  · rintro ⟨j, hj, hsign⟩
    have hplace : 31 - (31 - j) = j := by omega
    exact ⟨31 - j, by omega, hplace.symm ▸ hsign⟩

/-- A legal number has its sign code in nibble 0. -/
theorem hasSignCode_of_legalPacked {p n : Nat} (h : legalPacked p n = true) : hasSignCode p = true :=
  hasSignCode_iff.2 ⟨0, by decide, by simpa using sign_of_legalPacked h⟩

/-! ### Loading the accumulator (R347, R349) -/

/-- The instruction loads DECA with `z` in generated form, CC1 being 0, CC2 as given and CC3 and CC4 the sign of `z`. -/
def LoadsDeca (i : Instr) (s : State) (cc2 : Bool) (z : Int) (neg : Bool) : Prop :=
  ∃ t, exec i s = .next t ∧ Effect s t s.psd.ia (ccSign false cc2 z) (ownDeca t) noBytes ∧
    (blockInstalled s = true → valPacked (getDeca t) 16 = z ∧ legalPacked (getDeca t) 16 = true ∧
      getDeca t = mkPacked z.natAbs neg 16)

theorem getDeca_loadDeca (hb : blockInstalled s = true) (m : Nat) (neg cc2 : Bool) :
    getDeca (loadDeca m neg cc2 s) = mkPacked m neg 16 := by
  rw [loadDeca, decimalFlags, getDeca_setCc, getDeca_setDeca hb (mkPacked_lt (by decide) m neg)]

theorem loadsDeca_of_exec {cc2 : Bool} (hexec : exec i s = finish (.ok (loadDeca m neg cc2 s))) (hm : m < 10 ^ 31) :
    LoadsDeca i s cc2 (signed neg m) neg := by
  refine ⟨_, hexec, ?_, fun hb => ?_⟩
  · rw [ccSign_signed]
    exact effect_loadDeca s _ _ _ _ _
  · rw [getDeca_loadDeca hb, natAbs_signed]
    exact ⟨valPacked_mkPacked hm neg, legalPacked_mkPacked (by decide) m neg, rfl⟩

theorem loadsDeca_of_exec_int {z : Int} (hexec : exec i s = finish (.ok (loadDecaInt z s))) (hz : z.natAbs < 10 ^ 31) :
    LoadsDeca i s false z (decide (z < 0)) := by
  have h := loadsDeca_of_exec hexec hz
  rwa [signed_natAbs] at h

/-! ### Indeterminate results (R352, R353, U5) -/

theorem freeDeca_eq (s : State) : ∃ a b c d cc,
    freeDeca s = setCc (setReg (setReg (setReg (setReg { s with draws := s.draws + 5 } 12 a) 13 b) 14 c) 15 d) cc :=
  ⟨_, _, _, _, _, rfl⟩

theorem decimalFree_of_exec (hexec : exec i s = finish (.ok (freeDeca s))) : DecimalFree i s := by
  obtain ⟨a, b, c, d, cc, hfree⟩ := freeDeca_eq s
  refine ⟨_, cc, hexec, ?_⟩
  rw [EffectDrawn, hfree, setCc_draws, setReg_draws, setReg_draws, setReg_draws, setReg_draws]
  exact ((effect_decaRegs _ a b c d).setCc cc).ownValues fun _ => decaRegs_below

end Sys2Proof.Decimal
end

section
/-! DL, DA, DS and DM (45_decimal R349, R351, R352, R354), and what DC and DD check (R353, R355). -/

namespace Sys2Proof.Decimal

open Sys2Proof Machine Safety

variable {s : State} {r : BitVec 4} {m : MemRef} {n q : Nat}

theorem decimalLength_eq (r : BitVec 4) : decimalLength r = if r = 0 then 16 else r.toNat := by
  simp only [decimalLength, ← BitVec.toNat_inj]
  rfl

theorem decimalLength_bounds (r : BitVec 4) : 0 < decimalLength r ∧ decimalLength r ≤ 16 := by
  have hlt := r.isLt
  unfold decimalLength
  split <;> omega

/-! ### Sums and products -/

theorem loadsDeca_of_decimalSum {i : Instr} {z : Int} (hexec : exec i s = finish (decimalSum z s))
    (hz : z.natAbs < 10 ^ 31) : LoadsDeca i s false z (decide (z < 0)) :=
  loadsDeca_of_exec_int (by rw [hexec, decimalSum, if_neg (Nat.not_le.2 hz)]) hz

theorem decimalAborted_of_decimalSum {i : Instr} {z : Int} (hexec : exec i s = finish (decimalSum z s))
    (hz : 10 ^ 31 ≤ z.natAbs) : DecimalAborted i s false :=
  decimalAborted_of_exec (by rw [hexec, decimalSum, if_pos hz, decimalOverflow])

theorem multiplyPrepared_iff :
    multiplyPrepared n s = true ↔ legalPacked (getDeca s) 16 = true ∧ getDeca s < 16 ^ 16 ∧ n ≤ 8 := by
  simp only [multiplyPrepared, Bool.and_eq_true, beq_iff_eq, decide_eq_true_iff, getDeca_lt_half_iff, and_assoc]

/-- Leading zeros of the nibbles are leading zeros of the number. -/
theorem fromDigits_lt_of_lt {j k x : Nat} (hdigits : AllDigits k x) (hx : x < 16 ^ j) : fromDigits k x < 10 ^ j := by
  induction k generalizing j x with
  | zero => exact Nat.pow_pos (by decide)
  | succ k ih =>
    obtain ⟨hlow, hhigh⟩ := allDigits_succ.1 hdigits
    rw [fromDigits]
    cases j with
    | zero =>
      have hrest := ih (j := 0) hhigh (by omega)
      omega
    | succ j =>
      have hrest := ih (j := j) hhigh (by omega)
      omega

/-- The multiplicand that DM is prepared for has at most 15 digits. -/
theorem magPacked_lt_of_half {d : Nat} (h : legalPacked d 16 = true) (hd : d < 16 ^ 16) : magPacked d 16 < 10 ^ 15 :=
  fromDigits_lt_of_lt ((legalPacked_iff (by decide)).1 h).1 (by omega)

theorem product_lt {d : Nat} (hn : 0 < n) (hq : legalPacked q n = true) (h8 : n ≤ 8) (hd : legalPacked d 16 = true)
    (hlow : d < 16 ^ 16) : (valPacked d 16 * valPacked q n).natAbs < 10 ^ 31 := by
  rw [Int.natAbs_mul, natAbs_valPacked, natAbs_valPacked]
  calc magPacked d 16 * magPacked q n
    _ < 10 ^ 15 * 10 ^ 15 := Nat.mul_lt_mul'' (magPacked_lt_of_half hd hlow) (magPacked_lt_of_le hn h8 hq)
    _ ≤ 10 ^ 31 := by decide

/-! ### The instructions with a decimal operand -/

section Operand

variable (hn : decimalLength r = n) (hoption : s.cfg.hasDecimal = true) (hq : decimalOperand r m s = .ok q)
include hn hoption hq

theorem checked_dl : Checked (.dl r m) s (legalPacked q n) (.ok (loadDeca (magPacked q n) (negPacked q) false s)) := by
  subst hn
  exact checked_of_exec rfl hoption hq rfl

theorem checked_da :
    Checked (.da r m) s (legalPacked q n && legalPacked (getDeca s) 16)
      (decimalSum (valPacked (getDeca s) 16 + valPacked q n) s) := by
  subst hn
  exact checked_of_exec rfl hoption hq rfl

theorem checked_ds :
    Checked (.ds r m) s (legalPacked q n && legalPacked (getDeca s) 16)
      (decimalSum (valPacked (getDeca s) 16 - valPacked q n) s) := by
  subst hn
  exact checked_of_exec rfl hoption hq rfl

theorem checked_dm :
    Checked (.dm r m) s (legalPacked q n && hasSignCode (getDeca s))
      (if !multiplyPrepared n s then .ok (freeDeca s)
        else .ok (loadDecaInt (valPacked (getDeca s) 16 * valPacked q n) s)) := by
  subst hn
  exact checked_of_exec rfl hoption hq rfl

theorem checked_dd :
    Checked (.dd r m) s (legalPacked q n && hasSignCode (getDeca s))
      (if !legalPacked (getDeca s) 16 then .ok (freeDeca s)
        else if decimalDivideOverflows s.cfg n (magPacked (getDeca s) 16) (magPacked q n) then decimalOverflow s
        else if divisorTooLong n (magPacked q n) then .ok (freeDeca s)
        else .ok (loadQuotient (magPacked (getDeca s) 16) (magPacked q n) (negPacked (getDeca s)) (negPacked q) s)) := by
  subst hn
  exact checked_of_exec rfl hoption hq rfl

theorem checked_dc :
    Checked (.dc r m) s (legalPacked q n && legalPacked (getDeca s) 16)
      (.ok (setCc34 (valPacked q n < valPacked (getDeca s) 16) (valPacked (getDeca s) 16 < valPacked q n)
        (setCc12 false false s))) := by
  subst hn
  exact checked_of_exec rfl hoption hq rfl

/-- Every one of them checks the operand, and beside it nothing, DECA, or that DECA has a sign code. -/
theorem exists_checked :
    (∀ i ∈ [Instr.dl r m, .da r m, .ds r m, .dm r m, .dd r m, .dc r m],
      ∃ other x, Checked i s (legalPacked q n && other) x) ∧
    (∀ i ∈ [Instr.da r m, .ds r m, .dc r m], ∃ x, Checked i s (legalPacked q n && legalPacked (getDeca s) 16) x) ∧
    (∀ i ∈ [Instr.dm r m, .dd r m], ∃ x, Checked i s (legalPacked q n && hasSignCode (getDeca s)) x) := by
  have hdl := checked_dl hn hoption hq
  rw [← Bool.and_true (legalPacked q n)] at hdl
  have hda := checked_da hn hoption hq
  have hds := checked_ds hn hoption hq
  have hdm := checked_dm hn hoption hq
  have hdd := checked_dd hn hoption hq
  have hdc := checked_dc hn hoption hq
  simp only [List.forall_mem_cons, List.not_mem_nil, false_imp_iff, implies_true, and_true]
  exact ⟨⟨⟨_, _, hdl⟩, ⟨_, _, hda⟩, ⟨_, _, hds⟩, ⟨_, _, hdm⟩, ⟨_, _, hdd⟩, ⟨_, _, hdc⟩⟩, ⟨⟨_, hda⟩, ⟨_, hds⟩, ⟨_, hdc⟩⟩,
    ⟨_, hdm⟩, ⟨_, hdd⟩⟩

theorem loadsDeca_dl (hlegal : legalPacked q n = true) : LoadsDeca (.dl r m) s false (valPacked q n) (negPacked q) := by
  obtain ⟨hpos, hle⟩ := hn ▸ decimalLength_bounds r
  exact loadsDeca_of_exec ((checked_dl hn hoption hq).exec_eq hlegal) (magPacked_lt_of_le hpos hle hlegal)

theorem loadsDeca_dm (hlegal : legalPacked q n = true) (hdeca : legalPacked (getDeca s) 16 = true) (h8 : n ≤ 8)
    (hlow : getDeca s < 16 ^ 16) :
    LoadsDeca (.dm r m) s false (valPacked (getDeca s) 16 * valPacked q n)
      (decide (valPacked (getDeca s) 16 * valPacked q n < 0)) := by
  obtain ⟨hpos, -⟩ := hn ▸ decimalLength_bounds r
  have hexec := (checked_dm hn hoption hq).exec_eq (by rw [hlegal, hasSignCode_of_legalPacked hdeca]; rfl)
  rw [multiplyPrepared_iff.2 ⟨hdeca, hlow, h8⟩] at hexec
  exact loadsDeca_of_exec_int hexec (product_lt hpos hlegal h8 hdeca hlow)

theorem decimalFree_dm (hlegal : legalPacked q n = true) (hsign : hasSignCode (getDeca s) = true)
    (h : multiplyPrepared n s = false) : DecimalFree (.dm r m) s := by
  have hexec := (checked_dm hn hoption hq).exec_eq (by rw [hlegal, hsign]; rfl)
  rw [h] at hexec
  exact decimalFree_of_exec hexec

end Operand

/-- Settles O36: each instruction is its check, and then a load of DECA, an overflow, or free values. -/
theorem decimalArithmetic : Obligations.DecimalArithmetic := by
  intro r m s q hoption hq p n y d x loads
  have hn : decimalLength r = n := decimalLength_eq r
  obtain ⟨hoperand, hdeca, hsign⟩ := exists_checked hn hoption hq
  refine ⟨loadsDeca_dl hn hoption hq, fun hlegal hd => ?legal, fun hillegal i hi => ?operand, fun hillegal i hi => ?deca,
    fun hdigits i hi => ?noSign, fun k hk hlegal hcode hunprepared => ?free⟩
  case legal =>
    have hboth : (legalPacked q n && legalPacked d 16) = true := by rw [hlegal, hd]; rfl
    have hda := (checked_da hn hoption hq).exec_eq hboth
    have hds := (checked_ds hn hoption hq).exec_eq hboth
    exact ⟨loadsDeca_of_decimalSum hda, loadsDeca_of_decimalSum hds, loadsDeca_dm hn hoption hq hlegal hd,
      decimalAborted_of_decimalSum hda, decimalAborted_of_decimalSum hds⟩
  case operand =>
    obtain ⟨other, x, hi⟩ := hoperand i hi
    exact hi.aborted (by rw [hillegal, Bool.false_and])
  case deca =>
    obtain ⟨x, hi⟩ := hdeca i hi
    exact hi.aborted (by rw [hillegal, Bool.and_false])
  case noSign =>
    obtain ⟨x, hi⟩ := hsign i hi
    refine hi.aborted (Bool.and_eq_false_imp.2 fun _ => Bool.eq_false_iff.2 fun h => ?_)
    obtain ⟨j, hj, hcode⟩ := hasSignCode_iff.1 h
    exact absurd (Nat.le_trans hcode (hdigits j hj)) (by decide)
  case free =>
    refine decimalFree_dm hn hoption hq hlegal (hasSignCode_iff.2 ⟨k, hk, hcode⟩) (Bool.eq_false_iff.2 fun h => ?_)
    obtain ⟨hd, hlow, h8⟩ := multiplyPrepared_iff.1 h
    obtain hillegal | hhigh | hlong := hunprepared
    · exact absurd hd (Bool.eq_false_iff.1 hillegal)
    · exact absurd hlow (Nat.not_lt.2 hhigh)
    · exact absurd h8 (Nat.not_le.2 hlong)

end Sys2Proof.Decimal
end

section
/-! DD and DC (45_decimal R353, R355). -/

namespace Sys2Proof.Decimal

open Sys2Proof Machine Safety

variable {s : State} {r : BitVec 4} {m : MemRef} {n q a b : Nat} {i : Instr}

/-! ### Quotients and remainders with signs -/

theorem tdiv_signed (aneg bneg : Bool) (a b : Nat) :
    (signed aneg a).tdiv (signed bneg b) = signed (aneg != bneg) (a / b) := by
  cases aneg <;> cases bneg <;> simp [signed, Int.neg_tdiv, Int.tdiv_neg]

theorem tmod_signed (aneg bneg : Bool) (a b : Nat) : (signed aneg a).tmod (signed bneg b) = signed aneg (a % b) := by
  cases aneg <;> cases bneg <;> simp [signed, Int.neg_tmod, Int.tmod_neg, Int.tmod_eq_emod_of_nonneg]

/-- The overflow test of R353 by its three reasons. -/
theorem decimalDivideOverflows_iff {c : Installation} :
    decimalDivideOverflows c n a b = true ↔
      b = 0 ∨ 10 ^ 15 ≤ a / b ∨ (decide (8 < n) = true ∧ c.ddLongDivisorOverflows = true) := by
  have hquotient (hb : 0 < b) : b ≤ a / 10 ^ 15 ↔ 10 ^ 15 ≤ a / b := by
    rw [Nat.le_div_iff_mul_le (by decide), Nat.le_div_iff_mul_le hb, Nat.mul_comm]
  obtain rfl | hb := Nat.eq_zero_or_pos b
  · simp [decimalDivideOverflows]
  · simp only [decimalDivideOverflows, Bool.or_eq_true, Bool.and_eq_true, beq_iff_eq, decide_eq_true_iff, hquotient hb,
      or_assoc]

/-- A legal divisor of more than 15 digits has more than 8 bytes. -/
theorem divisorTooLong_iff (hn : 0 < n) (hq : legalPacked q n = true) :
    divisorTooLong n (magPacked q n) = true ↔ 10 ^ 15 ≤ magPacked q n := by
  have hlong (h : 10 ^ 15 ≤ magPacked q n) : 8 < n := by
    by_contra h8
    exact absurd (magPacked_lt_of_le hn (Nat.not_lt.1 h8) hq) (Nat.not_lt.2 h)
  rw [divisorTooLong, Bool.and_eq_true, decide_eq_true_iff, decide_eq_true_iff]
  exact ⟨And.right, fun h => ⟨hlong h, h⟩⟩

/-! ### The result of DD -/

/-- Two numbers of 8 bytes side by side. -/
theorem halves_eq {x y : Nat} (hy : y < 256 ^ 8) :
    (x * 256 ^ 8 + y) % 256 ^ 8 = y ∧ (x * 256 ^ 8 + y) / 256 ^ 8 = x := by omega

/-- DD leaves the truncated quotient `z` and its remainder, as long as both have at most 15 digits. -/
theorem divides_of_exec {x y : Int} {aneg bneg : Bool} (hx : x = signed aneg a) (hy : y = signed bneg b)
    (hexec : exec i s = finish (.ok (loadQuotient a b aneg bneg s))) (hquotient : a / b < 10 ^ 15)
    (hremainder : a % b < 10 ^ 15) :
    ∃ t, exec i s = .next t ∧ Effect s t s.psd.ia (ccSign false false (x.tdiv y)) (ownDeca t) noBytes ∧
      (blockInstalled s = true →
        valPacked (getDeca t % 256 ^ 8) 8 = x.tdiv y ∧ valPacked (getDeca t / 256 ^ 8) 8 = x.tmod y ∧
        getDeca t = mkPacked (a % b) aneg 8 * 256 ^ 8 + mkPacked (a / b) (decide (x.tdiv y < 0)) 8) := by
  have hsign : decide (x.tdiv y < 0) = (a / b != 0 && (aneg != bneg)) := by rw [hx, hy, tdiv_signed, signed_neg]
  have hz : signed (decide (x.tdiv y < 0)) (a / b) = x.tdiv y := by
    rw [← natAbs_signed (aneg != bneg) (a / b), ← tdiv_signed, ← hx, ← hy, signed_natAbs]
  refine ⟨_, hexec, ?_, fun hb => ?_⟩
  · have hcc4 : (a / b != 0 && decide (x.tdiv y < 0)) = decide (x.tdiv y < 0) := by
      rw [hsign, ← Bool.and_assoc, Bool.and_self]
    rw [← hz, ccSign_signed, hcc4, hsign]
    exact effect_loadDeca s _ _ _ _ _
  · have hlow : mkPacked (a / b) (decide (x.tdiv y < 0)) 8 < 256 ^ 8 := mkPacked_lt (by decide) _ _
    have hhigh : mkPacked (a % b) aneg 8 < 256 ^ 8 := mkPacked_lt (by decide) _ _
    obtain ⟨hmod, hdiv⟩ := halves_eq (x := mkPacked (a % b) aneg 8) hlow
    rw [loadQuotient, getDeca_setCc, ← hsign, getDeca_setDeca hb (by omega), hmod, hdiv, valPacked_mkPacked hquotient,
      valPacked_mkPacked hremainder]
    exact ⟨hz, by rw [hx, hy, tmod_signed]; rfl, rfl⟩

/-- A comparison of two integers sets the condition code alone (R355). -/
theorem completes_compare {x y : Int} (hexec : exec i s = finish (.ok (setCc34 (y < x) (x < y) (setCc12 false false s)))) :
    Completes i s s.psd.ia (ccOf false false (decide (y < x)) (decide (x < y))) noRegs noBytes :=
  ⟨_, hexec, ((effect_refl s).setCc12 false false).setCc34 _ _⟩

/-- Settles O37: with a legal operand DD divides unless it overflows or is indeterminate, and DC compares. -/
theorem decimalDivideCompare : Obligations.DecimalDivideCompare := by
  intro r m s q hoption hq p n d dividend divisor long overflows hlegal
  have hn : decimalLength r = n := decimalLength_eq r
  obtain ⟨hpos, -⟩ := hn ▸ decimalLength_bounds r
  have hdd (hsign : hasSignCode d = true) := (checked_dd hn hoption hq).exec_eq (by rw [hlegal, hsign]; rfl)
  refine ⟨fun hd => ?legal, fun k hk hillegal hcode => ?illegal⟩
  case illegal =>
    have hexec := hdd (hasSignCode_iff.2 ⟨k, hk, hcode⟩)
    rw [if_pos (by rw [hillegal]; rfl)] at hexec
    exact decimalFree_of_exec hexec
  case legal =>
    have hexec := hdd (hasSignCode_of_legalPacked hd)
    have hover : decimalDivideOverflows s.cfg n dividend divisor = true ↔ overflows := decimalDivideOverflows_iff
    have htooLong := divisorTooLong_iff hpos hlegal
    rw [if_neg (by rw [hd]; decide)] at hexec
    refine ⟨fun ho => ?overflow, fun ho hlong => ?free, fun ho hshort => ?divides, ?compare⟩
    case overflow =>
      rw [if_pos (hover.2 ho)] at hexec
      exact decimalAborted_of_exec hexec
    case free =>
      rw [if_neg (mt hover.1 ho), if_pos (htooLong.2 hlong)] at hexec
      exact decimalFree_of_exec hexec
    case divides =>
      rw [if_neg (mt hover.1 ho), if_neg (mt htooLong.1 (Nat.not_le.2 hshort))] at hexec
      have hdivisor : divisor ≠ 0 := fun h => ho (.inl h)
      have hquotient : dividend / divisor < 10 ^ 15 := Nat.not_le.1 fun h => ho (.inr (.inl h))
      have hremainder : dividend % divisor < 10 ^ 15 :=
        Nat.lt_trans (Nat.mod_lt _ (Nat.pos_of_ne_zero hdivisor)) hshort
      exact divides_of_exec (valPacked_eq d 16) (valPacked_eq q n) hexec hquotient hremainder
    case compare =>
      exact completes_compare ((checked_dc hn hoption hq).exec_eq (by rw [hlegal, hd]; rfl))

end Sys2Proof.Decimal
end

section
/-! Consecutive bytes stored: each one where its address is located, and nothing else (20_memory R81, 45_decimal R348). -/

namespace Sys2Proof.Decimal

open Sys2Proof Machine Safety

variable {s t u : State} {a : ByteAddr} {b : Byte} {l : Loc} {rest bytes : List Byte}

/-! ### Bytes of words -/

theorem byteOf_setByte (v : Word) (k j : BitVec 2) (b : Byte) :
    byteOf (setByte v k b) j = if j = k then b else byteOf v j := by
  have hk := k.isLt
  have hj := j.isLt
  unfold byteOf setByte
  split
  next h => rw [h, fld_setFld_same v _ b (by omega)]
  next h => exact fld_setFld_other v _ b _ 8 (by omega) (by bv_omega)

/-- A byte of a register after a store of a byte. -/
theorem byteOf_locSetByte (s : State) (l : Loc) (k j : BitVec 2) (b : Byte) (r : RegNum) :
    byteOf (getReg (locSetByte s l k b) r) j =
      if (l = .reg r ∧ j = k) ∧ blockInstalled s = true then b else byteOf (getReg s r) j := by
  cases l with
  | core c =>
    rw [if_neg fun ⟨⟨h, _⟩, _⟩ => Loc.noConfusion h, (effect_locSetByte s (.core c) k b).getReg_unwritten rfl]
  | reg q =>
    rw [locSetByte, getReg_setReg]
    by_cases hq : q = r
    · subst hq
      by_cases hb : blockInstalled s = true <;> simp [hb, byteOf_setByte]
    · simp [hq, Ne.symm hq]

/-- A byte of core memory after a store of a byte. -/
theorem memByte_locSetByte (s : State) (l : Loc) (k : BitVec 2) (b : Byte) (x : Nat) :
    memByte (locSetByte s l k b).mem x = (locBytesByte l k b x).getD (memByte s.mem x) :=
  (effect_locSetByte s l k b).2.1 x

/-! ### Places of bytes -/

/-- The actual address of a byte is that of its word and its number in the word. -/
theorem coreByte_eq_some {x : Nat} : coreByte s a = some x ↔
    ∃ c, locate (programPath s) .write (fld a 0 17) s = .ok (.core c) ∧
      4 * c.toNat + (fld a 17 2 : BitVec 2).toNat = x := by
  unfold coreByte
  split
  next c h => simp [h]
  next h => exact ⟨nofun, fun ⟨c, hc, _⟩ => absurd hc (h c)⟩

/-- A byte of core memory is written when it is the one at the address. -/
theorem locBytesByte_of_coreByte (hl : locate (programPath s) .write (fld a 0 17) s = .ok l) (x : Nat) :
    locBytesByte l (fld a 17 2) b x = if coreByte s a = some x then some b else none := by
  cases l with
  | reg r => simp [locBytesByte, noBytes, coreByte_eq_some, hl]
  | core c => simp [locBytesByte, coreByte_eq_some, hl, eq_comm (a := x)]

/-- Byte addresses less than a page apart have different places: another byte of the word, or another word. -/
theorem locate_byte_ne {i : Nat} (hi : i < 2047) (hl : locate (programPath s) .write (fld a 0 17) s = .ok l)
    (hl' : locate (programPath s) .write (fld (a + BitVec.ofNat 19 (i + 1)) 0 17) s = .ok l) :
    (fld (a + BitVec.ofNat 19 (i + 1)) 17 2 : BitVec 2) ≠ fld a 17 2 := by
  intro hbyte
  have hword := locate_same hl hl'
  have hnumber := congrArg BitVec.toNat hbyte
  simp only [toNat_fld, BitVec.toNat_add, BitVec.toNat_ofNat] at hword hnumber
  omega

/-- Translation and protection are the same after the first byte, so the addresses after it are located as before. -/
theorem locate_byte_after (h : SameMapping s u) (i : Nat) (l : Loc) :
    locate (programPath u) .write (fld (a + 1 + BitVec.ofNat 19 i) 0 17) u = .ok l ↔
      locate (programPath s) .write (fld (a + BitVec.ofNat 19 (i + 1)) 0 17) s = .ok l := by
  rw [programPath_congr h, locate_congr h, LoadStore.add_ofNat_succ]

theorem coreByte_after (h : SameMapping s u) (i x : Nat) :
    coreByte u (a + 1 + BitVec.ofNat 19 i) = some x ↔ coreByte s (a + BitVec.ofNat 19 (i + 1)) = some x := by
  simp only [coreByte_eq_some, locate_byte_after h, LoadStore.add_ofNat_succ]

theorem coreByte_after_ne {i x : Nat} (hi : i < 2047) (hx : coreByte s a = some x) :
    coreByte s (a + BitVec.ofNat 19 (i + 1)) ≠ some x := by
  intro hx'
  obtain ⟨c, hc, hplace⟩ := coreByte_eq_some.1 hx
  obtain ⟨c', hc', hplace'⟩ := coreByte_eq_some.1 hx'
  have hsame : c' = c ∧ (fld (a + BitVec.ofNat 19 (i + 1)) 17 2 : BitVec 2) = fld a 17 2 := by bv_omega
  obtain ⟨rfl, hbyte⟩ := hsame
  exact locate_byte_ne hi hc hc' hbyte

/-! ### Bytes stored one after another -/

/-- A byte stored and then, after it, the bytes of the following addresses. -/
theorem storedBytes_cons (hlen : rest.length < 2048) (hl : locate (programPath s) .write (fld a 0 17) s = .ok l)
    (h : StoredBytes (locSetByte s l (fld a 17 2) b) t (a + 1) rest) : StoredBytes s t a (b :: rest) := by
  have hmap := sameMapping_locSetByte s l (fld a 17 2) b
  have hzero : a + BitVec.ofNat 19 0 = a := BitVec.add_zero a
  obtain ⟨hcore, hreg, hcoreRest, hregRest, hrest⟩ := h
  refine ⟨fun i hi x hx => ?coreStored, fun i hi k hk hb => ?regStored, fun x hx => ?coreKept, fun k j hj => ?regKept,
    (sameRest_locSetByte (sameRest_refl s) l _ b).trans hrest⟩
  case coreStored =>
    cases i with
    | zero =>
      rw [hzero] at hx
      have hlast := hcoreRest x fun i hi => mt (coreByte_after hmap i x).1 (coreByte_after_ne (by omega) hx)
      rw [hlast, memByte_locSetByte, locBytesByte_of_coreByte hl, if_pos hx]
      rfl
    | succ i => exact hcore i (Nat.lt_of_succ_lt_succ hi) x ((coreByte_after hmap i x).2 hx)
  case regStored =>
    cases i with
    | zero =>
      rw [hzero] at hk ⊢
      obtain rfl : l = .reg k := Except.ok.inj (hl.symm.trans hk)
      have hlast := hregRest k (fld a 17 2) fun i hi hi' => by
        rw [← LoadStore.add_ofNat_succ]
        exact locate_byte_ne (by omega) hl ((locate_byte_after hmap i _).1 hi')
      rw [hlast, byteOf_locSetByte, if_pos ⟨⟨rfl, rfl⟩, hb⟩]
      rfl
    | succ i =>
      have hlater := hreg i (Nat.lt_of_succ_lt_succ hi) k ((locate_byte_after hmap i _).2 hk)
        ((blockInstalled_locSetByte s l _ b).trans hb)
      rwa [← LoadStore.add_ofNat_succ] at hlater
  case coreKept =>
    have hlater := hcoreRest x fun i hi => mt (coreByte_after hmap i x).1 (hx (i + 1) (Nat.succ_lt_succ hi))
    have hfirst := hx 0 (Nat.succ_pos _)
    rw [hzero] at hfirst
    rw [hlater, memByte_locSetByte, locBytesByte_of_coreByte hl, if_neg hfirst]
    rfl
  case regKept =>
    have hlater := hregRest k j fun i hi hi' => by
      rw [← LoadStore.add_ofNat_succ]
      exact hj (i + 1) (Nat.succ_lt_succ hi) ((locate_byte_after hmap i _).1 hi')
    have hfirst := hj 0 (Nat.succ_pos _)
    rw [hzero] at hfirst
    rw [hlater, byteOf_locSetByte, if_neg]
    rintro ⟨⟨rfl, rfl⟩, -⟩
    exact hfirst hl rfl

/-- At most a page of bytes is stored at addresses that may all be stored to. -/
theorem storeBytes_spec (hlen : bytes.length ≤ 2048) (h : BytesWritable s bytes.length a) :
    ∃ t, storeBytes bytes a s = .ok t ∧ t.psd = s.psd ∧ StoredBytes s t a bytes := by
  induction bytes generalizing a s with
  | nil =>
    exact ⟨s, rfl, rfl, fun i hi => absurd hi (Nat.not_lt_zero i), fun i hi => absurd hi (Nat.not_lt_zero i),
      fun _ _ => rfl, fun _ _ _ => rfl, sameRest_refl s⟩
  | cons b rest ih =>
    obtain ⟨l, hl⟩ := h 0 (Nat.succ_pos _)
    rw [show a + BitVec.ofNat 19 0 = a from BitVec.add_zero a] at hl
    have hmap := sameMapping_locSetByte s l (fld a 17 2) b
    obtain ⟨t, ht, hpsd, hstored⟩ := ih (s := locSetByte s l (fld a 17 2) b) (a := a + 1)
      (Nat.le_of_succ_le hlen) fun i hi => by
        obtain ⟨l', hl'⟩ := h (i + 1) (Nat.succ_lt_succ hi)
        exact ⟨l', (locate_byte_after hmap i l').2 hl'⟩
    exact ⟨t, by rw [storeBytes, writeByte_ok hl, ok_bind, ht], hpsd.trans (locSetByte_psd s l _ b),
      storedBytes_cons hlen hl hstored⟩

/-- The condition code set after the stores. -/
theorem storedBytes_setCc12 (h : StoredBytes s t a bytes) (c1 c2 : Bool) : StoredBytes s (setCc12 c1 c2 t) a bytes := by
  obtain ⟨hcore, hreg, hcoreRest, hregRest, hregs, hrest⟩ := h
  exact ⟨hcore, hreg, hcoreRest, hregRest, hregs, hrest⟩

end Sys2Proof.Decimal
end

section
/-! DSA, PACK, DST and UNPK (45_decimal R350, R356 to R358). -/

namespace Sys2Proof.Decimal

open Sys2Proof Machine Safety

variable {s : State} {r : BitVec 4} {m : MemRef} {n : Nat} {a : ByteAddr} {i : Instr} {bytes : List Byte}

/-! ### The bytes to be stored -/

/-- The number that bytes make behind `x`, the high-order one first. -/
def bytesNumber (x : Nat) (bytes : List Byte) : Nat := bytes.foldl (fun x b => x * 256 + b.toNat) x

theorem bytesNumber_div (x : Nat) (bytes : List Byte) : bytesNumber x bytes / 256 ^ bytes.length = x := by
  induction bytes generalizing x with
  | nil => exact Nat.div_one x
  | cons b rest ih =>
    have hhead : (x * 256 + b.toNat) / 256 = x := by omega
    rw [List.length_cons, Nat.pow_succ, ← Nat.div_div_eq_div_mul, bytesNumber, List.foldl_cons]
    exact (congrArg (· / 256) (ih _)).trans hhead

/-- The low-order bytes of the number that bytes make are these bytes. -/
theorem lowBytes_bytesNumber (x : Nat) (bytes : List Byte) : lowBytes bytes.length (bytesNumber x bytes) = bytes := by
  induction bytes generalizing x with
  | nil => rfl
  | cons b rest ih =>
    have hhead : BitVec.ofNat 8 (x * 256 + b.toNat) = b := by
      apply BitVec.eq_of_toNat_eq
      rw [BitVec.toNat_ofNat]
      omega
    rw [List.length_cons, bytesNumber, List.foldl_cons, lowBytes]
    exact congrArg₂ _ ((congrArg _ (bytesNumber_div _ rest)).trans hhead) (ih _)

theorem length_zonedBytes (sign k q : Nat) : (zonedBytes sign k q).length = k := by
  induction k with
  | zero => rfl
  | succ k ih => rw [zonedBytes, List.length_cons, ih]

theorem toNat_zonedBytes {sign k q j : Nat} (hsign : sign < 16) (h : j < (zonedBytes sign k q).length) :
    ((zonedBytes sign k q)[j]).toNat = (if j + 1 = k then sign else 15) * 16 + q / 16 ^ (k - 1 - j) % 16 := by
  induction k generalizing j with
  | zero => exact absurd h (Nat.not_lt_zero j)
  | succ k ih =>
    cases j with
    | zero =>
      have hlast : 0 + 1 = k + 1 ↔ k = 0 := by omega
      simp only [zonedBytes, List.getElem_cons_zero, BitVec.toNat_ofNat, hlast, Nat.add_sub_cancel, Nat.sub_zero]
      split <;> omega
    | succ j =>
      have hplace : k + 1 - 1 - (j + 1) = k - 1 - j := by omega
      simp only [zonedBytes, List.getElem_cons_succ, hplace, Nat.add_right_cancel_iff]
      exact ih _

theorem negPacked_mod (hn : 0 < n) (d : Nat) : negPacked (d % 256 ^ n) = negPacked d := by
  have hdvd : 16 ∣ 256 ^ n := Dvd.dvd.trans (by decide) (dvd_pow_self 256 (Nat.ne_of_gt hn))
  rw [negPacked, negPacked, Nat.mod_mod_of_dvd d hdvd]

/-- DST stores the low-order part of the accumulator with the generated sign code (R350). -/
theorem lowBytes_mkPacked (hn : 0 < n) {d : Nat} (hlow : legalPacked (d % 256 ^ n) n = true) (hlen : bytes.length = n)
    (hnumber : bytesNumber 0 bytes = d % 256 ^ n / 16 * 16 + if negPacked d then 13 else 12) :
    lowBytes n (mkPacked (magPacked (d % 256 ^ n) n) (negPacked (d % 256 ^ n)) n) = bytes := by
  rw [mkPacked_magPacked hn hlow (Nat.mod_lt _ (Nat.pow_pos (by decide))), negPacked_mod hn, ← hnumber, ← hlen]
  exact lowBytes_bytesNumber 0 bytes

/-- UNPK stores the digits as zoned bytes, the sign being the zone of the last one (R358). -/
theorem zonedBytes_eq {d : Nat} {neg : Bool} (hn : 0 < n) (hlen : bytes.length = 2 * n - 1)
    (hbytes : ∀ j (h : j < bytes.length),
      bytes[j].toNat = (if j = 2 * n - 2 then (if neg then 13 else 12) else 15) * 16 + d / 16 ^ (2 * n - 1 - j) % 16) :
    zonedBytes (if neg then 13 else 12) (2 * n - 1) (d / 16) = bytes := by
  refine List.ext_getElem ((length_zonedBytes ..).trans hlen.symm) fun j hj hj' => BitVec.eq_of_toNat_eq ?_
  have hlast : j + 1 = 2 * n - 1 ↔ j = 2 * n - 2 := by omega
  have hplace : 2 * n - 1 - j = 2 * n - 1 - 1 - j + 1 := by omega
  have hsign : (if neg then 13 else 12) < 16 := by cases neg <;> decide
  rw [toNat_zonedBytes hsign hj, hbytes j hj', hplace, Nat.pow_succ', ← Nat.div_div_eq_div_mul]
  simp only [hlast]

/-! ### Storing and loading -/

/-- The instruction stores these bytes from `a` on and sets CC1 to 0 and CC2 as given. -/
def StoresBytes (i : Instr) (s : State) (a : ByteAddr) (bytes : List Byte) (cc2 : Bool) : Prop :=
  ∃ t, exec i s = .next t ∧ StoredBytes s t a bytes ∧ t.psd.ia = s.psd.ia ∧
    ccBits t.psd = ccOf false cc2 s.psd.cc3 s.psd.cc4

theorem storesBytes_of_exec {cc2 : Bool} (hexec : exec i s = finish (storeOperand bytes a s >>= fun t =>
      .ok (setCc12 false cc2 t))) (hlen : bytes.length ≤ 2048) (h : BytesWritable s bytes.length a) :
    StoresBytes i s a bytes cc2 := by
  obtain ⟨t, ht, hpsd, hstored⟩ := storeBytes_spec hlen h
  have hstore : storeOperand bytes a s = .ok t := by rw [storeOperand, ht]
  refine ⟨setCc12 false cc2 t, by rw [hexec, hstore, ok_bind, finish_ok], storedBytes_setCc12 hstored false cc2, ?_, ?_⟩
  · rw [setCc12_psd_ia, hpsd]
  · rw [ccBits_eq, setCc12_psd_cc1, setCc12_psd_cc2, setCc12_psd_cc3, setCc12_psd_cc4, hpsd]

/-- A part of the accumulator above its `n` low-order bytes is not zero. -/
theorem div_bne_zero (d n : Nat) : (d / 256 ^ n != 0) = decide (256 ^ n ≤ d) := by
  rw [Bool.eq_iff_iff, bne_iff_ne, decide_eq_true_iff, Nat.div_ne_zero_iff]
  exact ⟨And.right, fun h => ⟨Nat.ne_of_gt (Nat.pow_pos (by decide)), h⟩⟩

section Instructions

variable (hn : decimalLength r = n) (hoption : s.cfg.hasDecimal = true) (ha : eaByte m s = .ok a)
include hoption ha

theorem checked_dsa {c : Int} (hc : decimalShiftCount a = c) :
    Checked (.dsa r m) s (legalPacked (getDeca s) 16)
      (if 0 ≤ c then
        .ok (loadDeca (magPacked (getDeca s) 16 * 10 ^ c.toNat % 10 ^ 31) (negPacked (getDeca s))
          (decide (10 ^ 31 ≤ magPacked (getDeca s) 16 * 10 ^ c.toNat)) s)
      else .ok (loadDeca (magPacked (getDeca s) 16 / 10 ^ (-c).toNat) (negPacked (getDeca s)) false s)) := by
  subst hc
  exact checked_of_exec rfl hoption ha rfl

include hn

theorem checked_pack {z q : Nat} (hz : readBytes s (2 * n - 1) a 0 = .ok z)
    (hq : q = packZoned (2 * n - 1) z * 16 + z / 16 % 16) :
    Checked (.pack r m) s (legalPacked q n) (.ok (loadDeca (magPacked q n) (negPacked q) false s)) := by
  subst hn hq
  exact checked_of_exec rfl hoption ha (by dsimp only; rw [hz, ok_bind])

theorem checked_dst :
    Checked (.dst r m) s (legalPacked (getDeca s % 256 ^ n) n)
      (storeOperand (lowBytes n (mkPacked (magPacked (getDeca s % 256 ^ n) n) (negPacked (getDeca s % 256 ^ n)) n)) a s >>=
        fun t => .ok (setCc12 false (getDeca s / 256 ^ n != 0) t)) := by
  subst hn
  exact checked_of_exec rfl hoption ha rfl

theorem checked_unpk :
    Checked (.unpk r m) s (legalPacked (getDeca s) 16)
      (storeOperand (zonedBytes (if negPacked (getDeca s) then 13 else 12) (2 * n - 1) (getDeca s / 16)) a s >>=
        fun t => .ok (setCc12 false (getDeca s / 256 ^ n != 0) t)) := by
  subst hn
  exact checked_of_exec rfl hoption ha rfl

end Instructions

/-- Settles O38: each instruction is its check, and then a load of DECA or the stores of its bytes. -/
theorem decimalMove : Obligations.DecimalMove := by
  intro r m s a hoption ha p n d mag c sign code loads stores
  have hn : decimalLength r = n := decimalLength_eq r
  obtain ⟨hpos, hle⟩ := hn ▸ decimalLength_bounds r
  have hdsa := checked_dsa (r := r) (c := c) hoption ha rfl
  have hdst := checked_dst hn hoption ha
  have hunpk := checked_unpk hn hoption ha
  refine ⟨fun hd hc => ?left, fun hd hc => ?right, fun hd => ⟨hdsa.aborted hd, hunpk.aborted hd⟩,
    fun z hz => ⟨fun hlegal => ?pack, (checked_pack hn hoption ha hz rfl).aborted⟩, hdst.aborted,
    fun bytes hlow hwritable hlen hnumber => ?dst, fun bytes hd hwritable hlen hbytes => ?unpk⟩
  case left =>
    have hexec := hdsa.exec_eq hd
    rw [if_pos hc] at hexec
    exact loadsDeca_of_exec hexec (Nat.mod_lt _ (by decide))
  case right =>
    have hexec := hdsa.exec_eq hd
    rw [if_neg (Int.not_le.2 hc)] at hexec
    exact loadsDeca_of_exec hexec (Nat.lt_of_le_of_lt (Nat.div_le_self _ _) (magPacked_lt (by decide) hd))
  case pack =>
    exact loadsDeca_of_exec ((checked_pack hn hoption ha hz rfl).exec_eq hlegal) (magPacked_lt_of_le hpos hle hlegal)
  case dst =>
    have hexec := hdst.exec_eq hlow
    rw [lowBytes_mkPacked hpos hlow hlen hnumber, div_bne_zero] at hexec
    exact storesBytes_of_exec hexec (by omega) (hlen.symm ▸ hwritable)
  case unpk =>
    have hexec := hunpk.exec_eq hd
    rw [zonedBytes_eq hpos hlen hbytes, div_bne_zero] at hexec
    exact storesBytes_of_exec hexec (by omega) (hlen.symm ▸ hwritable)

end Sys2Proof.Decimal
end

section
/-! The control registers of the byte-string instructions (46_byte_string R381, U8). -/

namespace Sys2Proof.ByteString

open Sys2Proof Machine Encoding

/-! ### The fields of a control register (R381) -/

/-- A new address stands beside the other bits of the word. -/
theorem setFld_address (w : Word) (a : ByteAddr) : setFld w 13 a = (fld w 0 13 : BitVec 13) ++ a := by
  have hparts : fld (setFld w 13 a) 0 13 ++ fld (setFld w 13 a) 13 19 = setFld w 13 a :=
    (fld_append_fld (setFld w 13 a) 0 13 19 (by decide)).trans (fld_whole _)
  rw [← hparts, fld_setFld_same w 13 a (by decide), fld_setFld_other w 13 a 0 13 (by decide) (by decide)]

/-- A new count or mask stands before the other bits of the word. -/
theorem setFld_count (w : Word) (c : Byte) : setFld w 0 c = c ++ (fld w 8 24 : BitVec 24) := by
  have hparts : fld (setFld w 0 c) 0 8 ++ fld (setFld w 0 c) 8 24 = setFld w 0 c :=
    (fld_append_fld (setFld w 0 c) 0 8 24 (by decide)).trans (fld_whole _)
  rw [← hparts, fld_setFld_same w 0 c (by decide), fld_setFld_other w 0 c 8 24 (by decide) (by decide)]

/-- With both fields new, bits 8 to 12 are what stays of the word. -/
theorem setFld_count_address (w : Word) (c : Byte) (a : ByteAddr) :
    setFld (setFld w 13 a) 0 c = c ++ (fld w 8 5 : BitVec 5) ++ a := by
  have hparts : fld (setFld w 13 a) 8 5 ++ fld (setFld w 13 a) 13 19 = fld (setFld w 13 a) 8 24 :=
    fld_append_fld (setFld w 13 a) 8 5 19 (by decide)
  rw [setFld_count, ← hparts, fld_setFld_same w 13 a (by decide), fld_setFld_other w 13 a 8 5 (by decide) (by decide),
    BitVec.append_assoc]
  rfl

/-- Of two writes to a register the second one stands. -/
theorem setReg_setReg (s : State) (r : RegNum) (v w : Word) : setReg (setReg s r v) r w = setReg s r w := by
  by_cases hb : blockInstalled s = true
  · have hb' : blockInstalled (setReg s r v) = true := (blockInstalled_setReg s r v).trans hb
    simp only [setReg, hb, if_true] at hb' ⊢
    simp [hb']
  · simp [setReg, hb]

theorem setAddressField_eq (r : RegNum) (a : ByteAddr) (s : State) :
    setAddressField r a s = setReg s r ((fld (getReg s r) 0 13 : BitVec 13) ++ a) := by
  rw [setAddressField, setFld_address]

theorem setCountField_eq (r : RegNum) (c : Byte) (s : State) :
    setCountField r c s = setReg s r (c ++ (fld (getReg s r) 8 24 : BitVec 24)) := by
  rw [setCountField, setFld_count]

/-- Count and address written to one register are one write; in a missing block it is none (U8). -/
theorem setCountField_setAddressField (q : RegNum) (c : Byte) (a : ByteAddr) (s : State) :
    setCountField q c (setAddressField q a s) = setReg s q (c ++ (fld (getReg s q) 8 5 : BitVec 5) ++ a) := by
  rw [setCountField, setAddressField]
  cases hb : blockInstalled s
  · simp only [References.setReg_of_missing hb]
  · rw [getReg_setReg_same _ _ _ hb, setReg_setReg, setFld_count_address]

end Sys2Proof.ByteString
end

section
/-! The end of a byte step: the registers move on, and while bytes remain IA goes back (46_byte_string R383, R386). -/

namespace Sys2Proof.Safety

open Sys2Proof Machine ByteString ShiftConversion

variable {s t : State} {ia : WordAddr} {cc : BitVec 4} {regs : Regs} {bytes : Bytes} {i : Instr} {r : RegNum}

/-! ### IA and the registers -/

theorem SameRest.panel (h : SameRest s t) : t.panel = s.panel := by
  have := congrArg State.panel h.2
  exact this

theorem SameRest.draws (h : SameRest s t) : t.draws = s.draws := by
  have := congrArg State.draws h.2
  exact this

/-- IA after a byte step: with bytes remaining it is back at the instruction. -/
def stepIa (c : Byte) (s : State) : WordAddr := if c = 1 then s.psd.ia else backIa s

theorem stepIa_congr (h : Effect s t s.psd.ia cc regs bytes) (c : Byte) : stepIa c t = stepIa c s := by
  simp only [stepIa, backIa, h.ia_eq, h.rest.panel]

theorem Effect.again (h : Effect s t s.psd.ia cc regs bytes) (c : Byte) :
    Effect s (Machine.again (c != 1) t) (stepIa c s) cc regs bytes := by
  rw [← stepIa_congr h c]
  by_cases hc : c = 1
  · subst hc
    exact h.as h.ia_eq.symm rfl (fun _ => rfl) (fun _ => rfl)
  · rw [Machine.again, if_pos (bne_iff_ne.2 hc), stepIa, if_neg hc]
    exact h.backUp

/-- What a byte step writes to Ru1: the count goes down, the destination address goes up. -/
def ru1Regs (r : RegNum) (c : Byte) (da : ByteAddr) (s : State) : Regs :=
  oneReg (ru1 r) ((c - 1) ++ (fld (getReg s (ru1 r)) 8 5 : BitVec 5) ++ (da + 1))

theorem effect_moveRu1 (s : State) (r : RegNum) (c : Byte) (da : ByteAddr) :
    Effect s (setCountField (ru1 r) (c - 1) (setAddressField (ru1 r) (da + 1) s)) s.psd.ia (ccBits s.psd)
      (ru1Regs r c da s) noBytes := by
  rw [setCountField_setAddressField]
  exact effect_setReg s (ru1 r) _

/-- The registers move on after a step that has changed the flags alone. -/
theorem Effect.editNext (h : Effect s t s.psd.ia cc noRegs noBytes) (r : RegNum) (c : Byte) (da : ByteAddr) :
    Effect s (Machine.editNext r da c t) (stepIa c s) cc (ru1Regs r c da s) noBytes := by
  have hend := (h.setReg (ru1 r) ((c - 1) ++ (fld (getReg t (ru1 r)) 8 5 : BitVec 5) ++ (da + 1))).again c
  rw [← setCountField_setAddressField, firstOf_noRegs, h.getReg_unwritten rfl] at hend
  exact hend

/-- What a byte step of MBS or CBS writes: Ru1, and in R, if it is even and not 0, the next source address. -/
def stringRegs (r : RegNum) (sa da : ByteAddr) (c : Byte) (s : State) : Regs :=
  firstOf (ru1Regs r c da s)
    (if r.getLsbD 0 ∨ r = 0 then noRegs else oneReg r ((fld (getReg s r) 0 13 : BitVec 13) ++ (sa + 1)))

theorem effect_advanceString (s : State) (r : RegNum) (sa da : ByteAddr) (c : Byte) :
    Effect s (advanceString r sa da c s) s.psd.ia (ccBits s.psd) (stringRegs r sa da c s) noBytes := by
  have hcase : (isOdd r || r == 0) = true ↔ r.getLsbD 0 ∨ r = 0 := by simp [isOdd]
  unfold advanceString stringRegs
  by_cases h : r.getLsbD 0 ∨ r = 0
  · rw [if_pos h, if_pos (hcase.2 h), firstOf_noRegs]
    exact effect_moveRu1 s r c da
  · rw [if_neg h, if_neg (mt hcase.1 h), setAddressField_eq, setCountField_setAddressField]
    have heven : isOdd r = false := Bool.eq_false_iff.2 fun hodd => h (.inl hodd)
    rw [getReg_setReg_other _ _ _ _ (ru1_ne_of_even heven)]
    exact (effect_setReg s r _).setReg (ru1 r) _

/-! ### A byte stored, and then the registers -/

/-- The byte `x` is stored at the destination address, located at `l`; then the registers move on, as they are after the
store, which may be to one of them. -/
def StoresThenMoves (i : Instr) (s : State) (l : Loc) (da : ByteAddr) (x : Byte) (ia : WordAddr) (cc : BitVec 4)
    (moved : State → Regs) : Prop :=
  ∃ u t, exec i s = .next t ∧
    Effect s u s.psd.ia (ccBits s.psd) (locRegsByte s l (fld da 17 2) x) (locBytesByte l (fld da 17 2) x) ∧
    Effect u t ia cc (moved u) noBytes

theorem storesThenMoves_of_exec {l : Loc} {da : ByteAddr} {x c : Byte} {move : State → State} {moved : State → Regs}
    (hexec : exec i s = finish (writeByte s da x >>= fun u => .ok (move u)))
    (hl : locate (programPath s) .write (fld da 0 17) s = .ok l)
    (hmove : ∀ u, u.psd = s.psd → Effect u (move u) (stepIa c u) cc (moved u) noBytes) :
    StoresThenMoves i s l da x (stepIa c s) cc moved := by
  have hstore := effect_locSetByte s l (fld da 17 2) x
  refine ⟨_, _, exec_of_ok hexec (writeByte_ok hl) rfl, hstore, ?_⟩
  rw [← stepIa_congr hstore c]
  exact hmove _ (locSetByte_psd s l _ _)

end Sys2Proof.Safety
end

section
/-! MBS and CBS (46_byte_string R385 to R389). -/

namespace Sys2Proof.ByteString

open Sys2Proof Machine Safety

variable {s : State} {r : RegNum} {d : BitVec 20}

theorem sourceAddress_eq (r : RegNum) (d : BitVec 20) (s : State) :
    sourceAddress r d s = (if r = 0 then 0 else fld (getReg s r) 13 19) + fld d 1 19 := by
  rw [sourceAddress, displaced]
  split <;> rfl

section Nonzero

variable {sa da : ByteAddr} {c x y : Byte} (hcount : countField (getReg s (ru1 r)) = c) (hc : c ≠ 0)
  (hda : addressField (getReg s (ru1 r)) = da) (hx : readByte s (sourceAddress r d s) = .ok x)
  (hsa : addressField (getReg s r) = sa)
include hcount hc hda hx hsa

theorem exec_mbs :
    exec (.mbs r d) s = finish (writeByte s da x >>= fun t => .ok (again (c != 1) (advanceString r sa da c t))) := by
  subst hcount hda hsa
  refine congrArg finish ((if_neg hc).trans ?_)
  rw [hx, ok_bind]

theorem exec_cbs (hy : readByte s da = .ok y) :
    exec (.cbs r d) s = .next (if x ≠ y then setCc34 (y.ult x) (x.ult y) s
      else again (c != 1) (advanceString r sa da c (setCc34 (y.ult x) (x.ult y) s))) := by
  subst hcount hda hsa
  refine (congrArg finish ((if_neg hc).trans ?_)).trans (finish_ok _)
  rw [hx, ok_bind, hy, ok_bind]
  exact (apply_ite Except.ok _ _ _).symm

end Nonzero

/-- Settles O39: MBS stores and then moves on; CBS compares, and moves on after equal bytes. -/
theorem moveCompareByteString : Obligations.MoveCompareByteString := by
  intro r d s c da sa ia moved
  have hsa : sourceAddress r d s = sa := sourceAddress_eq r d s
  refine ⟨fun hc => ⟨congrArg finish (if_pos hc), congrArg finish (if_pos hc)⟩,
    fun b l hc hb hl => ?move, fun x y hc hx hy => ?compare⟩
  case move =>
    refine storesThenMoves_of_exec (exec_mbs rfl hc rfl (hsa ▸ hb) rfl) hl fun u hu => ?_
    rw [← hu]
    exact (effect_advanceString u r _ da c).again c
  case compare =>
    have hexec := exec_cbs rfl hc rfl (hsa ▸ hx) rfl hy
    have hflags := (effect_refl s).setCc34 (y.ult x) (x.ult y)
    refine ⟨fun hne => ⟨_, hexec.trans (congrArg _ (if_pos hne)), hflags⟩, ?_⟩
    rintro rfl
    have hend := (hflags.trans (effect_advanceString _ r (addressField (getReg s r)) da c)).again c
    have hequal : x.ult x = false := decide_eq_false (Nat.lt_irrefl _)
    rw [firstOf_noRegs, firstOf_noBytes, hequal] at hend
    rw [if_neg (not_not_intro rfl), hequal] at hexec
    exact ⟨_, hexec, hend⟩

end Sys2Proof.ByteString
end

section
/-! TBS and TTBS (46_byte_string R391 to R397). -/

namespace Sys2Proof.ByteString

open Sys2Proof Machine Safety

variable {s : State} {r : RegNum} {d : BitVec 20}

theorem translate_eq (r : RegNum) (d : BitVec 20) (b : Byte) (s : State) :
    translate r d b s = readByte s (sourceAddress r d s + BitVec.ofNat 19 b.toNat) := by
  rw [BitVec.ofNat_toNat]
  rfl

/-- CC4 written alone, into a state whose PSD is that of `s`. -/
theorem withCc4_eq {t : State} (h : t.psd = s.psd) (b : Bool) :
    { t with psd := { s.psd with cc4 := b } } = setCc34 s.psd.cc3 b t := by
  rw [setCc34, h]

/-- CC4 reset when the byte was the last one (R397). -/
theorem resetCc4_eq {t : State} (h : t.psd = s.psd) (c : Byte) :
    (if c = 1 then { t with psd := { t.psd with cc4 := false } } else t) =
      setCc34 s.psd.cc3 (s.psd.cc4 && decide (c ≠ 1)) t := by
  rw [← h]
  by_cases hc : c = 1
  · rw [if_pos hc, decide_eq_false (not_not_intro hc), Bool.and_false]
    rfl
  · rw [if_neg hc, decide_eq_true hc, Bool.and_true]
    rfl

theorem setMask_psd (r : RegNum) (z : Byte) (s : State) : (if r = 0 then s else setCountField r z s).psd = s.psd := by
  split
  · rfl
  · exact setReg_psd _ _ _

theorem moveRu1_psd (r : RegNum) (c : Byte) (a : ByteAddr) (s : State) :
    (setCountField r c (setAddressField r a s)).psd = s.psd :=
  (setReg_psd _ _ _).trans (setReg_psd _ _ _)

/-- The mask field of a nonzero R receives the result. -/
theorem effect_setMask (s : State) (r : RegNum) (z : Byte) :
    Effect s (if r = 0 then s else setCountField r z s) s.psd.ia (ccBits s.psd)
      (if r = 0 then noRegs else oneReg r (z ++ (fld (getReg s r) 8 24 : BitVec 24))) noBytes := by
  split
  · exact effect_refl s
  · rw [setCountField_eq]
    exact effect_setReg s r _

/-- An odd R field is refused before anything else (U9). -/
theorem exec_translate_odd (hodd : isOdd r = true) (d : BitVec 20) (s : State) :
    exec (.tbs r d) s = .refused .translateOddRegister ∧ exec (.ttbs r d) s = .refused .translateOddRegister :=
  ⟨congrArg finish (if_pos hodd), congrArg finish (if_pos hodd)⟩

section Even

variable (heven : ¬ isOdd r = true)
include heven

theorem exec_translate_zero (hzero : countField (getReg s (ru1 r)) = 0) :
    exec (.tbs r d) s = .next s ∧ exec (.ttbs r d) s = .next s :=
  ⟨congrArg finish ((if_neg heven).trans (if_pos hzero)), congrArg finish ((if_neg heven).trans (if_pos hzero))⟩

variable {da : ByteAddr} {c b x : Byte} (hcount : countField (getReg s (ru1 r)) = c) (hc : c ≠ 0)
  (hda : addressField (getReg s (ru1 r)) = da) (hb : readByte s da = .ok b) (hx : translate r d b s = .ok x)
include hcount hc hda hb hx

theorem exec_tbs : exec (.tbs r d) s = finish (writeByte s da x >>= fun t => .ok (editNext r da c t)) := by
  subst hcount hda
  refine congrArg finish ((if_neg heven).trans ((if_neg hc).trans ?_))
  rw [hb, ok_bind, hx, ok_bind]
  rfl

theorem exec_ttbs {mask : Byte} (hmask : (if r = 0 then 0xFF else countField (getReg s r)) = mask) :
    exec (.ttbs r d) s = .next (if x &&& mask ≠ 0
      then setCc34 s.psd.cc3 true (if r = 0 then s else setCountField r (x &&& mask) s)
      else again (c != 1) (setCc34 s.psd.cc3 (s.psd.cc4 && decide (c ≠ 1))
        (setCountField (ru1 r) (c - 1) (setAddressField (ru1 r) (da + 1) s)))) := by
  subst hcount hda hmask
  refine (congrArg finish ((if_neg heven).trans ((if_neg hc).trans ?_))).trans (finish_ok _)
  rw [hb, ok_bind, hx, ok_bind, ← withCc4_eq (setMask_psd r _ s), ← resetCc4_eq (moveRu1_psd _ _ _ s)]
  exact (apply_ite Except.ok _ _ _).symm

end Even

/-- Settles O40: TBS stores and then moves on; TTBS is a hit or moves on. -/
theorem translateByteString : Obligations.TranslateByteString := by
  intro r d s c da table mask moved ia
  have htable : sourceAddress r d s = table := sourceAddress_eq r d s
  refine ⟨fun hodd => exec_translate_odd hodd d s, fun hr hc => exec_translate_zero (Bool.eq_false_iff.1 hr) hc,
    fun b x hr hc hb hx => ?_⟩
  have heven : ¬ isOdd r = true := Bool.eq_false_iff.1 hr
  have hx' : translate r d b s = .ok x := by rw [translate_eq, htable, hx]
  have httbs := exec_ttbs heven rfl hc rfl hb hx' rfl
  refine ⟨fun l hl => ?store, fun hhit => ?hit, fun hmiss => ?miss⟩
  case store =>
    refine storesThenMoves_of_exec (exec_tbs heven rfl hc rfl hb hx') hl fun u hu => ?_
    rw [← hu]
    exact (effect_refl u).editNext r c da
  case hit =>
    have hend := (effect_setMask s r (x &&& mask)).setCc34 s.psd.cc3 true
    rw [setMask_psd] at hend
    exact ⟨_, httbs.trans (congrArg _ (if_pos hhit)), hend⟩
  case miss =>
    have hend := ((effect_moveRu1 s r c da).setCc34 s.psd.cc3 (s.psd.cc4 && decide (c ≠ 1))).again c
    rw [moveRu1_psd] at hend
    exact ⟨_, httbs.trans (congrArg _ (if_neg (not_not_intro hmiss))), hend⟩

end Sys2Proof.ByteString
end

section
/-! EBS (46_byte_string R400 to R403). -/

namespace Sys2Proof.ByteString

open Sys2Proof Machine Safety

variable {s t : State} {r : RegNum} {d : BitVec 20}

/-! ### A digit: the action, the flags and the mark (R402) -/

section Action

variable (p : Byte) (cc4 : Bool) (digit : BitVec 4) (fill : Byte)

/-- The digit is shown when significance has started, and it starts with a nonzero digit or X'23'. -/
theorem editAction_out : (editAction p cc4 digit fill).out =
    if (p == 0x23 || cc4 || digit != 0) then 0xF#4 ++ digit else fill := by
  unfold editAction
  split_ifs <;> simp_all

theorem editAction_start :
    (cc4 || (editAction p cc4 digit fill).start) = ((p == 0x23 || cc4 || digit != 0) || p == 0x21) := by
  unfold editAction
  split_ifs <;> simp_all

/-- What the mark writes to register 1, with the free value `f` in its bits 0 to 12. -/
def markRegs (mark : Nat) (f : BitVec 13) (da : ByteAddr) : Regs :=
  if mark = 0 then noRegs else oneReg 1 (f ++ if mark = 1 then da else da + 1)

theorem markRegs_editAction (f : BitVec 13) (da : ByteAddr) :
    markRegs (editAction p cc4 digit fill).mark f da =
      if p = 0x23 ∨ (cc4 = false ∧ digit ≠ 0) then oneReg 1 (f ++ da)
      else if cc4 = false ∧ p = 0x21 then oneReg 1 (f ++ (da + 1))
      else noRegs := by
  unfold editAction markRegs
  split_ifs <;> simp_all

end Action

/-- The flags of a digit `x` are a condition code: a sign after a left digit, or the change to the other digit. -/
theorem withFlags_eq_setCc {x : Byte} {digit : BitVec 4} {start cc4 : Bool} (hcc4 : (s.psd.cc4 || start) = cc4) :
    { s with psd := editFlags x digit start s.psd } = setCc s (
      if s.psd.cc2 = false ∧ fld x 4 4 ∈ ([0xA, 0xC, 0xE, 0xF] : List (BitVec 4)) then
        ccOf true false (s.psd.cc3 || digit != 0) false
      else if s.psd.cc2 = false ∧ fld x 4 4 ∈ ([0xB, 0xD] : List (BitVec 4)) then
        ccOf true false (s.psd.cc3 || digit != 0) true
      else ccOf s.psd.cc1 (!s.psd.cc2) (s.psd.cc3 || digit != 0) cc4) := by
  subst hcc4
  have hpositive : positiveSign (fld x 4 4) = true ↔ fld x 4 4 ∈ ([0xA, 0xC, 0xE, 0xF] : List (BitVec 4)) := by
    simp [positiveSign, or_assoc]
  have hnegative : negativeSign (fld x 4 4) = true ↔ fld x 4 4 ∈ ([0xB, 0xD] : List (BitVec 4)) := by
    simp [negativeSign]
  simp only [editFlags, ← hpositive, ← hnegative, Bool.and_eq_true, Bool.not_eq_true']
  split_ifs with h1 h2
  · simp [setCc, h1.1]
  · simp [setCc, h2.1]
  · simp [setCc]

theorem isSign_iff (n : BitVec 4) : isSign n = true ↔ (9 : BitVec 4) < n := by
  simp [isSign, BitVec.ult, BitVec.lt_def]

/-- The mark is written with a free value, or nothing is drawn (U11). -/
theorem effectDrawn_editMark {ia : WordAddr} {cc : BitVec 4} {regs : Regs} {bytes : Bytes} (mark : Nat) (da : ByteAddr)
    (h : Effect s t ia cc regs bytes) :
    ∃ f, EffectDrawn s (editMark mark da t) ia cc (firstOf (markRegs mark f da) regs) bytes := by
  have hdrawn : Effect { s with draws := t.draws } t ia cc regs bytes := by
    rw [h.rest.draws]
    exact h
  refine ⟨(draw t).1.setWidth 13, ?_⟩
  unfold editMark markRegs EffectDrawn
  by_cases hmark : mark = 0
  · rw [if_pos hmark, if_pos hmark]
    exact hdrawn
  · rw [if_neg hmark, if_neg hmark, setReg_draws]
    exact hdrawn.draw.setReg 1 _

/-- A step on a digit: the address in R and the mark, then the byte, then the count and the address in Ru1 (D9). -/
theorem digitSteps_of_exec {i : Instr} {da next : ByteAddr} {c out : Byte} {cc : BitVec 4} {mark : Nat} {l : Loc}
    {k : BitVec 2}
    (hexec : exec i s =
      .next (editNext r da c (locSetByte (editMark mark da (setAddressField r next (setCc s cc))) l k out))) :
    ∃ u v t f, exec i s = .next t ∧
      EffectDrawn s u s.psd.ia cc
        (firstOf (markRegs mark f da) (oneReg r ((fld (getReg s r) 0 13 : BitVec 13) ++ next))) noBytes ∧
      Effect u v s.psd.ia cc (locRegsByte u l k out) (locBytesByte l k out) ∧
      Effect v t (stepIa c s) cc (ru1Regs r c da v) noBytes := by
  have haddress : Effect s (setAddressField r next (setCc s cc)) s.psd.ia cc
      (oneReg r ((fld (getReg s r) 0 13 : BitVec 13) ++ next)) noBytes := by
    rw [setAddressField_eq, getReg_setCc]
    simpa using ((effect_refl s).setCc cc).setReg r _
  obtain ⟨f, hmark⟩ := effectDrawn_editMark mark da haddress
  generalize editMark mark da (setAddressField r next (setCc s cc)) = u at hexec hmark
  have hstore := effect_locSetByte u l k out
  have hmove := (effect_refl (locSetByte u l k out)).editNext r c da
  have hia : u.psd.ia = s.psd.ia := hmark.ia_eq
  have hcc : ccBits u.psd = cc := hmark.cc_eq
  have hstepIa : stepIa c u = stepIa c s := stepIa_congr (s := { s with draws := u.draws }) hmark c
  rw [stepIa_congr hstore, hstepIa, locSetByte_psd, hcc] at hmove
  rw [hia, hcc] at hstore
  exact ⟨_, _, _, f, hexec, hmark, hstore, hmove⟩

/-! ### The cases of a step -/

/-- An odd or zero R field is refused (U10). -/
theorem exec_ebs_refused (hoption : s.cfg.hasDecimal = true) (hr : (isOdd r || r == 0) = true) (d : BitVec 20) :
    exec (.ebs r d) s = .refused .editRegister := by
  refine congrArg finish (?_ : stepEbs r d s = .error (.refuse .editRegister))
  rw [stepEbs, hoption, requireOption_true, ok_bind, if_pos hr]

section Even

variable (hoption : s.cfg.hasDecimal = true) (hr : ¬ (isOdd r || r == 0) = true)
include hoption hr

theorem exec_ebs_zero (hzero : countField (getReg s (ru1 r)) = 0) : exec (.ebs r d) s = .next s := by
  refine congrArg finish (?_ : stepEbs r d s = .ok s)
  rw [stepEbs, hoption, requireOption_true, ok_bind, if_neg hr]
  exact if_pos hzero

variable {da : ByteAddr} {c p : Byte} (hcount : countField (getReg s (ru1 r)) = c) (hc : c ≠ 0)
  (hda : addressField (getReg s (ru1 r)) = da) (hp : readByte s da = .ok p)
include hcount hc hda hp

theorem exec_ebs : exec (.ebs r d) s = finish (if p = 0x20 ∨ p = 0x21 ∨ p = 0x23 then editDigit r d p da c s
    else if p = 0x22 then editSeparator r da c s else editOther r da c s) := by
  subst hcount hda
  refine congrArg finish ?_
  rw [stepEbs, hoption, requireOption_true, ok_bind, if_neg hr]
  refine (if_neg hc).trans ?_
  rw [hp, ok_bind]

theorem exec_ebs_digit (hselector : p = 0x20 ∨ p = 0x21 ∨ p = 0x23) :
    exec (.ebs r d) s = finish (editDigit r d p da c s) :=
  (exec_ebs hoption hr hcount hc hda hp).trans (congrArg finish (if_pos hselector))

theorem exec_ebs_separator (hseparator : p = 0x22) : exec (.ebs r d) s = finish (editSeparator r da c s) := by
  subst hseparator
  exact exec_ebs hoption hr hcount hc hda hp

theorem exec_ebs_other (hother : ¬ (p = 0x20 ∨ p = 0x21 ∨ p = 0x23)) (hseparator : p ≠ 0x22) :
    exec (.ebs r d) s = finish (editOther r da c s) := by
  rw [exec_ebs hoption hr hcount hc hda hp, if_neg hother, if_neg hseparator]

end Even

section Digit

variable {p x : Byte} {da : ByteAddr} {c : Byte} (hx : readByte s (displaced (getReg s r) d) = .ok x)
include hx

/-- A sign code where a digit is needed takes the trap with nothing changed (R403). -/
theorem editDigit_illegal (hillegal : (isSign (fld x 0 4) || (s.psd.cc2 && isSign (fld x 4 4))) = true) :
    editDigit r d p da c s = .error (.trap .decimalFault s) := by
  rw [editDigit, hx, ok_bind]
  exact if_pos hillegal

theorem editDigit_legal {digit : BitVec 4} {fill : Byte} {sa next : ByteAddr} {act : EditAction}
    {cc : BitVec 4} {l : Loc}
    (hlegal : ¬ (isSign (fld x 0 4) || (s.psd.cc2 && isSign (fld x 4 4))) = true)
    (hl : locate (programPath s) .write (fld da 0 17) s = .ok l)
    (hdigit : (if s.psd.cc2 then fld x 4 4 else fld x 0 4) = digit) (hfill : countField (getReg s r) = fill)
    (hact : editAction p s.psd.cc4 digit fill = act) (hsa : addressField (getReg s r) = sa)
    (hnext : (if editAdvances x s.psd.cc2 then sa + 1 else sa) = next)
    (hflags : { s with psd := editFlags x digit act.start s.psd } = setCc s cc) :
    editDigit r d p da c s = .ok (editNext r da c
      (locSetByte (editMark act.mark da (setAddressField r next (setCc s cc))) l (fld da 17 2) act.out)) := by
  subst hdigit hfill hact hsa hnext
  rw [← hflags, editDigit, hx, ok_bind]
  refine (if_neg hlegal).trans ?_
  rw [hl, ok_bind]

end Digit

/-- Settles O41: after the checks a step is that of a digit, of a field separator or of another pattern byte. -/
theorem editByteString : Obligations.EditByteString := by
  intro r d s hoption p c da sa fill ia moved
  have hregister : (isOdd r || r == 0) = true ↔ r.getLsbD 0 = true ∨ r = 0 := by simp [isOdd]
  have heven (hr : r.getLsbD 0 = false) (hne : r ≠ 0) : ¬ (isOdd r || r == 0) = true :=
    mt hregister.1 (not_or.2 ⟨Bool.eq_false_iff.1 hr, hne⟩)
  refine ⟨fun hr => exec_ebs_refused hoption (hregister.2 hr) d, fun hr hne => exec_ebs_zero hoption (heven hr hne),
    fun l b hr hne hc hb hl => ?_⟩
  replace hr := heven hr hne
  refine ⟨fun h20 h21 h22 h23 => ?other, fun hseparator => ?separator, fun x hselector hx => ?digit⟩
  case other =>
    have hexec := exec_ebs_other (d := d) hoption hr rfl hc rfl hb (not_or.2 ⟨h20, not_or.2 ⟨h21, h23⟩⟩) h22
    refine ⟨fun hcc4 => ?stays, fun x hcc4 hx => ?filled⟩
    case stays =>
      rw [editOther, if_pos hcc4, ok_bind] at hexec
      exact ⟨_, hexec, (effect_refl s).editNext r c da⟩
    case filled =>
      rw [editOther, if_neg (Bool.eq_false_iff.1 hcc4)] at hexec
      subst hx
      refine storesThenMoves_of_exec hexec hl fun u hu => ?_
      change Effect u _ _ (ccBits s.psd) _ _
      rw [← hu]
      exact (effect_refl u).editNext r c da
  case separator =>
    refine storesThenMoves_of_exec (exec_ebs_separator hoption hr rfl hc rfl hb hseparator) hl fun u hu => ?_
    change Effect u _ _ (ccOf false s.psd.cc2 false false) _ _
    rw [← hu]
    exact (((effect_refl u).setCc1 false).setCc34 false false).editNext r c da
  case digit =>
    intro digit low illegal shown cc3 cc4 cc next out mark
    have hexec := exec_ebs_digit (d := d) hoption hr rfl hc rfl hb hselector
    have hillegal : (isSign (fld x 0 4) || (s.psd.cc2 && isSign (fld x 4 4))) = true ↔ illegal := by
      rw [Bool.or_eq_true, Bool.and_eq_true, isSign_iff, isSign_iff]
    refine ⟨fun h => hexec.trans (congrArg finish (editDigit_illegal hx (hillegal.2 h))), fun h => ?_⟩
    have hnext : (if editAdvances x p.cc2 then sa + 1 else sa) = next := by
      simp only [next, low, editAdvances, Bool.or_eq_true, isSign_iff]
    have hflags : { s with psd := editFlags x digit (editAction b p.cc4 digit fill).start p } = setCc s cc :=
      withFlags_eq_setCc (editAction_start b p.cc4 digit fill)
    have hdigit := editDigit_legal (digit := digit) (fill := fill) (c := c) hx (mt hillegal.1 h) hl rfl rfl rfl rfl hnext hflags
    have hsteps := digitSteps_of_exec (hexec.trans (congrArg finish hdigit))
    simp only [editAction_out, markRegs_editAction] at hsteps
    exact hsteps

end Sys2Proof.ByteString
end

section
/-! The branches: when the target traps, where they go (47_push_down_branch_call R441 to R447). -/

namespace Sys2Proof.BranchCall

-- Compiled as one text the development is close to the memory limit, where proofs elaborated in parallel would add to it.
set_option Elab.async false

open Sys2Proof Machine Safety

variable {s t : State} {r : RegNum} {m : MemRef} {a : WordAddr} {taken : Bool} {i : Instr} {regs : Regs}

/-- An instruction access is denied by the access codes alone, to a mapped slave program (20_memory R76). -/
theorem protectionDenied_instruction (a : WordAddr) (s : State) :
    protectionDenied (programPath s) .instruction a s =
      (s.cfg.hasMap && s.psd.mm && s.psd.ms && (s.acc[(fld a 0 8).toNat]'(BitVec.isLt _)).getMsbD 0) := by
  have hread : (Access.instruction == Access.write) = false := rfl
  simp [protectionDenied, programPath, accDenied, hread]

theorem branchViolations_eq (a : WordAddr) (taken : Bool) (s : State) :
    branchViolations a taken s = if a.toNat < 16 then 0 else
      (if (actualOf (programPath s) a s).toNat < s.cfg.memWords then 0 else 4) |||
      (if taken ∧ s.cfg.hasMap = true ∧ s.psd.mm = true ∧ s.psd.ms = true ∧
        (s.acc[(fld a 0 8).toNat]'(BitVec.isLt _)).getMsbD 0 = true then 1 else 0) := by
  have hmask : ∀ installed denied taken : Bool,
      ((if installed then 0 else 4) ||| (if denied then 1 else 0)) &&& (if taken then 0xF else 4) =
        ((if installed then 0 else 4) ||| (if taken && denied then 1 else 0) : BitVec 4) := by decide
  unfold branchViolations violations installedAddr
  rw [hmask, protectionDenied_instruction]
  simp only [Bool.and_eq_true, decide_eq_true_eq, and_assoc]

/-- Which targets trap does not depend on registers, memory, the condition code or IA. -/
theorem branchViolations_congr (h : SameMapping s t) (a : WordAddr) (taken : Bool) :
    branchViolations a taken t = branchViolations a taken s := by
  rw [branchViolations, branchViolations, programPath_congr h, violations_congr h]

/-- A branch to `a` that leaves these registers, or traps with nothing changed. -/
def BranchEnds (i : Instr) (s : State) (a : WordAddr) (taken : Bool) (regs : Regs) : Prop :=
  (branchViolations a taken s = 0 → Completes i s (if taken then a else s.psd.ia) (ccBits s.psd) regs noBytes) ∧
  (branchViolations a taken s ≠ 0 → exec i s = takeTrap (.nonallowed (branchViolations a taken s)) s)

theorem effect_branchTo (h : Effect s t s.psd.ia (ccBits s.psd) regs noBytes) (a : WordAddr) (taken : Bool) :
    Effect s (branchTo a taken t) (if taken then a else s.psd.ia) (ccBits s.psd) regs noBytes := by
  cases taken
  · exact h
  · exact h.setIa a

theorem branchCheck_ok (h : branchViolations a taken s = 0) : branchCheck a taken s = .ok () := if_pos h

theorem branchCheck_trap (h : branchViolations a taken s ≠ 0) :
    branchCheck a taken s = .error (.trap (.nonallowed (branchViolations a taken s)) s) := if_neg h

theorem branchEnds_of_exec (ha : eaWord m s = .ok a)
    (hexec : exec i s = finish (eaWord m s >>= fun va => branchCheck va taken s >>= fun _ => .ok (branchTo va taken t)))
    (ht : Effect s t s.psd.ia (ccBits s.psd) regs noBytes) : BranchEnds i s a taken regs := by
  rw [ha, ok_bind] at hexec
  refine ⟨fun hgood => ?_, fun hbad => ?_⟩
  · exact completes_of_ok hexec (branchCheck_ok hgood) rfl (effect_branchTo ht a taken)
  · exact exec_of_trap hexec (branchCheck_trap hbad)

/-- Settles O45: the five branches, each with its own condition and the register it writes. -/
theorem branches : Obligations.Branches := by
  intro r m s a ha p v bad goes does
  have hbad (taken : Bool) : branchViolations a taken s = bad taken := branchViolations_eq a taken s
  have hdoes {i : Instr} {taken : Bool} {regs : Regs} (h : BranchEnds i s a taken regs) : does i taken regs := by
    simpa only [BranchEnds, hbad] using h
  have hmask (x : BitVec 4) : (x != 0) = decide (x ≠ 0) ∧ (x == 0) = decide (x = 0) := by revert x; decide
  have hlink : SameMapping s (setReg s r (p.ia.setWidth 32)) := sameMapping_setReg s r _
  refine ⟨hdoes ?bcs, hdoes ?bcr, hdoes ?bir, hdoes ?bdr, fun hgood => ?bal, fun htrap => ?balTrap⟩
  case bcs =>
    rw [← (hmask _).1]
    exact branchEnds_of_exec ha rfl (effect_refl s)
  case bcr =>
    rw [← (hmask _).2]
    exact branchEnds_of_exec ha rfl (effect_refl s)
  case bir =>
    rw [← msb_iff]
    exact branchEnds_of_exec ha rfl (effect_setReg s r _)
  case bdr =>
    rw [← positive_iff, Bool.and_comm]
    exact branchEnds_of_exec ha rfl (effect_setReg s r _)
  case bal =>
    rw [← hbad, ← branchViolations_congr hlink] at hgood
    refine ⟨_, exec_of_ok rfl ha ?_, (effect_setReg s r _).setIa a⟩
    exact congrArg (· >>= _) (branchCheck_ok hgood)
  case balTrap =>
    rw [← hbad, ← branchViolations_congr hlink] at htrap ⊢
    have hexec : exec (.bal r m) s = finish (branchCheck a true (setReg s r (p.ia.setWidth 32)) >>= fun _ =>
        .ok (branchTo a true (setReg s r (p.ia.setWidth 32)))) := congrArg (fun x => finish (x >>= _)) ha
    exact exec_of_trap hexec (branchCheck_trap htrap)

end Sys2Proof.BranchCall
end

section
/-! EXU: the chain of EXECUTE instructions and its subject (47_push_down_branch_call R442). -/

namespace Sys2Proof.BranchCall

set_option Elab.async false

open Sys2Proof Machine Safety Encoding

variable {s : State} {r : RegNum} {m : MemRef} {a : WordAddr} {w : Word} {i : Instr} {n : Nat}

/-- The code of EXU, and its address part, in a word that decodes to it. -/
theorem fields_of_decodeWord_exu (h : decodeWord w = .ok (.exu r m)) : opField w = 0x67 ∧ memRefOf w = m := by
  obtain ⟨hwf, rfl⟩ := encode_of_decodeWord h
  obtain ⟨-, hop, -, -⟩ := fields_pack m.ind 0x67 r (m.x.getD 0) m.ra
  exact ⟨hop, memRefOf_packN 0x67 r hwf⟩

theorem decodeWord_exu (h : opField w = 0x67) : decodeWord w = .ok (.exu (rField w) (memRefOf w)) :=
  decodeWord_formatN (by rw [h]; rfl)

theorem opField_ne_exu (h : decodeWord w = .ok i) (hi : ∀ r m, i ≠ .exu r m) : opField w ≠ 0x67 := by
  intro hop
  rw [decodeWord_exu hop] at h
  exact hi _ _ (Except.ok.inj h).symm

theorem opField_ne_exu_of_error {e : DecodeError} (h : decodeWord w = .error e) : opField w ≠ 0x67 := by
  intro hop
  rw [decodeWord_exu hop] at h
  cases h

/-! ### The chain -/

section Access

variable (ha : eaWord m s = .ok a) (hw : readInstr s a = .ok w)
include ha hw

theorem resolveSubject_succ :
    resolveSubject (n + 1) m s = if opField w = 0x67 then resolveSubject n (memRefOf w) s else .ok (some w) := by
  rw [resolveSubject, ha, ok_bind, hw, ok_bind]

theorem resolveSubject_end (hop : opField w ≠ 0x67) : resolveSubject (n + 1) m s = .ok (some w) := by
  rw [resolveSubject_succ ha hw, if_neg hop]

theorem resolveSubject_link (hop : opField w = 0x67) : resolveSubject (n + 1) m s = resolveSubject n (memRefOf w) s := by
  rw [resolveSubject_succ ha hw, if_pos hop]

end Access

/-- With a chain that ends, EXU is the execution of its last word. -/
theorem exec_exu (h : resolveSubject chainLimit m s = .ok (some w)) (hi : decodeWord w = .ok i)
    (hne : ∀ r m, i ≠ .exu r m) : exec (.exu r m) s = exec i s := by
  rw [exec_eq_execSubject hne, exec, execExu, h]
  dsimp only
  rw [hi]

theorem exec_exu_nonexistent {e : DecodeError} (h : resolveSubject chainLimit m s = .ok (some w))
    (he : decodeWord w = .error e) : exec (.exu r m) s = takeTrap (.nonallowed (nonexistentReasons w s)) s := by
  rw [exec, execExu, h]
  dsimp only
  rw [he]
  rfl

/-- Settles O46: the first word of the chain that is no EXU is executed. -/
theorem execute : Obligations.Execute := by
  intro r m s a w ha hw
  have hsubject (hop : opField w ≠ 0x67) : resolveSubject chainLimit m s = .ok (some w) :=
    resolveSubject_end (n := 131072) ha hw hop
  have hone (i : Instr) (hi : decodeWord w = .ok i) (hne : ∀ r m, i ≠ .exu r m) : exec (.exu r m) s = exec i s :=
    exec_exu (hsubject (opField_ne_exu hi hne)) hi hne
  refine ⟨hone, fun e he => ?nonexistent, fun k v hli => ?li, fun r' m' b v i hexu hb hv hi hne => ?chain⟩
  case nonexistent => exact exec_exu_nonexistent (hsubject (opField_ne_exu_of_error he)) he
  case li =>
    obtain ⟨hload, -⟩ := LoadStore.loads k m s
    obtain ⟨t, ht, heffect⟩ := hload v
    exact ⟨t, (hone _ hli (by simp)).trans ht, heffect⟩
  case chain =>
    obtain ⟨hop, rfl⟩ := fields_of_decodeWord_exu hexu
    have hlink : resolveSubject chainLimit m s = resolveSubject 131072 (memRefOf w) s :=
      resolveSubject_link (n := 131072) ha hw hop
    have hend : resolveSubject 131072 (memRefOf w) s = .ok (some v) :=
      resolveSubject_end (n := 131071) hb hv (opField_ne_exu hi hne)
    exact exec_exu (hlink.trans hend) hi hne

end Sys2Proof.BranchCall
end

section
/-! Push-down instructions: the limits, the pointer and what one instruction does to it (47_push_down_branch_call R421 to
R429). -/

namespace Sys2Proof.PushDown

set_option Elab.async false

open Sys2Proof Machine Safety LoadStore

variable {s t u : State} {r : RegNum} {m : MemRef} {i : Instr} {spd : Double} {delta : Int}

/-! ### The pointer doubleword (R421) -/

/-- Both counts may take their new values (R422). -/
def Fits (spd : Double) (delta : Int) : Prop :=
  0 ≤ (spaceCount spd).toNat - delta ∧ (spaceCount spd).toNat - delta ≤ 32767 ∧
  0 ≤ (wordCount spd).toNat + delta ∧ (wordCount spd).toNat + delta ≤ 32767

theorem countViolated_eq (x : Int) : countViolated x = decide (x < 0 ∨ 32767 < x) := by
  simp [countViolated]

theorem Fits.notViolated (h : Fits spd delta) :
    countViolated ((spaceCount spd).toNat - delta) = false ∧ countViolated ((wordCount spd).toNat + delta) = false := by
  obtain ⟨h0, h1, h2, h3⟩ := h
  rw [countViolated_eq, countViolated_eq, decide_eq_false_iff_not, decide_eq_false_iff_not]
  omega

theorem toNat_add_ofInt {n : Nat} (x : BitVec n) (d : Int) (h0 : 0 ≤ x.toNat + d) (h1 : x.toNat + d < 2 ^ n) :
    ((x + BitVec.ofInt n d).toNat : Int) = x.toNat + d := by
  have hx : x = BitVec.ofInt n x.toNat := by simp
  rw [hx, ← BitVec.ofInt_add, BitVec.toNat_ofInt, ← hx]
  push_cast
  rw [Int.emod_eq_of_lt h0 h1, Int.toNat_of_nonneg h0]

theorem toNat_sub_ofInt {n : Nat} (x : BitVec n) (d : Int) (h0 : 0 ≤ x.toNat - d) (h1 : x.toNat - d < 2 ^ n) :
    ((x - BitVec.ofInt n d).toNat : Int) = x.toNat - d := by
  rw [BitVec.sub_eq_add_neg, ← BitVec.ofInt_neg, toNat_add_ofInt x (-d) h0 h1, Int.sub_eq_add_neg]

theorem stackTop_movedPointer (spd : Double) (delta : Int) :
    stackTop (movedPointer spd delta) = stackTop spd + BitVec.ofInt 17 delta := by
  unfold movedPointer stackTop
  rw [fld_setFld_other _ _ _ _ _ (by decide) (by decide), fld_setFld_other _ _ _ _ _ (by decide) (by decide),
    fld_setFld_same _ _ _ (by decide)]

theorem spaceCount_movedPointer (spd : Double) (delta : Int) :
    spaceCount (movedPointer spd delta) = spaceCount spd - BitVec.ofInt 15 delta := by
  unfold movedPointer spaceCount
  rw [fld_setFld_other _ _ _ _ _ (by decide) (by decide), fld_setFld_same _ _ _ (by decide)]

theorem wordCount_movedPointer (spd : Double) (delta : Int) :
    wordCount (movedPointer spd delta) = wordCount spd + BitVec.ofInt 15 delta :=
  fld_setFld_same _ _ _ (by decide)

/-- The bits outside the top and the counts stay. -/
theorem fld_movedPointer (spd : Double) (delta : Int) (a k : Nat)
    (h : a + k ≤ 15 ∨ (32 ≤ a ∧ a + k ≤ 33) ∨ (48 ≤ a ∧ a + k ≤ 49)) : fld (movedPointer spd delta) a k = fld spd a k := by
  unfold movedPointer
  rw [fld_setFld_other _ _ _ _ _ (by decide) (by omega), fld_setFld_other _ _ _ _ _ (by decide) (by omega),
    fld_setFld_other _ _ _ _ _ (by decide) (by omega)]

theorem getMsbD_eq_of_fld_eq {w : Nat} {v v' : BitVec w} {k : Nat} (hk : k + 1 ≤ w) (h : fld v k 1 = fld v' k 1) :
    v.getMsbD k = v'.getMsbD k := by
  have hbit (x : BitVec w) : (fld x k 1).getMsbD 0 = x.getMsbD k := by simp [getMsbD_fld x k 1 0 hk]
  rw [← hbit v, ← hbit v', h]

section Moved

variable (h : Fits spd delta)
include h

theorem toNat_spaceCount_movedPointer : ((spaceCount (movedPointer spd delta)).toNat : Int) = (spaceCount spd).toNat - delta := by
  obtain ⟨h0, h1, -, -⟩ := h
  rw [spaceCount_movedPointer, toNat_sub_ofInt _ _ h0 (by omega)]

theorem toNat_wordCount_movedPointer : ((wordCount (movedPointer spd delta)).toNat : Int) = (wordCount spd).toNat + delta := by
  obtain ⟨-, -, h0, h1⟩ := h
  rw [wordCount_movedPointer, toNat_add_ofInt _ _ h0 (by omega)]

theorem pointerMoved_movedPointer : PointerMoved spd (movedPointer spd delta) delta :=
  ⟨fld_movedPointer spd delta 0 15 (by decide), stackTop_movedPointer spd delta,
    getMsbD_eq_of_fld_eq (by decide) (fld_movedPointer spd delta 32 1 (by decide)),
    getMsbD_eq_of_fld_eq (by decide) (fld_movedPointer spd delta 48 1 (by decide)),
    toNat_spaceCount_movedPointer h, toNat_wordCount_movedPointer h⟩

end Moved

/-- The condition code after `delta` words have been added (R422). -/
def movedCc (spd : Double) (delta : Int) : BitVec 4 :=
  ccOf false (decide ((spaceCount spd).toNat - delta = 0)) false (decide ((wordCount spd).toNat + delta = 0))

theorem beq_zero_eq {n : Nat} (x : BitVec n) : (x == 0) = decide ((x.toNat : Int) = 0) := by
  rw [Bool.eq_iff_iff, beq_iff_eq, decide_eq_true_iff, ← BitVec.toNat_inj]
  simp

theorem stackFlags_movedPointer (h : Fits spd delta) (s : State) :
    stackFlags (movedPointer spd delta) s = setCc s (movedCc spd delta) := by
  rw [stackFlags, beq_zero_eq, beq_zero_eq, toNat_spaceCount_movedPointer h, toNat_wordCount_movedPointer h]
  rfl

/-! ### One instruction (R422, R429) -/

section Instruction

variable {body : WordAddr → State → Except Stop State} {e : BitVec 16} {p0 p1 : Loc}
  (hexec : exec i s = finish (pushDown m delta body s)) (he : eaDouble m s = .ok e) (hspd : readDouble s e = .ok spd)
include hexec he hspd

theorem exec_pushDown : exec i s = finish (
    let space := countViolated ((spaceCount spd).toNat - delta)
    let word := countViolated ((wordCount spd).toNat + delta)
    if (space && !spaceInhibit spd) || (word && !wordInhibit spd) then .error (.trap .stackLimit s)
    else if space || word then .ok (limitFlags spd delta s)
    else body (stackTop spd) s >>= fun t =>
      writeDouble t e (hiWord (movedPointer spd delta)) (loWord (movedPointer spd delta)) >>= fun u =>
        .ok (stackFlags (movedPointer spd delta) u)) := by
  rw [hexec, pushDown, he, ok_bind, hspd, ok_bind]

/-- Within the limits: the words are moved, then the pointer is stored. -/
theorem pushDown_within (hfits : Fits spd delta) (hbody : body (stackTop spd) s = .ok u) (hsame : SameMapping s u)
    (h0 : locate (programPath s) .write (e ++ 0#1) s = .ok p0) (h1 : locate (programPath s) .write (e ++ 1#1) s = .ok p1) :
    ∃ t, exec i s = .next t ∧ PointerStored u t (movedCc spd delta) p0 p1 (movedPointer spd delta) := by
  obtain ⟨hspace, hword⟩ := hfits.notViolated
  have hlocate {va : WordAddr} {p : Loc} (h : locate (programPath s) .write va s = .ok p) :
      locate (programPath u) .write va u = .ok p := by rwa [programPath_congr hsame, locate_congr hsame]
  refine ⟨_, ?_, (effect_stored2 u p0 p1 _ _).setCc _⟩
  rw [exec_pushDown hexec he hspd]
  dsimp only
  rw [hspace, hword, if_neg (by simp), if_neg (by simp), hbody, ok_bind, writeDouble_ok (hlocate h0) (hlocate h1), ok_bind,
    stackFlags_movedPointer hfits, finish_ok]
  rfl

/-- A limit that is passed, and its trap not inhibited. -/
theorem pushDown_trap (h : (countViolated ((spaceCount spd).toNat - delta) && !spaceInhibit spd ||
      countViolated ((wordCount spd).toNat + delta) && !wordInhibit spd) = true) :
    exec i s = takeTrap .stackLimit s := by
  rw [exec_pushDown hexec he hspd]
  dsimp only
  rw [if_pos h, finish_trap]

/-- Limits that are passed, their traps inhibited. -/
theorem pushDown_inhibited (h : ¬ (countViolated ((spaceCount spd).toNat - delta) && !spaceInhibit spd ||
      countViolated ((wordCount spd).toNat + delta) && !wordInhibit spd) = true)
    (hpassed : (countViolated ((spaceCount spd).toNat - delta) || countViolated ((wordCount spd).toNat + delta)) = true) :
    exec i s = .next (limitFlags spd delta s) := by
  rw [exec_pushDown hexec he hspd]
  dsimp only
  rw [if_neg h, if_pos hpassed, finish_ok]

end Instruction

theorem effect_limitFlags (spd : Double) (delta : Int) (s : State) :
    Effect s (limitFlags spd delta s) s.psd.ia
      (ccOf (countViolated ((spaceCount spd).toNat - delta)) (decide (((spaceCount spd).toNat : Int) = 0))
        (countViolated ((wordCount spd).toNat + delta)) (decide (((wordCount spd).toNat : Int) = 0))) noRegs noBytes := by
  rw [limitFlags, beq_zero_eq, beq_zero_eq]
  exact (effect_refl s).setCc _

theorem ccCount_cast (p : Psd) : (ccCount p : Int) = if (ccBits p).toNat = 0 then 16 else ((ccBits p).toNat : Int) := by
  unfold ccCount
  split <;> rfl

/-- The five push-down instructions, each with the words it adds. -/
theorem exists_body (h : (i = .psw r m ∧ delta = 1) ∨ (i = .plw r m ∧ delta = -1) ∨ (i = .psm r m ∧ delta = ccCount s.psd) ∨
      (i = .plm r m ∧ delta = -(ccCount s.psd : Int)) ∨ (i = .msp r m ∧ delta = (fld (getReg s r) 16 16 : Half).toInt)) :
    ∃ body, exec i s = finish (pushDown m delta body s) := by
  obtain ⟨rfl, rfl⟩ | ⟨rfl, rfl⟩ | ⟨rfl, rfl⟩ | ⟨rfl, rfl⟩ | ⟨rfl, rfl⟩ := h <;> exact ⟨_, rfl⟩

/-- Settles O44: the limit test comes before the words are moved, for each of the five. -/
theorem stackLimits : Obligations.StackLimits := by
  intro r m s e spd he hspd space words n i delta hi badSpace badWords
  have hn : n = ccCount s.psd := (ccCount_cast s.psd).symm
  rw [hn] at hi
  obtain ⟨body, hexec⟩ := exists_body hi
  have hspace : badSpace = countViolated (space - delta) := (countViolated_eq _).symm
  have hwords : badWords = countViolated (words + delta) := (countViolated_eq _).symm
  rw [hspace, hwords]
  refine ⟨pushDown_trap hexec he hspd, fun hpassed hinhibited => ⟨_, ?_, effect_limitFlags spd delta s⟩⟩
  rw [Bool.not_eq_true'] at hinhibited
  exact pushDown_inhibited hexec he hspd (Bool.eq_false_iff.1 hinhibited) hpassed

/-! ### One word (R424, R425, R428) -/

theorem firstOf_assoc {α β : Type} (a b c : α → Option β) : firstOf (firstOf a b) c = firstOf a (firstOf b c) := by
  funext k
  simp [firstOf, Option.or_assoc]

/-- Settles O42: the word is moved between R and the top of the stack, or none is, and then the pointer is stored. -/
theorem pushPullWord : Obligations.PushPullWord := by
  intro r m s e spd p0 p1 he hspd h0 h1 top space words done fits
  have hdone {i : Instr} {delta : Int} {body : WordAddr → State → Except Stop State} {u : State} {regs : Regs} {bytes : Bytes}
      (hexec : exec i s = finish (pushDown m delta body s)) (hfits : fits delta) (hbody : body top s = .ok u)
      (hu : Effect s u s.psd.ia (ccBits s.psd) regs bytes) : done i delta regs bytes := by
    obtain ⟨t, ht, hstored⟩ := pushDown_within hexec he hspd hfits hbody hu.rest.mapping h0 h1
    obtain ⟨hhigh, htop, hts, htw, hspace, hwords⟩ := pointerMoved_movedPointer hfits
    have heffect := hu.trans hstored
    rw [firstOf_assoc, firstOf_assoc, hu.ia_eq] at heffect
    exact ⟨_, hhigh, htop, hts, htw, hspace, hwords, t, ht, heffect⟩
  refine ⟨fun l hfits hl => ?psw, fun v hfits hv => ?plw, fun k hk hfits => ?msp⟩
  case psw => exact hdone rfl hfits (writeWord_ok hl) (effect_locSetWord s l _)
  case plw => exact hdone rfl hfits (congrArg (· >>= _) hv) (effect_setReg s r v)
  case msp => exact hk ▸ hdone rfl (hk ▸ hfits) rfl (effect_refl s)

end Sys2Proof.PushDown
end

section
/-! PSM and PLM: several words, and then the pointer (47_push_down_branch_call R426, R427). -/

namespace Sys2Proof.PushDown

set_option Elab.async false

open Sys2Proof Machine Safety LoadStore

variable {s t u : State} {n i : Nat} {a : WordAddr} {last k r : RegNum}

/-! ### Loading downwards -/

theorem sub_ofNat_succ {w : Nat} (x : BitVec w) (i : Nat) : x - BitVec.ofNat w (i + 1) = x - 1 - BitVec.ofNat w i := by
  simp only [BitVec.sub_eq_add_neg, Nat.add_comm i, BitVec.ofNat_add, BitVec.neg_add, BitVec.add_assoc,
    BitVec.ofNat_eq_ofNat]

/-- The distance to the place before `x` is one less than that to `x`. -/
theorem toNat_sub_pred {w : Nat} {x y : BitVec w} (h : x ≠ y) : (x - y).toNat = (x - 1 - y).toNat + 1 := by
  have hswap : x - 1 - y = x - (y + 1) := by
    simp only [BitVec.sub_eq_add_neg, BitVec.neg_add, BitVec.add_assoc, BitVec.add_comm (-y)]
  rw [hswap, toNat_sub_succ h]

/-- The word a location holds when word `i` of a load into the registers from `last` down is read, `t` being the end. -/
def pulledWord (s t : State) (last : RegNum) (i : Nat) : Loc → Word
  | .core b => coreWord s.mem b
  | .reg k => if (last - k).toNat < i then getReg t k else getReg s k

/-- Later words see the first one's register as it ends, since 16 words load no register twice. -/
theorem pulledWord_succ {w : Word} (hi : i < 15) (hfinal : getReg t last = getReg (setReg s last w) last) (l : Loc) :
    pulledWord (setReg s last w) t (last - 1) i l = pulledWord s t last (i + 1) l := by
  cases l with
  | core b => simp [pulledWord]
  | reg k =>
    by_cases hk : last = k
    · subst hk
      have hlast : ¬ (last - 1 - last).toNat < i := by bv_omega
      rw [pulledWord, pulledWord, if_neg hlast, if_pos (by simp), hfinal]
    · rw [pulledWord, pulledWord, getReg_setReg_other s last k w (Ne.symm hk), toNat_sub_pred hk]
      simp only [Nat.add_lt_add_iff_right]

theorem locate_before (h : SameMapping s u) (i : Nat) (l : Loc) :
    locate (programPath u) .operand (a - 1 - BitVec.ofNat 17 i) u = .ok l ↔
      locate (programPath s) .operand (a - BitVec.ofNat 17 (i + 1)) s = .ok l := by
  rw [programPath_congr h, locate_congr h, sub_ofNat_succ]

/-- At most 16 words are loaded into different registers: each ends with the word its location held at its turn. -/
theorem pullWords_spec (hn : n ≤ 16)
    (hl : ∀ i < n, ∃ l, locate (programPath s) .operand (a - BitVec.ofNat 17 i) s = .ok l) :
    ∃ t, pullWords n a last s = .ok t ∧
      Effect s t s.psd.ia (ccBits s.psd) (fun k => if (last - k).toNat < n then some (getReg t k) else none) noBytes ∧
      (blockInstalled s = true → ∀ i < n, ∀ l, locate (programPath s) .operand (a - BitVec.ofNat 17 i) s = .ok l →
        getReg t (last - BitVec.ofNat 4 i) = pulledWord s t last i l) := by
  induction n generalizing a last s with
  | zero => exact ⟨s, rfl, effect_refl s, fun _ i hi => absurd hi (Nat.not_lt_zero i)⟩
  | succ n ih =>
    obtain ⟨l0, h0⟩ := hl 0 (Nat.succ_pos n)
    rw [BitVec.sub_zero] at h0
    have hmap := sameMapping_setReg s last (locWord s l0)
    have hfirst := effect_setReg s last (locWord s l0)
    obtain ⟨t, ht, hrest, hwords⟩ := ih (a := a - 1) (last := last - 1) (s := setReg s last (locWord s l0)) (by omega)
      fun i hi => by
        obtain ⟨l, h⟩ := hl (i + 1) (by omega)
        exact ⟨l, (locate_before hmap i l).2 h⟩
    have hlast : ¬ (last - 1 - last).toNat < n := by bv_omega
    have hfinal : getReg t last = getReg (setReg s last (locWord s l0)) last := hrest.getReg_unwritten (if_neg hlast)
    refine ⟨t, by rw [pullWords, readWord_ok h0, ok_bind, ht], ?_, fun hb i hi l h => ?_⟩
    · rw [hfirst.ia_eq, hfirst.cc_eq] at hrest
      refine (hfirst.trans hrest).ownValues fun k hk => ?_
      have hne : k ≠ last := by
        rintro rfl
        exact hk (by simp)
      rw [toNat_sub_pred hne.symm, Nat.add_lt_add_iff_right] at hk
      rw [firstOf, if_neg hk, oneReg, if_neg hne]
      rfl
    · cases i with
      | zero =>
        rw [BitVec.sub_zero, h0] at h
        cases h
        rw [BitVec.sub_zero, hfinal, getReg_setReg_same s last _ hb]
        cases l0 <;> rfl
      | succ i =>
        rw [sub_ofNat_succ, ← pulledWord_succ (by omega) hfinal]
        exact hwords (hfirst.rest.blockInstalled.trans hb) i (by omega) l ((locate_before hmap i l).2 h)

/-- The registers from `r` on and those from the last one down are the same. -/
theorem distance_last (hbounds : 1 ≤ n ∧ n ≤ 16) (r k : RegNum) :
    (r + BitVec.ofNat 4 n - 1 - k).toNat < n ↔ (k - r).toNat < n := by
  obtain ⟨hpos, hle⟩ := hbounds
  bv_omega

theorem storedWords_rest {val : Nat → Word} {except : Loc → Prop} (h : StoredWords s t n a val except) : SameRest s t := by
  obtain ⟨-, -, -, hrest⟩ := h
  exact hrest

/-! ### The limits -/

section Limits

variable {spd : Double}

theorem one_le_ccCount (p : Psd) : 1 ≤ ccCount p := by
  unfold ccCount
  split <;> omega

theorem toNat_count_le (x : BitVec 15) : x.toNat ≤ 32767 := Nat.le_of_lt_succ x.isLt

theorem fits_push (hspace : n ≤ (spaceCount spd).toNat) (hwords : (wordCount spd).toNat + n ≤ 32767) : Fits spd n := by
  have hle := toNat_count_le (spaceCount spd)
  unfold Fits
  omega

theorem fits_pull (hwords : n ≤ (wordCount spd).toNat) (hspace : (spaceCount spd).toNat + n ≤ 32767) : Fits spd (-n) := by
  have hle := toNat_count_le (wordCount spd)
  unfold Fits
  omega

/-- After words have been added the stack is not empty. -/
theorem movedCc_push (hpos : 1 ≤ n) : movedCc spd n = ccOf false (decide ((spaceCount spd).toNat = n)) false false := by
  have hspace : ((spaceCount spd).toNat : Int) - n = 0 ↔ (spaceCount spd).toNat = n := by omega
  have hwords : ¬ ((wordCount spd).toNat : Int) + n = 0 := by omega
  rw [movedCc, decide_eq_false hwords]
  simp only [hspace]

/-- After words have been taken away the stack is not full. -/
theorem movedCc_pull (hpos : 1 ≤ n) : movedCc spd (-n) = ccOf false false false (decide ((wordCount spd).toNat = n)) := by
  have hspace : ¬ ((spaceCount spd).toNat : Int) - -n = 0 := by omega
  have hwords : ((wordCount spd).toNat : Int) + -n = 0 ↔ (wordCount spd).toNat = n := by omega
  rw [movedCc, decide_eq_false hspace]
  simp only [hwords]

end Limits

/-! ### The instructions -/

/-- Settles O43: the words are moved one after another, and then the pointer is stored. -/
theorem pushPullMultiple : Obligations.PushPullMultiple := by
  intro r m s e spd p0 p1 n he hspd h0 h1 hcount top space words
  have hn : n = ccCount s.psd := hcount
  have hbounds : 1 ≤ n ∧ n ≤ 16 := hn ▸ ⟨one_le_ccCount s.psd, ccCount_le s.psd⟩
  obtain ⟨hpos, hle⟩ := hbounds
  refine ⟨fun hspace hwords hl => ?psm, fun hwords hspace hl => ?plm⟩
  case psm =>
    have hfits : Fits spd n := fits_push hspace hwords
    have hexec : exec (.psm r m) s = finish (pushDown m n (fun top t => storeRegs n (top + 1) r t) s) := by rw [hn]; rfl
    obtain ⟨u, hu, hpsd, hstored⟩ := storeRegs_spec (r := r) (by omega) hl
    obtain ⟨t, ht, hpointer⟩ := pushDown_within hexec he hspd hfits hu (storedWords_rest hstored).mapping h0 h1
    rw [movedCc_push hpos] at hpointer
    exact ⟨u, t, _, ht, hpsd, hstored, pointerMoved_movedPointer hfits, hpointer⟩
  case plm =>
    have hfits : Fits spd (-n) := fits_pull hwords hspace
    have hexec : exec (.plm r m) s =
        finish (pushDown m (-n) (fun top t => pullWords n top (r + BitVec.ofNat 4 n - 1) t) s) := by rw [hn]; rfl
    obtain ⟨u, hu, heffect, hloaded⟩ := pullWords_spec (last := r + BitVec.ofNat 4 n - 1) hle hl
    obtain ⟨t, ht, hpointer⟩ := pushDown_within hexec he hspd hfits hu heffect.rest.mapping h0 h1
    rw [movedCc_pull hpos] at hpointer
    simp only [distance_last ⟨hpos, hle⟩] at heffect
    exact ⟨u, t, _, ht, heffect, fun hb i hi => ⟨fun b => hloaded hb i hi (.core b), fun k => hloaded hb i hi (.reg k)⟩,
      pointerMoved_movedPointer hfits, hpointer⟩

end Sys2Proof.PushDown
end

section
/-! Privileged instructions in master mode: LPSD, XPSD, LRP and WAIT (48_control R461 to R467, R475). -/

namespace Sys2Proof.Control

set_option Elab.async false

open Sys2Proof Machine Safety LoadStore Encoding

variable {s t : State} {r : BitVec 4} {m : MemRef} {i : Instr}

/-- A privileged instruction of a master program goes on after the test of the mode (30_encoding R135). -/
theorem exec_master {x : Except Stop State} (hexec : exec i s = finish (requireMaster s >>= fun _ => x))
    (hms : s.psd.ms = false) : exec i s = finish x := by
  rw [hexec, requireMaster_master hms, ok_bind]

/-! ### LPSD (R462) -/

/-- The PSD that LPSD loads: as XPSD's, but with the inhibits of the doubleword. -/
def loadedPsd (p : Psd) (flags : BitVec 4) (ed : Double) : Psd :=
  { loadPsw2 (loadPsw1 p (hiWord ed)) (loWord ed) (flags.getMsbD 0) with
    ci := (loWord ed).getMsbD 5, ii := (loWord ed).getMsbD 6, ei := (loWord ed).getMsbD 7 }

theorem loadPsd_eq (flags : BitVec 4) (ed : Double) (s : State) :
    loadPsd flags ed s =
      if flags.getMsbD 2 then clearHighest { s with psd := loadedPsd s.psd flags ed } (flags.getMsbD 3)
      else { s with psd := loadedPsd s.psd flags ed } := rfl

theorem getMsbD_hiWord (ed : Double) {k : Nat} (hk : k < 32) : (hiWord ed).getMsbD k = ed.getMsbD k := by
  simp [hiWord, getMsbD_fld, hk]

theorem getMsbD_loWord (ed : Double) {k : Nat} (hk : k < 32) : (loWord ed).getMsbD k = ed.getMsbD (32 + k) := by
  simp [loWord, getMsbD_fld, hk]

/-- Clearing the highest-priority active level writes that level alone. -/
theorem clearHighest_eq (s : State) (arm : Bool) : clearHighest s arm = { s with levels := (clearHighest s arm).levels } := by
  unfold clearHighest
  split <;> rfl

theorem level_clearHighest (s : State) (arm : Bool) {k : Nat} (hk : k < 240) :
    level (clearHighest s arm) k =
      if highestActive s = some k then { level s k with state := clearedState k arm } else level s k := by
  unfold clearHighest
  cases hactive : highestActive s with
  | none => rfl
  | some j =>
    by_cases hjk : j = k
    · subst hjk
      rw [if_pos rfl]
      exact level_setLevel_self hk
    · rw [if_neg (by simpa using hjk)]
      exact level_setLevel_ne hjk

theorem clearedState_eq (k : Nat) (arm : Bool) :
    clearedState k arm = if arm = true ∨ k < 2 then .armed else .disarmed := by
  simp [clearedState]

/-- LPSD writes the PSD and the levels alone. -/
theorem loadPsd_spec (flags : BitVec 4) (ed : Double) (s : State) :
    ∃ v, loadPsd flags ed s = { s with psd := loadedPsd s.psd flags ed, levels := v } ∧
      ∀ k < 240, level { s with levels := v } k =
        if flags.getMsbD 2 = true ∧ highestActive s = some k then { level s k with state := clearedState k (flags.getMsbD 3) }
        else level s k := by
  rw [loadPsd_eq]
  by_cases hclear : flags.getMsbD 2 = true
  · rw [if_pos hclear, clearHighest_eq]
    refine ⟨_, rfl, fun k hk => ?_⟩
    simp only [hclear, true_and]
    exact level_clearHighest _ _ hk
  · rw [if_neg hclear]
    refine ⟨s.levels, rfl, fun k _ => ?_⟩
    rw [if_neg fun h => hclear h.1]

/-- Settles O49: LPSD replaces the fields of the PSD and, with bit 10, clears the highest-priority active level. -/
theorem loadProgramStatus : Obligations.LoadProgramStatus := by
  intro r m s ed hms hed
  obtain ⟨v, hload, hlevels⟩ := loadPsd_spec r ed s
  have hcc : ccBits (loadedPsd s.psd r ed) = fld ed 0 4 := by
    change ccBits (loadPsw1 s.psd (hiWord ed)) = _
    rw [ccBits_loadPsw1, hiWord, fld_fld ed (by decide) (by decide)]
  have hia : (loadedPsd s.psd r ed).ia = fld ed 15 17 := fld_fld ed (by decide) (by decide)
  have hwk : (loadedPsd s.psd r ed).wk = fld ed 34 2 := fld_fld ed (by decide) (by decide)
  have hrp : (loadedPsd s.psd r ed).rp = if r.getMsbD 0 then fld ed 55 5 else s.psd.rp :=
    congrArg (fun x => if r.getMsbD 0 then x else s.psd.rp) (fld_fld ed (by decide) (by decide))
  have hhigh (k : Nat) (hk : k < 32) : (hiWord ed).getMsbD k = ed.getMsbD k := getMsbD_hiWord ed hk
  have hlow (k : Nat) (hk : k < 32) : (loWord ed).getMsbD k = ed.getMsbD (32 + k) := getMsbD_loWord ed hk
  refine ⟨_, exec_of_ok (exec_master rfl hms) hed (congrArg Except.ok hload), rfl, hcc, hhigh 5 (by decide),
    hhigh 6 (by decide), hhigh 7 (by decide), hhigh 8 (by decide), hhigh 9 (by decide), hhigh 10 (by decide),
    hhigh 11 (by decide), hia, hwk, hlow 5 (by decide), hlow 6 (by decide), hlow 7 (by decide), hrp, fun k hk => ?_⟩
  rw [← clearedState_eq]
  exact hlevels k hk

/-! ### XPSD (R463, R464) -/

/-- XPSD with bit 9 set, in no trap location that uses it, is refused (U12). -/
theorem exchangePsd_refused {dra : WordAddr} (hd : directVia (exchangePaths r s).1 m s = .ok dra)
    (hbit : r.getMsbD 1 = true) (hentry : incrementAllowed s.entry = false) :
    exchangePsd r m s = .error (.refuse .xpsdIncrement) := by
  rw [exchangePsd, hd, ok_bind]
  dsimp only
  rw [if_pos (by rw [hbit, hentry]; rfl)]

/-- Settles O50: XPSD stores the old PSD and loads the new one. -/
theorem exchangeProgramStatus : Obligations.ExchangeProgramStatus := by
  intro r m s l0 l1 l2 l3 hms hentry hx
  have hexec : exec (.xpsd r m) s = finish (exchangePsd r m s) := exec_master rfl hms
  refine ⟨fun hbit => ?_, fun hbit => ?_, fun hstarted => ?_⟩
  · obtain ⟨t, ht, hstored, -, hpsd⟩ := exchangePsd_spec hx fun h => absurd h (by rw [hbit]; decide)
    exact ⟨t, by rw [hexec, ht, finish_ok], hstored, hpsd ▸ newPsd_exchangedPsd s.psd _ _ _⟩
  · obtain ⟨dra, hd, -⟩ := hx
    rw [hexec, exchangePsd_refused hd hbit (by rw [hentry]; rfl), finish_refuse]
  · simp [storedIa, hstarted]

/-! ### LRP (R467) -/

/-- A block that is not installed reads the same in every register (10_state R13). -/
theorem getReg_missing_block (h : s.cfg.nBlocks ≤ s.psd.rp.toNat) :
    (∀ k, getReg s k = BitVec.allOnes 32) ∨ (∀ k, getReg s k = 0) := by
  have hmissing : blockInstalled s = false := by simpa [blockInstalled] using h
  cases hones : s.cfg.missingOnes with
  | true => exact .inl fun k => by rw [References.getReg_of_missing hmissing, hones]; rfl
  | false => exact .inr fun k => by rw [References.getReg_of_missing hmissing, hones]; rfl

/-- Settles O51: LRP loads RP, from a word that can be read, in master mode. -/
theorem loadRegisterPointer : Obligations.LoadRegisterPointer := by
  intro r m s
  refine ⟨fun hms => finish_requireMaster hms _, fun e hms he => ?_, fun w hms hw => ?_⟩
  · exact stopsNonallowed_operandWord.takesTrap (exec_master rfl hms) he
  · exact ⟨_, exec_of_ok (exec_master rfl hms) hw rfl, rfl, rfl, fun h => getReg_missing_block h⟩

/-! ### WAIT (R475) -/

theorem ioSync_of_noRequest (h : ioRequest s = false) : ioSync s = s := by simp [ioSync, h]

/-- With nothing from outside the machine's step is the CPU's. -/
theorem step_eq_cpuStep (hinputs : s.inputs = []) (hio : ioRequest s = false) : step s = cpuStep s := by
  rw [step, machineStep, hinputs]
  exact congrArg cpuStep (ioSync_of_noRequest hio)

theorem interruptNow_of_none (h : nextInterrupt s = none) : interruptNow s = none := by
  rw [interruptNow, h, ite_self]

/-- A halted CPU with no level to acknowledge stays as it is (60_exceptions R620). -/
theorem cpuStep_halted (hwait : s.halts.wait = true) (hnone : nextInterrupt s = none) (hdog : s.watchdog = 0) :
    cpuStep s = .next s := by
  have hsame : { s with watchdog := 0 } = s := by rw [← hdog]
  simp only [cpuStep, hsame, interruptNow_of_none hnone, hwait, if_true, ite_self]

/-- Settles O52: WAIT halts the CPU, and it stays halted. -/
theorem waitHalts : Obligations.WaitHalts := by
  intro r m s a hms ha
  refine ⟨exec_of_ok (exec_master rfl hms) ha rfl, fun t hwait hinputs hio hnone hdog => ?_⟩
  rw [step_eq_cpuStep hinputs hio, cpuStep_halted hwait hnone hdog]

end Sys2Proof.Control
end

section
/-! An effect stays one when a field that it does not speak of is changed on both sides. -/

namespace Sys2Proof.Safety

set_option Elab.async false

open Sys2Proof Machine

variable {s t : State} {ia : WordAddr} {cc : BitVec 4} {regs : Regs} {bytes : Bytes}

/-- An update `f` of fields other than the registers, the memory, the PSD and the installation. -/
theorem Effect.frame (h : Effect s t ia cc regs bytes) (f : State → State)
    (hregs : ∀ x, (f x).regs = x.regs := by intros; rfl) (hmem : ∀ x, (f x).mem = x.mem := by intros; rfl)
    (hpsd : ∀ x, (f x).psd = x.psd := by intros; rfl) (hcfg : ∀ x, (f x).cfg = x.cfg := by intros; rfl)
    (hcomm : ∀ x r m p, f { x with regs := r, mem := m, psd := p } = { f x with regs := r, mem := m, psd := p } := by
      intros; rfl) : Effect (f s) (f t) ia cc regs bytes := by
  have hreg (x : State) (k : RegNum) : getReg (f x) k = getReg x k := getReg_congr k (hregs x) (by rw [hpsd]) (hcfg x)
  have hblock : Machine.blockInstalled (f s) = Machine.blockInstalled s := blockInstalled_congr (by rw [hpsd]) (hcfg s)
  refine ⟨fun k => ?_, fun a => ?_, ?_, ?_, fun n hn => ?_, ?_⟩
  · rw [hreg, hreg, hblock, h.1 k]
  · rw [hmem, hmem, h.2.1 a]
  · rw [hpsd, h.cc_eq]
  · rw [hpsd, h.ia_eq]
  · rw [hpsd] at hn
    simpa only [hregs] using h.rest.1 n hn
  · rw [hregs s, hmem s, hpsd s, hpsd t, ← hcomm, h.rest.2]

end Sys2Proof.Safety
end

section
/-! RD and WD (48_control R476 to R487). -/

namespace Sys2Proof.Control

set_option Elab.async false

open Sys2Proof Machine Safety LoadStore Encoding

variable {s : State} {r : RegNum} {m : MemRef} {a : WordAddr} {e : BitVec 16} {i : Instr}

/-! ### The address on the direct lines (R476) -/

theorem elementAddress_ok (ha : eaWord m s = .ok a) (he : e = a.setWidth 16) : elementAddress m s = .ok e := by
  rw [elementAddress, ha, ok_bind, he, fld_low a rfl]

theorem toNat_directMode (e : BitVec 16) : (directMode e).toNat = e.toNat / 4096 := by
  rw [directMode, toNat_fld]
  omega

theorem directMode_eq_iff (e : BitVec 16) (k : BitVec 4) : directMode e = k ↔ e.toNat / 4096 = k.toNat := by
  rw [← BitVec.toNat_inj, toNat_directMode]

/-- An instruction whose first part answers goes on with what follows. -/
theorem exec_after {α : Type} {x : Except Stop α} {f : α → Except Stop State} {v : α}
    (hexec : exec i s = finish (x >>= f)) (hx : x = .ok v) : exec i s = finish (f v) := by
  rw [hexec, hx, ok_bind]

/-- With no element, the trap of the watchdog timer or no end. -/
theorem noElement_ends (hexec : exec i s = finish (noElement s)) :
    (s.panel.watchdogOverride = false → exec i s = takeTrap .watchdog s) ∧
    (s.panel.watchdogOverride = true → exec i s = .fault .stuckDirectLines) := by
  rw [hexec, noElement]
  exact ⟨fun h => by rw [if_neg (by simp [h]), finish_trap], fun h => by rw [if_pos h, finish_fault]⟩

/-! ### RD (R477, R487) -/

section Read

variable (hms : s.psd.ms = false) (ha : eaWord m s = .ok a) (he : e = a.setWidth 16)
include hms ha he

theorem exec_rd_internal (h : directMode e = 0) :
    exec (.rd r m) s = .next (readInternal r e (setCc s (senseSwitches s))) :=
  (exec_after (exec_master rfl hms) (elementAddress_ok ha he)).trans (congrArg finish (if_pos h))

theorem exec_rd_unassigned (h : directMode e = 1) : exec (.rd r m) s = finish (noElement s) := by
  have h0 : directMode e ≠ 0 := by rw [h]; decide
  exact (exec_after (exec_master rfl hms) (elementAddress_ok ha he)).trans
    (congrArg finish ((if_neg h0).trans (if_pos h)))

section Element

variable (h0 : directMode e ≠ 0) (h1 : directMode e ≠ 1)
include h0 h1

theorem exec_rd_none (hnone : readAnswer e s = none) : exec (.rd r m) s = finish (noElement s) := by
  refine (exec_after (exec_master rfl hms) (elementAddress_ok ha he)).trans (congrArg finish ?_)
  rw [if_neg h0, if_neg h1, hnone]

theorem exec_rd_element {cc : BitVec 2} {x : Word} (hsome : readAnswer e s = some (cc, x)) :
    exec (.rd r m) s = .next (if r = 0 then setCc34 (cc.getMsbD 0) (cc.getMsbD 1) s
      else setReg (setCc34 (cc.getMsbD 0) (cc.getMsbD 1) s) r x) := by
  refine (exec_after (exec_master rfl hms) (elementAddress_ok ha he)).trans ((congrArg finish ?_).trans (finish_ok _))
  rw [if_neg h0, if_neg h1, hsome]

end Element
end Read

section Internal

variable (hr : r ≠ 0)
include hr

theorem readInternal_memFault (h : e = s.cfg.rdMemFaultAddr) :
    readInternal r e s = { setReg s r (s.memFault.setWidth 32) with memFault := s.overTemp } :=
  (if_neg hr).trans (if_pos h)

section Other

variable (hfault : e ≠ s.cfg.rdMemFaultAddr)
include hfault

theorem readInternal_sense (h : e = s.cfg.rdSenseAddr) : readInternal r e s = s :=
  (if_neg hr).trans ((if_neg hfault).trans (if_pos h))

theorem readInternal_unlisted (h : e ≠ s.cfg.rdSenseAddr) : readInternal r e s = setReg (draw s).2 r (draw s).1 :=
  (if_neg hr).trans ((if_neg hfault).trans (if_neg h))

end Other
end Internal

/-- A nonzero R field names the register that an answer is loaded in. -/
theorem effect_answer (s : State) (r : RegNum) (cc : BitVec 2) (x : Word) :
    Effect s (if r = 0 then setCc34 (cc.getMsbD 0) (cc.getMsbD 1) s
        else setReg (setCc34 (cc.getMsbD 0) (cc.getMsbD 1) s) r x) s.psd.ia
      (ccOf s.psd.cc1 s.psd.cc2 (cc.getMsbD 0) (cc.getMsbD 1)) (if r = 0 then noRegs else oneReg r x) noBytes := by
  have hcc := (effect_refl s).setCc34 (cc.getMsbD 0) (cc.getMsbD 1)
  split
  · exact hcc
  · simpa using hcc.setReg r x

/-- The memory-fault function: the indicators go to R and then show the over-temperatures alone. -/
theorem effect_memFault (s : State) (c : BitVec 4) (r : RegNum) (v : BitVec 8) :
    Effect { s with memFault := v } { setReg (setCc s c) r ((setCc s c).memFault.setWidth 32) with memFault := v } s.psd.ia c
      (oneReg r (s.memFault.setWidth 32)) noBytes := by
  have hload := ((effect_refl s).setCc c).setReg r (s.memFault.setWidth 32)
  rw [firstOf_noRegs] at hload
  exact hload.frame fun x => { x with memFault := v }

/-- Settles O54: RD reads the SENSE switches, the memory-fault indicators, or what an element answers. -/
theorem readDirect : Obligations.ReadDirect := by
  intro r m s a e hms ha he mode answer
  have hmode (k : BitVec 4) : directMode e = k ↔ mode = k.toNat := directMode_eq_iff e k
  have hsensed := (effect_refl s).setCc (senseSwitches s)
  have hmodes (h2 : 2 ≤ mode) : directMode e ≠ 0 ∧ directMode e ≠ 1 := by
    constructor <;> rw [Ne, hmode] <;> intro h <;> rw [h] at h2 <;> revert h2 <;> decide
  refine ⟨fun h0 => ?internal, fun h2 cc x hx => ?element, fun h => noElement_ends ?none⟩
  case internal =>
    have hexec {t : State} (h : readInternal r e (setCc s (senseSwitches s)) = t) : exec (.rd r m) s = .next t :=
      (exec_rd_internal hms ha he ((hmode 0).2 h0)).trans (congrArg _ h)
    refine ⟨fun hfault hr => ?_, fun hquiet => ⟨_, hexec ?_, hsensed⟩, fun hr hfault hsense => ?_⟩
    · exact ⟨_, hexec (readInternal_memFault hr hfault), rfl, effect_memFault s _ r s.overTemp⟩
    · by_cases hr : r = 0
      · exact if_pos hr
      · obtain ⟨hsense, hfault⟩ := hquiet.resolve_left hr
        exact readInternal_sense hr hfault hsense
    · refine ⟨_, (draw s).1, hexec (readInternal_unlisted hr hfault hsense), ?_⟩
      rw [EffectDrawn, setReg_draws]
      simpa using (Effect.draw hsensed).setReg r _
  case element =>
    obtain ⟨h0, h1⟩ := hmodes h2
    exact ⟨_, exec_rd_element hms ha he h0 h1 hx, effect_answer s r cc x⟩
  case none =>
    obtain h1 | ⟨h2, hnone⟩ := h
    · exact exec_rd_unassigned hms ha he ((hmode 1).2 h1)
    · obtain ⟨h0, h1⟩ := hmodes h2
      exact exec_rd_none hms ha he h0 h1 hnone

/-! ### WD: internal control (R480 to R485) -/

section Write

variable (hms : s.psd.ms = false) (ha : eaWord m s = .ok a) (he : e = a.setWidth 16)
include hms ha he

theorem exec_wd_internal (h : directMode e = 0) :
    exec (.wd r m) s = .next (writeInternal e (setCc s (senseSwitches s))) :=
  (exec_after (exec_master rfl hms) (elementAddress_ok ha he)).trans (congrArg finish (if_pos h))

theorem exec_wd_interrupts (h : directMode e = 1) :
    exec (.wd r m) s = finish (controlInterrupts e (directData r s) s) := by
  have h0 : directMode e ≠ 0 := by rw [h]; decide
  exact (exec_after (exec_master rfl hms) (elementAddress_ok ha he)).trans
    (congrArg finish ((if_neg h0).trans (if_pos h)))

section Element

variable (h0 : directMode e ≠ 0) (h1 : directMode e ≠ 1)
include h0 h1

theorem exec_wd_none (hnone : writeAnswer e (directData r s) s = none) : exec (.wd r m) s = finish (noElement s) := by
  refine (exec_after (exec_master rfl hms) (elementAddress_ok ha he)).trans (congrArg finish ?_)
  rw [if_neg h0, if_neg h1, hnone]

theorem exec_wd_silent (hsome : writeAnswer e (directData r s) s = some none) :
    exec (.wd r m) s = .next (writeElement e (directData r s) s) := by
  refine (exec_after (exec_master rfl hms) (elementAddress_ok ha he)).trans ((congrArg finish ?_).trans (finish_ok _))
  rw [if_neg h0, if_neg h1, hsome]

theorem exec_wd_answered {cc : BitVec 2} (hsome : writeAnswer e (directData r s) s = some (some cc)) :
    exec (.wd r m) s = .next (setCc34 (cc.getMsbD 0) (cc.getMsbD 1) (writeElement e (directData r s) s)) := by
  refine (exec_after (exec_master rfl hms) (elementAddress_ok ha he)).trans ((congrArg finish ?_).trans (finish_ok _))
  rw [if_neg h0, if_neg h1, hsome]

end Element
end Write

/-- The codes of the inhibits: all but the last three bits. -/
theorem and_codes_eq_iff (e : BitVec 16) (k : Nat) (hk : k < 8192) :
    e &&& 0xFFF8#16 = BitVec.ofNat 16 (8 * k) ↔ e.toNat / 8 = k := by
  have hmask : e &&& 0xFFF8#16 = (e >>> 3) <<< 3 := by
    ext j hj
    interval_cases j <;> simp
  rw [hmask, ← BitVec.toNat_inj]
  simp only [BitVec.toNat_shiftLeft, BitVec.toNat_ushiftRight, Nat.shiftLeft_eq, Nat.shiftRight_eq_div_pow,
    BitVec.toNat_ofNat]
  omega

/-! ### WD: elements (R479) -/

theorem to_eq_getD (w : WriteAnswer) (data : Word) :
    w.to data = ((w.special.find? (fun p => p.1 == data)).map (fun p => p.2)).getD w.other := by
  unfold WriteAnswer.to
  cases w.special.find? (fun p => p.1 == data) <;> rfl

theorem writeAnswer_of_element {x : Element} {w : WriteAnswer} (data : Word) (hx : elementAt e s = some x)
    (hw : x.write = some w) : writeAnswer e data s = some (w.to data) := by
  rw [writeAnswer, hx, Option.bind_some, hw, Option.map_some]

theorem writeAnswer_none (data : Word) (h : ∀ x, elementAt e s = some x → x.write = none) : writeAnswer e data s = none := by
  unfold writeAnswer
  cases hx : elementAt e s with
  | none => rfl
  | some x => rw [Option.bind_some, h x hx, Option.map_none]

theorem effect_writeElement (s : State) (e : BitVec 16) (data : Word) :
    Effect { s with elements := (writeElement e data s).elements } (writeElement e data s) s.psd.ia (ccBits s.psd) noRegs
      noBytes :=
  effect_refl (writeElement e data s)

theorem elements_writeElement (s : State) (e : BitVec 16) (data : Word) :
    (writeElement e data s).elements = s.elements.map (fun y => if y.addr = e then { y with written := some data } else y) := by
  simp [writeElement]

/-- Settles O55: the inhibits, ALARM, PCF, and the elements. -/
theorem writeDirect : Obligations.WriteDirect := by
  intro r m s a e hms ha he sensed data c unnamed
  have hmode (k : BitVec 4) : directMode e = k ↔ e.toNat / 4096 = k.toNat := directMode_eq_iff e k
  have hset : e &&& 0xFFF8 = 0x0030 ↔ e.toNat / 8 = 6 := and_codes_eq_iff e 6 (by decide)
  have hreset : e &&& 0xFFF8 = 0x0020 ↔ e.toNat / 8 = 4 := and_codes_eq_iff e 4 (by decide)
  have hexec (h : e.toNat < 4096) : exec (.wd r m) s = .next (writeInternal e sensed) :=
    exec_wd_internal hms ha he ((hmode 0).2 (Nat.div_eq_of_lt h))
  have hunnamed (h : unnamed) : exec (.wd r m) s = .next (
      if e = c.wdSetAlarmAddr then { sensed with alarm := true }
      else if e = c.wdResetAlarmAddr then { sensed with alarm := false }
      else if e = c.wdTogglePcfAddr then { sensed with pcf := !s.pcf, alarm := false }
      else { sensed with flagged := true }) := by
    obtain ⟨hlow, h6, h4⟩ := h
    exact (hexec hlow).trans (congrArg _ ((if_neg (mt hset.1 h6)).trans (if_neg (mt hreset.1 h4))))
  refine ⟨fun h => ?_, fun h => ?_, fun h h1 => ?_, fun h h1 h2 => ?_, fun h h1 h2 h3 => ?_, fun h h1 h2 h3 => ?_,
    fun h => ?element⟩
  · exact (hexec (by omega)).trans (congrArg _ (if_pos (hset.2 h)))
  · exact (hexec (by omega)).trans (congrArg _ ((if_neg (mt hset.1 (by omega))).trans (if_pos (hreset.2 h))))
  · rw [hunnamed h, if_pos h1]
  · rw [hunnamed h, if_neg h1, if_pos h2]
  · rw [hunnamed h, if_neg h1, if_neg h2, if_pos h3]
  · rw [hunnamed h, if_neg h1, if_neg h2, if_neg h3]
  case element =>
    have h0 : directMode e ≠ 0 := by rw [Ne, hmode]; change ¬ _ = 0; omega
    have h1 : directMode e ≠ 1 := by rw [Ne, hmode]; change ¬ _ = 1; omega
    refine ⟨fun x w hx hw => ?_, fun hnone => noElement_ends (exec_wd_none hms ha he h0 h1 (writeAnswer_none _ hnone))⟩
    intro answer
    have hanswer : writeAnswer e data s = some answer := by rw [writeAnswer_of_element data hx hw, to_eq_getD]
    have heffect := effect_writeElement s e data
    have hmap := elements_writeElement s e data
    cases hcase : answer with
    | none => exact ⟨_, exec_wd_silent hms ha he h0 h1 (hanswer.trans (congrArg _ hcase)), hmap, heffect⟩
    | some cc =>
      exact ⟨_, exec_wd_answered hms ha he h0 h1 (hanswer.trans (congrArg _ hcase)), hmap,
        heffect.setCc34 (cc.getMsbD 0) (cc.getMsbD 1)⟩

end Sys2Proof.Control
end

section
/-! WD interrupt control: one function on the selected levels of a group (48_control R486). -/

namespace Sys2Proof.Control

set_option Elab.async false

open Sys2Proof Machine Safety LoadStore Encoding

variable {s : State} {f : BitVec 3} {g : BitVec 4} {data : Word} {j k n : Nat}

/-! ### The levels of a group -/

/-- The bit of register R that selects level `k` in a group (R486). -/
def selectingBit (g k : Nat) : Option Nat :=
  if g = 0 then (if 2 ≤ k ∧ k < 14 ∧ k ≠ 7 then some (14 + k) else none)
  else if g = 1 then none
  else if k / 16 = g - 1 then some (16 + k % 16) else none

theorem selectedLevel_eq_some_iff (hj : j < 16) (hk : k < 240) :
    selectedLevel g j = some k ↔ selectingBit g.toNat k = some (16 + j) := by
  have hg := g.isLt
  unfold selectedLevel selectingBit
  split_ifs <;> simp <;> omega

theorem selectedLevel_injective {k' : Nat} (h : selectedLevel g j = some k) (h' : selectedLevel g k' = some k) : j = k' := by
  unfold selectedLevel at h h'
  split_ifs at h h' <;> simp at h h' <;> omega

theorem selectingBit_bounds {b : Nat} (hk : k < 240) (h : selectingBit g.toNat k = some b) : 16 ≤ b ∧ b < 32 := by
  unfold selectingBit at h
  split_ifs at h <;> simp at h <;> omega

/-! ### One level -/

theorem controlOne_eq (f : BitVec 3) (g : BitVec 4) (data : Word) (s : State) (j : Nat) :
    controlOne f g data s j = { s with levels := (controlOne f g data s j).levels } := by
  unfold controlOne
  split
  · rfl
  · split <;> rfl

/-- What interrupt control makes of a level with selection bit `j` of the word. -/
def controlled (f : BitVec 3) (data : Word) (s : State) (j k : Nat) : Level :=
  if levelInstalled s.cfg k then controlLevel f (data.getMsbD (16 + j)) (level s k) else level s k

theorem level_controlOne_selected (hk : k < 240) (h : selectedLevel g j = some k) :
    level (controlOne f g data s j) k = controlled f data s j k := by
  unfold controlOne controlled
  rw [h]
  dsimp only
  split
  · exact level_setLevel_self hk
  · rfl

theorem level_controlOne_other (h : selectedLevel g j ≠ some k) : level (controlOne f g data s j) k = level s k := by
  unfold controlOne
  cases hsel : selectedLevel g j with
  | none => rfl
  | some i =>
    dsimp only
    split
    · exact level_setLevel_ne fun hik => h (by rw [hsel, hik])
    · rfl

/-! ### All levels -/

/-- After the first `n` selection bits: the levels they name have changed. -/
theorem controlOne_foldl (f : BitVec 3) (g : BitVec 4) (data : Word) (s : State) (n : Nat) :
    ∃ v, (List.range n).foldl (controlOne f g data) s = { s with levels := v } ∧ ∀ k < 240,
      (∀ j < n, selectedLevel g j = some k → level { s with levels := v } k = controlled f data s j k) ∧
      ((∀ j < n, selectedLevel g j ≠ some k) → level { s with levels := v } k = level s k) := by
  induction n with
  | zero => exact ⟨s.levels, rfl, fun k _ => ⟨fun j hj => absurd hj (Nat.not_lt_zero j), fun _ => rfl⟩⟩
  | succ n ih =>
    obtain ⟨v, hv, hlevels⟩ := ih
    have hstep : (List.range (n + 1)).foldl (controlOne f g data) s = controlOne f g data { s with levels := v } n := by
      rw [List.range_succ, List.foldl_append, hv]
      rfl
    have heq := controlOne_eq f g data { s with levels := v } n
    refine ⟨_, hstep.trans heq, fun k hk => ?_⟩
    obtain ⟨hbefore, hkept⟩ := hlevels k hk
    have hlast : level { s with levels := (controlOne f g data { s with levels := v } n).levels } k =
        level (controlOne f g data { s with levels := v } n) k := by rw [heq]
    rw [hlast]
    refine ⟨fun j hj hsel => ?_, fun hnone => ?_⟩
    · by_cases hjn : j = n
      · subst hjn
        have hsame := hkept fun i hi hi' => absurd (selectedLevel_injective hi' hsel) (Nat.ne_of_lt hi)
        rw [level_controlOne_selected hk hsel, controlled, controlled, hsame]
      · rw [level_controlOne_other fun h => hjn (selectedLevel_injective hsel h), hbefore j (by omega) hsel]
    · rw [level_controlOne_other (hnone n (Nat.lt_succ_self n)), hkept fun j hj => hnone j (Nat.lt_succ_of_lt hj)]

theorem controlLevel_eq (hf : f ≠ 0) (sel : Bool) (l : Level) :
    controlLevel f sel l =
      if sel then
        (if f = 1 then { l with state := .disarmed }
          else if f = 2 then ⟨.armed, true⟩ else if f = 3 then ⟨.armed, false⟩
          else if f = 4 ∨ f = 6 then { l with enabled := true }
          else if f = 5 then { l with enabled := false }
          else if l.state = .armed then { l with state := .waiting } else l)
      else if f = 6 then { l with enabled := false } else l := by
  have hcases : ∀ f : BitVec 3, f ≠ 0 → f = 1 ∨ f = 2 ∨ f = 3 ∨ f = 4 ∨ f = 5 ∨ f = 6 ∨ f = 7 := by decide
  obtain rfl | rfl | rfl | rfl | rfl | rfl | rfl := hcases f hf
  all_goals cases sel <;> simp [controlLevel]

/-- Settles O56: the function is applied to each selected installed level, and nothing else changes. -/
theorem interruptControl : Obligations.InterruptControl := by
  intro r m s a e hms ha he hmode f g data
  have hexec : exec (.wd r m) s = finish (controlInterrupts e data s) :=
    exec_wd_interrupts hms ha he ((directMode_eq_iff e 1).2 hmode)
  have hg : (fld e 12 4 : BitVec 4).toNat = g := by simp [toNat_fld, g]
  refine ⟨fun hf => ?_, fun hf => ?_⟩
  · rw [hexec, controlInterrupts, if_pos hf, finish_refuse]
  · obtain ⟨v, hv, hlevels⟩ := controlOne_foldl f (fld e 12 4) data s 16
    have hdone : exec (.wd r m) s = .next { s with levels := v } := by
      rw [hexec, controlInterrupts, if_neg hf, hv, finish_ok]
    refine ⟨_, hdone, rfl, fun k hk => ?_⟩
    intro bit
    have hbit : selectingBit (fld e 12 4 : BitVec 4).toNat k = bit := by rw [hg]; rfl
    obtain ⟨hselected, hkept⟩ := hlevels k hk
    cases hcase : bit with
    | none =>
      refine hkept fun j hj hsel => ?_
      rw [selectedLevel_eq_some_iff hj hk, hbit, hcase] at hsel
      cases hsel
    | some b =>
      rw [hcase] at hbit
      obtain ⟨hlow, hhigh⟩ := selectingBit_bounds hk hbit
      obtain ⟨j, rfl⟩ := Nat.exists_eq_add_of_le hlow
      have hsel : selectedLevel (fld e 12 4) j = some k := (selectedLevel_eq_some_iff (by omega) hk).2 hbit
      rw [hselected j (by omega) hsel, controlled, controlLevel_eq hf]
      cases levelInstalled s.cfg k <;> rfl

end Sys2Proof.Control
end

section
/-! MMC: one image word to the map, the access codes or the write locks (48_control R470, R471). -/

namespace Sys2Proof.Control

set_option Elab.async false

open Sys2Proof Machine Safety LoadStore Encoding

variable {s t : State} {r : RegNum} {sel : BitVec 3} {ind : Bool} {ra : WordAddr} {c : ControlStorage}

/-! ### The selection (R470) -/

theorem exec_mmc_refused (hms : s.psd.ms = false) (h : controlStorage sel = none) :
    exec (.mmc ind r sel ra) s = .refused .mmcSelector := by
  refine (exec_master rfl hms).trans ?_
  rw [h, finish_refuse]

theorem exists_storage {installed : Bool}
    (h : (sel = 4 ∨ sel = 2) ∧ s.cfg.hasMap = installed ∨ sel = 1 ∧ s.cfg.hasLocks = installed) :
    ∃ c, controlStorage sel = some c ∧ storageInstalled s.cfg c = installed := by
  obtain ⟨rfl | rfl, h⟩ | ⟨rfl, h⟩ := h
  · exact ⟨.map, rfl, h⟩
  · exact ⟨.access, rfl, h⟩
  · exact ⟨.locks, rfl, h⟩

section Selected

variable (hms : s.psd.ms = false) (hc : controlStorage sel = some c)
include hms hc

theorem exec_mmc_absent (h : storageInstalled s.cfg c = false) : exec (.mmc ind r sel ra) s = .next (freePair r s) := by
  refine (exec_master rfl hms).trans ?_
  rw [hc]
  dsimp only
  rw [if_pos (by rw [h]; rfl), finish_ok]

theorem exec_mmc_standard (h : storageInstalled s.cfg c = true) (hlayout : s.cfg.mmcLayout = .standard) :
    exec (.mmc ind r sel ra) s =
      finish (if r.getLsbD 0 then .error (.refuse .mmcOddRegister) else moveControlWord c r s) := by
  refine (exec_master rfl hms).trans ?_
  rw [hc]
  dsimp only
  rw [if_neg (by rw [h]; decide), hlayout]
  rfl

end Selected

theorem effectDrawn_freePair (r : RegNum) (s : State) : ∃ v w,
    EffectDrawn s (freePair r s) s.psd.ia (ccBits s.psd) (firstOf (oneReg (ru1 r) w) (oneReg r v)) noBytes := by
  refine ⟨(draw s).1, (draw (draw s).2).1, ?_⟩
  have hdraws : (freePair r s).draws = (draw (draw s).2).2.draws := by simp only [freePair, setReg_draws]
  rw [EffectDrawn, hdraws]
  exact (effect_setReg (draw (draw s).2).2 r _).setReg (ru1 r) _

/-! ### Entries of a storage -/

theorem getElem_putEntry {w : Nat} (v : Vector (BitVec w) 256) (j k : BitVec 8) (x : BitVec w) :
    (putEntry v j x)[k.toNat]'(BitVec.isLt _) = if k = j then x else v[k.toNat]'(BitVec.isLt _) := by
  rw [putEntry, Vector.getElem_set]
  simp only [BitVec.toNat_inj, eq_comm]

/-- Consecutive entries from `p` on. -/
def putEntries {w : Nat} (v : Vector (BitVec w) 256) (p : BitVec 8) (n : Nat) (val : Nat → BitVec w) : Vector (BitVec w) 256 :=
  (List.range n).foldl (fun acc j => putEntry acc (p + BitVec.ofNat 8 j) (val j)) v

theorem loadMapWord_eq (v : Vector (BitVec 8) 256) (p : BitVec 8) (w : Word) :
    loadMapWord v p w = putEntries v p 4 fun j => fld w (8 * j) 8 := by
  rw [loadMapWord, putEntries]
  simp [List.range_succ]

theorem loadCodeWord_eq (v : Vector (BitVec 2) 256) (p : BitVec 8) (w : Word) :
    loadCodeWord v p w = putEntries v p 16 fun j => fld w (2 * j) 2 := rfl

theorem getElem_putEntries {w n : Nat} (v : Vector (BitVec w) 256) (p k : BitVec 8) (val : Nat → BitVec w) (hn : n ≤ 256) :
    (putEntries v p n val)[k.toNat]'(BitVec.isLt _) =
      if (k - p).toNat < n then val (k - p).toNat else v[k.toNat]'(BitVec.isLt _) := by
  induction n with
  | zero => rfl
  | succ n ih =>
    have hstep : putEntries v p (n + 1) val = putEntry (putEntries v p n val) (p + BitVec.ofNat 8 n) (val n) := by
      rw [putEntries, List.range_succ, List.foldl_append]
      rfl
    have hlast : k = p + BitVec.ofNat 8 n ↔ (k - p).toNat = n := by bv_omega
    rw [hstep, getElem_putEntry, ih (by omega)]
    by_cases h : k = p + BitVec.ofNat 8 n
    · rw [if_pos h, hlast.1 h, if_pos (Nat.lt_succ_self n)]
    · have hne : (k - p).toNat ≠ n := mt hlast.2 h
      rw [if_neg h]
      simp only [show (k - p).toNat < n + 1 ↔ (k - p).toNat < n by omega]

/-! ### The two registers (R471) -/

theorem nextImage_eq (x : Word) (a : WordAddr) : setFld x 15 a = (fld x 0 15 : BitVec 15) ++ a := by
  calc setFld x 15 a
    _ = fld (setFld x 15 a) 0 15 ++ fld (setFld x 15 a) 15 17 := by
      rw [fld_append_fld _ 0 15 17 (by decide), fld_whole]
    _ = fld x 0 15 ++ a := by rw [fld_setFld_other _ _ _ _ _ (by decide) (by decide), fld_setFld_same _ _ _ (by decide)]

/-- A control word in its four parts, the start a page number. -/
theorem word_of_mapControl (x : Word) :
    (fld x 0 8 : BitVec 8) ++ (fld x 8 7 : BitVec 7) ++ (fld x 15 8 : BitVec 8) ++ (fld x 23 9 : BitVec 9) = x := by
  rw [fld_append_fld x 0 8 7 (by decide), fld_append_fld x 0 15 8 (by decide), fld_append_fld x 0 23 9 (by decide), fld_whole]

/-- A control word in its four parts, the start a page number divided by 4. -/
theorem word_of_codeControl (x : Word) :
    (fld x 0 8 : BitVec 8) ++ (fld x 8 7 : BitVec 7) ++ (fld x 15 6 : BitVec 6) ++ (fld x 21 11 : BitVec 11) = x := by
  rw [fld_append_fld x 0 8 7 (by decide), fld_append_fld x 0 15 6 (by decide), fld_append_fld x 0 21 11 (by decide), fld_whole]

theorem nextControl_map (x : Word) : nextControl .map x =
    ((fld x 0 8 : BitVec 8) - 1) ++ (fld x 8 7 : BitVec 7) ++ ((fld x 15 8 : BitVec 8) + 4) ++ (fld x 23 9 : BitVec 9) := by
  rw [← word_of_mapControl (nextControl .map x), nextControl,
    fld_setFld_other _ 15 _ 0 8 (by decide) (by decide), fld_setFld_same _ 0 _ (by decide),
    fld_setFld_other _ 15 _ 8 7 (by decide) (by decide), fld_setFld_other _ 0 _ 8 7 (by decide) (by decide),
    fld_setFld_same _ 15 _ (by decide), fld_setFld_other _ 15 _ 23 9 (by decide) (by decide),
    fld_setFld_other _ 0 _ 23 9 (by decide) (by decide)]

theorem nextControl_codes (hc : c ≠ .map) (x : Word) : nextControl c x =
    ((fld x 0 8 : BitVec 8) - 1) ++ (fld x 8 7 : BitVec 7) ++ ((fld x 15 6 : BitVec 6) + 4) ++ (fld x 21 11 : BitVec 11) := by
  have hcodes : nextControl c x = setFld (setFld x 0 ((fld x 0 8 : BitVec 8) - 1)) 15 ((fld x 15 6 : BitVec 6) + 4) := by
    cases c
    case map => exact absurd rfl hc
    all_goals rfl
  rw [hcodes, ← word_of_codeControl (setFld (setFld x 0 _) 15 _),
    fld_setFld_other _ 15 _ 0 8 (by decide) (by decide), fld_setFld_same _ 0 _ (by decide),
    fld_setFld_other _ 15 _ 8 7 (by decide) (by decide), fld_setFld_other _ 0 _ 8 7 (by decide) (by decide),
    fld_setFld_same _ 15 _ (by decide), fld_setFld_other _ 15 _ 21 11 (by decide) (by decide),
    fld_setFld_other _ 0 _ 21 11 (by decide) (by decide)]

/-- The count that an image word leaves. -/
theorem count_nextControl (c : ControlStorage) (x : Word) : (fld (nextControl c x) 0 8 : BitVec 8) = (fld x 0 8 : BitVec 8) - 1 := by
  cases c <;>
    exact (fld_setFld_other _ 15 _ 0 8 (by decide) (by decide)).trans (fld_setFld_same _ 0 _ (by decide))

/-! ### One image word -/

/-- The count read from Ru1 after an image word: in a missing block it is as it was (10_state R13). -/
def countLeft (s : State) (r : RegNum) : Byte :=
  if blockInstalled s then (fld (getReg s (ru1 r)) 0 8 : Byte) - 1 else fld (getReg s (ru1 r)) 0 8

theorem effect_again {ia : WordAddr} {cc : BitVec 4} {regs : Regs} {bytes : Bytes} (h : Effect s t ia cc regs bytes)
    (hia : ia = s.psd.ia) (more : Bool) :
    Effect s (again more t) (if more then backIa s else s.psd.ia) cc regs bytes := by
  have hback : backIa t = backIa s := by rw [backIa, backIa, h.rest.panel, h.ia_eq, hia]
  cases more with
  | false => exact hia ▸ h
  | true => exact hback ▸ h.backUp

theorem again_storages (more : Bool) (s : State) :
    (again more s).map = s.map ∧ (again more s).acc = s.acc ∧ (again more s).lock = s.lock := by
  cases more <;> exact ⟨rfl, rfl, rfl⟩

/-- R and Ru1 are loaded, and IA goes back while the count then read from Ru1 is not 0. -/
theorem effect_moveControl (s : State) (r : RegNum) (x y : Word) :
    let t := setReg (setReg s r x) (ru1 r) y
    Effect s (again ((fld (getReg t (ru1 r)) 0 8 : Byte) != 0) t)
      (if (fld (if blockInstalled s then y else getReg s (ru1 r)) 0 8 : Byte) = 0 then s.psd.ia else backIa s) (ccBits s.psd)
      (firstOf (oneReg (ru1 r) y) (oneReg r x)) noBytes := by
  intro t
  have hload : Effect s t s.psd.ia (ccBits s.psd) (firstOf (oneReg (ru1 r) y) (oneReg r x)) noBytes :=
    (effect_setReg s r x).setReg (ru1 r) y
  have hread : getReg t (ru1 r) = if blockInstalled s then y else getReg s (ru1 r) := by
    rw [hload.1 (ru1 r)]
    simp [firstOf, oneReg]
  rw [hread]
  refine (effect_again hload rfl _).as ?_ rfl (fun _ => rfl) (fun _ => rfl)
  simp

section LoadStorage

variable (c : ControlStorage) (p : BitVec 8) (w : Word) (s : State)

theorem loadStorage_regs : (loadStorage c p w s).regs = s.regs := by cases c <;> simp only [loadStorage]
theorem loadStorage_psd : (loadStorage c p w s).psd = s.psd := by cases c <;> simp only [loadStorage]
theorem loadStorage_cfg : (loadStorage c p w s).cfg = s.cfg := by cases c <;> simp only [loadStorage]
theorem loadStorage_panel : (loadStorage c p w s).panel = s.panel := by cases c <;> simp only [loadStorage]

theorem getReg_loadStorage (k : RegNum) : getReg (loadStorage c p w s) k = getReg s k :=
  getReg_congr k (loadStorage_regs c p w s) (by rw [loadStorage_psd]) (loadStorage_cfg c p w s)

theorem blockInstalled_loadStorage : blockInstalled (loadStorage c p w s) = blockInstalled s :=
  blockInstalled_congr (by rw [loadStorage_psd]) (loadStorage_cfg c p w s)

theorem backIa_loadStorage : backIa (loadStorage c p w s) = backIa s := by
  rw [backIa, backIa, loadStorage_panel, loadStorage_psd]

end LoadStorage

/-- What an image word does to the storage and to the registers. -/
theorem moveControlWord_spec {w : Word} (hw : readWord s (fld (getReg s r) 15 17) = .ok w) (c : ControlStorage) :
    let loaded := loadStorage c (controlStart c (getReg s (ru1 r))) w s
    ∃ t, moveControlWord c r s = .ok t ∧ t.map = loaded.map ∧ t.acc = loaded.acc ∧ t.lock = loaded.lock ∧
      Effect loaded t (if countLeft s r = 0 then s.psd.ia else backIa s) (ccBits s.psd)
        (firstOf (oneReg (ru1 r) (nextControl c (getReg s (ru1 r))))
          (oneReg r ((fld (getReg s r) 0 15 : BitVec 15) ++ (fld (getReg s r) 15 17 + 1 : WordAddr)))) noBytes := by
  intro loaded
  have hcount : (fld (if blockInstalled s then nextControl c (getReg s (ru1 r)) else getReg s (ru1 r)) 0 8 : Byte) =
      countLeft s r := by
    rw [countLeft, ← count_nextControl c]
    split <;> rfl
  have hend := effect_moveControl loaded r ((fld (getReg s r) 0 15 : BitVec 15) ++ (fld (getReg s r) 15 17 + 1 : WordAddr))
    (nextControl c (getReg s (ru1 r)))
  rw [getReg_loadStorage, blockInstalled_loadStorage, backIa_loadStorage, loadStorage_psd, hcount] at hend
  refine ⟨_, ?_, ?_, ?_, ?_, hend⟩
  · rw [moveControlWord, hw, ok_bind, nextImage_eq]
  · simp only [again_storages, setReg_map]
  · simp only [again_storages, setReg_acc]
  · simp only [again_storages, setReg_lock]

/-- Settles O53: the selection, and one image word to each of the storages. -/
theorem moveToMemoryControl : Obligations.MoveToMemoryControl := by
  intro ind r sel ra s hms x u count p g left ia image mapControl codeControl
  refine ⟨fun h4 h2 h1 => ?_, fun hlayout hodd hinstalled => ?_, fun w hlayout heven hw => ?loads, fun habsent => ?_⟩
  · exact exec_mmc_refused hms (by rw [controlStorage, if_neg h4, if_neg h2, if_neg h1])
  · obtain ⟨c, hc, hpresent⟩ := exists_storage hinstalled
    rw [exec_mmc_standard hms hc hpresent hlayout, if_pos hodd, finish_refuse]
  · case loads =>
    have hexec {c : ControlStorage} {t : State} (hc : controlStorage sel = some c) (h : storageInstalled s.cfg c = true)
        (ht : moveControlWord c r s = .ok t) : exec (.mmc ind r sel ra) s = .next t := by
      rw [exec_mmc_standard hms hc h hlayout, if_neg (Bool.eq_false_iff.1 heven), ht, finish_ok]
    refine ⟨fun hsel h => ?map, fun hsel h => ?access, fun hsel h => ?locks⟩
    case map =>
      obtain ⟨t, ht, hmap, -, -, heffect⟩ := moveControlWord_spec hw .map
      rw [nextControl_map] at heffect
      refine ⟨t, hexec (c := .map) (by rw [hsel]; rfl) h ht, by rw [hmap]; exact heffect, fun k => ?_⟩
      simp only [hmap, loadStorage, loadMapWord_eq, getElem_putEntries _ _ _ _ (show 4 ≤ 256 by decide)]
      rfl
    case access =>
      obtain ⟨t, ht, -, hacc, -, heffect⟩ := moveControlWord_spec hw .access
      rw [nextControl_codes (by decide)] at heffect
      refine ⟨t, hexec (c := .access) (by rw [hsel]; rfl) h ht, by rw [hacc]; exact heffect, fun k => ?_⟩
      simp only [hacc, loadStorage, loadCodeWord_eq, getElem_putEntries _ _ _ _ (show 16 ≤ 256 by decide)]
      rfl
    case locks =>
      obtain ⟨t, ht, -, -, hlock, heffect⟩ := moveControlWord_spec hw .locks
      rw [nextControl_codes (by decide)] at heffect
      refine ⟨t, hexec (c := .locks) (by rw [hsel]; rfl) h ht, by rw [hlock]; exact heffect, fun k => ?_⟩
      simp only [hlock, loadStorage, loadCodeWord_eq, getElem_putEntries _ _ _ _ (show 16 ≤ 256 by decide)]
      rfl
  · obtain ⟨c, hc, hmissing⟩ := exists_storage habsent
    obtain ⟨v, w, heffect⟩ := effectDrawn_freePair r s
    exact ⟨_, v, w, exec_mmc_absent hms hc hmissing, heffect⟩

end Sys2Proof.Control
end

section
/-! The input/output instructions (49_input_output R501 to R508). -/

namespace Sys2Proof.InputOutput

set_option Elab.async false

open Sys2Proof Machine Safety LoadStore Control

variable {s t : State} {r : RegNum} {m : MemRef} {a : WordAddr} {addr : BitVec 11} {io : List Controller} {c : Controller}
  {d : Device} {i : Instr}

/-! ### Devices and controllers (R501, R510) -/

theorem ioAddress_ok (ha : eaWord m s = .ok a) : ioAddress m s = .ok (a.setWidth 11) := by
  rw [ioAddress, ha, ok_bind, fld_low a rfl]

theorem onDevice_eq (c : Controller) (addr : BitVec 11) (f : Device → Device) :
    c.onDevice addr f = { c with devices := c.devices.map (fun x => if x.addr = addr then f x else x) } := by
  simp only [Controller.onDevice, beq_iff_eq]

theorem onDevice_of_absent (h : c.has addr = false) (f : Device → Device) : c.onDevice addr f = c := by
  have hmap : c.devices.map (fun x => if x.addr = addr then f x else x) = c.devices := by
    refine (List.map_congr_left fun x hx => if_neg ?_).trans (List.map_id _)
    simpa using List.any_eq_false.1 h x hx
  rw [onDevice_eq, hmap]

section Absent

variable (h : ∀ c ∈ io, ∀ d ∈ c.devices, d.addr ≠ addr)
include h

theorem has_of_absent {c : Controller} (hc : c ∈ io) : c.has addr = false := by
  rw [Controller.has, List.any_eq_false]
  exact fun d hd => by simpa using h c hc d hd

theorem findDevice_of_absent : findDevice io addr = none := by
  have hnone : io.find? (fun c => c.has addr) = none :=
    List.find?_eq_none.2 fun c hc => by rw [has_of_absent h hc]; decide
  rw [findDevice, hnone]

theorem onController_of_absent (f : Controller → Controller) : onController io addr f = io := by
  refine (List.map_congr_left fun c hc => ?_).trans (List.map_id _)
  exact if_neg (by rw [has_of_absent h hc]; decide)

end Absent

/-! ### Answers (R502) -/

section Responses

variable (hnone : findDevice io addr = none)
include hnone

theorem tioResponse_none : tioResponse io addr = .none := by rw [tioResponse, hnone]
theorem tdvResponse_none : tdvResponse io addr = .none := by rw [tdvResponse, hnone]
theorem hioResponse_none : hioResponse io addr = .none := by rw [hioResponse, hnone]
theorem sioEffect_none (first : BitVec 16) : sioEffect io addr first = io := by rw [sioEffect, hnone]

end Responses

section Responses

variable (hfound : findDevice io addr = some (c, d))
include hfound

theorem tioResponse_some : tioResponse io addr =
    ⟨true, selectorBusy io c addr, !selectorBusy io c addr && !sioAcceptable c d, statusBits io c d, c.count, c.counter⟩ := by
  rw [tioResponse, hfound]

theorem tdvResponse_some : tdvResponse io addr =
    ⟨true, selectorBusy io c addr, !selectorBusy io c addr && d.dependent, testDeviceBits io c d, c.count, c.counter⟩ := by
  rw [tdvResponse, hfound]

theorem hioResponse_some : hioResponse io addr = ⟨true, false, c.cond == 3, statusBits io c d, c.count, c.counter⟩ := by
  rw [hioResponse, hfound]

theorem sioEffect_some (first : BitVec 16) : sioEffect io addr first =
    if selectorBusy io c addr || !sioAcceptable c d then io else onController io addr (fun k => startDevice k addr first) := by
  rw [sioEffect, hfound]

end Responses

/-- What an answer loads: nothing for R = 0, one word in an odd R, two from an even one on. -/
def answerRegs (r : RegNum) (status count cda : BitVec 16) : Regs :=
  if r = 0 then noRegs
  else if r.getLsbD 0 then oneReg r (status ++ count)
  else firstOf (oneReg (r + 1) (status ++ count)) (oneReg r (0#16 ++ cda))

theorem Effect.ioLoad {ia : WordAddr} {cc : BitVec 4} (h : Effect s t ia cc noRegs noBytes) (r : RegNum) (loads : Bool)
    (x : IoResponse) :
    Effect s (Machine.ioLoad r loads x t) ia cc (if loads then answerRegs r x.status x.count x.cda else noRegs) noBytes := by
  unfold Machine.ioLoad answerRegs isOdd
  by_cases hr : r = 0
  · cases loads <;> simpa only [hr, decide_true, Bool.true_or, if_true, ite_self] using h
  · cases loads with
    | false => simpa only [Bool.not_false, Bool.or_true, if_true, if_neg Bool.false_ne_true] using h
    | true =>
      simp only [hr, decide_false, Bool.not_true, Bool.or_self, if_true, if_false, if_neg Bool.false_ne_true]
      split
      · simpa using h.setReg r (x.status ++ x.count)
      · simpa using (h.setReg r (0#16 ++ x.cda)).setReg (r + 1) (x.status ++ x.count)

theorem effect_ioAnswer (r : RegNum) (x : IoResponse) (s : State) :
    Effect s (ioAnswer r x s) s.psd.ia (ccOf (!x.recognized || x.selbusy) x.cc2 s.psd.cc3 s.psd.cc4)
      (if x.recognized && !x.selbusy then answerRegs r x.status x.count x.cda else noRegs) noBytes :=
  Effect.ioLoad ((effect_refl s).setCc12 _ _) r _ x

/-! ### The instructions -/

theorem exec_addressed {g : BitVec 11 → State}
    (hexec : exec i s = finish (requireMaster s >>= fun _ => ioAddress m s >>= fun addr => .ok (g addr)))
    (hms : s.psd.ms = false) (ha : eaWord m s = .ok a) : exec i s = .next (g (a.setWidth 11)) :=
  exec_of_ok (exec_master hexec hms) (ioAddress_ok ha) rfl

/-- What HIO leaves but for its effect in the input/output system. -/
def halted (r : RegNum) (x : IoResponse) (s : State) : State :=
  Machine.ioLoad r x.recognized x (setCc12 (!x.recognized) (!x.recognized || x.cc2) s)

theorem effect_halted (r : RegNum) (x : IoResponse) (s : State) :
    Effect s (halted r x s) s.psd.ia (ccOf (!x.recognized) (!x.recognized || x.cc2) s.psd.cc3 s.psd.cc4)
      (if x.recognized then answerRegs r x.status x.count x.cda else noRegs) noBytes :=
  Effect.ioLoad ((effect_refl s).setCc12 _ _) r _ x

section Instructions

variable (hms : s.psd.ms = false) (ha : eaWord m s = .ok a)
include hms ha

theorem exec_tio : exec (.tio r m) s = .next (ioAnswer r (tioResponse s.io (a.setWidth 11)) s) :=
  exec_addressed (g := fun addr => ioAnswer r (tioResponse s.io addr) s) rfl hms ha

theorem exec_tdv : exec (.tdv r m) s = .next (ioAnswer r (tdvResponse s.io (a.setWidth 11)) s) :=
  exec_addressed (g := fun addr => ioAnswer r (tdvResponse s.io addr) s) rfl hms ha

theorem exec_sio : exec (.sio r m) s =
    .next { ioAnswer r (tioResponse s.io (a.setWidth 11)) s with
      io := sioEffect s.io (a.setWidth 11) ((getReg s 0).setWidth 16) } := by
  rw [← fld_low (a := 16) (getReg s 0) rfl]
  exact exec_addressed (g := fun addr => { ioAnswer r (tioResponse s.io addr) s with
    io := sioEffect s.io addr (fld (getReg s 0) 16 16) }) rfl hms ha

/-- HIO: whether a busy device is then ready or not operational is a free value. -/
theorem exec_hio : ∃ after : BitVec 2, (after = 0 ∨ after = 1) ∧
    exec (.hio r m) s = .next { (draw (halted r (hioResponse s.io (a.setWidth 11)) s)).2 with
      io := hioEffect s.io (a.setWidth 11) after } := by
  have hafter : ∀ b : BitVec 1, (0#1 ++ b : BitVec 2) = 0 ∨ (0#1 ++ b : BitVec 2) = 1 := by decide
  exact ⟨_, hafter ((draw (halted r (hioResponse s.io (a.setWidth 11)) s)).1.setWidth 1),
    exec_addressed (g := fun addr => { (draw (halted r (hioResponse s.io addr) s)).2 with
      io := hioEffect s.io addr (0#1 ++ (draw (halted r (hioResponse s.io addr) s)).1.setWidth 1) }) rfl hms ha⟩

end Instructions

/-- An address that nothing answers (R502). -/
theorem io_absent (hms : s.psd.ms = false) (ha : eaWord m s = .ok a)
    (h : ∀ c ∈ s.io, ∀ d ∈ c.devices, d.addr ≠ a.setWidth 11) :
    (∀ i ∈ [Instr.sio r m, .tio r m, .tdv r m],
      Completes i s s.psd.ia (ccOf true true s.psd.cc3 s.psd.cc4) noRegs noBytes) ∧
    ∃ t, exec (.hio r m) s = .next t ∧ EffectDrawn s t s.psd.ia (ccOf true true s.psd.cc3 s.psd.cc4) noRegs noBytes := by
  have hnone := findDevice_of_absent h
  have hanswer := effect_ioAnswer r .none s
  refine ⟨fun i hi => ?_, ?_⟩
  · simp only [List.mem_cons, List.not_mem_nil, or_false] at hi
    obtain rfl | rfl | rfl := hi
    · have hexec := exec_sio (r := r) hms ha
      rw [tioResponse_none hnone, sioEffect_none hnone] at hexec
      exact ⟨_, hexec, hanswer.frame fun x => { x with io := s.io }⟩
    · exact ⟨_, exec_tio hms ha, by rw [tioResponse_none hnone]; exact hanswer⟩
    · exact ⟨_, exec_tdv hms ha, by rw [tdvResponse_none hnone]; exact hanswer⟩
  · obtain ⟨after, -, hexec⟩ := exec_hio (r := r) hms ha
    rw [hioResponse_none hnone, hioEffect, onController_of_absent h] at hexec
    exact ⟨_, hexec, (effect_halted r .none s).frame fun x =>
      { x with draws := (halted r .none s).draws + 1, io := s.io }⟩

/-- Settles O59: the answers are those of the device at the address, and SIO and HIO change that device and its controllers. -/
theorem inputOutput : Obligations.InputOutput := by
  intro r m s a hms ha p addr
  refine ⟨io_absent hms ha, fun c d hfound => ?_⟩
  intro busy ready loaded regs changed system start halt
  have hregs (status : BitVec 16) : regs status = if !busy then answerRegs r status c.count c.counter else noRegs := by
    simp only [regs]
    cases busy <;> rfl
  have hchanged (k : Controller) (f : Device → Device) : k.onDevice addr f = changed k f := onDevice_eq k addr f
  have htio := effect_ioAnswer r (tioResponse s.io addr) s
  have htdv := effect_ioAnswer r (tdvResponse s.io addr) s
  have hhio := effect_halted r (hioResponse s.io addr) s
  rw [tioResponse_some hfound] at htio
  rw [tdvResponse_some hfound] at htdv
  rw [hioResponse_some hfound] at hhio
  simp only [Bool.not_true, Bool.false_or, Bool.true_and] at htio htdv hhio
  refine ⟨⟨_, exec_tio hms ha, ?_⟩, ⟨_, exec_tdv hms ha, ?_⟩, ⟨_, exec_sio hms ha, ?_, fun hnot => ?_, fun hidle hready => ?_⟩, ?_⟩
  · rw [tioResponse_some hfound, hregs]
    exact htio
  · rw [tdvResponse_some hfound, hregs]
    exact htdv
  · rw [tioResponse_some hfound, hregs]
    exact htio.frame fun x => { x with io := sioEffect s.io addr ((getReg s 0).setWidth 16) }
  · refine (sioEffect_some hfound _).trans (if_pos ?_)
    change (busy || !ready) = true
    obtain hbusy | hready := hnot
    · rw [hbusy, Bool.true_or]
    · rw [hready, Bool.not_false, Bool.or_true]
  · have hboth : ¬ (selectorBusy s.io c addr || !sioAcceptable c d) = true := by
      change ¬ (busy || !ready) = true
      rw [hidle, hready]
      decide
    have hstart (k : Controller) : startDevice k addr ((getReg s 0).setWidth 16) = { changed k start with
        cond := 3, counter := (getReg s 0).setWidth 16, serving := addr, opStatus := 0, countDone := false
        active := false, flags := 0 } := by rw [startDevice, hchanged]
    refine ((sioEffect_some hfound _).trans (if_neg hboth)).trans ?_
    simp only [hstart]
    rfl
  · obtain ⟨after, hafter, hexec⟩ := exec_hio (r := r) hms ha
    rw [hioResponse_some hfound] at hexec
    refine ⟨_, after, hexec, hafter, hhio.frame fun x => { x with draws := _, io := hioEffect s.io addr after }, ?_⟩
    change hioEffect s.io addr after = _
    simp only [hioEffect, hchanged, Bool.and_eq_true, beq_iff_eq]
    rfl

/-! ### AIO (R508) -/

theorem exec_aio (hms : s.psd.ms = false) (ha : eaWord m s = .ok a) :
    exec (.aio r m) s = .next (if (fld a 6 3 : BitVec 3) = 0 then acknowledgeDevice r s else acknowledgeSpecial r s) := by
  have htype : (fld a 6 3 : BitVec 3) = fld (a.setWidth 11) 0 3 := by rw [← fld_low (a := 6) a rfl, fld_fld a (by decide) (by decide)]
  rw [htype]
  exact exec_addressed (g := fun addr => if fld addr 0 3 = (0 : BitVec 3) then acknowledgeDevice r s
    else acknowledgeSpecial r s) rfl hms ha

theorem acknowledgeDevice_none (h : requestingDevice s.io = none) : acknowledgeDevice r s = setCc12 true true s := by
  rw [acknowledgeDevice, h]

theorem acknowledgeDevice_some (h : requestingDevice s.io = some d) : acknowledgeDevice r s =
    { (if r = 0 then setCc12 false d.unusual s else setReg (setCc12 false d.unusual s) r (d.aio ++ 0#5 ++ d.addr)) with
      io := aioEffect s.io d.addr } := by
  rw [acknowledgeDevice, h]

/-- A nonzero R field names the register loaded after CC1 and CC2. -/
theorem effect_acknowledged (s : State) (r : RegNum) (b1 b2 : Bool) (v : Word) :
    Effect s (if r = 0 then setCc12 b1 b2 s else setReg (setCc12 b1 b2 s) r v) s.psd.ia (ccOf b1 b2 s.psd.cc3 s.psd.cc4)
      (if r = 0 then noRegs else oneReg r v) noBytes := by
  have hcc := (effect_refl s).setCc12 b1 b2
  split
  · exact hcc
  · simpa using hcc.setReg r v

theorem aioEffect_eq (io : List Controller) (addr : BitVec 11) :
    aioEffect io addr = io.map (fun c => { c with devices := c.devices.map (fun x =>
      if x.addr = addr then { x with intPending := false, aio := 0, unusual := false } else x) }) := by
  refine List.map_congr_left fun c _ => ?_
  have hchanged := onDevice_eq c addr clearRequest
  cases h : c.has addr with
  | true => exact hchanged
  | false => exact (onDevice_of_absent h clearRequest).symm.trans hchanged

theorem acknowledgeSpecial_eq (r : RegNum) (s : State) : acknowledgeSpecial r s =
    setCc12 ((draw (draw s).2).1.getLsbD 1) ((draw (draw s).2).1.getLsbD 0)
      (if r = 0 then (draw (draw s).2).2 else setReg (draw (draw s).2).2 r (draw s).1) := rfl

theorem effectDrawn_acknowledgeSpecial (r : RegNum) (s : State) : ∃ v b1 b2,
    EffectDrawn s (acknowledgeSpecial r s) s.psd.ia (ccOf b1 b2 s.psd.cc3 s.psd.cc4) (if r = 0 then noRegs else oneReg r v)
      noBytes := by
  refine ⟨(draw s).1, (draw (draw s).2).1.getLsbD 1, (draw (draw s).2).1.getLsbD 0, ?_⟩
  rw [acknowledgeSpecial_eq, EffectDrawn]
  by_cases hr : r = 0
  · rw [if_pos hr, if_pos hr]
    exact (effect_refl (draw (draw s).2).2).setCc12 _ _
  · rw [if_neg hr, if_neg hr, setCc12_draws, setReg_draws]
    have heffect := (effect_setReg (draw (draw s).2).2 r (draw s).1).setCc12
      ((draw (draw s).2).1.getLsbD 1) ((draw (draw s).2).1.getLsbD 0)
    rw [setReg_psd] at heffect
    exact heffect

/-- Settles O60: the standard type answers for the first requesting device, another one with free values. -/
theorem acknowledgeIo : Obligations.AcknowledgeIo := by
  intro r m s a hms ha p
  have hexec := exec_aio (r := r) hms ha
  refine ⟨fun hstandard => ?_, fun hspecial => ?_⟩
  · rw [if_pos hstandard] at hexec
    refine ⟨fun hnone => ?_, fun d hd => ?_⟩
    · rw [acknowledgeDevice_none hnone] at hexec
      exact ⟨_, hexec, (effect_refl s).setCc12 true true⟩
    · rw [acknowledgeDevice_some hd] at hexec
      exact ⟨_, hexec, (effect_acknowledged s r false d.unusual _).frame fun x => { x with io := aioEffect s.io d.addr },
        aioEffect_eq s.io d.addr⟩
  · rw [if_neg hspecial] at hexec
    obtain ⟨v, b1, b2, heffect⟩ := effectDrawn_acknowledgeSpecial r s
    exact ⟨_, v, b1, b2, hexec, heffect⟩

end Sys2Proof.InputOutput
end

section
/-! The exchange of the PSD in a trap location (60_exceptions R552, 48_control R463 to R465). -/

namespace Sys2Proof.Entry

set_option Elab.async false

open Sys2Proof Machine Safety LoadStore

variable {s t x : State} {r : BitVec 4} {m : MemRef} {c : TrapCause}

/-! ### What an address depends on -/

/-- The two states hold the same registers, memory and mapping, so that the references of an instruction are the same. -/
structure SameWords (s t : State) : Prop extends SameMapping s t where
  regs : t.regs = s.regs
  mem : t.mem = s.mem
  rp : t.psd.rp = s.psd.rp

section SameWords

variable (h : SameWords s t)
include h

theorem SameWords.getReg (k : RegNum) : getReg t k = getReg s k := getReg_congr k h.regs h.rp h.cfg

theorem SameWords.locWord (l : Loc) : locWord t l = locWord s l := by
  cases l with
  | reg k => exact h.getReg k
  | core a => exact congrArg (fun m => coreWord m a) h.mem

theorem SameWords.indexOf (m : MemRef) : indexOf m t = indexOf m s := by
  unfold Machine.indexOf
  split
  · rfl
  · exact h.getReg _

theorem SameWords.locate {p : Path} {k : Access} {a : WordAddr} {l : Loc} (hl : locate p k a s = .ok l) :
    locate p k a t = .ok l :=
  (locate_congr h.toSameMapping p k a l).2 hl

theorem SameWords.readVia {p : Path} {k : Access} {a : WordAddr} {w : Word} (hw : readVia p k a s = .ok w) :
    readVia p k a t = .ok w := by
  obtain ⟨l, hl, rfl⟩ := readVia_eq_ok hw
  rw [readVia_ok (h.locate hl), h.locWord]

theorem SameWords.directVia {p : Path} {m : MemRef} {dra : WordAddr} (hd : directVia p m s = .ok dra) :
    directVia p m t = .ok dra := by
  unfold Machine.directVia at hd ⊢
  split at hd
  next hind =>
    obtain ⟨w, hw, hdra⟩ := (bind_eq_ok ..).1 hd
    rw [if_pos hind, h.readVia hw]
    exact hdra
  next hind => rwa [if_neg hind]

theorem SameWords.exchangeAt {l0 l1 l2 l3 : Loc} (hentry : t.entry = s.entry) (hx : ExchangeAt s r m l0 l1 l2 l3) :
    ExchangeAt t r m l0 l1 l2 l3 := by
  obtain ⟨dra, hd, h0, h1, h2, h3⟩ := hx
  unfold ExchangeAt
  simp only [h.indexOf, h.cfg, h.mm, hentry]
  exact ⟨dra, h.directVia hd, h.locate h0, h.locate h1, h.locate h2, h.locate h3⟩

end SameWords

/-! ### The exchange in a trap or interrupt location -/

/-- The state in which the XPSD of a location is executed: IA to be stored, the entry, and the halt condition noted. -/
def entering (s : State) (ia : WordAddr) (e : Entry) (pending : Bool) : State :=
  { s with psd := { s.psd with ia := ia }, entry := some e, stopPending := pending, hazard := none }

/-- The PSD's IA and the entry are no part of what an XPSD leaves of the other fields. -/
theorem psdStored_outside {ia : WordAddr} {e : Entry} {b : Bool} {l0 l1 : Loc} (q : Psd)
    (h : PsdStored (entering s ia e b) t ia l0 l1) :
    PsdStored { s with stopPending := b, hazard := none } { t with psd := q, entry := none } ia l0 l1 := by
  obtain ⟨hothers, hregs, hmem, hrest⟩ := h
  exact ⟨hothers, hregs, hmem, congrArg (fun y : State => { y with psd := s.psd, entry := s.entry }) hrest⟩

theorem psdStored_stopPending {ia : WordAddr} {l0 l1 : Loc} (h : PsdStored s t ia l0 l1) : t.stopPending = s.stopPending :=
  (congrArg State.stopPending h.2.2.2 :)

theorem exchangePsd_entering {ia : WordAddr} {e : Entry} {l0 l1 l2 l3 : Loc} (b : Bool)
    (hx : ExchangeAt { s with psd := { s.psd with ia := ia }, entry := some e } r m l0 l1 l2 l3)
    (hi : r.getMsbD 1 = true → incrementAllowed (some e) = true) :
    ∃ t, exchangePsd r m (entering s ia e b) = .ok t ∧ PsdStored (entering s ia e b) t ia l0 l1 ∧
      t.psd = exchangedPsd s.psd (locWord s l2) (locWord s l3) (r.getMsbD 0) := by
  have hsame : SameWords { s with psd := { s.psd with ia := ia }, entry := some e } (entering s ia e b) :=
    ⟨⟨rfl, rfl, rfl, rfl, rfl, rfl, rfl⟩, rfl, rfl, rfl⟩
  have hwords : SameWords s (entering s ia e b) := ⟨⟨rfl, rfl, rfl, rfl, rfl, rfl, rfl⟩, rfl, rfl, rfl⟩
  obtain ⟨t, ht, hstored, -, hpsd⟩ := exchangePsd_spec (hsame.exchangeAt rfl hx) hi
  have hia : storedIa (entering s ia e b) = ia := by simp [storedIa, entering]
  rw [hia] at hstored
  rw [hwords.locWord, hwords.locWord] at hpsd
  exact ⟨t, ht, hstored, hpsd⟩

/-! ### Traps -/

/-- What is ORed into the new CC, and added to the new IA with bit 9 of the XPSD (48_control R465). -/
def trapMask : TrapCause → BitVec 4
  | .nonallowed reasons => reasons
  | .call _ r => r
  | _ => 0

theorem incrementAllowed_of_mask (h : ∃ x, c = .nonallowed x ∨ ∃ n, c = .call n x) :
    incrementAllowed (some (.trap c)) = true := by
  obtain ⟨x, rfl | ⟨n, rfl⟩⟩ := h <;> rfl

/-- The new PSD after the modifications of a trap (48_control R465). -/
def trapPsd (c : TrapCause) (ai : Bool) (p : Psd) : Psd :=
  let cc := ccBits p ||| trapMask c
  { p with
    cc1 := cc.getMsbD 0, cc2 := cc.getMsbD 1, cc3 := cc.getMsbD 2, cc4 := cc.getMsbD 3
    ia := if ai then p.ia + (trapMask c).setWidth 17 else p.ia }

theorem orReasons_eq (mask : BitVec 4) (ai : Bool) (s : State) :
    orReasons mask ai s = { s with psd := trapPsd (.nonallowed mask) ai s.psd } := by
  cases ai <;> rfl

theorem trapPsd_of_noMask (hmask : trapMask c = 0) (s : State) : { s with psd := trapPsd c false s.psd } = s := by
  have hcc : ccBits s.psd ||| trapMask c = ccBits s.psd := by rw [hmask]; exact BitVec.or_zero
  refine Eq.trans ?_ (setCc_ccBits s)
  rw [trapPsd, hcc]
  rfl

/-- After every trap but the watchdog's the new PSD takes the reasons of the trap, none for most. -/
theorem trapModify_eq (hc : c ≠ .watchdog) (s : State) {ai : Bool}
    (hai : ai = false ∨ ∃ x, c = .nonallowed x ∨ ∃ n, c = .call n x) :
    trapModify c ai s = { s with psd := trapPsd c ai s.psd } := by
  cases c with
  | nonallowed reasons => exact orReasons_eq reasons ai s
  | call n r => exact orReasons_eq r ai s
  | watchdog => exact absurd rfl hc
  | unimplemented | stackLimit | overflow | floatingFault | decimalFault =>
    obtain rfl : ai = false := by simpa using hai
    exact (trapPsd_of_noMask rfl s).symm

theorem trapState_eq (hc : c ≠ .watchdog) (s : State) :
    trapState c s = { s with entry := some (.trap c), hazard := none } := if_neg hc

/-- Settles O47: the XPSD of the location exchanges the PSD, and the reasons of the trap are added to the new one. -/
theorem trapEntry : Obligations.TrapEntry := by
  intro c s l0 l1 l2 l3 w flags mask at' hc hop hflags hx
  have hincrement : flags.getMsbD 1 = true → incrementAllowed (some (.trap c)) = true := fun hbit =>
    incrementAllowed_of_mask (hflags.resolve_left (by rw [hbit]; decide))
  obtain ⟨b, hnoted, hoff, -⟩ := noteReferences_spec (trapReferences c w) (trapState c (backUp s))
  rw [trapState_eq hc] at hnoted hoff
  obtain ⟨t, ht, hstored, hpsd⟩ := exchangePsd_entering (s := s) (ia := backIa s) b hx hincrement
  have henter : enterTrap c (backUp s) = .ok { trapModify c (flags.getMsbD 1) t with entry := none } :=
    enterTrap_ok hop (by rw [trapState_eq hc]; exact hnoted ▸ ht)
  rw [trapModify_eq hc t hflags] at henter
  have htake := takeTrap_ok henter
  have hcall {i : Instr} {n : BitVec 2} {k : BitVec 4} (hexec : exec i s = takeTrap (.call n k) s)
      (h : c = .call n k) : exec i s = _ := (hexec.trans (by rw [h])).trans htake
  have hpending : t.stopPending = b := psdStored_stopPending hstored
  refine ⟨_, _, htake, fun k m' => ⟨hcall rfl, hcall rfl, hcall rfl, hcall rfl⟩, ?_, fun h => hpending.trans (hoff h),
    newPsd_exchangedPsd s.psd _ _ _, ?_, ?_⟩
  · subst hpending
    exact psdStored_outside _ hstored
  · exact congrArg (trapPsd c (flags.getMsbD 1)) hpsd
  · cases c <;> rfl

end Sys2Proof.Entry
end

section
/-! The acknowledgement of an interrupt (60_exceptions R582 to R604). -/

namespace Sys2Proof.Entry

set_option Elab.async false

open Sys2Proof Machine Safety LoadStore Control

variable {s t v : State} {k : Nat} {w : Word}

/-! ### Which level is acknowledged (R583, R584, R590) -/

theorem levelInhibited_iff {p : Psd} : levelInhibited p k = true ↔
    (8 ≤ k ∧ k < 12 ∧ p.ci = true) ∨ (12 ≤ k ∧ k < 16 ∧ p.ii = true) ∨ (16 ≤ k ∧ p.ei = true) := by
  unfold levelInhibited
  split_ifs with h8 h12 h16 <;> grind

theorem eligible_iff : eligible s k = true ↔ (level s k).state = .waiting ∧ (level s k).enabled = true ∧
    ¬ ((8 ≤ k ∧ k < 12 ∧ s.psd.ci = true) ∨ (12 ≤ k ∧ k < 16 ∧ s.psd.ii = true) ∨ (16 ≤ k ∧ s.psd.ei = true)) := by
  rw [← levelInhibited_iff]
  simp only [eligible, Bool.and_eq_true, beq_iff_eq, Bool.not_eq_true', Bool.not_eq_true, and_assoc]

theorem priorityOrder_eq (c : Installation) : priorityOrder c = List.range 7 ++ c.priorityChain.flatMap (fun g => match g with
    | .counter => [8, 9, 10, 11]
    | .io => [12, 13]
    | .external g => (List.range 16).map (fun j => 16 * (g.toNat - 2) + 16 + j)) := by
  refine congrArg (fun f => List.range 7 ++ c.priorityChain.flatMap f) (funext fun g => ?_)
  cases g <;> rfl

theorem nextInterrupt_eq_some : nextInterrupt s = some k ↔ eligible s k = true ∧
    (priorityOrder s.cfg).find? (fun j => (level s j).state == .active || eligible s j) = some k := by
  unfold nextInterrupt
  cases hfind : (priorityOrder s.cfg).find? (fun j => (level s j).state == .active || eligible s j) with
  | none => simp
  | some j =>
    by_cases hj : eligible s j = true
    · simp only [hj, if_true, Option.some.injEq]
      exact ⟨fun hjk => ⟨hjk ▸ hj, hjk⟩, And.right⟩
    · simp only [hj, Option.some.injEq]
      exact ⟨fun h => (nomatch h), fun ⟨hk, hjk⟩ => absurd (hjk ▸ hk) hj⟩

/-- A level with a state is one of the 240. -/
theorem lt_of_eligible (h : eligible s k = true) : k < 240 := by
  by_contra hk
  have hwaiting := (eligible_iff.1 h).1
  rw [level, dif_neg hk] at hwaiting
  exact nomatch hwaiting

/-! ### The acknowledgement (R584) -/

/-- The level is active and a WAIT has ended. -/
def acknowledged (k : Nat) (s : State) : State :=
  setLevel { s with halts := { s.halts with wait := false }, hazard := none } k { level s k with state := .active }

theorem level_congr (h : t.levels = s.levels) (k : Nat) : level t k = level s k := by
  simp only [level, h]

theorem level_acknowledged_self (s : State) (hk : k < 240) :
    level (acknowledged k s) k = { level s k with state := .active } := level_setLevel_self hk

theorem level_acknowledged_ne {j : Nat} (s : State) (hj : j ≠ k) : level (acknowledged k s) j = level s j :=
  level_setLevel_ne hj.symm

/-- Nothing but the interrupt happens in the step. -/
structure Interrupted (s : State) (k : Nat) : Prop where
  inputs : s.inputs = []
  io : ioRequest s = false
  run : s.panel.compute = .run
  started : s.started = false
  addrHalt : s.halts.addrStop = false
  parity : s.halts.parity = false
  pending : s.stopPending = false
  next : nextInterrupt s = some k

theorem step_interrupted (h : Interrupted s k) (hack : acknowledge k { s with watchdog := 0 } = .next t) :
    step s = .next (stopIfPending t) := by
  have hnow : interruptNow { s with watchdog := 0 } = some k := by
    have hnext : nextInterrupt { s with watchdog := 0 } = some k := h.next
    have hrun : (s.panel.compute == .run && !s.started) = true := by rw [h.run, h.started]; rfl
    exact (if_pos hrun).trans hnext
  rw [step_eq_cpuStep h.inputs h.io]
  simp only [cpuStep, h.run, h.addrHalt, h.parity, hnow, acknowledgeAndStop, hack, onNext]
  rfl

/-- With ADDR STOP off the references of the interrupt bring no halt. -/
theorem stopIfPending_interrupted (hpanel : t.panel = s.panel) (hpending : t.stopPending = false)
    (hstop : s.panel.addrStop = false) : stopIfPending t = t ∧ t.stopPending = false :=
  ⟨stopIfPending_off (by rw [hpanel, hstop]), hpending⟩

/-- The level of a single-instruction interrupt is cleared, and a counter that has come to zero signals its own level
(R597, R604). -/
def served (k : Nat) (zero : Bool) (s : State) : State :=
  let t := setLevel s k { level s k with state := .armed }
  if isCountPulse k && zero then signal t (k + 6) else t

section Acknowledge

variable (hw : w = coreWord s.mem (BitVec.ofNat 17 (0x50 + k)))
include hw

theorem acknowledge_exchange (hop : opField w = 0x0F) (hk : isCountPulse k = false)
    (ht : exchangePsd (rField w) (memRefOf w) (noteReferences (interruptReferences k w)
      { acknowledged k s with entry := some (.interrupt k) }) = .ok t) :
    acknowledge k s = .next { t with entry := none } := by
  subst hw
  unfold acknowledged at ht
  simp only [acknowledge, hop, hk, ht, and_self, if_true]

theorem acknowledge_modify {zero : Bool} (hop : opField w = 0x73 ∨ opField w = 0x53 ∨ opField w = 0x33)
    (ht : modifyTestActual (opField w) (rField w) (memRefOf w)
      { noteReferences (interruptReferences k w) { acknowledged k s with entry := some (.interrupt k) } with
        entry := (acknowledged k s).entry } = .ok (t, zero)) :
    acknowledge k s = .next (served k zero t) := by
  subst hw
  unfold acknowledged at ht
  have hno : ¬ (opField (coreWord s.mem (BitVec.ofNat 17 (0x50 + k))) = 0x0F ∧ isCountPulse k = false) := by
    rintro ⟨h, -⟩
    rw [h] at hop
    exact absurd hop (by decide)
  simp only [acknowledge, if_neg hno, if_pos hop, ht, served]

end Acknowledge

/-- What the references of the interrupt's instruction are made in. -/
theorem noteReferences_acknowledged (h : Interrupted s k) (refs : State → List Reference) :
    ∃ b, noteReferences refs { acknowledged k { s with watchdog := 0 } with entry := some (.interrupt k) } =
        entering (acknowledged k { s with watchdog := 0 }) s.psd.ia (.interrupt k) b ∧
      (s.panel.addrStop = false → b = false) := by
  obtain ⟨b, hnoted, hoff, -⟩ :=
    noteReferences_spec refs { acknowledged k { s with watchdog := 0 } with entry := some (.interrupt k) }
  exact ⟨b, hnoted, fun hstop => (hoff hstop).trans h.pending⟩

/-- Settles O57: the first active or eligible level of the order, if eligible, is acknowledged by the XPSD of its location. -/
theorem interruptEntry : Obligations.InterruptEntry := by
  refine ⟨fun s k => ?_, fun s k l0 l1 l2 l3 hinputs hio hrun hstarted haddr hparity hpending hentry hnext => ?_⟩
  · intro order inhibited eligible'
    have heligible (j : Nat) : eligible s j = true ↔ eligible' j := eligible_iff
    have horder : priorityOrder s.cfg = order := priorityOrder_eq s.cfg
    rw [nextInterrupt_eq_some, List.find?_eq_some_iff_append, horder]
    simp only [Bool.not_eq_true', ← Bool.not_eq_true, Bool.or_eq_true, beq_iff_eq, not_or, heligible]
    exact ⟨fun ⟨hk, _, h⟩ => ⟨hk, h⟩, fun ⟨hk, h⟩ => ⟨hk, Or.inr hk, h⟩⟩
  · intro w flags u hop hk hbit hx
    have h : Interrupted s k := ⟨hinputs, hio, hrun, hstarted, haddr, hparity, hpending, hnext⟩
    have hcount : isCountPulse k = false := by simpa [isCountPulse] using hk
    obtain ⟨b, hnoted, hoff⟩ := noteReferences_acknowledged h (interruptReferences k w)
    obtain ⟨t, ht, hstored, hpsd⟩ := exchangePsd_entering (s := acknowledged k { s with watchdog := 0 }) (ia := s.psd.ia) b hx
      fun h => absurd h (by rw [hbit]; decide)
    have hack : acknowledge k { s with watchdog := 0 } = .next { t with entry := none } :=
      acknowledge_exchange rfl hop hcount (hnoted ▸ ht)
    have hb : t.stopPending = b := psdStored_stopPending hstored
    have hpanel : t.panel = s.panel := (congrArg State.panel hstored.2.2.2 :)
    refine ⟨_, step_interrupted h hack, fun hstop => stopIfPending_interrupted hpanel (hb.trans (hoff hstop)) hstop, ?_, ?_⟩
    · subst hb
      exact psdStored_outside t.psd hstored
    · exact hpsd ▸ newPsd_exchangedPsd s.psd _ _ _

/-! ### Single-instruction interrupts (R597, R604) -/

theorem signal_eq (s : State) (k : Nat) : signal s k = { s with levels := (signal s k).levels } := by
  unfold signal
  split <;> rfl

theorem level_signal_ne {j : Nat} (h : k ≠ j) : level (signal s k) j = level s j := by
  unfold signal
  split
  · exact level_setLevel_ne h
  · rfl

theorem level_signal_self (hk : k < 240) : level (signal s k) k =
    if levelInstalled s.cfg k = true ∧ (level s k).state = .armed then { level s k with state := .waiting } else level s k := by
  simp only [signal, Bool.and_eq_true, beq_iff_eq]
  split
  · exact level_setLevel_self hk
  · rfl

theorem isCountPulse_iff : isCountPulse k = true ↔ 2 ≤ k ∧ k ≤ 5 := by simp [isCountPulse]

section Served

variable (k : Nat) (zero : Bool) (s : State)

theorem served_eq : served k zero s = { s with levels := (served k zero s).levels } := by
  unfold served
  dsimp only
  split
  · exact signal_eq _ _
  · rfl

variable {k}

theorem level_served_self (hk : k < 240) : level (served k zero s) k = { level s k with state := .armed } := by
  unfold served
  dsimp only
  split
  · rw [level_signal_ne (by omega), level_setLevel_self hk]
  · exact level_setLevel_self hk

/-- Of the other levels a counter's own one alone may be signalled. -/
theorem level_served_ne {j : Nat} (hj : j < 240) (hne : j ≠ k) : level (served k zero s) j =
    if 2 ≤ k ∧ k ≤ 5 ∧ zero = true ∧ j = k + 6 ∧ levelInstalled s.cfg j = true ∧ (level s j).state = .armed then
      { level s j with state := .waiting } else level s j := by
  have hset : level (setLevel s k { level s k with state := .armed }) j = level s j := level_setLevel_ne hne.symm
  unfold served
  dsimp only
  by_cases hsignals : (isCountPulse k && zero) = true
  · rw [if_pos hsignals]
    obtain ⟨hpulse, hzero⟩ := Bool.and_eq_true_iff.1 hsignals
    obtain ⟨h2, h5⟩ := isCountPulse_iff.1 hpulse
    by_cases hsix : j = k + 6
    · subst hsix
      simp only [level_signal_self hj, hset, h2, h5, hzero, true_and]
      rfl
    · rw [level_signal_ne (Ne.symm hsix), hset, if_neg fun h => hsix h.2.2.2.1]
  · rw [if_neg hsignals, hset, if_neg]
    rintro ⟨h2, h5, hzero, -⟩
    exact hsignals (Bool.and_eq_true_iff.2 ⟨isCountPulse_iff.2 ⟨h2, h5⟩, hzero⟩)

end Served

/-- The step that a single-instruction interrupt is, `zero` being whether its result is 0. -/
def SingleDone (s : State) (k : Nat) (regs : Regs) (bytes : Bytes) (zero : Prop) : Prop :=
  let u : State := { s with watchdog := 0, hazard := none, halts := { s.halts with wait := false } }
  ∃ t, step s = .next (stopIfPending t) ∧ (s.panel.addrStop = false → stopIfPending t = t ∧ t.stopPending = false) ∧
    Effect { u with levels := t.levels, stopPending := t.stopPending } t s.psd.ia (ccBits s.psd) regs bytes ∧
    level t k = { level s k with state := .armed } ∧
    ∀ j < 240, j ≠ k →
      (2 ≤ k ∧ k ≤ 5 ∧ zero ∧ j = k + 6 ∧ levelInstalled s.cfg j = true ∧ (level s j).state = .armed →
        level t j = { level s j with state := .waiting }) ∧
      (¬ (2 ≤ k ∧ k ≤ 5 ∧ zero ∧ j = k + 6 ∧ levelInstalled s.cfg j = true ∧ (level s j).state = .armed) →
        level t j = level s j)

/-- The step is the modification of memory, whatever the fields it does not use. -/
theorem singleDone_of_modify (h : Interrupted s k) (hw : w = coreWord s.mem (BitVec.ofNat 17 (0x50 + k)))
    (hop : opField w = 0x73 ∨ opField w = 0x53 ∨ opField w = 0x33) {zero : Bool} {regs : Regs} {bytes : Bytes}
    (hmodify : ∀ t, SameWords s t → ∃ v, modifyTestActual (opField w) (rField w) (memRefOf w) t = .ok (v, zero) ∧
      Effect t v t.psd.ia (ccBits t.psd) regs bytes) : SingleDone s k regs bytes (zero = true) := by
  obtain ⟨b, hnoted, hoff⟩ := noteReferences_acknowledged h (interruptReferences k w)
  have hk : k < 240 := lt_of_eligible (nextInterrupt_eq_some.1 h.next).1
  obtain ⟨v, hv, heffect⟩ := hmodify { acknowledged k { s with watchdog := 0 } with stopPending := b }
    ⟨⟨rfl, rfl, rfl, rfl, rfl, rfl, rfl⟩, rfl, rfl, rfl⟩
  have hack := acknowledge_modify (s := { s with watchdog := 0 }) hw hop (by rw [hnoted]; exact hv)
  have hcfg : v.cfg = s.cfg := heffect.rest.cfg
  have hpanel : v.panel = s.panel := heffect.rest.panel
  have hpending : v.stopPending = b := (congrArg State.stopPending heffect.rest.2 :)
  have hlevels : v.levels = (acknowledged k { s with watchdog := 0 }).levels := (congrArg State.levels heffect.rest.2 :)
  have hself : level v k = { level s k with state := .active } :=
    (level_congr hlevels k).trans (level_acknowledged_self { s with watchdog := 0 } hk)
  have hother (j : Nat) (hj : j ≠ k) : level v j = level s j :=
    (level_congr hlevels j).trans (level_acknowledged_ne { s with watchdog := 0 } hj)
  refine ⟨served k zero v, step_interrupted h hack, fun hstop => ?_, ?_, ?_, fun j hj hne => ?_⟩
  · rw [served_eq]
    exact stopIfPending_interrupted hpanel (hpending.trans (hoff hstop)) hstop
  · rw [served_eq]
    subst hpending
    exact heffect.frame fun x => { x with levels := (served k zero v).levels }
  · rw [level_served_self zero v hk, hself]
  · rw [level_served_ne zero v hj hne, hother j hne, hcfg]
    exact ⟨fun hsignalled => if_pos hsignalled, fun hnot => if_neg hnot⟩

section Modify

variable {dra : WordAddr} {l : Loc} {r : BitVec 4} {m : MemRef} (hd : directVia ⟨false, false⟩ m s = .ok dra) (h : SameWords s t)
include hd h

theorem modifyTestActual_word {x : Word} (hl : locate ⟨false, false⟩ .write (addrWord dra (indexOf m s)) s = .ok l)
    (hx : x = locWord s l + r.signExtend 32) :
    modifyTestActual 0x33 r m t = .ok (if r = 0 then t else locSetWord t l x, x == 0) := by
  simp only [modifyTestActual, h.directVia hd, ok_bind, h.indexOf, h.locate hl, h.locWord, modifyValue, hx]
  rfl

theorem modifyTestActual_half {x : Half} {a : BitVec 18} (ha : a = addrHalf dra (indexOf m s))
    (hl : locate ⟨false, false⟩ .write (fld a 0 17) s = .ok l) (hx : x = halfOf (locWord s l) (a.getLsbD 0) + r.signExtend 16) :
    modifyTestActual 0x53 r m t = .ok (if r = 0 then t else locSetHalf t l (a.getLsbD 0) x, x == 0) := by
  subst ha
  simp only [modifyTestActual, h.directVia hd, ok_bind, h.indexOf, h.locate hl, h.locWord, modifyValue, hx]
  rfl

theorem modifyTestActual_byte {x : Byte} {a : ByteAddr} (ha : a = addrByte dra (indexOf m s))
    (hl : locate ⟨false, false⟩ .write (fld a 0 17) s = .ok l) (hx : x = byteOf (locWord s l) (fld a 17 2) + r.signExtend 8) :
    modifyTestActual 0x73 r m t = .ok (if r = 0 then t else locSetByte t l (fld a 17 2) x, x == 0) := by
  subst ha
  simp only [modifyTestActual, h.directVia hd, ok_bind, h.indexOf, h.locate hl, h.locWord, modifyValue, hx]
  rfl

end Modify

theorem locRegsHalf_congr (h : SameWords s t) (l : Loc) (k : Bool) (x : Half) : locRegsHalf t l k x = locRegsHalf s l k x := by
  cases l with
  | reg r => simp only [locRegsHalf, h.getReg]
  | core a => rfl

theorem locRegsByte_congr (h : SameWords s t) (l : Loc) (k : BitVec 2) (x : Byte) : locRegsByte t l k x = locRegsByte s l k x := by
  cases l with
  | reg r => simp only [locRegsByte, h.getReg]
  | core a => rfl

/-- An R field of 0 stores nothing. -/
theorem effect_unlessZero {r : BitVec 4} {regs : Regs} {bytes : Bytes} (h : Effect t v t.psd.ia (ccBits t.psd) regs bytes) :
    Effect t (if r = 0 then t else v) t.psd.ia (ccBits t.psd) (if r = 0 then noRegs else regs)
      (if r = 0 then noBytes else bytes) := by
  by_cases hr : r = 0
  · simp only [if_pos hr]
    exact effect_refl t
  · simp only [if_neg hr]
    exact h

/-- Settles O58: MTW, MTH and MTB in the location of the level acknowledged. -/
theorem singleInstructionInterrupt : Obligations.SingleInstructionInterrupt := by
  intro s k dra l hinputs hio hrun hstarted haddr hparity hpending hnext w r d u actual hd done
  have h : Interrupted s k := ⟨hinputs, hio, hrun, hstarted, haddr, hparity, hpending, hnext⟩
  have hzero {n : Nat} (x : BitVec n) : ((x == 0) = true) = (x = 0) := by simp
  refine ⟨fun x hop hl hx => ?_, fun a x hop ha hl hx => ?_, fun a x hop ha hl hx => ?_⟩
  · have hmodify (t : State) (ht : SameWords s t) : ∃ v,
        modifyTestActual (opField w) (rField w) (memRefOf w) t = .ok (v, x == 0) ∧
          Effect t v t.psd.ia (ccBits t.psd) (if r = 0 then noRegs else locRegs l x) (if r = 0 then noBytes else locBytes l x) :=
      ⟨_, (congrArg (fun op => modifyTestActual op _ _ t) hop).trans (modifyTestActual_word hd ht hl hx),
        effect_unlessZero (effect_locSetWord t l x)⟩
    exact hzero x ▸ singleDone_of_modify h rfl (.inr (.inr hop)) hmodify
  · have hmodify (t : State) (ht : SameWords s t) : ∃ v,
        modifyTestActual (opField w) (rField w) (memRefOf w) t = .ok (v, x == 0) ∧
          Effect t v t.psd.ia (ccBits t.psd) (if r = 0 then noRegs else locRegsHalf s l (a.getLsbD 0) x)
            (if r = 0 then noBytes else locBytesHalf l (a.getLsbD 0) x) :=
      ⟨_, (congrArg (fun op => modifyTestActual op _ _ t) hop).trans (modifyTestActual_half hd ht ha hl hx),
        effect_unlessZero (locRegsHalf_congr ht l _ x ▸ effect_locSetHalf t l _ x)⟩
    exact hzero x ▸ singleDone_of_modify h rfl (.inr (.inl hop)) hmodify
  · have hmodify (t : State) (ht : SameWords s t) : ∃ v,
        modifyTestActual (opField w) (rField w) (memRefOf w) t = .ok (v, x == 0) ∧
          Effect t v t.psd.ia (ccBits t.psd) (if r = 0 then noRegs else locRegsByte s l (fld a 17 2) x)
            (if r = 0 then noBytes else locBytesByte l (fld a 17 2) x) :=
      ⟨_, (congrArg (fun op => modifyTestActual op _ _ t) hop).trans (modifyTestActual_byte hd ht ha hl hx),
        effect_unlessZero (locRegsByte_congr ht l _ x ▸ effect_locSetByte t l _ x)⟩
    exact hzero x ▸ singleDone_of_modify h rfl (.inl hop) hmodify

end Sys2Proof.Entry
end

section
/-! No instruction moves a switch of the panel, so that what follows it in a step is as the panel was before it (60_exceptions
R621, R630). The parts of the unprivileged instructions spare the panel with the other protected components. -/

namespace Sys2Proof.Cycle

set_option Elab.async false

open Sys2Proof Machine Safety Control InputOutput

variable {α : Type} {s t u : State} {r : RegNum} {m : MemRef} {i : Instr} {x : Except Stop State}

/-! ### Meanings that keep the panel -/

/-- The meaning ends with the panel of `s`: it spares the protected components of a state that has it. -/
def KeepsPanel (s : State) (x : Except Stop State) : Prop := ∃ u, u.panel = s.panel ∧ Spares u x

/-- A next state, if there is one, has the panel of `s`. -/
def PanelNext (s : State) (x : Host.Outcome State Fault Refusal) : Prop := ∀ t, x = .next t → t.panel = s.panel

theorem panel_of_guarded (h : guarded t = guarded s) : t.panel = s.panel := (congrArg Guarded.panel h :)

theorem panelNext_of_sparesNext {x : Host.Outcome State Fault Refusal} (h : SparesNext s x) : PanelNext s x :=
  fun t ht => panel_of_guarded (h t ht)

theorem panelNext_finish (h : KeepsPanel s x) : PanelNext s (finish x) := by
  obtain ⟨u, hpanel, hx⟩ := h
  exact fun t ht => (panel_of_guarded (sparesNext_finish hx t ht)).trans hpanel

theorem keepsPanel_ok (h : t.panel = s.panel) : KeepsPanel s (.ok t) := ⟨t, h, .ok rfl⟩

theorem keepsPanel_of_spares (h : Spares s x) : KeepsPanel s x := ⟨s, rfl, h⟩

theorem keepsPanel_ite {c : Prop} [Decidable c] {y : Except Stop State} (hx : KeepsPanel s x) (hy : KeepsPanel s y) :
    KeepsPanel s (if c then x else y) := by
  split
  · exact hx
  · exact hy

/-- A meaning that begins with a computation that changes nothing. -/
theorem keepsPanel_bind {x : Except Stop α} {f : α → Except Stop State} (hx : TrapsIn s x) (hf : ∀ a, KeepsPanel s (f a)) :
    KeepsPanel s (x >>= f) := by
  cases hx with
  | ok => exact hf _
  | trap => exact keepsPanel_of_spares (.trap rfl)
  | fault => exact keepsPanel_of_spares .fault
  | refuse => exact keepsPanel_of_spares .refuse

theorem panelNext_spares (h : Spares s x) : PanelNext s (finish x) := panelNext_finish (keepsPanel_of_spares h)

/-- The instructions whose execution is spelt out in parts: they begin with a computation that changes nothing. -/
theorem panelNext_bind {x : Except Stop α} {f : α → Except Stop State} (hx : TrapsIn s x) (hf : ∀ a, KeepsPanel s (f a)) :
    PanelNext s (finish (x >>= f)) :=
  panelNext_finish (keepsPanel_bind hx hf)

/-! ### The control instructions -/

theorem loadPsd_panel {flags : BitVec 4} {ed : Double} : (loadPsd flags ed s).panel = s.panel := by
  obtain ⟨v, hload, -⟩ := loadPsd_spec flags ed s
  rw [hload]

theorem again_panel {more : Bool} : (again more s).panel = s.panel := panel_of_guarded guarded_again

theorem freePair_panel : (freePair r s).panel = s.panel := by
  unfold freePair draw
  rw [setReg_panel, setReg_panel]

theorem freeStorage_panel {c : ControlStorage} : (freeStorage c s).panel = s.panel := by
  cases c <;> simp only [freeStorage]

theorem keepsPanel_moveControlWord {c : ControlStorage} : KeepsPanel s (moveControlWord c r s) :=
  keepsPanel_bind trapsIn_readWord fun _ => keepsPanel_ok <| by
    rw [again_panel, setReg_panel, setReg_panel, loadStorage_panel]

theorem keepsPanel_stepMmc {sel : BitVec 3} : KeepsPanel s (stepMmc r sel s) := by
  refine keepsPanel_bind trapsIn_requireMaster fun _ => ?_
  split
  · exact keepsPanel_of_spares .refuse
  · refine keepsPanel_ite (keepsPanel_ok freePair_panel) ?_
    split
    · exact keepsPanel_ok (freePair_panel.trans freeStorage_panel)
    · exact keepsPanel_ite (keepsPanel_of_spares .refuse) keepsPanel_moveControlWord

theorem spares_noElement : Spares s (noElement s) := .ite .fault (.trap rfl)

theorem readInternal_panel {a : BitVec 16} : (readInternal r a s).panel = s.panel := by
  unfold readInternal
  split_ifs
  · rfl
  · exact setReg_panel s r _
  · rfl
  · exact setReg_panel (draw s).2 r _

theorem panelNext_execRd : PanelNext s (execRd r m s) := by
  refine panelNext_bind trapsIn_requireMaster fun _ => keepsPanel_bind trapsIn_elementAddress fun a => ?_
  refine keepsPanel_ite (keepsPanel_ok readInternal_panel) (keepsPanel_ite (keepsPanel_of_spares spares_noElement) ?_)
  split
  · exact keepsPanel_of_spares spares_noElement
  · exact keepsPanel_of_spares (.ok (by simp))

theorem controlInterrupts_keepsPanel {a : BitVec 16} {data : Word} : KeepsPanel s (controlInterrupts a data s) := by
  refine keepsPanel_ite (keepsPanel_of_spares .refuse) (keepsPanel_ok ?_)
  obtain ⟨v, hv, -⟩ := controlOne_foldl (fld a 5 3) (fld a 12 4) data s 16
  rw [hv]

theorem writeInternal_panel {a : BitVec 16} : (writeInternal a s).panel = s.panel := by
  unfold writeInternal
  split_ifs <;> rfl

theorem panelNext_execWd : PanelNext s (execWd r m s) := by
  refine panelNext_bind trapsIn_requireMaster fun _ => keepsPanel_bind trapsIn_elementAddress fun a => ?_
  refine keepsPanel_ite (keepsPanel_ok writeInternal_panel) (keepsPanel_ite controlInterrupts_keepsPanel ?_)
  split
  · exact keepsPanel_of_spares spares_noElement
  · exact keepsPanel_ok rfl
  · exact keepsPanel_ok rfl

/-! ### The input/output instructions -/

theorem ioAnswer_panel {a : IoResponse} : (ioAnswer r a s).panel = s.panel := (effect_ioAnswer r a s).rest.panel

theorem halted_panel {a : IoResponse} : (halted r a s).panel = s.panel := (effect_halted r a s).rest.panel

theorem acknowledgeSpecial_panel : (acknowledgeSpecial r s).panel = s.panel := by
  obtain ⟨v, b1, b2, heffect⟩ := effectDrawn_acknowledgeSpecial r s
  exact heffect.rest.panel

theorem acknowledgeDevice_panel : (acknowledgeDevice r s).panel = s.panel := by
  cases hrequest : requestingDevice s.io with
  | none => rw [acknowledgeDevice_none hrequest]; rfl
  | some d =>
    rw [acknowledgeDevice_some hrequest]
    exact (effect_acknowledged s r false d.unusual _).rest.panel

/-- An input/output instruction goes on to a state made of its address. -/
theorem panelNext_addressed {f : BitVec 11 → State} (hf : ∀ a, (f a).panel = s.panel) :
    PanelNext s (finish (requireMaster s >>= fun _ => ioAddress m s >>= fun a => .ok (f a))) :=
  panelNext_bind trapsIn_requireMaster fun _ => keepsPanel_bind trapsIn_ioAddress fun a => keepsPanel_ok (hf a)

theorem panelNext_execAio : PanelNext s (execAio r m s) :=
  panelNext_addressed fun a => by
    split
    · exact acknowledgeDevice_panel
    · exact acknowledgeSpecial_panel

/-! ### Every instruction -/

/-- Each instruction, EXU aside: a privileged one ends with the panel as it was, and any other is made of parts that spare the
protected components in master mode as in slave mode. -/
theorem panelNext_execSubject (i : Instr) : PanelNext s (execSubject i s) :=
  match i with
  | .lpsd _ _ => panelNext_bind trapsIn_requireMaster fun _ => keepsPanel_bind trapsIn_operandDouble fun _ =>
      keepsPanel_ok loadPsd_panel
  | .xpsd _ _ => panelNext_bind trapsIn_requireMaster fun _ => keepsPanel_of_spares spares_exchangePsd
  | .lrp _ _ => panelNext_bind trapsIn_requireMaster fun _ => keepsPanel_bind trapsIn_operandWord fun _ => keepsPanel_ok rfl
  | .wait _ _ => panelNext_bind trapsIn_requireMaster fun _ => keepsPanel_bind trapsIn_eaWord fun _ => keepsPanel_ok rfl
  | .mmc _ _ _ _ => panelNext_finish keepsPanel_stepMmc
  | .rd _ _ => panelNext_execRd
  | .wd _ _ => panelNext_execWd
  | .tio _ _ | .tdv _ _ | .sio _ _ => panelNext_addressed fun _ => ioAnswer_panel
  | .hio _ _ => panelNext_addressed fun _ => halted_panel
  | .aio _ _ => panelNext_execAio
  | .exu _ _ => panelNext_finish (x := .ok (backUp s)) (keepsPanel_ok rfl)
  | .cal1 _ _ | .cal2 _ _ | .cal3 _ _ | .cal4 _ _ => panelNext_spares .trap
  | .lcfi _ _ | .ci _ _ | .li _ _ | .mi _ _ => panelNext_spares .ok
  | .ai _ _ => panelNext_spares spares_addToReg
  | .plw _ _ => panelNext_spares <| spares_pushDown fun _ => trapsIn_readWord.thenSpares fun _ => .ok
  | .psw _ _ => panelNext_spares <| spares_pushDown fun _ => spares_writeWord
  | .plm _ _ => panelNext_spares <| spares_pushDown fun _ => spares_pullWords
  | .psm _ _ => panelNext_spares <| spares_pushDown fun _ => spares_storeRegs
  | .msp _ _ => panelNext_spares <| spares_pushDown fun _ => .ok
  | .cd _ _ | .ld _ _ | .clm _ _ => panelNext_spares <|
      trapsIn_operandDouble.thenSpares fun _ => .ok
  | .ad _ _ | .sd _ _ => panelNext_spares <|
      trapsIn_operandDouble.thenSpares fun _ => .ite spares_freeDouble spares_overflowTrap
  | .lcd _ _ | .lad _ _ => panelNext_spares <|
      trapsIn_operandDouble.thenSpares fun _ => spares_overflowTrap
  | .std _ _ => panelNext_spares <| trapsIn_eaDouble.thenSpares fun _ => spares_writeDouble
  | .fsl r _ | .fal r _ | .fdl r _ | .fml r _ => panelNext_of_sparesNext <| sparesNext_floatLong (r := r)
  | .fss _ _ | .fas _ _ | .fds _ _ => panelNext_of_sparesNext <| sparesNext_floatWord fun _ => spares_finishShort
  | .fms _ _ => panelNext_of_sparesNext <| sparesNext_floatWord fun _ => .ite spares_finishShort spares_finishLong
  | .sf _ _ => panelNext_spares <| trapsIn_shiftFields.thenSpares fun _ => .ite .ok .ok
  | .s _ _ => panelNext_of_sparesNext sparesNext_execS
  | .cvs _ _ => panelNext_spares <| trapsIn_eaWord.thenSpares fun _ =>
      trapsIn_convertSub.thenSpares fun _ => .ok
  | .cva _ _ => panelNext_spares <| trapsIn_eaWord.thenSpares fun _ =>
      trapsIn_convertAdd.thenSpares fun _ => .ok
  | .lm _ _ => panelNext_spares <| trapsIn_eaWord.thenSpares fun _ => spares_loadWords
  | .stm _ _ => panelNext_spares <| trapsIn_eaWord.thenSpares fun _ => spares_storeRegs
  | .cw _ _ | .lw _ _ | .mw _ _ | .clr _ _ | .cs _ _ | .eor _ _ | .or _ _ | .ls _ _ | .and _ _ | .int _ _ =>
      panelNext_spares <| trapsIn_operandWord.thenSpares fun _ => .ok
  | .aw _ _ => panelNext_spares <| trapsIn_operandWord.thenSpares fun _ => spares_addToReg
  | .sw _ _ => panelNext_spares <| trapsIn_operandWord.thenSpares fun _ => spares_subFromReg
  | .lcw _ _ | .law _ _ => panelNext_spares <|
      trapsIn_operandWord.thenSpares fun _ => spares_overflowTrap
  | .dw _ _ => panelNext_spares <|
      trapsIn_operandWord.thenSpares fun _ => .ite spares_divideAborted .ok
  | .anlz _ _ => panelNext_spares <| trapsIn_operandWord.thenSpares fun _ => .ite .ok <|
      trapsIn_direct.thenSpares fun _ => .ok
  | .stw _ _ => panelNext_spares <| trapsIn_eaWord.thenSpares fun _ => spares_writeWord
  | .xw _ _ => panelNext_spares <| trapsIn_eaWord.thenSpares fun _ =>
      trapsIn_readWord.thenSpares fun _ => spares_writeWord.bind fun _ => .ok
  | .sts _ _ => panelNext_spares <| trapsIn_eaWord.thenSpares fun _ =>
      trapsIn_readWord.thenSpares fun _ => spares_writeWord
  | .awm _ _ => panelNext_spares <| trapsIn_eaWord.thenSpares fun _ =>
      trapsIn_readWord.thenSpares fun _ => spares_writeWord.bind fun _ => spares_overflowTrap
  | .mtw _ _ => panelNext_spares <| trapsIn_eaWord.thenSpares fun _ =>
      trapsIn_readWord.thenSpares fun _ => .ite .ok <| spares_writeWord.bind fun _ => spares_overflowTrap
  | .mth _ _ => panelNext_spares <| trapsIn_eaHalf.thenSpares fun _ =>
      trapsIn_readHalf.thenSpares fun _ => .ite .ok <| spares_writeHalf.bind fun _ => spares_overflowTrap
  | .mtb _ _ => panelNext_spares <| trapsIn_eaByte.thenSpares fun _ =>
      trapsIn_readByte.thenSpares fun _ => .ite .ok <| spares_writeByte.bind fun _ => .ok
  | .ch _ _ | .lh _ _ | .mh _ _ | .lch _ _ | .lah _ _ => panelNext_spares <|
      trapsIn_operandHalf.thenSpares fun _ => .ok
  | .ah _ _ => panelNext_spares <| trapsIn_operandHalf.thenSpares fun _ => spares_addToReg
  | .sh _ _ => panelNext_spares <| trapsIn_operandHalf.thenSpares fun _ => spares_subFromReg
  | .dh _ _ => panelNext_spares <|
      trapsIn_operandHalf.thenSpares fun _ => .ite spares_divideAborted .ok
  | .sth _ _ => panelNext_spares <| trapsIn_eaHalf.thenSpares fun _ =>
      spares_writeHalf.bind fun _ => .ok
  | .lcf _ _ | .cb _ _ | .lb _ _ => panelNext_spares <|
      trapsIn_operandByte.thenSpares fun _ => .ok
  | .stcf _ _ | .stb _ _ => panelNext_spares <| trapsIn_eaByte.thenSpares fun _ => spares_writeByte
  | .mbs _ _ => panelNext_spares spares_stepMbs
  | .cbs _ _ => panelNext_spares spares_stepCbs
  | .tbs _ _ => panelNext_spares spares_stepTbs
  | .ttbs _ _ => panelNext_spares spares_stepTtbs
  | .ebs _ _ => panelNext_spares spares_stepEbs
  | .bdr _ _ | .bir _ _ | .bcr _ _ | .bcs _ _ => panelNext_spares <|
      trapsIn_eaWord.thenSpares fun _ => trapsIn_branchCheck.thenSpares fun _ => .ok
  | .bal _ _ => panelNext_spares <| trapsIn_eaWord.thenSpares fun _ =>
      .of_guarded <| trapsIn_branchCheck.thenSpares fun _ => .ok
  | .pack _ _ => panelNext_of_sparesNext <| sparesNext_decimal fun _ => trapsIn_eaByte.thenSpares fun _ =>
      trapsIn_readBytes.thenSpares fun _ => .ite spares_decimalIllegal .ok
  | .unpk _ _ | .dst _ _ => panelNext_of_sparesNext <| sparesNext_decimal fun _ => trapsIn_eaByte.thenSpares fun _ =>
      .ite spares_decimalIllegal <| spares_storeOperand.bind fun _ => .ok
  | .ds _ _ | .da _ _ => panelNext_of_sparesNext <| sparesNext_decimal fun _ => trapsIn_decimalOperand.thenSpares fun _ =>
      .ite spares_decimalIllegal spares_decimalSum
  | .dd _ _ => panelNext_of_sparesNext <| sparesNext_decimal fun _ => trapsIn_decimalOperand.thenSpares fun _ =>
      .ite spares_decimalIllegal <| .ite .ok <| .ite spares_decimalOverflow <| .ite .ok .ok
  | .dm _ _ => panelNext_of_sparesNext <| sparesNext_decimal fun _ => trapsIn_decimalOperand.thenSpares fun _ =>
      .ite spares_decimalIllegal <| .ite .ok .ok
  | .dsa _ _ => panelNext_of_sparesNext <| sparesNext_decimal fun _ => trapsIn_eaByte.thenSpares fun _ =>
      .ite spares_decimalIllegal <| .ite .ok .ok
  | .dc _ _ | .dl _ _ => panelNext_of_sparesNext <| sparesNext_decimal fun _ => trapsIn_decimalOperand.thenSpares fun _ =>
      .ite spares_decimalIllegal .ok

/-- EXU changes nothing until it reaches its subject. -/
theorem panelNext_execExu : PanelNext s (execExu r m s) := by
  have hx : TrapsIn s (resolveSubject chainLimit m s) := trapsIn_resolveSubject
  unfold execExu
  generalize resolveSubject chainLimit m s = x at hx
  cases hx with
  | @ok subject =>
    cases subject with
    | none => exact panelNext_finish (x := .ok (backUp s)) (keepsPanel_ok rfl)
    | some w =>
      dsimp only
      split
      · exact panelNext_execSubject _
      · exact panelNext_spares (.trap rfl)
  | trap => exact panelNext_spares (.trap rfl)
  | fault => exact panelNext_spares .fault
  | refuse => exact panelNext_spares .refuse

theorem panelNext_exec (i : Instr) (s : State) : PanelNext s (exec i s) := by
  by_cases hi : ∃ r m, i = .exu r m
  · obtain ⟨r, m, rfl⟩ := hi
    exact panelNext_execExu (r := r)
  · rw [exec_eq_execSubject fun r m hrm => hi ⟨r, m, hrm⟩]
    exact panelNext_execSubject i

/-! ### A step -/

/-- After an instruction with COMPUTE at RUN the switches are as the instruction left them. -/
theorem afterInstruction_panel {w : Word} (before : State) (h : t.panel.compute = .run) :
    (afterInstruction w before t).panel = t.panel := by
  unfold afterInstruction
  dsimp only
  rw [h]
  rfl

/-- With ADDR STOP off, what follows an instruction is no halt. -/
theorem settle_exec {w : Word} (before : State) (hrun : u.panel.compute = .run) (hstop : u.panel.addrStop = false) :
    settle (onNext (afterInstruction w before) (exec i u)) = onNext (afterInstruction w before) (exec i u) := by
  cases hexec : exec i u with
  | next t =>
    have hpanel : t.panel = u.panel := panelNext_exec i u t hexec
    refine settle_next_off ?_
    rw [afterInstruction_panel before (by rw [hpanel, hrun]), hpanel, hstop]
  | fault f => rfl
  | refused f => rfl

theorem advance_panel : (advance s).panel = s.panel := by
  unfold advance
  split <;> rfl

/-- The fetched word, when it decodes, is executed as its instruction. -/
theorem executeWord_of_decoded {w : Word} (before fetched : State) (hrun : fetched.panel.compute = .run)
    (hstop : fetched.panel.addrStop = false) (hw : decodeWord w = .ok i) :
    executeWord w before fetched = onNext (afterInstruction w before) (exec i (advance (lookAhead w fetched))) := by
  have hpanel : (advance (lookAhead w fetched)).panel = fetched.panel := advance_panel
  have hword : execWord w (advance (lookAhead w fetched)) = exec i (advance (lookAhead w fetched)) := by
    rw [execWord, hw]
  rw [executeWord_off (by rw [hpanel, hstop]), hword, settle_exec before (by rw [hpanel, hrun]) (by rw [hpanel, hstop])]

/-- With nothing to halt for and no level to acknowledge, the CPU executes the next instruction. -/
theorem cpuStep_executes (hrun : s.panel.compute = .run) (hhalts : s.halts = ⟨false, false, false⟩)
    (hnone : nextInterrupt s = none) (hstop : s.panel.addrStop = false) : cpuStep s = executeNext { s with watchdog := 0 } := by
  have hwait : s.halts.wait = false := congrArg Halts.wait hhalts
  have haddrHalt : s.halts.addrStop = false := congrArg Halts.addrStop hhalts
  have hparity : s.halts.parity = false := congrArg Halts.parity hhalts
  have hnow : interruptNow { s with watchdog := 0 } = none := interruptNow_of_none hnone
  have haddr : atSelectedAddress { s with watchdog := 0 } = false := by simp [atSelectedAddress, Panel.stops, hstop]
  simp only [cpuStep, hrun, hwait, haddrHalt, hparity, hnow, haddr]
  rfl

theorem fetch_started (h : s.started = true) : fetch s = .ok (s.ir, s) := if_pos h

theorem fetch_read {w : Word} (hstarted : s.started = false) (hhazard : s.hazard = none) (hw : readInstr s s.psd.ia = .ok w) :
    fetch s = .ok (w, { s with ir := w }) := by
  simp [fetch, hstarted, hazardous, hhazard, hw]

/-- Settles O4: the step is the execution of the word fetched, which moves no switch of the panel. -/
theorem stepRunsInstruction : Obligations.StepRunsInstruction := by
  intro s w i hinputs hio hrun hhalts hnone hstop hw
  have hstep : step s = executeNext { s with watchdog := 0 } :=
    (step_eq_cpuStep hinputs hio).trans (cpuStep_executes hrun hhalts hnone hstop)
  refine ⟨fun hstarted hhazard hread => ?_, fun hstarted hir => ?_⟩
  · have hsame : Entry.SameWords s { s with watchdog := 0 } := ⟨⟨rfl, rfl, rfl, rfl, rfl, rfl, rfl⟩, rfl, rfl, rfl⟩
    have hfetch := fetch_read (s := { s with watchdog := 0 }) hstarted hhazard (hsame.readVia hread)
    rw [hstep, executeNext, hfetch]
    exact executeWord_of_decoded { s with watchdog := 0 } { s with watchdog := 0, ir := w } hrun hstop hw
  · subst hir
    have hfetch := fetch_started (s := { s with watchdog := 0 }) hstarted
    rw [hstep, executeNext, hfetch]
    exact executeWord_of_decoded { s with watchdog := 0 } { s with watchdog := 0 } hrun hstop hw

end Sys2Proof.Cycle
end
